-- ==== Sys2Proof/Word.lean ====
section
/-! DEFINITION. The word types of the block: bytes of packet memory, 16-bit descriptor halves, 32-bit registers,
64-bit command words (10_state.md R31, R33; 30_encoding.md R111). -/

namespace Sys2Proof

/-- A byte of packet memory (10_state.md R31). -/
abbrev Byte := BitVec 8

/-- A half-word: a max-length code or a descriptor field (30_encoding.md R123). -/
abbrev Half16 := BitVec 16

/-- A channel-control or interrupt-status register value (10_state.md R33, R45). -/
abbrev Word32 := BitVec 32

/-- A command word (30_encoding.md R111). -/
abbrev Word64 := BitVec 64

/-- A channel index `0..7` (00_scope.md R7, `NCH = 8`). -/
abbrev Chan := Fin 8

end Sys2Proof
end

