-- ==== Sys2Proof/Syntax.lean ====
section
/-! DEFINITION. The commands of the block as syntax: one constructor of `Instr` per row of spec/opcode_table.json
(30_encoding.md R127), their operand types, and the pseudo-instructions of 30_encoding.md R130. -/

namespace Sys2Proof

/-- A direction (00_scope.md R19): `dirIn` is device-to-host, `dirOut` host-to-device. -/
inductive Dir where
  | dirOut
  | dirIn
deriving DecidableEq, Repr

/-- A half of a channel (00_scope.md R19): `rx` receives, `tx` transmits. -/
inductive Half where
  | rx
  | tx
deriving DecidableEq, Repr

/-- The status of a channel half (00_scope.md R20). -/
inductive Status where
  | disabled
  | stall
  | nak
  | valid
deriving DecidableEq, Repr

/-- An endpoint transfer type (10_state.md R50, 30_encoding.md R120). -/
inductive EType where
  | control
  | isochronous
  | bulk
  | interrupt
deriving DecidableEq, Repr

/-- A bus state to wait for (10_state.md R63). -/
inductive BusState where
  | disconnected
  | connected
deriving DecidableEq, Repr

/-- A set of channel halves, the flag-set operand of 30_encoding.md R112. -/
structure FlagSet where
  rx : Bool
  tx : Bool
deriving DecidableEq, Repr

/-- A region of packet memory (10_state.md R40). -/
structure Region where
  off : Nat
  len : Nat
deriving DecidableEq, Repr

/-- The 24 operations (00_scope.md R24). The side operands `DATA`, `TIMEOUT` and the task id (30_encoding.md
R113) travel beside the word and stand in the machine's state. -/
inductive Instr where
  /-- `PM.ALLOC` (41_allocator.md R150). -/
  | pmAlloc (length : Nat)
  /-- `PM.RESET` (41_allocator.md R151). -/
  | pmReset
  /-- `BD.ENC` (42_descriptor.md R160). -/
  | bdEnc (len : Nat)
  /-- `BD.DEC` (42_descriptor.md R161). -/
  | bdDec (code : Half16)
  /-- `BD.PROGRX` (42_descriptor.md R162). -/
  | bdProgrx (ch : Chan) (mps : Nat) (region : Region)
  /-- `BD.PROGTX` (42_descriptor.md R163). -/
  | bdProgtx (ch : Chan) (count : Nat) (region : Region)
  /-- `BD.RXLEN` (42_descriptor.md R164). -/
  | bdRxlen (ch : Chan)
  /-- `PM.WRITE` (43_codec.md R180); the bytes are the side operand `DATA`. -/
  | pmWrite (region : Region)
  /-- `PM.READ` (43_codec.md R181). -/
  | pmRead (n : Nat) (region : Region)
  /-- `CR.READ` (44_channel_register.md R195). -/
  | crRead (ch : Chan)
  /-- `CR.CANON` (44_channel_register.md R191). -/
  | crCanon (value : Word32)
  /-- `CR.SETSTAT` (44_channel_register.md R192); `dirIn` names the receive half. -/
  | crSetstat (ch : Chan) (dir : Dir) (target : Status)
  /-- `CR.CLRCTR` (44_channel_register.md R193). -/
  | crClrctr (ch : Chan) (flags : FlagSet)
  /-- `CR.CLRERR` (44_channel_register.md R194). -/
  | crClrerr (ch : Chan) (flags : FlagSet)
  /-- `CR.INIT` (44_channel_register.md R196). -/
  | crInit (ch : Chan) (etype : EType) (devaddr : Nat)
  /-- `CR.TOUCH` (44_channel_register.md R197). -/
  | crTouch (ch : Chan)
  /-- `IRQ.DISPATCH` (45_dispatcher.md R211). -/
  | irqDispatch
  /-- `EP.READ` (46_engine.md R230), buffer length `n`. -/
  | epRead (ch : Chan) (n : Nat)
  /-- `EP.WRITE` (46_engine.md R231); the bytes are the side operand `DATA`. -/
  | epWrite (ch : Chan)
  /-- `EP.POLL` (46_engine.md R233). -/
  | epPoll
  /-- `BUS.WAIT` (46_engine.md R232). -/
  | busWait (target : BusState)
  /-- `CH.CLAIM` (47_lifecycle.md R260). -/
  | chClaim (ch : Chan) (dir : Dir) (etype : EType) (devaddr : Nat) (mps : Nat)
  /-- `CH.RECONF0` (47_lifecycle.md R262). -/
  | chReconf0 (devaddr : Nat) (mps : Nat)
  /-- `CH.DROP` (47_lifecycle.md R263). -/
  | chDrop (ch : Chan) (dir : Dir)
deriving DecidableEq, Repr

/-- The pseudo-instructions (30_encoding.md R130). `allocIn` and `allocOut` carry an endpoint address byte. -/
inductive Pseudo where
  /-- `cr.arm ch=c, in|out`. -/
  | arm (ch : Chan) (dir : Dir)
  /-- `cr.disable ch=c, in|out`. -/
  | disable (ch : Chan) (dir : Dir)
  /-- `ch.alloc_in desc=<addr>,<mps>,<type> dev=d`. -/
  | allocIn (addr : Byte) (mps : Fin 2048) (etype : EType) (devaddr : Fin 128)
  /-- `ch.alloc_out desc=<addr>,<mps>,<type> dev=d`. -/
  | allocOut (addr : Byte) (mps : Fin 2048) (etype : EType) (devaddr : Fin 128)
  /-- `bus.wait_connect`. -/
  | waitConnect
  /-- `bus.wait_disconnect`. -/
  | waitDisconnect
deriving DecidableEq, Repr

end Sys2Proof
end

