-- ==== Sys2Proof/Machine/Operands.lean ====
section
/-! DEFINITION. The operand forms of the command word (30_encoding.md R112, R119, R120): what number stands for
each operand in its field, and which operand a field's number stands for. -/

namespace Sys2Proof.Machine

/-- The command bit of a direction: `1` = In (00_scope.md R19). -/
def dirCode : Dir → Nat
  | .dirOut => 0
  | .dirIn => 1

def dirOf (n : Nat) : Dir := if n = 1 then .dirIn else .dirOut

/-- `dirHalf` (00_scope.md R19). -/
def dirHalf : Dir → Half
  | .dirIn => .rx
  | .dirOut => .tx

/-- The direction whose half this is, the inverse of `dirHalf`. -/
def halfDir : Half → Dir
  | .rx => .dirIn
  | .tx => .dirOut

/-- The 2-bit status codes (30_encoding.md R119). -/
def statusCode : Status → Nat
  | .disabled => 0
  | .stall => 1
  | .nak => 2
  | .valid => 3

/-- The status a 2-bit code stands for (30_encoding.md R119). -/
def statusOf (n : Nat) : Status :=
  match n with
  | 0 => .disabled
  | 1 => .stall
  | 2 => .nak
  | _ => .valid

/-- The command field `ETYPE` (30_encoding.md R120, the USB descriptor order). -/
def etypeCode : EType → Nat
  | .control => 0
  | .isochronous => 1
  | .bulk => 2
  | .interrupt => 3

def etypeOf (n : Nat) : EType :=
  match n with
  | 0 => .control
  | 1 => .isochronous
  | 2 => .bulk
  | _ => .interrupt

/-- `regType` (30_encoding.md R120): the register code `EP_TYPE` of an endpoint type. -/
def regType : EType → Nat
  | .bulk => 0
  | .control => 1
  | .isochronous => 2
  | .interrupt => 3

/-- A bus target in `ARG[0]` (30_encoding.md R112). -/
def busCode : BusState → Nat
  | .disconnected => 0
  | .connected => 1

def busOf (n : Nat) : BusState := if n = 1 then .connected else .disconnected

/-- A flag set in `ARG[1:0]`: bit 0 the receive half, bit 1 the transmit half (30_encoding.md R112). -/
def flagsCode (f : FlagSet) : Nat := f.rx.toNat + 2 * f.tx.toNat

def flagsOf (n : Nat) : FlagSet := ⟨decide (n % 2 = 1), decide (n / 2 % 2 = 1)⟩

/-- Whether a half is in a flag set. -/
def flagHas (f : FlagSet) : Half → Bool
  | .rx => f.rx
  | .tx => f.tx

/-- A region in `ARG`: the offset in `ARG[31:16]`, the length in `ARG[15:0]` (30_encoding.md R112). -/
def regionCode (r : Region) : Nat := r.off * 65536 + r.len

def regionOf (arg : Nat) : Region := ⟨arg / 65536 % 65536, arg % 65536⟩

/-- A channel index from its 3-bit field. -/
def chanOf (n : Nat) : Chan := ⟨n % 8, Nat.mod_lt n (by decide)⟩

end Sys2Proof.Machine
end

