-- ==== Sys2Proof/WellFormed.lean ====
section
/-! DEFINITION. When an instruction's operands fit the fields of the command word (30_encoding.md R111, R112). -/

namespace Sys2Proof

/-- A region operand fits `ARG[31:16]` and `ARG[15:0]` (30_encoding.md R112, R126). -/
def Region.wf (r : Region) : Bool :=
  decide (r.off < 65536) && decide (r.len < 65536)

/-- Every operand fits its field: a length `LEN` is below 2048, a device address below 128, a 16-bit length
below 65536, a buffer length below `2^32` (30_encoding.md R111, R112). -/
def Instr.wf : Instr → Bool
  | .pmAlloc length => decide (length < 65536)
  | .pmReset => true
  | .bdEnc len => decide (len < 2048)
  | .bdDec _ => true
  | .bdProgrx _ mps region => decide (mps < 2048) && region.wf
  | .bdProgtx _ count region => decide (count < 2048) && region.wf
  | .bdRxlen _ => true
  | .pmWrite region => region.wf
  | .pmRead n region => decide (n < 2048) && region.wf
  | .crRead _ => true
  | .crCanon _ => true
  | .crSetstat _ _ _ => true
  | .crClrctr _ _ => true
  | .crClrerr _ _ => true
  | .crInit _ _ devaddr => decide (devaddr < 128)
  | .crTouch _ => true
  | .irqDispatch => true
  | .epRead _ n => decide (n < 4294967296)
  | .epWrite _ => true
  | .epPoll => true
  | .busWait _ => true
  | .chClaim _ _ _ devaddr mps => decide (devaddr < 128) && decide (mps < 2048)
  | .chReconf0 devaddr mps => decide (devaddr < 128) && decide (mps < 2048)
  | .chDrop _ _ => true

end Sys2Proof
end

