-- ==== Sys2Proof/Decode.lean ====
section
/-! DEFINITION. The command word (30_encoding.md R110–R115, R127): its fields, a total decoder that rejects by name,
the encoder written from the same table, and the table's rows themselves. -/

namespace Sys2Proof

open Sys2Proof.Machine

/-- The fields of a command word, each as a number (30_encoding.md R111). -/
structure Fields where
  op : Nat
  ch : Nat
  dir : Nat
  etype : Nat
  devaddr : Nat
  len : Nat
  arg : Nat
deriving DecidableEq, Repr

/-- Why a word is `Invalid(w)` (30_encoding.md R114). -/
inductive DecodeError where
  /-- An `OP` value no row has (R115). -/
  | unassignedOp (op : Nat)
  /-- A non-zero bit in a field the opcode does not use. -/
  | unusedField (op : Nat)
  /-- `EP.READ` with `DIR = 0` or `EP.WRITE` with `DIR = 1`. -/
  | wrongDir (op : Nat)
deriving DecidableEq, Repr

/-- Operand assembly (30_encoding.md R112): the fields of a word, zero-extended. -/
def fieldsOf (w : Word64) : Fields where
  op := w.toNat / 2 ^ 56 % 256
  ch := w.toNat / 2 ^ 53 % 8
  dir := w.toNat / 2 ^ 52 % 2
  etype := w.toNat / 2 ^ 50 % 4
  devaddr := w.toNat / 2 ^ 43 % 128
  len := w.toNat / 2 ^ 32 % 2048
  arg := w.toNat % 2 ^ 32

/-- The word with these fields (30_encoding.md R111). -/
def wordOfFields (f : Fields) : Word64 :=
  BitVec.ofNat 64 (f.op * 2 ^ 56 + f.ch * 2 ^ 53 + f.dir * 2 ^ 52 + f.etype * 2 ^ 50 + f.devaddr * 2 ^ 43 +
    f.len * 2 ^ 32 + f.arg)

/-- Accept an instruction when the fields its opcode does not use are zero (30_encoding.md R114). -/
def acceptWhen (unusedZero : Bool) (op : Nat) (i : Instr) : Except DecodeError Instr :=
  if unusedZero then .ok i else .error (.unusedField op)

/-- The decoder on the fields (30_encoding.md R114, R127), one line per row of the opcode map. -/
def decodeFields (f : Fields) : Except DecodeError Instr :=
  let noCh := f.ch == 0
  let noDir := f.dir == 0
  let noType := f.etype == 0
  let noDev := f.devaddr == 0
  let noLen := f.len == 0
  let noArg := f.arg == 0
  let onlyArg := noCh && noDir && noType && noDev && noLen
  let onlyCh := noDir && noType && noDev && noLen && noArg
  match f.op with
  | 0x01 => acceptWhen (onlyArg && decide (f.arg < 65536)) f.op (.pmAlloc f.arg)
  | 0x02 => acceptWhen (onlyArg && noArg) f.op .pmReset
  | 0x10 => acceptWhen (noCh && noDir && noType && noDev && noArg) f.op (.bdEnc f.len)
  | 0x11 => acceptWhen (onlyArg && decide (f.arg < 65536)) f.op (.bdDec (BitVec.ofNat 16 f.arg))
  | 0x12 => acceptWhen (noDir && noType && noDev) f.op (.bdProgrx (chanOf f.ch) f.len (regionOf f.arg))
  | 0x13 => acceptWhen (noDir && noType && noDev) f.op (.bdProgtx (chanOf f.ch) f.len (regionOf f.arg))
  | 0x14 => acceptWhen onlyCh f.op (.bdRxlen (chanOf f.ch))
  | 0x20 => acceptWhen onlyArg f.op (.pmWrite (regionOf f.arg))
  | 0x21 => acceptWhen (noCh && noDir && noType && noDev) f.op (.pmRead f.len (regionOf f.arg))
  | 0x30 => acceptWhen onlyCh f.op (.crRead (chanOf f.ch))
  | 0x31 => acceptWhen onlyArg f.op (.crCanon (BitVec.ofNat 32 f.arg))
  | 0x32 => acceptWhen (noType && noDev && noLen && decide (f.arg < 4)) f.op
      (.crSetstat (chanOf f.ch) (dirOf f.dir) (statusOf f.arg))
  | 0x33 => acceptWhen (noDir && noType && noDev && noLen && decide (f.arg < 4)) f.op
      (.crClrctr (chanOf f.ch) (flagsOf f.arg))
  | 0x34 => acceptWhen (noDir && noType && noDev && noLen && decide (f.arg < 4)) f.op
      (.crClrerr (chanOf f.ch) (flagsOf f.arg))
  | 0x35 => acceptWhen (noDir && noLen && noArg) f.op (.crInit (chanOf f.ch) (etypeOf f.etype) f.devaddr)
  | 0x36 => acceptWhen onlyCh f.op (.crTouch (chanOf f.ch))
  | 0x40 => acceptWhen (onlyArg && noArg) f.op .irqDispatch
  | 0x50 => if f.dir = 1 then acceptWhen (noType && noDev && noLen) f.op (.epRead (chanOf f.ch) f.arg)
      else .error (.wrongDir f.op)
  | 0x51 => if f.dir = 0 then acceptWhen (noType && noDev && noLen && noArg) f.op (.epWrite (chanOf f.ch))
      else .error (.wrongDir f.op)
  | 0x52 => acceptWhen (onlyArg && noArg) f.op .epPoll
  | 0x53 => acceptWhen (onlyArg && decide (f.arg < 2)) f.op (.busWait (busOf f.arg))
  | 0x60 => acceptWhen noArg f.op (.chClaim (chanOf f.ch) (dirOf f.dir) (etypeOf f.etype) f.devaddr f.len)
  | 0x61 => acceptWhen (noCh && noDir && noType && noArg) f.op (.chReconf0 f.devaddr f.len)
  | 0x62 => acceptWhen (noType && noDev && noLen && noArg) f.op (.chDrop (chanOf f.ch) (dirOf f.dir))
  | op => .error (.unassignedOp op)

/-- The decoder (30_encoding.md R114): total on every word. -/
def decode (w : Word64) : Except DecodeError Instr := decodeFields (fieldsOf w)

/-- The fields of an instruction (30_encoding.md R127); a field the opcode does not use is zero. -/
def encodeFields : Instr → Fields
  | .pmAlloc length => ⟨0x01, 0, 0, 0, 0, 0, length⟩
  | .pmReset => ⟨0x02, 0, 0, 0, 0, 0, 0⟩
  | .bdEnc len => ⟨0x10, 0, 0, 0, 0, len, 0⟩
  | .bdDec code => ⟨0x11, 0, 0, 0, 0, 0, code.toNat⟩
  | .bdProgrx ch mps region => ⟨0x12, ch.val, 0, 0, 0, mps, regionCode region⟩
  | .bdProgtx ch count region => ⟨0x13, ch.val, 0, 0, 0, count, regionCode region⟩
  | .bdRxlen ch => ⟨0x14, ch.val, 0, 0, 0, 0, 0⟩
  | .pmWrite region => ⟨0x20, 0, 0, 0, 0, 0, regionCode region⟩
  | .pmRead n region => ⟨0x21, 0, 0, 0, 0, n, regionCode region⟩
  | .crRead ch => ⟨0x30, ch.val, 0, 0, 0, 0, 0⟩
  | .crCanon value => ⟨0x31, 0, 0, 0, 0, 0, value.toNat⟩
  | .crSetstat ch dir target => ⟨0x32, ch.val, dirCode dir, 0, 0, 0, statusCode target⟩
  | .crClrctr ch flags => ⟨0x33, ch.val, 0, 0, 0, 0, flagsCode flags⟩
  | .crClrerr ch flags => ⟨0x34, ch.val, 0, 0, 0, 0, flagsCode flags⟩
  | .crInit ch etype devaddr => ⟨0x35, ch.val, 0, etypeCode etype, devaddr, 0, 0⟩
  | .crTouch ch => ⟨0x36, ch.val, 0, 0, 0, 0, 0⟩
  | .irqDispatch => ⟨0x40, 0, 0, 0, 0, 0, 0⟩
  | .epRead ch n => ⟨0x50, ch.val, 1, 0, 0, 0, n⟩
  | .epWrite ch => ⟨0x51, ch.val, 0, 0, 0, 0, 0⟩
  | .epPoll => ⟨0x52, 0, 0, 0, 0, 0, 0⟩
  | .busWait target => ⟨0x53, 0, 0, 0, 0, 0, busCode target⟩
  | .chClaim ch dir etype devaddr mps => ⟨0x60, ch.val, dirCode dir, etypeCode etype, devaddr, mps, 0⟩
  | .chReconf0 devaddr mps => ⟨0x61, 0, 0, 0, devaddr, mps, 0⟩
  | .chDrop ch dir => ⟨0x62, ch.val, dirCode dir, 0, 0, 0, 0⟩

/-- The encoder: the command word of an instruction (30_encoding.md R111, R127). -/
def encode (i : Instr) : Word64 := wordOfFields (encodeFields i)

/-- The mnemonic of an instruction, as spec/opcode_table.json spells it. -/
def mnemonicOf : Instr → String
  | .pmAlloc _ => "PM.ALLOC"
  | .pmReset => "PM.RESET"
  | .bdEnc _ => "BD.ENC"
  | .bdDec _ => "BD.DEC"
  | .bdProgrx _ _ _ => "BD.PROGRX"
  | .bdProgtx _ _ _ => "BD.PROGTX"
  | .bdRxlen _ => "BD.RXLEN"
  | .pmWrite _ => "PM.WRITE"
  | .pmRead _ _ => "PM.READ"
  | .crRead _ => "CR.READ"
  | .crCanon _ => "CR.CANON"
  | .crSetstat _ _ _ => "CR.SETSTAT"
  | .crClrctr _ _ => "CR.CLRCTR"
  | .crClrerr _ _ => "CR.CLRERR"
  | .crInit _ _ _ => "CR.INIT"
  | .crTouch _ => "CR.TOUCH"
  | .irqDispatch => "IRQ.DISPATCH"
  | .epRead _ _ => "EP.READ"
  | .epWrite _ => "EP.WRITE"
  | .epPoll => "EP.POLL"
  | .busWait _ => "BUS.WAIT"
  | .chClaim _ _ _ _ _ => "CH.CLAIM"
  | .chReconf0 _ _ => "CH.RECONF0"
  | .chDrop _ _ => "CH.DROP"

/-- A row of the opcode map (30_encoding.md R127). -/
structure OpcodeRow where
  mnemonic : String
  matchBits : Word64
  mask : Word64
deriving DecidableEq, Repr

/-- The opcode map (30_encoding.md R127), row by row as the rule gives it. -/
def opcodeTable : List OpcodeRow := [
  ⟨"PM.ALLOC", 0x0100000000000000, 0xFFFFFFFFFFFF0000⟩,
  ⟨"PM.RESET", 0x0200000000000000, 0xFFFFFFFFFFFFFFFF⟩,
  ⟨"BD.ENC", 0x1000000000000000, 0xFFFFF800FFFFFFFF⟩,
  ⟨"BD.DEC", 0x1100000000000000, 0xFFFFFFFFFFFF0000⟩,
  ⟨"BD.PROGRX", 0x1200000000000000, 0xFF1FF80000000000⟩,
  ⟨"BD.PROGTX", 0x1300000000000000, 0xFF1FF80000000000⟩,
  ⟨"BD.RXLEN", 0x1400000000000000, 0xFF1FFFFFFFFFFFFF⟩,
  ⟨"PM.WRITE", 0x2000000000000000, 0xFFFFFFFF00000000⟩,
  ⟨"PM.READ", 0x2100000000000000, 0xFFFFF80000000000⟩,
  ⟨"CR.READ", 0x3000000000000000, 0xFF1FFFFFFFFFFFFF⟩,
  ⟨"CR.CANON", 0x3100000000000000, 0xFFFFFFFF00000000⟩,
  ⟨"CR.SETSTAT", 0x3200000000000000, 0xFF0FFFFFFFFFFFFC⟩] ++ [
  ⟨"CR.CLRCTR", 0x3300000000000000, 0xFF1FFFFFFFFFFFFC⟩,
  ⟨"CR.CLRERR", 0x3400000000000000, 0xFF1FFFFFFFFFFFFC⟩,
  ⟨"CR.INIT", 0x3500000000000000, 0xFF1007FFFFFFFFFF⟩,
  ⟨"CR.TOUCH", 0x3600000000000000, 0xFF1FFFFFFFFFFFFF⟩,
  ⟨"IRQ.DISPATCH", 0x4000000000000000, 0xFFFFFFFFFFFFFFFF⟩,
  ⟨"EP.READ", 0x5010000000000000, 0xFF1FFFFF00000000⟩,
  ⟨"EP.WRITE", 0x5100000000000000, 0xFF1FFFFFFFFFFFFF⟩,
  ⟨"EP.POLL", 0x5200000000000000, 0xFFFFFFFFFFFFFFFF⟩,
  ⟨"BUS.WAIT", 0x5300000000000000, 0xFFFFFFFFFFFFFFFE⟩,
  ⟨"CH.CLAIM", 0x6000000000000000, 0xFF000000FFFFFFFF⟩,
  ⟨"CH.RECONF0", 0x6100000000000000, 0xFFFC0000FFFFFFFF⟩,
  ⟨"CH.DROP", 0x6200000000000000, 0xFF0FFFFFFFFFFFFF⟩]

/-- Two rows never match one word: some bit both masks fix differs (30_encoding.md R114). -/
def rowsDisjoint (a b : OpcodeRow) : Bool :=
  (a.matchBits &&& a.mask &&& b.mask) != (b.matchBits &&& a.mask &&& b.mask)

/-- The instruction read from an instruction whose bits are `w`, numbered as spec/opcode_table.json numbers
them; bits above `nbits` are 0. The command word is one 64-bit number (30_encoding.md R111), so its bits are
the table's bits. -/
def decodeTableWord (nbits w : Nat) : Option Instr :=
  match decode (BitVec.ofNat 64 (w % 2 ^ nbits)) with
  | .ok i => some i
  | .error _ => none

end Sys2Proof
end

