-- ==== Sys2Proof/Config.lean ====
section
/-! DEFINITION. What an implementation of the block fixes (00_scope.md R9–R13, 93_implementation_defined.md I1–I9),
as a record that `State` carries unchanged, and the free values: opaque constants that nothing can evaluate. -/

namespace Sys2Proof

/-- The packet-memory access granularity, 2 or 4 bytes (00_scope.md R9). -/
inductive Gran where
  | two
  | four
deriving DecidableEq, Repr

/-- The polarity of a clearable flag: write-0-to-clear or write-1-to-clear (30_encoding.md R118, R122). -/
inductive Polarity where
  | w0c
  | w1c
deriving DecidableEq, Repr

/-- The rounding of the small form of the length code: to 2 or to `GRAN` (42_descriptor.md R160). -/
inductive SmallAlign where
  | two
  | gran
deriving DecidableEq, Repr

/-- A field of a 32-bit register: `width` bits from bit `lo` up. -/
structure Field where
  lo : Nat
  width : Nat
deriving DecidableEq, Repr

/-- `CHEP_LAYOUT` (30_encoding.md R116): the lowest bit of each field of a channel-control register.
The widths are the rule's; every remaining bit is `OTHER`. -/
structure ChepLayout where
  ea : Nat
  statTx : Nat
  dtogTx : Nat
  ctrTx : Nat
  epType : Nat
  statRx : Nat
  dtogRx : Nat
  ctrRx : Nat
  devaddr : Nat
  errTx : Nat
  errRx : Nat
deriving DecidableEq, Repr

/-- `ISTR_LAYOUT` (30_encoding.md R121): the lowest bit of `IDN`, the bit of each named condition, the mask of
the clearable bits (`ISTR_C_MASK`) and the mask of the read-only bits no rule names (`OTHER_RO`). -/
structure IstrLayout where
  idn : Nat
  dir : Nat
  dcon : Nat
  err : Nat
  pmaovr : Nat
  ctr : Nat
  dconStat : Nat
  clearable : Word32
  otherRo : Word32
deriving DecidableEq, Repr

/-- The parameters of one instance of the block (00_scope.md R9–R13). `State` holds them and no step changes
them, so a claim about every state is a claim about every instance. -/
structure Params where
  gran : Gran
  pmaBytes : Nat
  chepPolarity : Polarity
  istrPolarity : Polarity
  smallAlign : SmallAlign
  chep : ChepLayout
  istr : IstrLayout
deriving DecidableEq, Repr

/-- `REG_BASE` (60_exceptions.md R329): left open, and no rule uses its value. -/
opaque Config.regBase : Nat

/-- `TICK_NS`, the duration of a clock tick (60_exceptions.md R326): left open, and no rule uses its value. -/
opaque Config.tickNs : Nat

/-- Free value: the byte of packet memory at an offset before anything has written it (70_reset_and_hazards.md
R341, "every byte of packet memory ... is a draw"). -/
opaque Config.pmaAtReset : Nat → Byte

/-- Free value: which member of the admitted set `ISTR.IDN` names at a read (10_state.md R46), drawn afresh at
every read by applying it to the draw counter. -/
opaque Config.idnDraw : Nat → Nat

/-- Free value: `ISTR.DIR` at a read. 10_state.md R45 names the bit and no rule gives its value. -/
opaque Config.dirDraw : Nat → Bool

/-- Free value: whether the in-use bit stays set when a claim's allocation fails (47_lifecycle.md R260,
`choose b ∈ {0, 1}`). -/
opaque Config.inUseDraw : Nat → Bool

end Sys2Proof
end

