-- ==== Sys2Proof/Machine/Params.lean ====
section
/-! DEFINITION. The constants and the parameters of the block (00_scope.md R7–R13), the fields of its registers at a
layout (30_encoding.md R116, R117, R121), and when a choice of parameters is admitted. -/

namespace Sys2Proof.Machine

/-- `MAX_DESC_LEN` (00_scope.md R8). -/
def maxDescLen : Nat := 1024

/-- `DESC_TABLE_BYTES` (00_scope.md R11). -/
def descTableBytes : Nat := 64

/-- `RX_COUNT_BITS` (00_scope.md R12). -/
def rxCountBits : Nat := 10

/-- `TX_COUNT_MAX` (00_scope.md R12). -/
def txCountMax : Nat := 1023

/-- `GRAN` in bytes (00_scope.md R9). -/
def granBytes : Gran → Nat
  | .two => 2
  | .four => 4

/-- `MLC_SMALL_ALIGN` in bytes (42_descriptor.md R160). -/
def smallAlignBytes (p : Params) : Nat :=
  match p.smallAlign with
  | .two => 2
  | .gran => granBytes p.gran

/-- `ceil_div` (00_scope.md R14). -/
def ceilDiv (a b : Nat) : Nat := (a + b - 1) / b

/-- `roundup` (00_scope.md R14). -/
def roundup (a b : Nat) : Nat := ceilDiv a b * b

/-- The bits of a field, all of them ones, in place. -/
def fieldMask (f : Field) : Word32 := ((BitVec.allOnes f.width).setWidth 32) <<< f.lo

/-- `v[hi:lo]`, zero-extended (00_scope.md R14). -/
def fieldGet (f : Field) (v : Word32) : Word32 := (v >>> f.lo) &&& ((BitVec.allOnes f.width).setWidth 32)

/-- `v` with the field set to `x` (the setter `w.F <- x` of 44_channel_register.md). -/
def fieldPut (f : Field) (v x : Word32) : Word32 := (v &&& ~~~ fieldMask f) ||| ((x <<< f.lo) &&& fieldMask f)

/-- Two fields share no bit. -/
def fieldsApart (a b : Field) : Bool := decide (a.lo + a.width ≤ b.lo) || decide (b.lo + b.width ≤ a.lo)

/-! The fields of a channel-control register, with the widths of 30_encoding.md R116. -/

def eaField (l : ChepLayout) : Field := ⟨l.ea, 4⟩
def epTypeField (l : ChepLayout) : Field := ⟨l.epType, 2⟩
def devaddrField (l : ChepLayout) : Field := ⟨l.devaddr, 7⟩

def statField (l : ChepLayout) : Half → Field
  | .rx => ⟨l.statRx, 2⟩
  | .tx => ⟨l.statTx, 2⟩

def dtogField (l : ChepLayout) : Half → Field
  | .rx => ⟨l.dtogRx, 1⟩
  | .tx => ⟨l.dtogTx, 1⟩

def ctrField (l : ChepLayout) : Half → Field
  | .rx => ⟨l.ctrRx, 1⟩
  | .tx => ⟨l.ctrTx, 1⟩

def errField (l : ChepLayout) : Half → Field
  | .rx => ⟨l.errRx, 1⟩
  | .tx => ⟨l.errTx, 1⟩

/-- The toggle fields, kind T (30_encoding.md R117). -/
def toggleFields (l : ChepLayout) : List Field :=
  [statField l .tx, dtogField l .tx, statField l .rx, dtogField l .rx]

/-- The clearable flags, kind C (30_encoding.md R117). -/
def clearFields (l : ChepLayout) : List Field :=
  [ctrField l .tx, ctrField l .rx, errField l .tx, errField l .rx]

/-- The plain read-write fields, kind RW (30_encoding.md R117). -/
def plainFields (l : ChepLayout) : List Field := [eaField l, epTypeField l, devaddrField l]

/-- The mask of a list of fields. -/
def maskOf (fs : List Field) : Word32 := fs.foldr (fun f m => fieldMask f ||| m) 0

/-- `T_MASK` (30_encoding.md R117). -/
def tMask (l : ChepLayout) : Word32 := maskOf (toggleFields l)

/-- `C_MASK` (30_encoding.md R117). -/
def cMask (l : ChepLayout) : Word32 := maskOf (clearFields l)

/-- `RW_MASK` (30_encoding.md R117). -/
def rwMask (l : ChepLayout) : Word32 := maskOf (plainFields l)

/-- `P_MASK` (30_encoding.md R117): every bit of no other kind. -/
def pMask (l : ChepLayout) : Word32 := ~~~ (tMask l ||| cMask l ||| rwMask l)

/-- A channel-register layout is admitted when its fields lie within 32 bits and share no bit. -/
def chepLayoutWf (l : ChepLayout) : Bool :=
  let fs := toggleFields l ++ clearFields l ++ plainFields l
  fs.all (fun f => decide (f.lo + f.width ≤ 32)) && decide (fs.Pairwise fun a b => fieldsApart a b = true)

/-- The bit of a condition, in place. -/
def bitAt (n : Nat) : Word32 := 1#32 <<< n

/-- An interrupt-status layout is admitted when its fields share no bit, `DCON`, `ERR` and `PMAOVR` are clearable
and the read-only fields are not (10_state.md R45). -/
def istrLayoutWf (l : IstrLayout) : Bool :=
  let fs : List Field := [⟨l.idn, 4⟩, ⟨l.dir, 1⟩, ⟨l.dcon, 1⟩, ⟨l.err, 1⟩, ⟨l.pmaovr, 1⟩, ⟨l.ctr, 1⟩, ⟨l.dconStat, 1⟩]
  fs.all (fun f => decide (f.lo + f.width ≤ 32)) && decide (fs.Pairwise fun a b => fieldsApart a b = true) &&
  decide ((bitAt l.dcon ||| bitAt l.err ||| bitAt l.pmaovr) &&& ~~~ l.clearable = 0) &&
  decide ((fieldMask ⟨l.idn, 4⟩ ||| bitAt l.dir ||| bitAt l.ctr ||| bitAt l.dconStat) &&& (l.clearable ||| l.otherRo) = 0) &&
  decide (l.clearable &&& l.otherRo = 0)

/-- The constraints on the parameters (00_scope.md R10) and the admitted layouts. -/
def paramsWf (p : Params) : Bool :=
  decide (p.pmaBytes % granBytes p.gran = 0) && decide (descTableBytes ≤ p.pmaBytes) &&
  decide (p.pmaBytes ≤ 65536) && chepLayoutWf p.chep && istrLayoutWf p.istr

/-- The default `CHEP_LAYOUT` (30_encoding.md R116). -/
def defaultChepLayout : ChepLayout where
  ea := 0
  statTx := 4
  dtogTx := 6
  ctrTx := 7
  epType := 9
  statRx := 12
  dtogRx := 14
  ctrRx := 15
  devaddr := 16
  errTx := 25
  errRx := 26

/-- The default `ISTR_LAYOUT` (30_encoding.md R121). `OTHER_RO` reads its stored value, 0 from reset (DEDUCED,
notes/assumptions/6.md). -/
def defaultIstrLayout : IstrLayout where
  idn := 0
  dir := 4
  dcon := 10
  err := 13
  pmaovr := 14
  ctr := 15
  dconStat := 29
  clearable := 0x80007F80
  otherRo := 0x40000000

/-- The reference configuration (00_scope.md R10) with every default (00_scope.md R13); the spec leaves `GRAN` and
`PMA_BYTES` open (DESIGN CHOICE, notes/assumptions/1.md). -/
def referenceParams : Params where
  gran := .four
  pmaBytes := 2048
  chepPolarity := .w0c
  istrPolarity := .w1c
  smallAlign := .two
  chep := defaultChepLayout
  istr := defaultIstrLayout

end Sys2Proof.Machine
end

