-- ==== Sys2Proof/Machine/Flags.lean ====
section
/-! DEFINITION. The register algebra: the hardware write functions of `CHEP` and `ISTR` (44_channel_register.md R190,
45_dispatcher.md R210), the canonical value (R191), and every value the block writes (R192–R197, R211). -/

namespace Sys2Proof.Machine

/-- The flag bits of the neutral value: `NEUTRAL_C` in every C bit (30_encoding.md R118). -/
def neutralFlags (p : Params) : Word32 :=
  match p.chepPolarity with
  | .w0c => cMask p.chep
  | .w1c => 0

/-- `CLEAR_C` as a field value (30_encoding.md R118). -/
def clearC (p : Params) : Word32 :=
  match p.chepPolarity with
  | .w0c => 0
  | .w1c => 1

/-- `canon(v)` (44_channel_register.md R191): toggle fields 0, flags neutral, every other field as read. -/
def canon (p : Params) (v : Word32) : Word32 :=
  (v &&& (rwMask p.chep ||| pMask p.chep)) ||| neutralFlags p

/-- `HwWriteCHEP(old, w)` (44_channel_register.md R190). -/
def hwWriteChep (p : Params) (old w : Word32) : Word32 :=
  let rw := w &&& (rwMask p.chep ||| pMask p.chep)
  let tg := (old ^^^ w) &&& tMask p.chep
  let fl := match p.chepPolarity with
    | .w0c => old &&& w &&& cMask p.chep
    | .w1c => old &&& ~~~ w &&& cMask p.chep
  rw ||| tg ||| fl

/-- The status of a half (30_encoding.md R119). -/
def getStat (p : Params) (h : Half) (v : Word32) : Status :=
  statusOf (fieldGet (statField p.chep h) v).toNat

/-- A register value with one half's status replaced: what the hardware itself does (48_peripheral.md). -/
def putStat (p : Params) (h : Half) (v : Word32) (st : Status) : Word32 :=
  fieldPut (statField p.chep h) v (BitVec.ofNat 32 (statusCode st))

/-- The complete flag of a half. -/
def getCtr (p : Params) (h : Half) (v : Word32) : Bool := v.getLsbD (ctrField p.chep h).lo

/-- The error flag of a half. -/
def getErr (p : Params) (h : Half) (v : Word32) : Bool := v.getLsbD (errField p.chep h).lo

/-- A one-bit field value. -/
def bitWord (b : Bool) : Word32 := if b then 1 else 0

/-- Set a half's complete flag (48_peripheral.md R277). -/
def setCtr (p : Params) (h : Half) (v : Word32) : Word32 := fieldPut (ctrField p.chep h) v 1

/-- Set a half's error flag (48_peripheral.md R280). -/
def setErr (p : Params) (h : Half) (v : Word32) : Word32 := fieldPut (errField p.chep h) v 1

/-- Give a half's data toggle a value (48_peripheral.md R287). -/
def putDtog (p : Params) (h : Half) (v : Word32) (b : Bool) : Word32 := fieldPut (dtogField p.chep h) v (bitWord b)

/-- The value `CR.SETSTAT` writes (44_channel_register.md R192): `canon(cur)` with the XOR needed to reach the
target from the status that was read. -/
def setstatWord (p : Params) (h : Half) (cur : Word32) (target : Status) : Word32 :=
  fieldPut (statField p.chep h) (canon p cur)
    (fieldGet (statField p.chep h) cur ^^^ BitVec.ofNat 32 (statusCode target))

/-- Put `CLEAR_C` in the bit of a field when the half is named. -/
def clearIf (p : Params) (named : Bool) (f : Field) (w : Word32) : Word32 :=
  if named then fieldPut f w (clearC p) else w

/-- The value `CR.CLRCTR` writes (44_channel_register.md R193). -/
def clrctrWord (p : Params) (cur : Word32) (fs : FlagSet) : Word32 :=
  clearIf p fs.tx (ctrField p.chep .tx) (clearIf p fs.rx (ctrField p.chep .rx) (canon p cur))

/-- The value `CR.CLRERR` writes (44_channel_register.md R194). -/
def clrerrWord (p : Params) (cur : Word32) (fs : FlagSet) : Word32 :=
  clearIf p fs.tx (errField p.chep .tx) (clearIf p fs.rx (errField p.chep .rx) (canon p cur))

/-- A register value with the claim-time configuration fields (44_channel_register.md R196). -/
def configFields (p : Params) (v : Word32) (etype : EType) (devaddr : Nat) (c : Chan) : Word32 :=
  fieldPut (eaField p.chep)
    (fieldPut (devaddrField p.chep)
      (fieldPut (epTypeField p.chep) v (BitVec.ofNat 32 (regType etype)))
      (BitVec.ofNat 32 devaddr))
    (BitVec.ofNat 32 c.val)

/-- The value `CR.INIT` writes (44_channel_register.md R196). -/
def initWord (p : Params) (cur : Word32) (etype : EType) (devaddr : Nat) (c : Chan) : Word32 :=
  configFields p (canon p cur) etype devaddr c

/-- The error flags that are set (45_dispatcher.md R211, the set `E`). -/
def errFlagsOf (p : Params) (v : Word32) : FlagSet := ⟨getErr p .rx v, getErr p .tx v⟩

/-- The complete flags that are set (45_dispatcher.md R211, the set `S`). -/
def ctrFlagsOf (p : Params) (v : Word32) : FlagSet := ⟨getCtr p .rx v, getCtr p .tx v⟩

/-- `HwWriteISTR(old, w)` (45_dispatcher.md R210). -/
def hwWriteIstr (p : Params) (old w : Word32) : Word32 :=
  let fl := match p.istrPolarity with
    | .w1c => old &&& ~~~ w &&& p.istr.clearable
    | .w0c => old &&& w &&& p.istr.clearable
  (old &&& ~~~ p.istr.clearable) ||| fl

/-- `clearISTR(S)` for the set of clearable bits `set` (45_dispatcher.md R210). -/
def clearIstr (p : Params) (set : Word32) : Word32 :=
  match p.istrPolarity with
  | .w1c => set
  | .w0c => p.istr.clearable &&& ~~~ set

/-- `ISTR_NEUTRAL` (45_dispatcher.md R210). -/
def istrNeutral (p : Params) : Word32 := clearIstr p 0

/-- What one read of `ISTR` returns (10_state.md R45, R46), field by field. `other` is every stored bit: the
clearable latches and the read-only bits no rule names. -/
structure IstrRead where
  idn : Chan
  dir : Bool
  dcon : Bool
  err : Bool
  pmaovr : Bool
  ctr : Bool
  dconStat : Bool
  other : Word32
deriving DecidableEq, Repr

/-- The 32-bit value of a read at the layout (30_encoding.md R121); bits no field holds read 0. -/
def istrWord (p : Params) (i : IstrRead) : Word32 :=
  (i.other &&& (p.istr.clearable ||| p.istr.otherRo)) |||
  (BitVec.ofNat 32 i.idn.val <<< p.istr.idn) |||
  (bitWord i.dir <<< p.istr.dir) ||| (bitWord i.ctr <<< p.istr.ctr) ||| (bitWord i.dconStat <<< p.istr.dconStat)

end Sys2Proof.Machine
end

