-- ==== Sys2Proof/Machine/LengthCode.lean ====
section
/-! DEFINITION. The max-length code (30_encoding.md R123, 42_descriptor.md R160, R161), the counts that share its
half-word, and the little-endian bytes of a number (20_memory.md R83). -/

namespace Sys2Proof.Machine

/-- `enc(L)` (42_descriptor.md R160); `none` is `Fault(InvalidLength)`. -/
def encLength (p : Params) (len : Nat) : Option Half16 :=
  if len < 2 ∨ maxDescLen < len then none
  else if len ≤ 60 then some (BitVec.ofNat 16 (roundup len (smallAlignBytes p) / 2) <<< 10)
  else some ((BitVec.ofNat 16 (ceilDiv len 32 - 1) <<< 10) ||| 0x8000#16)

/-- `NUM_BLOCK`, bits 14:10 of the code (30_encoding.md R123). -/
def numBlock (code : Half16) : Nat := code.toNat / 1024 % 32

/-- `dec(code)` (42_descriptor.md R161). -/
def decCode (code : Half16) : Nat :=
  if code.getLsbD 15 then 32 * (numBlock code + 1) else 2 * numBlock code

/-- The count in bits 9:0 of a descriptor half-word (30_encoding.md R123, R124). -/
def countOf (v : Nat) : Nat := v % 2 ^ rxCountBits

/-- The little-endian number of a list of bytes (20_memory.md R83). -/
def leNat (bs : List Byte) : Nat := bs.foldr (fun b acc => b.toNat + 256 * acc) 0

/-- The `n` little-endian bytes of a number, least significant first (20_memory.md R83). -/
def leBytes (n v : Nat) : List Byte := (List.range n).map fun j => BitVec.ofNat 8 (v / 256 ^ j)

/-- Bytes `start .. start + g - 1` of a byte list, with zero past its end: one word of the codec (43_codec.md R180,
"zero-padding the final partial word"). -/
def wordBytes (bs : List Byte) (start g : Nat) : List Byte :=
  (List.range g).map fun j => bs.getD (start + j) 0

end Sys2Proof.Machine
end

