-- ==== Sys2Proof/Machine/State.lean ====
section
/-! DEFINITION. The state of the block (10_state.md R30): every piece the spec names, as plain data, with the
choices of the scheduler and the environment that the step relation takes as parameters (R69) held as lists the step
reads; the reasons a run ends; and the state after hardware reset and driver construction (70_reset_and_hazards.md
R340–R344). -/

namespace Sys2Proof.Machine

/-- The fault reasons (60_exceptions.md R311). A command that raises one takes a next state whose `fault` holds the
reason (R310); `step` answers the fault outcome from then on. Safe: the spec itself ends the run there. -/
inductive Fault where
  /-- A descriptor length outside `2..1024` or a claim's packet size outside its direction's domain; raised by
  `BD.ENC`, `BD.PROGRX`, `CH.CLAIM`, `CH.RECONF0`. Safe. -/
  | invalidLength
  /-- A codec length or descriptor count larger than the region; raised by `PM.WRITE`, `PM.READ`, `BD.PROGRX`,
  `BD.PROGTX`. Safe. -/
  | regionOverflow
  /-- A write larger than the channel's region; raised by `EP.WRITE`. Safe. -/
  | writeTooLarge
  /-- A transmit count above `TX_COUNT_MAX`; raised by `BD.PROGTX`, `EP.WRITE`. Safe. -/
  | countTooLarge
  /-- An allocation length that is no multiple of `GRAN`; raised by `PM.ALLOC`. Safe. -/
  | unalignedLength
  /-- A region offset or an access not aligned to its width; raised by the codec and the descriptor operations. Safe. -/
  | misaligned
  /-- An access at or above `PMA_BYTES`; raised by packet-memory accesses of the block and of the peripheral. Safe. -/
  | pmaBounds
  /-- An operation on an index and direction with no handle; raised by `EP.READ`, `EP.WRITE`, `CH.DROP`. Safe. -/
  | noHandle
  /-- An operation on a handle claimed before the last `PM.RESET`; raised by `EP.READ`, `EP.WRITE`, `EP.POLL`. Safe. -/
  | staleHandle
  /-- A second operation, or a drop, on a busy channel half; raised by `EP.READ`, `EP.WRITE`, `CH.DROP`. Safe. -/
  | channelBusy
  /-- A task starting a second operation; raised by `EP.READ`, `EP.WRITE`, `BUS.WAIT`. Safe. -/
  | taskBusy
  /-- An endpoint address whose index is above 7; raised by `ch.alloc_in`, `ch.alloc_out`. Safe. -/
  | badIndex
  /-- A poll by a task with no operation; raised by `EP.POLL`. Safe. -/
  | noOperation
deriving DecidableEq, Repr

/-- The reasons a step is refused. -/
inductive Refusal where
  /-- An instruction that has no meaning yet; raised by `exec`'s arms only. Safe. -/
  | notModelled (mnemonic : String)
  /-- A word no row of the opcode map matches (60_exceptions.md R313); raised by `step`. Safe: the spec refuses it. -/
  | invalid (w : Word64)
deriving DecidableEq, Repr

/-- The recoverable errors (60_exceptions.md R300). -/
inductive Err where
  | disconnected
  | timeout
  | stall
  | bufferOverflow
  | alreadyInUse
  | outOfMemory
deriving DecidableEq, Repr

/-- The agents that write the log (00_scope.md R23, 10_state.md R66). -/
inductive Agent where
  | task (t : Nat)
  | dispatcher
  | peripheral
deriving DecidableEq, Repr

/-- A handle (10_state.md R50). -/
structure Handle where
  index : Chan
  dir : Dir
  mps : Nat
  etype : EType
  devaddr : Nat
  region : Region
  gen : Nat
deriving DecidableEq, Repr

/-- The value an operation completes with. -/
inductive Value where
  | unit
  | region (r : Region)
  | code (c : Half16)
  | length (n : Nat)
  | bytes (bs : List Byte)
  | register (v : Word32)
  | handle (h : Handle)
  | handles (hi ho : Handle)
  /-- A finished read: the count `k` and the `k` bytes set in the caller's buffer (46_engine.md R249). -/
  | received (k : Nat) (buf : List Byte)
deriving DecidableEq, Repr

/-- The outcome handed to the issuer of a command (00_scope.md R17). `copied` is what a failed read had already
put in the caller's buffer (46_engine.md R249); other errors record nothing (60_exceptions.md R300). -/
inductive Result where
  | ok (v : Value)
  | err (e : Err) (copied : List Byte)
  | pending
  /-- No outcome of the block: the report of a word that was refused as `Invalid(w)` (60_exceptions.md R313). -/
  | invalid (w : Word64)
deriving DecidableEq, Repr

/-- The phase of an operation in flight (10_state.md R60). -/
inductive Phase where
  | arming
  | awaitingCompletion
  | accumulating
  | done (v : Value)
  | failed (e : Err)
deriving DecidableEq, Repr

/-- A `Read` record (10_state.md R61); `start = none` is `⊥`. -/
structure ReadOp where
  h : Handle
  n : Nat
  buf : List Byte
  off : Nat
  timeout : Option Nat
  start : Option Nat
  phase : Phase
deriving DecidableEq, Repr

/-- A `Write` record (10_state.md R62). -/
structure WriteOp where
  h : Handle
  data : List Byte
  timeout : Option Nat
  start : Option Nat
  phase : Phase
deriving DecidableEq, Repr

/-- A `BusWait` record (10_state.md R63). -/
structure BusWaitOp where
  target : BusState
  phase : Phase
deriving DecidableEq, Repr

/-- An operation record (10_state.md R59). -/
inductive Op where
  | read (r : ReadOp)
  | write (w : WriteOp)
  | busWait (b : BusWaitOp)
deriving DecidableEq, Repr

/-- What the state holds of one task (10_state.md R56, R59). -/
structure TaskRec where
  op : Option Op
  woken : Bool
deriving DecidableEq, Repr

/-- A waker slot's name (10_state.md R55). -/
inductive Slot where
  | chan (c : Chan) (d : Dir)
  | bus
deriving DecidableEq, Repr

/-- An entry of the log (10_state.md R66, 45_dispatcher.md R214, 48_peripheral.md R289). -/
inductive LogEntry where
  | writeChep (agent : Agent) (c : Chan) (w : Word32)
  | writeIstr (agent : Agent) (w : Word32)
  | errFlags (c : Chan) (flags : FlagSet)
  | rxData (c : Chan) (bytes : List Byte)
  | rxNak (c : Chan)
  | rxStall (c : Chan)
  | error (c : Chan) (half : Half)
  | txData (c : Chan) (bytes : List Byte)
  | txNak (c : Chan)
  | txStall (c : Chan)
  | connectChange (connected : Bool)
  | overrun (c : Chan)
deriving DecidableEq, Repr

/-- A step of the peripheral (48_peripheral.md R277–R285) with the values it draws, or of the clock
(60_exceptions.md R326). -/
inductive EnvStep where
  /-- R277: the payload, the bytes drawn past it up to the `GRAN` boundary, and the drawn toggle. -/
  | rxData (c : Chan) (payload pad : List Byte) (dtog : Bool)
  /-- R278: whether the NAK raises the complete flag. -/
  | rxNak (c : Chan) (raise : Bool)
  /-- R279. -/
  | rxStall (c : Chan)
  /-- R280: the bytes drawn for the receive region (none for the transmit half). -/
  | error (c : Chan) (half : Half) (scribble : List Byte)
  /-- R281: the drawn toggle. -/
  | txData (c : Chan) (dtog : Bool)
  /-- R282: whether the NAK raises the complete flag. -/
  | txNak (c : Chan) (raise : Bool)
  /-- R283. -/
  | txStall (c : Chan)
  /-- R284. -/
  | connectChange
  /-- R285: the bytes drawn for the receive region (none when the receive half is not enabled). -/
  | overrun (c : Chan) (scribble : List Byte)
  /-- 60_exceptions.md R326, R327: one clock tick. -/
  | tick
deriving DecidableEq, Repr

/-- What a read-modify-write of a channel register changes (44_channel_register.md R192–R197). -/
inductive RegChange where
  | setStatus (h : Half) (target : Status)
  | clearComplete (fs : FlagSet)
  | clearError (fs : FlagSet)
  | init (etype : EType) (devaddr : Nat)
  | touch
deriving DecidableEq, Repr

/-- What a claim is for: `CH.CLAIM` itself, or one of the two claims of `CH.RECONF0`, the second with the handle of
the first (47_lifecycle.md R260, R262). -/
inductive ClaimFor where
  | caller
  | reconfIn
  | reconfOut (hi : Handle)
deriving DecidableEq, Repr

/-- A claim and its operands (47_lifecycle.md R260). -/
structure Claim where
  ch : Chan
  dir : Dir
  etype : EType
  devaddr : Nat
  mps : Nat
  purpose : ClaimFor
deriving DecidableEq, Repr

/-- Where the bytes of a `PM.READ` go: to its caller, or into the read of a poll (43_codec.md R181, 46_engine.md R237). -/
inductive ReadFor where
  | caller
  | poll
deriving DecidableEq, Repr

/-- A step of a command in progress: at most one access of packet memory or of a register, with what the issuing task
does on its own after it. Another agent may step between any two of them (20_memory.md R88). -/
inductive Access where
  /-- `MemWrite(a, n, v)`. -/
  | store (a n v : Nat)
  /-- The `RegRead(CHEP[c])` of a read-modify-write; its `RegWrite` follows. -/
  | readReg (c : Chan) (change : RegChange)
  /-- The `RegWrite(CHEP[c])` of a read-modify-write, computed from the value `cur` that was read. -/
  | writeReg (c : Chan) (change : RegChange) (cur : Word32)
  /-- The `MemRead` of word `k` of a `PM.READ` of `n` bytes at `off`, `todo` words being left and `got` read. -/
  | load (off k todo n : Nat) (got : List Byte) (purpose : ReadFor)
  /-- The checks, the mark and the allocation of a claim; its accesses follow. -/
  | claim (a : Claim)
  /-- The prologue of a poll (46_engine.md R236), with the start instant of an arming poll. -/
  | prologue
  /-- `register(slot, t)` of a poll. -/
  | register (sl : Slot)
  /-- The `RegRead(ISTR)` of a poll. -/
  | readIstr
  /-- The `now()` of a poll's timeout check. -/
  | clock
  /-- The `RegRead(CHEP[c])` by which a poll inspects the status. -/
  | inspect
  /-- The `BD.RXLEN` of a poll that found the status `Disabled`. -/
  | readCount
deriving DecidableEq, Repr

/-- What a command does on its own after an access, in the same step. -/
inductive Own where
  /-- `raise Fault(reason)`. -/
  | raise (r : Fault)
  /-- `return` a result. -/
  | reply (r : Result)
  /-- The end of a claim: the handle is made and entered (47_lifecycle.md R260). -/
  | enter (a : Claim) (r : Region)
  /-- The end of a `PM.READ`. -/
  | unpacked (bytes : List Byte) (purpose : ReadFor)
  /-- `phase <- AwaitingCompletion` after the arm of a poll. -/
  | armed
  /-- The poll ends `Failed(e)` after its disable. -/
  | fail (e : Err)
  /-- `phase <- AwaitingCompletion` and `Pending` after the re-arm of a read. -/
  | rearmed
deriving DecidableEq, Repr

/-- A part of what is left of a command in progress. -/
inductive Part where
  | access (a : Access)
  | own (o : Own)
deriving DecidableEq, Repr

/-- What is issued: a command word or a pseudo-instruction (30_encoding.md R111, R130). -/
inductive Code where
  | word (w : Word64)
  | pseudo (p : Pseudo)
deriving DecidableEq, Repr

/-- The side operands of a command (30_encoding.md R113). -/
structure Side where
  task : Nat
  data : List Byte
  timeout : Option Nat
deriving DecidableEq, Repr

/-- A command as a task issues it: its word and its side operands (30_encoding.md R113). -/
structure Issue extends Side where
  code : Code
deriving DecidableEq, Repr

/-- A step of some agent between two accesses of a task's command (20_memory.md R88, R89), or on its own: a step of the
environment, a dispatcher invocation with the environment's steps between its accesses, the first step of a task's
command, or the next step of a command a task has in progress. -/
inductive Event where
  | env (e : EnvStep)
  | irq (between : List (List EnvStep))
  | start (c : Issue)
  | resume (t : Nat)
deriving DecidableEq, Repr

/-- A command that runs to its end: what is issued, and what other agents do at each point between its accesses
(`slots` for a task's command, `irqSlots` for the dispatcher's). -/
structure Command extends Issue where
  slots : List (List Event)
  irqSlots : List (List EnvStep)
deriving DecidableEq, Repr

/-- One choice of the scheduler (10_state.md R69): a command to its end, or a single step of some agent. -/
inductive Input where
  | command (c : Command)
  | event (e : Event)
deriving DecidableEq, Repr

/-- The allocator (10_state.md R41–R43). -/
structure Alloc where
  free : Nat
  inUseIn : BitVec 8
  inUseOut : BitVec 8
  gen : Nat
deriving DecidableEq, Repr

/-- The state of the block (10_state.md R30). -/
structure State where
  /-- The parameters of the instance (00_scope.md R9–R13); no step changes them. -/
  params : Params
  /-- `PMA` (R31): the bytes that have been written, in the canonical form of `pmaWf`. -/
  pma : List Host.Cell
  /-- `CHEP[0..7]` (R33). -/
  chep : Vector Word32 8
  /-- The stored bits of `ISTR` (R45): the clearable latches and the read-only bits no rule names. -/
  istr : Word32
  /-- The error channel behind `ISTR.IDN` (R46, 48_peripheral.md R280, R285). -/
  errChan : Option Chan
  /-- `connected` (R47). -/
  connected : Bool
  /-- `alloc` (R41–R43). -/
  alloc : Alloc
  /-- `HT[c][In]` (R51). -/
  htIn : Vector (Option Handle) 8
  /-- `HT[c][Out]` (R51). -/
  htOut : Vector (Option Handle) 8
  /-- `W[c][In]` (R55). -/
  wakerIn : Vector (Option Nat) 8
  /-- `W[c][Out]` (R55). -/
  wakerOut : Vector (Option Nat) 8
  /-- `Wbus` (R55). -/
  wakerBus : Option Nat
  /-- The tasks (R56, R59), by id; an unlisted task is idle: no operation, not woken. -/
  tasks : List (Nat × TaskRec)
  /-- `now` (R64). -/
  now : Nat
  /-- `fault` (R65). -/
  fault : Option Fault
  /-- `log` (R66). -/
  log : List LogEntry
  /-- Side operand: the issuing task id (30_encoding.md R113). -/
  task : Nat
  /-- Side operand `DATA` (30_encoding.md R113). -/
  data : List Byte
  /-- Side operand `TIMEOUT` (30_encoding.md R113); `none` is "never". -/
  timeout : Option Nat
  /-- The model's own: the choices of the scheduler and the environment still to come. -/
  inputs : List Input
  /-- The model's own: what other agents do at the next points between the running task command's accesses. -/
  slots : List (List Event)
  /-- The model's own: what the environment does at the next points of the running dispatcher invocation. -/
  irqSlots : List (List EnvStep)
  /-- The model's own: the commands in progress (20_memory.md R88), by task, what each still has to do; a task not
  listed has none. -/
  inProgress : List (Nat × List Part)
  /-- The model's own: how many free values have been drawn. -/
  draws : Nat
  /-- The model's own: the results handed out by the last step, in order, each with its addressee, and the words it
  refused, each with the agent that issued it. -/
  out : List (Agent × Result)
deriving DecidableEq, Repr

/-- The state after hardware reset and driver construction (70_reset_and_hazards.md R340–R344) of an instance
with parameters `p`, a device attached or not (R344, a draw). -/
def State.resetWith (p : Params) (connected : Bool) : State where
  params := p
  pma := []
  chep := Vector.replicate 8 0
  istr := 0
  errChan := none
  connected := connected
  alloc := { free := descTableBytes, inUseIn := 0, inUseOut := 0, gen := 0 }
  htIn := Vector.replicate 8 none
  htOut := Vector.replicate 8 none
  wakerIn := Vector.replicate 8 none
  wakerOut := Vector.replicate 8 none
  wakerBus := none
  tasks := []
  now := 0
  fault := none
  log := []
  task := 0
  data := []
  timeout := none
  inputs := []
  slots := []
  irqSlots := []
  inProgress := []
  draws := 0
  out := []

/-- The state after reset: the reference configuration (00_scope.md R10), no device attached (DESIGN CHOICE,
notes/assumptions/1.md and 3.md). -/
def State.reset : State := State.resetWith referenceParams false

end Sys2Proof.Machine
end

