-- ==== Sys2Proof/Machine/Ops.lean ====
section
/-! DEFINITION. The named operations over the state: the outcome of an access sequence, raising a fault
(60_exceptions.md R310), packet memory (00_scope.md R16, 20_memory.md R83, R86), the registers (00_scope.md R15), the
wakers and the task records (10_state.md R55, R56, R59). -/

namespace Sys2Proof.Machine

/-- The outcome of a sequence of accesses: a value and the state, or the state in which a fault stopped it. -/
inductive Run (α : Type) where
  | ok (a : α) (s : State)
  | halt (s : State)
deriving DecidableEq, Repr

/-- Go on with the next access unless a fault stopped the sequence. -/
def Run.bind {α β : Type} (r : Run α) (f : α → State → Run β) : Run β :=
  match r with
  | .ok a s => f a s
  | .halt s => .halt s

/-- Taking the fault exception, the one shared operation (60_exceptions.md R310): the sticky fault is set and every
step already taken stays in place. No operation returns from it (10_state.md R65). -/
def raiseFault (r : Fault) (s : State) : State := { s with fault := some r }

/-- `raise Fault(reason)` inside a sequence (00_scope.md R17). -/
def raise {α : Type} (r : Fault) (s : State) : Run α := .halt (raiseFault r s)

/-! Sorted association lists: packet memory and the task table. -/

/-- The value at a key. -/
def mapLookup {α : Type} (m : List (Nat × α)) (k : Nat) : Option α :=
  match m with
  | [] => none
  | (k', v) :: rest => if k = k' then some v else mapLookup rest k

/-- Set the value at a key, keeping the keys strictly rising. -/
def mapInsert {α : Type} (m : List (Nat × α)) (k : Nat) (v : α) : List (Nat × α) :=
  match m with
  | [] => [(k, v)]
  | (k', v') :: rest =>
    if k < k' then (k, v) :: (k', v') :: rest
    else if k = k' then (k, v) :: rest
    else (k', v') :: mapInsert rest k v

/-- Take a key out. -/
def mapErase {α : Type} (m : List (Nat × α)) (k : Nat) : List (Nat × α) :=
  match m with
  | [] => []
  | (k', v') :: rest => if k = k' then mapErase rest k else (k', v') :: mapErase rest k

/-- Every key is above `b` and the keys strictly rise. -/
def risingFrom {α : Type} (m : List (Nat × α)) (b : Nat) : Bool :=
  match m with
  | [] => true
  | (k, _) :: rest => decide (b ≤ k) && risingFrom rest (k + 1)

/-! Packet memory. -/

/-- The canonical form of packet memory: offsets strictly rising and below `bound`. An unlisted byte has no value
of its own (it reads as the free value of its offset), so no entry repeats what an unlisted offset holds. -/
def pmaWf (m : List Host.Cell) (bound : Nat) : Bool := risingFrom m 0 && m.all fun c => decide (c.1 < bound)

/-- `PMA[a]` (00_scope.md R16). A byte nothing has written reads as its draw at reset (70_reset_and_hazards.md R341;
DESIGN CHOICE, notes/assumptions/2.md). -/
def pmaByte (s : State) (a : Nat) : Byte := (mapLookup s.pma a).getD (Config.pmaAtReset a)

/-- `PMA[a .. a+n-1]`. -/
def pmaBytesAt (s : State) (a n : Nat) : List Byte := (List.range n).map fun i => pmaByte s (a + i)

/-- Store bytes at rising offsets in the list. -/
def storeBytes (m : List Host.Cell) (a : Nat) (bs : List Byte) : List Host.Cell :=
  match bs with
  | [] => m
  | b :: rest => storeBytes (mapInsert m a b) (a + 1) rest

/-- `PMA[a .. ] <- bs`, no check. -/
def pokePma (s : State) (a : Nat) (bs : List Byte) : State := { s with pma := storeBytes s.pma a bs }

/-- Whether an access of width `n` at `a` is aligned and inside packet memory (20_memory.md R83, R86). An access that is
neither reports `Misaligned` (DESIGN CHOICE, notes/assumptions/14.md). -/
def accessFault (s : State) (a n : Nat) : Option Fault :=
  if a % n ≠ 0 then some .misaligned
  else if s.params.pmaBytes < a + n then some .pmaBounds
  else none

/-- `MemRead(a, n)` (00_scope.md R16). -/
def memRead (a n : Nat) (s : State) : Run Nat :=
  match accessFault s a n with
  | some r => raise r s
  | none => .ok (leNat (pmaBytesAt s a n)) s

/-- `MemWrite(a, n, v)` (00_scope.md R16). -/
def memWrite (a n v : Nat) (s : State) : Run Unit :=
  match accessFault s a n with
  | some r => raise r s
  | none => .ok () (pokePma s a (leBytes n v))

/-! Registers. -/

/-- `RegRead(CHEP[c])` (00_scope.md R15). -/
def readChep (s : State) (c : Chan) : Word32 := s.chep[c]

/-- The register file with one register's content replaced. -/
def setChep (s : State) (c : Chan) (v : Word32) : State := { s with chep := s.chep.set c v }

/-- Append to the log (10_state.md R66). -/
def appendLog (s : State) (e : LogEntry) : State := { s with log := s.log ++ [e] }

/-- `RegWrite(CHEP[c], w)` by an agent (00_scope.md R15, 44_channel_register.md R190), with its log entry. -/
def writeChep (agent : Agent) (c : Chan) (w : Word32) (s : State) : State :=
  appendLog (setChep s c (hwWriteChep s.params (readChep s c) w)) (.writeChep agent c w)

/-- Whether a channel has a complete flag set. -/
def chanComplete (s : State) (c : Chan) : Bool :=
  getCtr s.params .rx (readChep s c) || getCtr s.params .tx (readChep s c)

/-- The channels with a complete flag set (10_state.md R46). -/
def completeChans (s : State) : List Chan := (List.finRange 8).filter fun c => chanComplete s c

/-- A member of the list `x :: xs`, the one a drawn number names. -/
def drawFrom (x : Chan) (xs : List Chan) (draw : Nat) : Chan :=
  match xs with
  | [] => x
  | y :: ys => (x :: y :: ys).getD (draw % (ys.length + 2)) x

/-- `ISTR.IDN` at a read (10_state.md R46): a draw from the channels with a complete flag; with none, the error
channel, or a draw from `0..7` if there was no error. -/
def istrIdn (s : State) : Chan :=
  match completeChans s with
  | x :: xs => drawFrom x xs (Config.idnDraw s.draws)
  | [] =>
    match s.errChan with
    | some c => c
    | none => drawFrom 0 [1, 2, 3, 4, 5, 6, 7] (Config.idnDraw s.draws)

/-- The fields `RegRead(ISTR)` returns (10_state.md R45, R46, R47). `DIR`, whose value no rule gives, is a free value
(DESIGN CHOICE, notes/assumptions/5.md). -/
def istrFields (s : State) : IstrRead where
  idn := istrIdn s
  dir := Config.dirDraw s.draws
  dcon := s.istr.getLsbD s.params.istr.dcon
  err := s.istr.getLsbD s.params.istr.err
  pmaovr := s.istr.getLsbD s.params.istr.pmaovr
  ctr := (List.finRange 8).any fun c => chanComplete s c
  dconStat := s.connected
  other := s.istr

/-- The read is done: the next one draws afresh (10_state.md R46). -/
def nextDraw (s : State) : State := { s with draws := s.draws + 1 }

/-- `RegWrite(ISTR, w)` by an agent (45_dispatcher.md R210), with its log entry. -/
def writeIstr (agent : Agent) (w : Word32) (s : State) : State :=
  appendLog { s with istr := hwWriteIstr s.params s.istr w } (.writeIstr agent w)

/-- Latch a condition of `ISTR` (48_peripheral.md R280, R284, R285). -/
def latchIstr (bit : Nat) (s : State) : State := { s with istr := s.istr ||| bitAt bit }

/-- The interrupt line is pending (10_state.md R48, 60_exceptions.md R315). -/
def linePending (s : State) : Bool :=
  (istrFields s).ctr || (istrFields s).dcon || (istrFields s).err || (istrFields s).pmaovr

/-! Tasks and wakers. -/

/-- An idle task: no operation, not woken. -/
def idleTask : TaskRec := ⟨none, false⟩

/-- What the state holds of task `t`. -/
def taskRec (s : State) (t : Nat) : TaskRec := (mapLookup s.tasks t).getD idleTask

/-- Replace what the state holds of task `t`; an idle task is not listed. -/
def putTask (s : State) (t : Nat) (r : TaskRec) : State :=
  { s with tasks := if r = idleTask then mapErase s.tasks t else mapInsert s.tasks t r }

/-- `t.op <- op` (10_state.md R59). -/
def setOp (t : Nat) (op : Option Op) (s : State) : State := putTask s t { taskRec s t with op := op }

/-- `t.woken <- b` (10_state.md R56). -/
def setWoken (t : Nat) (b : Bool) (s : State) : State := putTask s t { taskRec s t with woken := b }

/-- The canonical form of the task table: ids strictly rising, no idle task listed. -/
def tasksWf (m : List (Nat × TaskRec)) : Bool := risingFrom m 0 && m.all fun e => decide (e.2 ≠ idleTask)

/-- The occupant of a waker slot (10_state.md R55). -/
def slotOf (s : State) : Slot → Option Nat
  | .chan c .dirIn => s.wakerIn[c]
  | .chan c .dirOut => s.wakerOut[c]
  | .bus => s.wakerBus

/-- Put an occupant in a waker slot, or empty it. -/
def setSlot (s : State) (sl : Slot) (o : Option Nat) : State :=
  match sl with
  | .chan c .dirIn => { s with wakerIn := s.wakerIn.set c o }
  | .chan c .dirOut => { s with wakerOut := s.wakerOut.set c o }
  | .bus => { s with wakerBus := o }

/-- `register(slot, t)` (10_state.md R55): the last registrant wins. -/
def register (sl : Slot) (t : Nat) (s : State) : State := setSlot s sl (some t)

/-- `wake(slot)` (10_state.md R55): empty the slot and set its occupant's `woken`; an empty slot is left alone. -/
def wake (sl : Slot) (s : State) : State :=
  match slotOf s sl with
  | none => s
  | some t => setWoken t true (setSlot s sl none)

/-- The handle and direction an operation holds (10_state.md R52); a bus wait holds none. -/
def opChannel : Op → Option (Chan × Dir)
  | .read r => some (r.h.index, r.h.dir)
  | .write w => some (w.h.index, w.h.dir)
  | .busWait _ => none

/-- Some task has an operation on `(c, d)` (46_engine.md R230). -/
def channelBusyAt (s : State) (c : Chan) (d : Dir) : Bool :=
  s.tasks.any fun e => match e.2.op with
    | some op => decide (opChannel op = some (c, d))
    | none => false

/-! Handles and the allocator's masks. -/

/-- `HT[c][d]` (10_state.md R51). -/
def handleAt (s : State) (c : Chan) (d : Dir) : Option Handle :=
  match d with
  | .dirIn => s.htIn[c]
  | .dirOut => s.htOut[c]

/-- `HT[c][d] <- h`. -/
def setHandle (s : State) (c : Chan) (d : Dir) (h : Option Handle) : State :=
  match d with
  | .dirIn => { s with htIn := s.htIn.set c h }
  | .dirOut => { s with htOut := s.htOut.set c h }

/-- Bit `c` of the in-use mask of a direction (10_state.md R42). -/
def inUse (a : Alloc) (c : Chan) (d : Dir) : Bool :=
  match d with
  | .dirIn => a.inUseIn.getLsbD c.val
  | .dirOut => a.inUseOut.getLsbD c.val

/-- An 8-bit mask with one bit given a value. -/
def maskWith (m : BitVec 8) (c : Chan) (b : Bool) : BitVec 8 :=
  if b then m ||| (1#8 <<< c.val) else m &&& ~~~ (1#8 <<< c.val)

/-- `m[c] <- b` for the in-use mask of a direction (47_lifecycle.md R260). -/
def setInUse (c : Chan) (d : Dir) (b : Bool) (s : State) : State :=
  match d with
  | .dirIn => { s with alloc := { s.alloc with inUseIn := maskWith s.alloc.inUseIn c b } }
  | .dirOut => { s with alloc := { s.alloc with inUseOut := maskWith s.alloc.inUseOut c b } }

/-! Commands in progress. -/

/-- What task `t` still has to do of the command it has in progress; `[]` when it has none. -/
def partsOf (s : State) (t : Nat) : List Part := (mapLookup s.inProgress t).getD []

/-- Replace what task `t` still has to do; a task with nothing left is not listed. -/
def putParts (s : State) (t : Nat) (ps : List Part) : State :=
  { s with inProgress := if ps = [] then mapErase s.inProgress t else mapInsert s.inProgress t ps }

/-- The canonical form of the commands in progress: ids strictly rising, each with something left to do. -/
def progressWf (m : List (Nat × List Part)) : Bool := risingFrom m 0 && m.all fun e => decide (e.2 ≠ [])

/-- Task `t` has a command in progress. -/
def hasCommand (s : State) (t : Nat) : Bool := decide (partsOf s t ≠ [])

/-- The side operands where a command's meaning finds them (30_encoding.md R113). -/
def sideOf (s : State) : Side := ⟨s.task, s.data, s.timeout⟩

/-! Ending a command. -/

/-- The numeric code of an error (60_exceptions.md R300). -/
def errCode : Err → Nat
  | .disconnected => 1
  | .timeout => 2
  | .stall => 3
  | .bufferOverflow => 4
  | .alreadyInUse => 5
  | .outOfMemory => 6

/-- Hand a result to its addressee (00_scope.md R17). -/
def handOut (a : Agent) (r : Result) (s : State) : State := { s with out := s.out ++ [(a, r)] }

/-- A command's `return` to task `t`: the result is handed out and nothing is left to do. -/
def reply (t : Nat) (r : Result) (s : State) : Run (List Part) := .ok [] (handOut (.task t) r s)

/-- A `return Ok(())` that is still to be done. -/
def replyUnit : Part := .own (.reply (.ok .unit))

end Sys2Proof.Machine
end

