-- ==== Sys2Proof/Machine/Environment.lean ====
section
/-! DEFINITION. The environment agents: the peripheral's steps (48_peripheral.md R275–R289) and the clock's
(60_exceptions.md R326, R327). A step carries the values it draws; one that is not enabled, or whose draws are outside
their sets, is not a step the agent can take and changes nothing. -/

namespace Sys2Proof.Machine

/-- `ADDR_RX` of a channel (30_encoding.md R124, R125: the same bytes at both granularities). -/
def addrRx (s : State) (c : Chan) : Nat := leNat (pmaBytesAt s (8 * c.val + 4) 2)

/-- The max-length code and received count of a channel (30_encoding.md R123, R124). -/
def codeRx (s : State) (c : Chan) : Half16 := BitVec.ofNat 16 (leNat (pmaBytesAt s (8 * c.val + 6) 2))

/-- `ADDR_TX` of a channel (30_encoding.md R124). -/
def addrTx (s : State) (c : Chan) : Nat := leNat (pmaBytesAt s (8 * c.val) 2)

/-- `COUNT_TX` of a channel (30_encoding.md R124). -/
def countTx (s : State) (c : Chan) : Nat := countOf (leNat (pmaBytesAt s (8 * c.val + 2) 2))

/-- A transaction is enabled on a half (48_peripheral.md R276); a transaction error needs the half it names enabled
(DEDUCED, notes/assumptions/13.md). -/
def halfEnabled (s : State) (c : Chan) (h : Half) : Bool :=
  s.connected && (match getStat s.params h (readChep s c) with
    | .valid | .nak => true
    | .disabled | .stall => false)

/-- The admitted lengths of a drawn receive region (48_peripheral.md R280, R285): `dec(code)` bytes when the
receive half takes part, none otherwise. -/
def scribbleOk (s : State) (c : Chan) (rx : Bool) (bytes : List Byte) : Bool :=
  decide (bytes.length = if rx then decCode (codeRx s c) else 0)

/-- The step is enabled and its draws are members of their sets (48_peripheral.md R276–R285). -/
def envEnabled (e : EnvStep) (s : State) : Bool :=
  match e with
  | .rxData c payload pad _ =>
    halfEnabled s c .rx &&
    decide (payload.length ≤ min (decCode (codeRx s c)) (2 ^ rxCountBits - 1)) &&
    decide (payload.length + pad.length = roundup payload.length (granBytes s.params.gran))
  | .rxNak c _ => halfEnabled s c .rx
  | .rxStall c => halfEnabled s c .rx
  | .error c h scribble => halfEnabled s c h && scribbleOk s c (decide (h = .rx)) scribble
  | .txData c _ => halfEnabled s c .tx
  | .txNak c _ => halfEnabled s c .tx
  | .txStall c => halfEnabled s c .tx
  | .connectChange => true
  | .overrun c scribble =>
    (halfEnabled s c .rx || halfEnabled s c .tx) && scribbleOk s c (halfEnabled s c .rx) scribble
  | .tick => true

/-- The peripheral stores bytes one by one; one at or above `PMA_BYTES` faults (20_memory.md R86; DEDUCED for the drawn
bytes of R280 and R285, notes/assumptions/15.md). -/
def envStore (a : Nat) (bs : List Byte) (s : State) : Run Unit :=
  match bs with
  | [] => .ok () s
  | b :: rest => if s.params.pmaBytes ≤ a then raise .pmaBounds s else envStore (a + 1) rest (pokePma s a [b])

/-- `COUNT_RX(c) <- n`: bits 9:0 of the code's half-word, the code unchanged (48_peripheral.md R277). -/
def setCountRx (c : Chan) (n : Nat) (s : State) : State :=
  pokePma s (8 * c.val + 6) (leBytes 2 ((codeRx s c).toNat / 2 ^ rxCountBits * 2 ^ rxCountBits + countOf n))

/-- Change a channel register as the hardware itself does, with no log entry of its own. -/
def hwSetChep (c : Chan) (f : Word32 → Word32) (s : State) : State := setChep s c (f (readChep s c))

/-- Raise a complete flag if drawn so (48_peripheral.md R278, R282). -/
def raiseCtrIf (p : Params) (h : Half) (raise : Bool) (v : Word32) : Word32 := if raise then setCtr p h v else v

/-- End a transaction on a half: the new status and the complete flag (48_peripheral.md R277, R279, R281, R283). -/
def endTransaction (c : Chan) (h : Half) (st : Status) (s : State) : State :=
  hwSetChep c (fun v => setCtr s.params h (putStat s.params h v st)) s

/-- Receive, data accepted (48_peripheral.md R277). -/
def envRxData (c : Chan) (payload pad : List Byte) (dtog : Bool) (s : State) : Run Unit :=
  (envStore (addrRx s c) (payload ++ pad) s).bind fun _ s =>
  let s := endTransaction c .rx .disabled (setCountRx c payload.length s)
  .ok () (appendLog (hwSetChep c (fun v => putDtog s.params .rx v dtog) s) (.rxData c payload))

/-- A NAK on a half (48_peripheral.md R278, R282). -/
def envNak (c : Chan) (h : Half) (raise : Bool) (entry : LogEntry) (s : State) : Run Unit :=
  .ok () (appendLog (hwSetChep c (fun v => raiseCtrIf s.params h raise (putStat s.params h v .nak)) s) entry)

/-- A STALL on a half (48_peripheral.md R279, R283). -/
def envStall (c : Chan) (h : Half) (entry : LogEntry) (s : State) : Run Unit :=
  .ok () (appendLog (endTransaction c h .stall s) entry)

/-- The error channel (48_peripheral.md R280, R285). -/
def setErrChan (c : Chan) (s : State) : State := { s with errChan := some c }

/-- A transaction error (48_peripheral.md R280). -/
def envError (c : Chan) (h : Half) (scribble : List Byte) (s : State) : Run Unit :=
  let a := addrRx s c
  let s := hwSetChep c (fun v => setErr s.params h v) s
  (envStore a scribble (setErrChan c (latchIstr s.params.istr.err s))).bind fun _ s =>
  .ok () (appendLog s (.error c h))

/-- The bytes of a transmit packet; one at or above `PMA_BYTES` faults (48_peripheral.md R281). -/
def envFetch (a k : Nat) (s : State) : Run (List Byte) :=
  if 0 < k ∧ s.params.pmaBytes < a + k then raise .pmaBounds s else .ok (pmaBytesAt s a k) s

/-- Transmit, data acknowledged (48_peripheral.md R281). -/
def envTxData (c : Chan) (dtog : Bool) (s : State) : Run Unit :=
  (envFetch (addrTx s c) (countTx s c) s).bind fun b s =>
  let s := endTransaction c .tx .disabled s
  .ok () (appendLog (hwSetChep c (fun v => putDtog s.params .tx v dtog) s) (.txData c b))

/-- Connect change (48_peripheral.md R284). -/
def envConnectChange (s : State) : Run Unit :=
  let s := latchIstr s.params.istr.dcon { s with connected := !s.connected }
  .ok () (appendLog s (.connectChange s.connected))

/-- Packet-memory overrun (48_peripheral.md R285). -/
def envOverrun (c : Chan) (scribble : List Byte) (s : State) : Run Unit :=
  (envStore (addrRx s c) scribble (setErrChan c (latchIstr s.params.istr.pmaovr s))).bind fun _ s =>
  .ok () (appendLog s (.overrun c))

/-- `timeout ≠ none and now - start > timeout` with a set `start` (46_engine.md R239). -/
def expired (timeout start : Option Nat) (now : Nat) : Bool :=
  match timeout, start with
  | some t, some st => decide (t < now - st)
  | _, _ => false

/-- The timeout of an operation has passed at `now`; a bus wait has none (60_exceptions.md R327). -/
def opExpired (op : Option Op) (now : Nat) : Bool :=
  match op with
  | some (.read r) => expired r.timeout r.start now
  | some (.write w) => expired w.timeout w.start now
  | _ => false

/-- The timer's effect on one task (60_exceptions.md R327): woken when its timeout passes for the first time. -/
def timerWake (now : Nat) (r : TaskRec) : TaskRec :=
  if opExpired r.op (now + 1) && !opExpired r.op now then { r with woken := true } else r

/-- One tick of the clock (60_exceptions.md R326, R327). -/
def envTick (s : State) : Run Unit :=
  .ok () { s with now := s.now + 1, tasks := s.tasks.map fun e => (e.1, timerWake s.now e.2) }

/-- The effect of an enabled step. -/
def envPerform (e : EnvStep) (s : State) : Run Unit :=
  match e with
  | .rxData c payload pad dtog => envRxData c payload pad dtog s
  | .rxNak c raise => envNak c .rx raise (.rxNak c) s
  | .rxStall c => envStall c .rx (.rxStall c) s
  | .error c h scribble => envError c h scribble s
  | .txData c dtog => envTxData c dtog s
  | .txNak c raise => envNak c .tx raise (.txNak c) s
  | .txStall c => envStall c .tx (.txStall c) s
  | .connectChange => envConnectChange s
  | .overrun c scribble => envOverrun c scribble s
  | .tick => envTick s

/-- One step of an environment agent, atomic (48_peripheral.md R289). A choice that is not enabled is no step of the
agent and changes nothing (DESIGN CHOICE, notes/assumptions/9.md). -/
def envStep (e : EnvStep) (s : State) : Run Unit :=
  if envEnabled e s then envPerform e s else .ok () s

/-- A run of environment steps. -/
def envSteps (es : List EnvStep) (s : State) : Run Unit :=
  match es with
  | [] => .ok () s
  | e :: rest => (envStep e s).bind fun _ s => envSteps rest s

end Sys2Proof.Machine
end

