-- ==== Sys2Proof/Machine/Dispatcher.lean ====
section
/-! DEFINITION. The interrupt event dispatcher (45_dispatcher.md): one invocation, with the environment free to step
between any two of its accesses and no task stepping within it (20_memory.md R89). -/

namespace Sys2Proof.Machine

/-- A point between two accesses of a dispatcher invocation: only the peripheral and the clock step (R89, R324). -/
def envPoint (s : State) : Run Unit :=
  match s.irqSlots with
  | [] => .ok () s
  | es :: rest => envSteps es { s with irqSlots := rest }

/-- Class 1, bus reset or connect change (45_dispatcher.md R212): clear, then wake the bus waiter. -/
def dispatchBus (i : IstrRead) (s : State) : Run Unit :=
  if i.dcon then
    (envPoint s).bind fun _ s =>
    .ok () (wake .bus (writeIstr .dispatcher (clearIstr s.params (bitAt s.params.istr.dcon)) s))
  else .ok () s

/-- The error-flag clear of the complete class (45_dispatcher.md R214): logged, and skipped when no flag is set. -/
def dispatchErrFlags (c : Chan) (v : Word32) (s : State) : Run Unit :=
  let e := errFlagsOf s.params v
  if e.rx || e.tx then
    (envPoint (appendLog s (.errFlags c e))).bind fun _ s =>
    .ok () (writeChep .dispatcher c (clrerrWord s.params v e) s)
  else .ok () s

/-- Wake the waiters of the complete flags that were set (45_dispatcher.md R211, R219). -/
def wakeFlags (c : Chan) (fs : FlagSet) (s : State) : State :=
  let s := if fs.rx then wake (.chan c .dirIn) s else s
  if fs.tx then wake (.chan c .dirOut) s else s

/-- Class 2, transaction complete (45_dispatcher.md R213, R214): one read of the channel register decides both
writes, and the wakes follow the clear. -/
def dispatchComplete (i : IstrRead) (s : State) : Run Unit :=
  if i.ctr then
    (envPoint s).bind fun _ s =>
    let v := readChep s i.idn
    (dispatchErrFlags i.idn v s).bind fun _ s =>
    (envPoint s).bind fun _ s =>
    let fs := ctrFlagsOf s.params v
    .ok () (wakeFlags i.idn fs (writeChep .dispatcher i.idn (clrctrWord s.params v fs) s))
  else .ok () s

/-- The error conditions that were read as set, in place (45_dispatcher.md R211, the set `X`). -/
def errorBits (p : Params) (i : IstrRead) : Word32 :=
  (if i.err then bitAt p.istr.err else 0) ||| (if i.pmaovr then bitAt p.istr.pmaovr else 0)

/-- Class 3, transaction error (45_dispatcher.md R215): clear the conditions in one write, then the no-op touch of
the channel register. -/
def dispatchError (i : IstrRead) (s : State) : Run Unit :=
  if i.err || i.pmaovr then
    (envPoint s).bind fun _ s =>
    (envPoint (writeIstr .dispatcher (clearIstr s.params (errorBits s.params i)) s)).bind fun _ s =>
    let v := readChep s i.idn
    (envPoint s).bind fun _ s =>
    .ok () (writeChep .dispatcher i.idn (canon s.params v) s)
  else .ok () s

/-- The acknowledgment write when no condition is recognised (45_dispatcher.md R216). -/
def dispatchAck (i : IstrRead) (s : State) : Run Unit :=
  if i.dcon || i.ctr || i.err || i.pmaovr then .ok () s
  else (envPoint s).bind fun _ s => .ok () (writeIstr .dispatcher (istrNeutral s.params) s)

/-- One dispatcher invocation (45_dispatcher.md R211): one read of `ISTR` decides every class, handled in the
order bus, complete, error, acknowledgment (R217). -/
def dispatch (s : State) : Run Unit :=
  let i := istrFields s
  (dispatchBus i (nextDraw s)).bind fun _ s =>
  (dispatchComplete i s).bind fun _ s =>
  (dispatchError i s).bind fun _ s =>
  dispatchAck i s

/-- `IRQ.DISPATCH` (45_dispatcher.md R211), the dispatcher agent's command, whoever the command names as its task
(DEDUCED, notes/assumptions/16.md): it completes with `Ok(())`. -/
def execIrqDispatch (s : State) : Host.Outcome State Fault Refusal :=
  match dispatch s with
  | .ok _ s => .next (handOut .dispatcher (.ok .unit) s)
  | .halt s => .next s

end Sys2Proof.Machine
end

