-- ==== Sys2Proof/Machine/ChannelRegister.lean ====
section
/-! DEFINITION. The channel-control register state machine (44_channel_register.md): `CR.READ`, `CR.CANON`,
`CR.SETSTAT`, `CR.CLRCTR`, `CR.CLRERR`, `CR.INIT`, `CR.TOUCH`. Every change is a read and a write computed from the value
read (20_memory.md R94), two steps between which other agents may step (R88). A `begin…` definition says what a command
has to do; Interleaving.lean runs it. -/

namespace Sys2Proof.Machine

/-- The value a read-modify-write writes to `CHEP[c]`, from the value `cur` that it read (44_channel_register.md R199). -/
def changeWord (p : Params) (c : Chan) (cur : Word32) : RegChange → Word32
  | .setStatus h target => setstatWord p h cur target
  | .clearComplete fs => clrctrWord p cur fs
  | .clearError fs => clrerrWord p cur fs
  | .init etype devaddr => initWord p cur etype devaddr c
  | .touch => canon p cur

/-- The read of a read-modify-write (44_channel_register.md R192–R197): the write is left to do. -/
def readForChange (c : Chan) (change : RegChange) (s : State) : Run (List Part) :=
  .ok [.access (.writeReg c change (readChep s c))] s

/-- The write of a read-modify-write by task `t` (44_channel_register.md R192–R197). -/
def writeChange (t : Nat) (c : Chan) (change : RegChange) (cur : Word32) (s : State) : Run (List Part) :=
  .ok [] (writeChep (.task t) c (changeWord s.params c cur change) s)

/-- A read-modify-write that is still to be done. -/
def changeReg (c : Chan) (change : RegChange) : Part := .access (.readReg c change)

/-- `CR.READ` (44_channel_register.md R195). -/
def beginCrRead (ch : Chan) (o : Side) (s : State) : Run (List Part) :=
  reply o.task (.ok (.register (readChep s ch))) s

/-- `CR.CANON` (44_channel_register.md R191). -/
def beginCrCanon (value : Word32) (o : Side) (s : State) : Run (List Part) :=
  reply o.task (.ok (.register (canon s.params value))) s

/-- `CR.SETSTAT` (44_channel_register.md R192). -/
def beginCrSetstat (ch : Chan) (dir : Dir) (target : Status) (s : State) : Run (List Part) :=
  .ok [changeReg ch (.setStatus (dirHalf dir) target), replyUnit] s

/-- `CR.CLRCTR` (44_channel_register.md R193). -/
def beginCrClrctr (ch : Chan) (flags : FlagSet) (s : State) : Run (List Part) :=
  .ok [changeReg ch (.clearComplete flags), replyUnit] s

/-- `CR.CLRERR` (44_channel_register.md R194). -/
def beginCrClrerr (ch : Chan) (flags : FlagSet) (s : State) : Run (List Part) :=
  .ok [changeReg ch (.clearError flags), replyUnit] s

/-- `CR.INIT` (44_channel_register.md R196). -/
def beginCrInit (ch : Chan) (etype : EType) (devaddr : Nat) (s : State) : Run (List Part) :=
  .ok [changeReg ch (.init etype devaddr), replyUnit] s

/-- `CR.TOUCH` (44_channel_register.md R197). -/
def beginCrTouch (ch : Chan) (s : State) : Run (List Part) := .ok [changeReg ch .touch, replyUnit] s

end Sys2Proof.Machine
end

