-- ==== Sys2Proof/Machine/Descriptor.lean ====
section
/-! DEFINITION. The buffer-descriptor table and the length code (42_descriptor.md): `BD.ENC`, `BD.DEC`, `BD.PROGRX`,
`BD.PROGTX`, `BD.RXLEN`. -/

namespace Sys2Proof.Machine

/-- `enc(L)` inside an operation (42_descriptor.md R160). -/
def encOrFault (len : Nat) (s : State) : Run Half16 :=
  match encLength s.params len with
  | some code => .ok code s
  | none => raise .invalidLength s

/-- A `MemWrite` that is still to be done. -/
def storePart (a n v : Nat) : Part := .access (.store a n v)

/-- `MemWrite(a, n, v)` as a step (20_memory.md R88). -/
def storeStep (a n v : Nat) (s : State) : Run (List Part) := (memWrite a n v s).bind fun _ s => .ok [] s

/-- An operation of which a fault is all that is left. -/
def faultParts (r : Fault) : List Part := [.own (.raise r)]

/-- The two half-words of one descriptor half: two writes at `GRAN = 2`, one at `GRAN = 4` (20_memory.md R87,
30_encoding.md R124, R125). -/
def descriptorParts (p : Params) (a lo hi : Nat) : List Part :=
  match p.gran with
  | .two => [storePart a 2 lo, storePart (a + 2) 2 hi]
  | .four => [storePart a 4 (hi <<< 16 ||| lo)]

/-- `BD.PROGRX(c, r, mps)` (42_descriptor.md R162). -/
def progRxParts (p : Params) (c : Chan) (r : Region) (mps : Nat) : List Part :=
  match encLength p mps with
  | none => faultParts .invalidLength
  | some code =>
    if r.off % granBytes p.gran ≠ 0 then faultParts .misaligned
    else if r.len < decCode code then faultParts .regionOverflow
    else descriptorParts p (8 * c.val + 4) r.off code.toNat

/-- `BD.PROGTX(c, r, n)` (42_descriptor.md R163). -/
def progTxParts (p : Params) (c : Chan) (r : Region) (n : Nat) : List Part :=
  if r.off % granBytes p.gran ≠ 0 then faultParts .misaligned
  else if r.len < n then faultParts .regionOverflow
  else if txCountMax < n then faultParts .countTooLarge
  else descriptorParts p (8 * c.val) r.off n

/-- `BD.RXLEN(c)` (42_descriptor.md R164). -/
def rxLen (c : Chan) (s : State) : Run Nat :=
  match s.params.gran with
  | .two => (memRead (8 * c.val + 6) 2 s).bind fun v s => .ok (countOf v) s
  | .four => (memRead (8 * c.val + 4) 4 s).bind fun v s => .ok (countOf (v >>> 16)) s

/-- `BD.ENC` (42_descriptor.md R160). -/
def beginBdEnc (len : Nat) (o : Side) (s : State) : Run (List Part) :=
  (encOrFault len s).bind fun code s => reply o.task (.ok (.code code)) s

/-- `BD.DEC` (42_descriptor.md R161). -/
def beginBdDec (code : Half16) (o : Side) (s : State) : Run (List Part) :=
  reply o.task (.ok (.length (decCode code))) s

/-- `BD.PROGRX` (42_descriptor.md R162). -/
def beginBdProgrx (ch : Chan) (mps : Nat) (region : Region) (s : State) : Run (List Part) :=
  .ok (progRxParts s.params ch region mps ++ [replyUnit]) s

/-- `BD.PROGTX` (42_descriptor.md R163). -/
def beginBdProgtx (ch : Chan) (count : Nat) (region : Region) (s : State) : Run (List Part) :=
  .ok (progTxParts s.params ch region count ++ [replyUnit]) s

/-- `BD.RXLEN` (42_descriptor.md R164). -/
def beginBdRxlen (ch : Chan) (o : Side) (s : State) : Run (List Part) :=
  (rxLen ch s).bind fun n s => reply o.task (.ok (.length n)) s

end Sys2Proof.Machine
end

