-- ==== Sys2Proof/Machine/Codec.lean ====
section
/-! DEFINITION. The byte-to-word codec (43_codec.md): `PM.WRITE`, `PM.READ`, one access per word in rising order, each a
step of its own (R184, 20_memory.md R88). -/

namespace Sys2Proof.Machine

/-- The stores of the `todo` words from word `k` on (43_codec.md R180). -/
def packParts (off g : Nat) (data : List Byte) (todo k : Nat) : List Part :=
  match todo with
  | 0 => []
  | todo + 1 => storePart (off + k * g) g (leNat (wordBytes data (k * g) g)) :: packParts off g data todo (k + 1)

/-- `PM.WRITE(r, DATA)` (43_codec.md R180). -/
def pmWriteParts (p : Params) (r : Region) (data : List Byte) : List Part :=
  let g := granBytes p.gran
  if r.len < data.length then faultParts .regionOverflow
  else if r.off % g ≠ 0 then faultParts .misaligned
  else packParts r.off g data (ceilDiv data.length g) 0

/-- What is left of a `PM.READ` of `n` bytes at `off` with `todo` words to load from word `k` on, `got` being the
bytes loaded (43_codec.md R181). -/
def loadParts (off k todo n : Nat) (got : List Byte) (purpose : ReadFor) : List Part :=
  match todo with
  | 0 => [.own (.unpacked (got.take n) purpose)]
  | todo + 1 => [.access (.load off k (todo + 1) n got purpose)]

/-- The load of one word (43_codec.md R181). -/
def loadStep (off k todo n : Nat) (got : List Byte) (purpose : ReadFor) (s : State) : Run (List Part) :=
  let g := granBytes s.params.gran
  (memRead (off + k * g) g s).bind fun w s => .ok (loadParts off (k + 1) (todo - 1) n (got ++ leBytes g w) purpose) s

/-- `PM.READ(r, n)` (43_codec.md R181). -/
def pmReadParts (p : Params) (r : Region) (n : Nat) (purpose : ReadFor) : List Part :=
  let g := granBytes p.gran
  if r.len < n then faultParts .regionOverflow
  else if r.off % g ≠ 0 then faultParts .misaligned
  else loadParts r.off 0 (ceilDiv n g) n [] purpose

/-- `PM.WRITE` (43_codec.md R180); the bytes are the side operand `DATA`. -/
def beginPmWrite (region : Region) (o : Side) (s : State) : Run (List Part) :=
  .ok (pmWriteParts s.params region o.data ++ [replyUnit]) s

/-- `PM.READ` (43_codec.md R181). -/
def beginPmRead (n : Nat) (region : Region) (s : State) : Run (List Part) :=
  .ok (pmReadParts s.params region n .caller) s

end Sys2Proof.Machine
end

