-- ==== Sys2Proof/Machine/Engine.lean ====
section
/-! DEFINITION. The per-channel transaction engine (46_engine.md): `EP.READ`, `EP.WRITE`, `BUS.WAIT`, `EP.POLL`. A poll is
the prologue (R236), the arming of a new operation, and the checks of R237, R245 and R248, one access a step; every
step finds the operation in the polled task's record. -/

namespace Sys2Proof.Machine

/-! Starting an operation. -/

/-- Give task `t` an operation and enable its first poll (46_engine.md R230–R232). -/
def startOp (t : Nat) (op : Op) (s : State) : State := setWoken t true (setOp t (some op) s)

/-- The checks on the handle of `(c, d)` before task `t` starts an operation, in the order of 46_engine.md R230. -/
def takeHandle (t : Nat) (c : Chan) (d : Dir) (s : State) : Run Handle :=
  match handleAt s c d with
  | none => raise .noHandle s
  | some h =>
    if h.gen ≠ s.alloc.gen then raise .staleHandle s
    else if channelBusyAt s c d then raise .channelBusy s
    else if (taskRec s t).op ≠ none then raise .taskBusy s
    else .ok h s

/-- `EP.READ` (46_engine.md R230). -/
def beginEpRead (ch : Chan) (n : Nat) (o : Side) (s : State) : Run (List Part) :=
  (takeHandle o.task ch .dirIn s).bind fun h s =>
  reply o.task .pending (startOp o.task (.read ⟨h, n, [], 0, o.timeout, none, .arming⟩) s)

/-- `EP.WRITE` (46_engine.md R231). -/
def beginEpWrite (ch : Chan) (o : Side) (s : State) : Run (List Part) :=
  (takeHandle o.task ch .dirOut s).bind fun h s =>
  if h.region.len < o.data.length then raise .writeTooLarge s
  else if txCountMax < o.data.length then raise .countTooLarge s
  else reply o.task .pending (startOp o.task (.write ⟨h, o.data, o.timeout, none, .arming⟩) s)

/-- `BUS.WAIT` (46_engine.md R232). -/
def beginBusWait (target : BusState) (o : Side) (s : State) : Run (List Part) :=
  if (taskRec s o.task).op ≠ none then raise .taskBusy s
  else reply o.task .pending (startOp o.task (.busWait ⟨target, .awaitingCompletion⟩) s)

/-! Operation records. -/

/-- The handle an operation works on; a bus wait has none (10_state.md R61–R63). -/
def opHandle : Op → Option Handle
  | .read r => some r.h
  | .write w => some w.h
  | .busWait _ => none

/-- The handle of an operation is stale: a reset happened since the claim (46_engine.md R236). -/
def opStale (op : Op) (gen : Nat) : Bool :=
  match opHandle op with
  | some h => decide (h.gen ≠ gen)
  | none => false

/-- The waker slot a poll registers in (46_engine.md R237, R245, R248). -/
def opSlot : Op → Slot
  | .read r => .chan r.h.index .dirIn
  | .write w => .chan w.h.index .dirOut
  | .busWait _ => .bus

/-- `phase <- p` (00_scope.md R17). -/
def withPhase (op : Op) (p : Phase) : Op :=
  match op with
  | .read r => .read { r with phase := p }
  | .write w => .write { w with phase := p }
  | .busWait b => .busWait { b with phase := p }

/-- The bytes a failing operation leaves in the caller's buffer (46_engine.md R249). -/
def copiedOf : Op → List Byte
  | .read r => r.buf
  | .write _ => []
  | .busWait _ => []

/-! How a poll ends (46_engine.md R233, R249). -/

/-- `finish(Done(v))` or `finish(Failed(e))`: the phase is set, the operation leaves the task, the result is handed over. -/
def finishPoll (t : Nat) (op : Op) (p : Phase) (res : Result) (s : State) : Run (List Part) :=
  reply t res (setOp t none (setOp t (some (withPhase op p)) s))

def donePoll (t : Nat) (op : Op) (v : Value) (s : State) : Run (List Part) := finishPoll t op (.done v) (.ok v) s

/-- A read that fails keeps the bytes already copied. -/
def failPoll (t : Nat) (op : Op) (e : Err) (s : State) : Run (List Part) :=
  finishPoll t op (.failed e) (.err e (copiedOf op)) s

/-- What a step of a poll does with the operation of the polled task; without one there is nothing to poll (R233). -/
def withOp (t : Nat) (s : State) (f : Op → Run (List Part)) : Run (List Part) :=
  match (taskRec s t).op with
  | some op => f op
  | none => raise .noOperation s

/-! The steps of a poll. -/

/-- The registration and the checks that every poll makes, in this order (46_engine.md R237, R245, R248). -/
def checkParts (op : Op) : List Part := [.access (.register (opSlot op)), .access .readIstr]

/-- Step 1 of a read, the arm (46_engine.md R237). -/
def armReadParts (r : ReadOp) : List Part := [changeReg r.h.index (.setStatus .rx .valid), .own .armed]

/-- Steps 1 and 2 of a write: descriptor, data, arm (46_engine.md R245). -/
def armWriteParts (p : Params) (w : WriteOp) : List Part :=
  progTxParts p w.h.index w.h.region w.data.length ++ (pmWriteParts p w.h.region w.data ++
    [changeReg w.h.index (.setStatus .tx .valid), .own .armed])

/-- Disable the half and report an error (46_engine.md R238, R239). -/
def disableParts (c : Chan) (h : Half) (e : Err) : List Part := [changeReg c (.setStatus h .disabled), .own (.fail e)]

/-- The arming step, with the start instant, in the phase `Arming`; then the checks (46_engine.md R237, R245, R248). -/
def pollParts (t : Nat) (op : Op) (s : State) : Run (List Part) :=
  match op with
  | .read r =>
    match r.phase with
    | .arming => .ok (armReadParts r ++ checkParts op) (setOp t (some (.read { r with start := some s.now })) s)
    | _ => .ok (checkParts op) s
  | .write w =>
    match w.phase with
    | .arming => .ok (armWriteParts s.params w ++ checkParts op) (setOp t (some (.write { w with start := some s.now })) s)
    | _ => .ok (checkParts op) s
  | .busWait _ => .ok (checkParts op) s

/-- `poll_prologue` (46_engine.md R236), and what the poll has to do after it. -/
def pollPrologue (t : Nat) (s : State) : Run (List Part) :=
  withOp t s fun op =>
  let s := setWoken t false s
  if opStale op s.alloc.gen then raise .staleHandle s else pollParts t op s

/-- `register(slot, t)` (46_engine.md R237). -/
def pollRegister (t : Nat) (sl : Slot) (s : State) : Run (List Part) := .ok [] (register sl t s)

/-- The bus reports the state that is waited for (46_engine.md R248). -/
def busMatches (target : BusState) (dconStat : Bool) : Bool :=
  match target with
  | .connected => dconStat
  | .disconnected => !dconStat

/-- A transfer's disconnect check (46_engine.md R238); the timeout check is next. -/
def checkConnected (c : Chan) (h : Half) (dconStat : Bool) (s : State) : Run (List Part) :=
  if dconStat then .ok [.access .clock] s else .ok (disableParts c h .disconnected) s

/-- The read of `ISTR`: the disconnect check of a transfer (46_engine.md R238), the end of a bus wait (R248). -/
def pollIstr (t : Nat) (s : State) : Run (List Part) :=
  let i := istrFields s
  let s := nextDraw s
  withOp t s fun op =>
  match op with
  | .read r => checkConnected r.h.index .rx i.dconStat s
  | .write w => checkConnected w.h.index .tx i.dconStat s
  | .busWait b => if busMatches b.target i.dconStat then donePoll t op .unit s else reply t .pending s

/-- A transfer's timeout check (46_engine.md R239); the status is inspected next. -/
def checkTimeout (c : Chan) (h : Half) (timeout start : Option Nat) (s : State) : Run (List Part) :=
  if expired timeout start s.now then .ok (disableParts c h .timeout) s else .ok [.access .inspect] s

/-- The reading of the clock (46_engine.md R239). -/
def pollClock (t : Nat) (s : State) : Run (List Part) :=
  withOp t s fun op =>
  match op with
  | .read r => checkTimeout r.h.index .rx r.timeout r.start s
  | .write w => checkTimeout w.h.index .tx w.timeout w.start s
  | .busWait _ => raise .noOperation s

/-- The read of the channel register: the status decides (46_engine.md R240 rows 3–7, R247 rows 3–5). -/
def pollInspect (t : Nat) (s : State) : Run (List Part) :=
  withOp t s fun op =>
  match op with
  | .read r =>
    match getStat s.params .rx (readChep s r.h.index) with
    | .disabled => .ok [.access .readCount] (setOp t (some (withPhase op .accumulating)) s)
    | .stall => failPoll t op .stall s
    | .nak => reply t .pending s
    | .valid => reply t .pending s
  | .write w =>
    match getStat s.params .tx (readChep s w.h.index) with
    | .disabled => donePoll t op .unit s
    | .stall => failPoll t op .stall s
    | .nak => reply t .pending s
    | .valid => reply t .pending s
  | .busWait _ => raise .noOperation s

/-- The received count of a completed transaction (46_engine.md R237, R240 row 3). -/
def pollCount (t : Nat) (s : State) : Run (List Part) :=
  withOp t s fun op =>
  match op with
  | .read r =>
    (rxLen r.h.index s).bind fun n s =>
    if r.n - r.off < n then failPoll t op .bufferOverflow s
    else .ok (pmReadParts s.params r.h.region n .poll) s
  | _ => raise .noOperation s

/-- The received bytes join the buffer (46_engine.md R237, R240 rows 4 and 5). -/
def pollUnpacked (t : Nat) (bytes : List Byte) (s : State) : Run (List Part) :=
  withOp t s fun op =>
  match op with
  | .read r =>
    let n := bytes.length
    let r := { r with buf := r.buf ++ bytes, off := r.off + n }
    if r.off = r.n ∨ n < r.h.mps then donePoll t (.read r) (.received r.off r.buf) s
    else .ok [changeReg r.h.index (.setStatus .rx .valid), .own .rearmed] (setOp t (some (.read r)) s)
  | _ => raise .noOperation s

/-- `phase <- AwaitingCompletion` after the arm (46_engine.md R237, R245). -/
def pollArmed (t : Nat) (s : State) : Run (List Part) :=
  withOp t s fun op => .ok [] (setOp t (some (withPhase op .awaitingCompletion)) s)

/-- The end of a poll that disabled its half (46_engine.md R238, R239). -/
def pollFail (t : Nat) (e : Err) (s : State) : Run (List Part) := withOp t s fun op => failPoll t op e s

/-- The end of a poll that armed its half again (46_engine.md R240 row 5). -/
def pollRearmed (t : Nat) (s : State) : Run (List Part) :=
  withOp t s fun op => reply t .pending (setOp t (some (withPhase op .awaitingCompletion)) s)

/-- `EP.POLL` (46_engine.md R233) of the issuing task. -/
def beginEpPoll (s : State) : Run (List Part) := .ok [.access .prologue] s

end Sys2Proof.Machine
end

