-- ==== Sys2Proof/Machine/Allocator.lean ====
section
/-! DEFINITION. The packet-memory allocator (41_allocator.md): `PM.ALLOC`, `PM.RESET`. -/

namespace Sys2Proof.Machine

/-- `PM.ALLOC(length)` (41_allocator.md R150): a region, `none` for `Err(OutOfMemory)`, or a fault. -/
def pmAlloc (length : Nat) (s : State) : Run (Option Region) :=
  if length % granBytes s.params.gran ≠ 0 then raise .unalignedLength s
  else if s.params.pmaBytes < s.alloc.free + length then .ok none s
  else .ok (some ⟨s.alloc.free, length⟩) { s with alloc := { s.alloc with free := s.alloc.free + length } }

/-- `PM.RESET()` (41_allocator.md R151): rewind, clear both masks, next generation. -/
def pmReset (s : State) : State :=
  { s with alloc := { free := descTableBytes, inUseIn := 0, inUseOut := 0, gen := s.alloc.gen + 1 } }

/-- `PM.ALLOC` (41_allocator.md R150). -/
def beginPmAlloc (length : Nat) (o : Side) (s : State) : Run (List Part) :=
  (pmAlloc length s).bind fun r s =>
  match r with
  | some region => reply o.task (.ok (.region region)) s
  | none => reply o.task (.err .outOfMemory []) s

/-- `PM.RESET` (41_allocator.md R151). -/
def beginPmReset (o : Side) (s : State) : Run (List Part) := reply o.task (.ok .unit) (pmReset s)

end Sys2Proof.Machine
end

