-- ==== Sys2Proof/Machine/Lifecycle.lean ====
section
/-! DEFINITION. Channel allocation and lifecycle (47_lifecycle.md): `CH.CLAIM`, `CH.RECONF0`, `CH.DROP`. -/

namespace Sys2Proof.Machine

/-- The domain of the packet size at a claim (47_lifecycle.md R260). -/
def mpsInDomain (d : Dir) (mps : Nat) : Bool :=
  match d with
  | .dirIn => decide (2 ≤ mps) && decide (mps ≤ maxDescLen)
  | .dirOut => decide (1 ≤ mps) && decide (mps ≤ txCountMax)

/-- `regionSize(d, mps)` (47_lifecycle.md R261). -/
def regionSize (d : Dir) (mps : Nat) (s : State) : Run Nat :=
  match d with
  | .dirIn => (encOrFault mps s).bind fun code s => .ok (roundup (decCode code) (granBytes s.params.gran)) s
  | .dirOut => .ok (roundup mps (granBytes s.params.gran)) s

/-- Program the claimed half's descriptor (47_lifecycle.md R260): the receive half with its code, the transmit
half with count 0. -/
def progHalfParts (p : Params) (c : Chan) (d : Dir) (r : Region) (mps : Nat) : List Part :=
  match d with
  | .dirIn => progRxParts p c r mps
  | .dirOut => progTxParts p c r 0

/-- The draw of the in-use bit after a claim whose allocation fails (47_lifecycle.md R260), a free value (DESIGN CHOICE,
notes/assumptions/12.md). -/
def drawInUse (c : Chan) (d : Dir) (s : State) : State :=
  nextDraw (setInUse c d (Config.inUseDraw s.draws) s)

/-- The claim once its region is allocated (47_lifecycle.md R260): descriptor, register, handle. -/
def bindParts (p : Params) (a : Claim) (r : Region) : List Part :=
  progHalfParts p a.ch a.dir r a.mps ++ [changeReg a.ch (.init a.etype a.devaddr), .own (.enter a r)]

/-- The checks, the mark and the allocation of a claim (47_lifecycle.md R260). -/
def claimStep (t : Nat) (a : Claim) (s : State) : Run (List Part) :=
  if !mpsInDomain a.dir a.mps then raise .invalidLength s
  else if inUse s.alloc a.ch a.dir then reply t (.err .alreadyInUse []) s
  else
    (regionSize a.dir a.mps (setInUse a.ch a.dir true s)).bind fun size s =>
    (pmAlloc size s).bind fun res s =>
    match res with
    | none => reply t (.err .outOfMemory []) (drawInUse a.ch a.dir s)
    | some r => .ok (bindParts s.params a r) s

/-- The second claim of `CH.RECONF0`, with the operands of the first (47_lifecycle.md R262). -/
def secondClaim (hi : Handle) : Claim := ⟨0, .dirOut, .control, hi.devaddr, hi.mps, .reconfOut hi⟩

/-- The handle of a claim is made and entered (47_lifecycle.md R260); `CH.CLAIM` returns it, `CH.RECONF0` goes on to
its second claim or returns both (R262). -/
def enterHandle (t : Nat) (a : Claim) (r : Region) (s : State) : Run (List Part) :=
  let h : Handle := ⟨a.ch, a.dir, a.mps, a.etype, a.devaddr, r, s.alloc.gen⟩
  let s := setHandle s a.ch a.dir (some h)
  match a.purpose with
  | .caller => reply t (.ok (.handle h)) s
  | .reconfIn => .ok [.access (.claim (secondClaim h))] s
  | .reconfOut hi => reply t (.ok (.handles hi h)) s

/-- `CH.CLAIM` (47_lifecycle.md R260). -/
def beginChClaim (ch : Chan) (dir : Dir) (etype : EType) (devaddr mps : Nat) (s : State) : Run (List Part) :=
  .ok [.access (.claim ⟨ch, dir, etype, devaddr, mps, .caller⟩)] s

/-- `CH.RECONF0` (47_lifecycle.md R262): a full allocator reset, then channel 0 in both directions. -/
def beginChReconf0 (devaddr mps : Nat) (s : State) : Run (List Part) :=
  .ok [.access (.claim ⟨0, .dirIn, .control, devaddr, mps, .reconfIn⟩)] (pmReset s)

/-- `CH.DROP` (47_lifecycle.md R263): the region, the in-use bit, the descriptor and the register stay. -/
def beginChDrop (ch : Chan) (dir : Dir) (o : Side) (s : State) : Run (List Part) :=
  match handleAt s ch dir with
  | none => raise .noHandle s
  | some _ =>
    if channelBusyAt s ch dir then raise .channelBusy s
    else reply o.task (.ok .unit) (setHandle s ch dir none)

end Sys2Proof.Machine
end

