-- ==== Sys2Proof/Machine/PseudoInstructions.lean ====
section
/-! DEFINITION. The pseudo-instructions (30_encoding.md R130) and their expansions. -/

namespace Sys2Proof.Machine

/-- A claim whose index is taken from an endpoint address (30_encoding.md R130): `addr[3:0]`, which must be at most
7; `addr[7]` is ignored. -/
def expandAlloc (addr : Byte) (d : Dir) (etype : EType) (devaddr mps : Nat) : Except Fault Instr :=
  let n := addr.toNat % 16
  if h : n < 8 then .ok (.chClaim ⟨n, h⟩ d etype devaddr mps) else .error .badIndex

/-- The command a pseudo-instruction stands for, or the fault its expansion raises (30_encoding.md R130). -/
def expandPseudo : Pseudo → Except Fault Instr
  | .arm c d => .ok (.crSetstat c d .valid)
  | .disable c d => .ok (.crSetstat c d .disabled)
  | .allocIn addr mps etype devaddr => expandAlloc addr .dirIn etype devaddr.val mps.val
  | .allocOut addr mps etype devaddr => expandAlloc addr .dirOut etype devaddr.val mps.val
  | .waitConnect => .ok (.busWait .connected)
  | .waitDisconnect => .ok (.busWait .disconnected)

end Sys2Proof.Machine
end

