-- ==== Sys2Proof/Machine/Interleaving.lean ====
section
/-! DEFINITION. The interleaving of the agents (00_scope.md R23, 20_memory.md R88, R89): one step of a command in progress,
the first step of a command, a step of any agent, the points between the accesses of a command at which other agents
step, and a command run to its end. -/

namespace Sys2Proof.Machine

/-! One step of a command. -/

/-- The access of a step by task `t`, and what it adds to what is left of the command. -/
def accessStep (t : Nat) (a : Access) (s : State) : Run (List Part) :=
  match a with
  | .store a n v => storeStep a n v s
  | .readReg c change => readForChange c change s
  | .writeReg c change cur => writeChange t c change cur s
  | .load off k todo n got purpose => loadStep off k todo n got purpose s
  | .claim a => claimStep t a s
  | .prologue => pollPrologue t s
  | .register sl => pollRegister t sl s
  | .readIstr => pollIstr t s
  | .clock => pollClock t s
  | .inspect => pollInspect t s
  | .readCount => pollCount t s

/-- What task `t` does on its own after an access, and what that adds to what is left of the command. -/
def ownStep (t : Nat) (o : Own) (s : State) : Run (List Part) :=
  match o with
  | .raise r => raise r s
  | .reply r => reply t r s
  | .enter a r => enterHandle t a r s
  | .unpacked bytes .caller => reply t (.ok (.bytes bytes)) s
  | .unpacked bytes .poll => pollUnpacked t bytes s
  | .armed => pollArmed t s
  | .fail e => pollFail t e s
  | .rearmed => pollRearmed t s

/-- What a task does on its own, up to its command's next access. -/
def settle (t : Nat) (ps : List Part) (s : State) : Run (List Part) :=
  match ps with
  | .own o :: rest =>
    (ownStep t o s).bind fun more s =>
    match more with
    | [] => settle t rest s
    | more => .ok (more ++ rest) s
  | ps => .ok ps s

/-- One step of task `t`'s command, of which `ps` is left (20_memory.md R88): the next access and what the task does on
its own after it. -/
def advance (t : Nat) (ps : List Part) (s : State) : Run (List Part) :=
  match ps with
  | .access a :: rest => (accessStep t a s).bind fun more s => settle t (more ++ rest) s
  | ps => settle t ps s

/-! The first step of a command. -/

/-- What a command has to do. `IRQ.DISPATCH` is the dispatcher's (30_encoding.md R128): no task has anything to do of it. -/
def begin (i : Instr) (o : Side) (s : State) : Run (List Part) :=
  match i with
  | .pmAlloc length => beginPmAlloc length o s
  | .pmReset => beginPmReset o s
  | .bdEnc len => beginBdEnc len o s
  | .bdDec code => beginBdDec code o s
  | .bdProgrx ch mps region => beginBdProgrx ch mps region s
  | .bdProgtx ch count region => beginBdProgtx ch count region s
  | .bdRxlen ch => beginBdRxlen ch o s
  | .pmWrite region => beginPmWrite region o s
  | .pmRead n region => beginPmRead n region s
  | .crRead ch => beginCrRead ch o s
  | .crCanon value => beginCrCanon value o s
  | .crSetstat ch dir target => beginCrSetstat ch dir target s
  | .crClrctr ch flags => beginCrClrctr ch flags s
  | .crClrerr ch flags => beginCrClrerr ch flags s
  | .crInit ch etype devaddr => beginCrInit ch etype devaddr s
  | .crTouch ch => beginCrTouch ch s
  | .irqDispatch => .ok [] s
  | .epRead ch n => beginEpRead ch n o s
  | .epWrite ch => beginEpWrite ch o s
  | .epPoll => beginEpPoll s
  | .busWait target => beginBusWait target o s
  | .chClaim ch dir etype devaddr mps => beginChClaim ch dir etype devaddr mps s
  | .chReconf0 devaddr mps => beginChReconf0 devaddr mps s
  | .chDrop ch dir => beginChDrop ch dir o s

/-- The first step of a command by task `t`. -/
def firstStep (t : Nat) (r : Run (List Part)) : Run (List Part) := r.bind fun ps s => advance t ps s

/-- What an issued code asks for. -/
inductive Issued where
  | instr (i : Instr)
  /-- A pseudo-instruction's expansion raises a fault (30_encoding.md R130). -/
  | fault (r : Fault)
  /-- The word is `Invalid(w)` (30_encoding.md R114). -/
  | invalid (w : Word64)
deriving DecidableEq, Repr

/-- A word decoded, a pseudo-instruction expanded (30_encoding.md R114, R130; the fault of an expansion is raised as
it is issued: DEDUCED, notes/assumptions/18.md). -/
def issued : Code → Issued
  | .word w =>
    match decode w with
    | .ok i => .instr i
    | .error _ => .invalid w
  | .pseudo p =>
    match expandPseudo p with
    | .ok i => .instr i
    | .error r => .fault r

/-! Steps of the agents. -/

/-- What is left of task `t`'s command after a step of it. -/
def keepParts (t : Nat) (r : Run (List Part)) : Run Unit := r.bind fun ps s => .ok () (putParts s t ps)

/-- Task `t` may not start a command: a step falls within its own, `busy` being its task, or it has one in progress (DESIGN
CHOICE, notes/assumptions/9.md). -/
def occupied (busy : Option Nat) (t : Nat) (s : State) : Bool := decide (busy = some t) || hasCommand s t

/-- The first step of the command `c` by its task, where the task may start one. A word that is `Invalid(w)` is refused,
whoever issues it: it is not executed, nothing changes, and it is reported (60_exceptions.md R313; where the report
stands: DESIGN CHOICE, notes/assumptions/11.md). -/
def startStep (busy : Option Nat) (c : Issue) (s : State) : Run Unit :=
  match issued c.code with
  | .instr i => if occupied busy c.task s then .ok () s else keepParts c.task (firstStep c.task (begin i c.toSide s))
  | .fault r => if occupied busy c.task s then .ok () s else raise r s
  | .invalid w => .ok () (handOut (.task c.task) (.invalid w) s)

/-- The next step of the command that task `t` has in progress. -/
def resumeStep (t : Nat) (s : State) : Run Unit :=
  match partsOf s t with
  | [] => .ok () s
  | ps => keepParts t (advance t ps s)

/-- One step of an agent. `busy` is the task whose command the step falls within: it takes none of its own. An interrupt
entry saves nothing and its return restores nothing (60_exceptions.md R322, R323). -/
def eventStep (busy : Option Nat) (e : Event) (s : State) : Run Unit :=
  match e with
  | .env e => envStep e s
  | .irq between => (dispatch { s with irqSlots := between }).bind fun _ s => .ok () { s with irqSlots := [] }
  | .start c => startStep busy c s
  | .resume t => if busy = some t then .ok () s else resumeStep t s

/-- A run of steps of other agents. -/
def eventSteps (busy : Option Nat) (es : List Event) (s : State) : Run Unit :=
  match es with
  | [] => .ok () s
  | e :: rest => (eventStep busy e s).bind fun _ s => eventSteps busy rest s

/-- A point between two accesses of the current task's command (20_memory.md R88): any other agent may step, a task by
one access of its own command (DEDUCED, notes/assumptions/7.md). -/
def taskPoint (s : State) : Run Unit :=
  match s.slots with
  | [] => .ok () s
  | es :: rest => eventSteps (some s.task) es { s with slots := rest }

/-! A command to its end. -/

/-- A bound on the steps a claim leads to, and on those its end leads to. -/
def claimLeft : ClaimFor → Nat
  | .caller => 8
  | .reconfIn => 20
  | .reconfOut _ => 8

def enterLeft : ClaimFor → Nat
  | .caller => 1
  | .reconfIn => 10
  | .reconfOut _ => 1

/-- A bound on the steps a part leads to. A poll's prologue, whose steps no constant bounds, is always a first step. -/
def partLeft : Part → Nat
  | .access (.store _ _ _) => 1
  | .access (.readReg _ _) => 2
  | .access (.writeReg _ _ _) => 1
  | .access (.load _ _ todo _ _ _) => todo + 5
  | .access (.claim a) => claimLeft a.purpose
  | .access .prologue => 1
  | .access (.register _) => 1
  | .access .readIstr => 523
  | .access .clock => 522
  | .access .inspect => 521
  | .access .readCount => 520
  | .own (.raise _) => 1
  | .own (.reply _) => 1
  | .own (.enter a _) => enterLeft a.purpose
  | .own (.unpacked _ _) => 4
  | .own .armed => 1
  | .own (.fail _) => 1
  | .own .rearmed => 1

/-- A bound on the steps of what is left of a command. -/
def partsLeft (ps : List Part) : Nat :=
  match ps with
  | [] => 0
  | p :: rest => partLeft p + partsLeft rest

/-- The steps that are left of the current task's command, with a point before each. -/
def finish (fuel : Nat) (ps : List Part) (s : State) : Run (List Part) :=
  match fuel, ps with
  | 0, ps => .ok ps s
  | _ + 1, [] => .ok [] s
  | fuel + 1, p :: ps =>
    (taskPoint s).bind fun _ s => (advance s.task (p :: ps) s).bind fun ps s => finish fuel ps s

/-- A command of the current task, run to its end. -/
def runCommand (s : State) (begun : Run (List Part)) : Host.Outcome State Fault Refusal :=
  match (firstStep s.task begun).bind fun ps s => finish (partsLeft ps) ps s with
  | .ok _ s => .next s
  | .halt s => .next s

end Sys2Proof.Machine
end

