-- ==== Sys2Proof/Machine/Commands.lean ====
section
/-! DEFINITION. The meaning of each command of a task: what it has to do (`begin…`, in its family's file), run to its end
with other agents stepping at every point between its accesses. The dispatcher's own command is in Dispatcher.lean. -/

namespace Sys2Proof.Machine

/-- `PM.ALLOC` (41_allocator.md R150). -/
def execPmAlloc (length : Nat) (s : State) : Host.Outcome State Fault Refusal :=
  runCommand s (beginPmAlloc length (sideOf s) s)

/-- `PM.RESET` (41_allocator.md R151). -/
def execPmReset (s : State) : Host.Outcome State Fault Refusal :=
  runCommand s (beginPmReset (sideOf s) s)

/-- `BD.ENC` (42_descriptor.md R160). -/
def execBdEnc (len : Nat) (s : State) : Host.Outcome State Fault Refusal :=
  runCommand s (beginBdEnc len (sideOf s) s)

/-- `BD.DEC` (42_descriptor.md R161). -/
def execBdDec (code : Half16) (s : State) : Host.Outcome State Fault Refusal :=
  runCommand s (beginBdDec code (sideOf s) s)

/-- `BD.PROGRX` (42_descriptor.md R162). -/
def execBdProgrx (ch : Chan) (mps : Nat) (region : Region) (s : State) : Host.Outcome State Fault Refusal :=
  runCommand s (beginBdProgrx ch mps region s)

/-- `BD.PROGTX` (42_descriptor.md R163). -/
def execBdProgtx (ch : Chan) (count : Nat) (region : Region) (s : State) : Host.Outcome State Fault Refusal :=
  runCommand s (beginBdProgtx ch count region s)

/-- `BD.RXLEN` (42_descriptor.md R164). -/
def execBdRxlen (ch : Chan) (s : State) : Host.Outcome State Fault Refusal :=
  runCommand s (beginBdRxlen ch (sideOf s) s)

/-- `PM.WRITE` (43_codec.md R180). -/
def execPmWrite (region : Region) (s : State) : Host.Outcome State Fault Refusal :=
  runCommand s (beginPmWrite region (sideOf s) s)

/-- `PM.READ` (43_codec.md R181). -/
def execPmRead (n : Nat) (region : Region) (s : State) : Host.Outcome State Fault Refusal :=
  runCommand s (beginPmRead n region s)

/-- `CR.READ` (44_channel_register.md R195). -/
def execCrRead (ch : Chan) (s : State) : Host.Outcome State Fault Refusal :=
  runCommand s (beginCrRead ch (sideOf s) s)

/-- `CR.CANON` (44_channel_register.md R191). -/
def execCrCanon (value : Word32) (s : State) : Host.Outcome State Fault Refusal :=
  runCommand s (beginCrCanon value (sideOf s) s)

/-- `CR.SETSTAT` (44_channel_register.md R192). -/
def execCrSetstat (ch : Chan) (dir : Dir) (target : Status) (s : State) : Host.Outcome State Fault Refusal :=
  runCommand s (beginCrSetstat ch dir target s)

/-- `CR.CLRCTR` (44_channel_register.md R193). -/
def execCrClrctr (ch : Chan) (flags : FlagSet) (s : State) : Host.Outcome State Fault Refusal :=
  runCommand s (beginCrClrctr ch flags s)

/-- `CR.CLRERR` (44_channel_register.md R194). -/
def execCrClrerr (ch : Chan) (flags : FlagSet) (s : State) : Host.Outcome State Fault Refusal :=
  runCommand s (beginCrClrerr ch flags s)

/-- `CR.INIT` (44_channel_register.md R196). -/
def execCrInit (ch : Chan) (etype : EType) (devaddr : Nat) (s : State) : Host.Outcome State Fault Refusal :=
  runCommand s (beginCrInit ch etype devaddr s)

/-- `CR.TOUCH` (44_channel_register.md R197). -/
def execCrTouch (ch : Chan) (s : State) : Host.Outcome State Fault Refusal :=
  runCommand s (beginCrTouch ch s)

/-- `EP.READ` (46_engine.md R230). -/
def execEpRead (ch : Chan) (n : Nat) (s : State) : Host.Outcome State Fault Refusal :=
  runCommand s (beginEpRead ch n (sideOf s) s)

/-- `EP.WRITE` (46_engine.md R231). -/
def execEpWrite (ch : Chan) (s : State) : Host.Outcome State Fault Refusal :=
  runCommand s (beginEpWrite ch (sideOf s) s)

/-- `EP.POLL` (46_engine.md R233). -/
def execEpPoll (s : State) : Host.Outcome State Fault Refusal :=
  runCommand s (beginEpPoll s)

/-- `BUS.WAIT` (46_engine.md R232). -/
def execBusWait (target : BusState) (s : State) : Host.Outcome State Fault Refusal :=
  runCommand s (beginBusWait target (sideOf s) s)

/-- `CH.CLAIM` (47_lifecycle.md R260). -/
def execChClaim (ch : Chan) (dir : Dir) (etype : EType) (devaddr mps : Nat) (s : State) :
    Host.Outcome State Fault Refusal :=
  runCommand s (beginChClaim ch dir etype devaddr mps s)

/-- `CH.RECONF0` (47_lifecycle.md R262). -/
def execChReconf0 (devaddr mps : Nat) (s : State) : Host.Outcome State Fault Refusal :=
  runCommand s (beginChReconf0 devaddr mps s)

/-- `CH.DROP` (47_lifecycle.md R263). -/
def execChDrop (ch : Chan) (dir : Dir) (s : State) : Host.Outcome State Fault Refusal :=
  runCommand s (beginChDrop ch dir (sideOf s) s)

end Sys2Proof.Machine
end

