-- ==== Sys2Proof/Machine/Dispatch.lean ====
section
/-! DEFINITION. The dispatch of an instruction to its meaning: one arm per constructor. -/

namespace Sys2Proof.Machine

def exec (i : Instr) (s : State) : Host.Outcome State Fault Refusal :=
  match i with
  | .pmAlloc length => Sys2Proof.Machine.execPmAlloc length s
  | .pmReset => Sys2Proof.Machine.execPmReset s
  | .bdEnc len => Sys2Proof.Machine.execBdEnc len s
  | .bdDec code => Sys2Proof.Machine.execBdDec code s
  | .bdProgrx ch mps region => Sys2Proof.Machine.execBdProgrx ch mps region s
  | .bdProgtx ch count region => Sys2Proof.Machine.execBdProgtx ch count region s
  | .bdRxlen ch => Sys2Proof.Machine.execBdRxlen ch s
  | .pmWrite region => Sys2Proof.Machine.execPmWrite region s
  | .pmRead n region => Sys2Proof.Machine.execPmRead n region s
  | .crRead ch => Sys2Proof.Machine.execCrRead ch s
  | .crCanon value => Sys2Proof.Machine.execCrCanon value s
  | .crSetstat ch dir target => Sys2Proof.Machine.execCrSetstat ch dir target s
  | .crClrctr ch flags => Sys2Proof.Machine.execCrClrctr ch flags s
  | .crClrerr ch flags => Sys2Proof.Machine.execCrClrerr ch flags s
  | .crInit ch etype devaddr => Sys2Proof.Machine.execCrInit ch etype devaddr s
  | .crTouch ch => Sys2Proof.Machine.execCrTouch ch s
  | .irqDispatch => Sys2Proof.Machine.execIrqDispatch s
  | .epRead ch n => Sys2Proof.Machine.execEpRead ch n s
  | .epWrite ch => Sys2Proof.Machine.execEpWrite ch s
  | .epPoll => Sys2Proof.Machine.execEpPoll s
  | .busWait target => Sys2Proof.Machine.execBusWait target s
  | .chClaim ch dir etype devaddr mps => Sys2Proof.Machine.execChClaim ch dir etype devaddr mps s
  | .chReconf0 devaddr mps => Sys2Proof.Machine.execChReconf0 devaddr mps s
  | .chDrop ch dir => Sys2Proof.Machine.execChDrop ch dir s

end Sys2Proof.Machine
end

