-- ==== Sys2Proof/Machine/Fetch.lean ====
section
/-! DEFINITION. Which agent steps next and with what (10_state.md R69, 00_scope.md R23): taking the next choice off
`State.inputs`, putting a command's side operands where its meaning reads them (30_encoding.md R113), and placing a
command word as the next choice. -/

namespace Sys2Proof.Machine

/-- What the next choice asks for. -/
inductive Fetched where
  /-- No agent is chosen. -/
  | idle
  /-- An agent takes one step. -/
  | event (e : Event) (s : State)
  /-- An instruction is issued and runs to its end; its side operands stand in the state. -/
  | instr (i : Instr) (s : State)
  /-- A pseudo-instruction's expansion raises a fault (30_encoding.md R130). -/
  | fault (r : Fault) (s : State)
  /-- A command of a task that has one in progress: the choice is passed over. -/
  | busy (s : State)
  /-- The word is `Invalid(w)` (30_encoding.md R114). -/
  | invalid (w : Word64)
deriving DecidableEq, Repr

/-- The state in which a choice is made: it is taken, and no result is handed out yet. -/
def takeInput (rest : List Input) (s : State) : State := { s with inputs := rest, out := [] }

/-- The state in which a command runs: the choice taken, its side operands in place. -/
def loadCommand (c : Command) (s : State) : State :=
  { s with task := c.task, data := c.data, timeout := c.timeout, slots := c.slots, irqSlots := c.irqSlots }

/-- An instruction as it is issued. A task issues none while it has one in progress (DESIGN CHOICE,
notes/assumptions/9.md); `IRQ.DISPATCH` is the dispatcher's, whoever it names. -/
def fetchInstr (i : Instr) (c : Command) (s : State) : Fetched :=
  if i ≠ .irqDispatch ∧ hasCommand s c.task then .busy s else .instr i (loadCommand c s)

/-- A command as it is issued (30_encoding.md R114, R130). -/
def fetchCommand (c : Command) (s : State) : Fetched :=
  match issued c.code with
  | .instr i => fetchInstr i c s
  | .fault r => if hasCommand s c.task then .busy s else .fault r (loadCommand c s)
  | .invalid w => .invalid w

/-- A single step as it is chosen; the first step of an `Invalid(w)` word is refused as the word is. -/
def fetchEvent (e : Event) (s : State) : Fetched :=
  match e with
  | .start c =>
    match issued c.code with
    | .invalid w => .invalid w
    | _ => .event e s
  | e => .event e s

/-- The next choice, decoded. An empty schedule chooses no agent (DESIGN CHOICE, notes/assumptions/8.md). -/
def fetch (s : State) : Fetched :=
  match s.inputs with
  | [] => .idle
  | .event e :: rest => fetchEvent e (takeInput rest s)
  | .command c :: rest => fetchCommand c (takeInput rest s)

/-- The state a sequence of accesses leaves, whether or not a fault stopped it. -/
def stateAfter (r : Run Unit) : State :=
  match r with
  | .ok _ s => s
  | .halt s => s

/-- A task with no command in progress: 0, or else the first id above every task that has one. -/
def freeTask (s : State) : Nat :=
  if hasCommand s 0 then s.inProgress.foldr (fun e n => max (e.1 + 1) n) 0 else 0

/-- A command word with no side operands, nobody stepping in between. -/
def plainCommand (w : Word64) (task : Nat) : Command where
  code := .word w
  task := task
  data := []
  timeout := none
  slots := []
  irqSlots := []

/-- The word, as a command of a task that is free to issue it, becomes the next choice: how a program comes to run
(DESIGN CHOICE, notes/assumptions/8.md). -/
def placeWord (s : State) (nbits w : Nat) : State :=
  { s with inputs := .command (plainCommand (BitVec.ofNat 64 (w % 2 ^ nbits)) (freeTask s)) :: s.inputs }

end Sys2Proof.Machine
end

