-- ==== Sys2Proof/Machine/Step.lean ====
section
/-! DEFINITION. One step of the interleaving (00_scope.md R23): the chosen agent runs its command, or takes one step of its
own. Once a fault is set no agent takes a further step (10_state.md R65). -/

namespace Sys2Proof.Machine

/-- One step. -/
def step (s : State) : Host.Outcome State Fault Refusal :=
  match s.fault with
  | some r => .fault r
  | none =>
    match fetch s with
    | .idle => .next s
    | .event e s' => .next (stateAfter (eventStep none e s'))
    | .instr i s' => exec i s'
    | .fault r s' => .next (raiseFault r s')
    | .busy s' => .next s'
    | .invalid w => .refused (.invalid w)

/-- `s` with the instruction placed where `step` takes its next command from. -/
def State.withFetchWord (s : State) (nbits w : Nat) : State := placeWord s nbits w

end Sys2Proof.Machine
end

