-- ==== Sys2Proof/Safety.lean ====
section
/-! DEFINITION. The terms claims use: the invariants the spec states of every reachable state (10_state.md R40–R44, R48, R52,
R60–R63, 46_engine.md R241), the canonical form of the data, and what one step never undoes. -/

namespace Sys2Proof.Machine

/-- Every command word with these fields (30_encoding.md R111, R112) decodes to the instruction. -/
def EncodedAs (f : Fields) (i : Instr) : Prop := ∀ w : Word64, fieldsOf w = f → decode w = .ok i

/-- The parameters are admitted, and packet memory, the task table and the commands in progress are in their canonical
forms: the model's own (DESIGN CHOICE, notes/assumptions/2.md and 17.md). -/
structure Canonical (s : State) : Prop where
  params : paramsWf s.params = true
  pma : pmaWf s.pma s.params.pmaBytes = true
  tasks : tasksWf s.tasks = true
  progress : progressWf s.inProgress = true

/-- Two regions share no byte (10_state.md R44). -/
def regionsApart (a b : Region) : Prop := a.off + a.len ≤ b.off ∨ b.off + b.len ≤ a.off

/-- The handle table holds `h` for `(c, d)` and no reset came since its claim (10_state.md R53). -/
def liveHandle (s : State) (c : Chan) (d : Dir) (h : Handle) : Prop := handleAt s c d = some h ∧ h.gen = s.alloc.gen

/-- `(c, d)` owns the region `r`: by a live handle, or by a claim in progress that has allocated it. `left` says what
each task still has to do. -/
def ownsRegion (left : Nat → List Part) (s : State) (c : Chan) (d : Dir) (r : Region) : Prop :=
  (∃ h, liveHandle s c d h ∧ h.region = r) ∨ ∃ t a, .own (.enter a r) ∈ left t ∧ a.ch = c ∧ a.dir = d

/-- The allocator invariant (10_state.md R40, R42, R44) while the tasks have `left` to do. -/
structure AllocatorGood (left : Nat → List Part) (s : State) : Prop where
  params : paramsWf s.params = true
  low : descTableBytes ≤ s.alloc.free
  high : s.alloc.free ≤ s.params.pmaBytes
  aligned : s.alloc.free % granBytes s.params.gran = 0
  named : ∀ c d h, handleAt s c d = some h → h.index = c ∧ h.dir = d ∧ h.gen ≤ s.alloc.gen
  marked : ∀ c d r, ownsRegion left s c d r → inUse s.alloc c d = true
  inside : ∀ c d r, ownsRegion left s c d r → descTableBytes ≤ r.off ∧ r.off + r.len ≤ s.alloc.free ∧
    r.off % granBytes s.params.gran = 0 ∧ r.len % granBytes s.params.gran = 0
  apart : ∀ c d r c' d' r', ownsRegion left s c d r → ownsRegion left s c' d' r' → (c, d) ≠ (c', d') →
    regionsApart r r'

/-- The allocator invariant, with the regions that live handles and claims in progress own. -/
def AllocatorInv (s : State) : Prop := AllocatorGood (partsOf s) s

/-- The code resets the allocator (41_allocator.md R151, 47_lifecycle.md R262). -/
def codeResets (c : Code) : Bool :=
  match issued c with
  | .instr .pmReset => true
  | .instr (.chReconf0 _ _) => true
  | _ => false

/-- The step starts a command that resets the allocator. -/
def eventResets : Event → Bool
  | .start c => codeResets c.code
  | .env _ | .irq _ | .resume _ => false

/-- Some task has allocated the region of a claim and not yet entered its handle. -/
def claimPending (s : State) : Prop := ∃ t a r, .own (.enter a r) ∈ partsOf s t

/-- No allocator reset is issued while a claim is in progress, or within another command: claims and resets do not
overlap, as 20_memory.md R95 and 70_reset_and_hazards.md R354 ask of software. -/
def resetsApart (s : State) : Prop :=
  match s.inputs with
  | [] => True
  | .event e :: _ => eventResets e = true → ¬ claimPending s
  | .command c :: _ => (codeResets c.code = true → ¬ claimPending s) ∧ ∀ es ∈ c.slots, ∀ e ∈ es, eventResets e = false

/-- The phase and the start instant of an operation between two polls (10_state.md R60: `Accumulating` is occupied
only inside a poll, `Done` and `Failed` hand their result over at once). -/
def betweenPolls (phase : Phase) (start : Option Nat) : Prop :=
  (phase = .arming ∧ start = none) ∨ (phase = .awaitingCompletion ∧ start.isSome = true)

/-- What an operation record holds between two polls (10_state.md R61–R63). -/
def opWf : Op → Prop
  | .read r => r.h.dir = .dirIn ∧ r.buf.length = r.off ∧ r.off ≤ r.n ∧ betweenPolls r.phase r.start
  | .write w => w.h.dir = .dirOut ∧ w.data.length ≤ w.h.region.len ∧ w.data.length ≤ txCountMax ∧
      betweenPolls w.phase w.start
  | .busWait b => b.phase = .awaitingCompletion

/-- The operation is a transfer, not a bus wait. -/
def isTransfer (op : Op) : Prop := opChannel op ≠ none

/-- What an operation record holds within a poll, in a phase (10_state.md R60–R63). -/
def opIn (op : Op) (p : Phase) : Prop :=
  match op with
  | .read r => r.h.dir = .dirIn ∧ r.buf.length = r.off ∧ r.off ≤ r.n ∧ r.phase = p ∧ r.start.isSome = true
  | .write w => w.h.dir = .dirOut ∧ w.data.length ≤ w.h.region.len ∧ w.data.length ≤ txCountMax ∧ w.phase = p ∧
      w.start.isSome = true
  | .busWait b => b.phase = p

/-- The operation is a read with room for `n` bytes more, in the phase `Accumulating`. -/
def accumulates (op : Op) (n : Nat) : Prop :=
  opIn op .accumulating ∧
  match op with
  | .read r => n ≤ r.n - r.off
  | _ => False

/-- A part that only a poll has. -/
def pollPart : Part → Bool
  | .access .prologue | .access (.register _) | .access .readIstr | .access .clock | .access .inspect
  | .access .readCount | .access (.load _ _ _ _ _ .poll) | .own (.unpacked _ .poll) | .own .armed | .own (.fail _)
  | .own .rearmed => true
  | _ => false

/-- A poll is in progress (20_memory.md R89). -/
def polling (ps : List Part) : Bool := ps.any pollPart

/-- What the record of a polled task holds, from what is left of the poll (46_engine.md R237, R245, R248). -/
def pollFits (op : Op) (ps : List Part) : Prop :=
  match ps with
  | [] => False
  | .access (.store _ _ _) :: rest => pollFits op rest
  | .access (.readReg _ _) :: rest => pollFits op rest
  | .access (.writeReg _ _ _) :: rest => pollFits op rest
  | .own (.raise _) :: _ => True
  | .access .prologue :: rest => opWf op ∧ rest = []
  | .own .armed :: rest => opIn op .arming ∧ isTransfer op ∧ rest = checkParts op
  | .access (.register sl) :: rest => opIn op .awaitingCompletion ∧ sl = opSlot op ∧ rest = [.access .readIstr]
  | .access .readIstr :: rest => opIn op .awaitingCompletion ∧ rest = []
  | .access .clock :: rest => opIn op .awaitingCompletion ∧ isTransfer op ∧ rest = []
  | .access .inspect :: rest => opIn op .awaitingCompletion ∧ isTransfer op ∧ rest = []
  | .own (.fail _) :: rest => opIn op .awaitingCompletion ∧ isTransfer op ∧ rest = []
  | .access .readCount :: rest => accumulates op 0 ∧ rest = []
  | .access (.load _ _ _ n _ .poll) :: rest => accumulates op n ∧ rest = []
  | .own (.unpacked bytes .poll) :: rest => accumulates op bytes.length ∧ rest = []
  | .own .rearmed :: rest => accumulates op 0 ∧ rest = []
  | _ => False

/-- The engine's invariant while the tasks have `left` to do: operation records between polls and within them (10_state.md
R60–R63), exclusivity (R52) and the wake invariant (46_engine.md R241: a poll in progress has the task registered
before it reads the status). -/
structure EngineGood (left : Nat → List Part) (s : State) : Prop where
  named : ∀ c d h, handleAt s c d = some h → h.index = c ∧ h.dir = d
  records : ∀ t op, (taskRec s t).op = some op → polling (left t) = false → opWf op
  polled : ∀ t, polling (left t) = true → ∃ op, (taskRec s t).op = some op ∧ pollFits op (left t)
  exclusive : ∀ t u op op' c d, (taskRec s t).op = some op → (taskRec s u).op = some op' →
    opChannel op = some (c, d) → opChannel op' = some (c, d) → t = u
  wakes : ∀ t op c d, (taskRec s t).op = some op → opChannel op = some (c, d) →
    .access (.register (.chan c d)) ∈ left t ∨ slotOf s (.chan c d) = some t ∨ (taskRec s t).woken = true

/-- The engine's invariant. -/
def EngineInv (s : State) : Prop := EngineGood (partsOf s) s

/-- The engine's invariant of a run that has not faulted; after a fault no later step occurs (60_exceptions.md R310). -/
def engineSafe (s : State) : Prop := s.fault = none → EngineInv s

/-- Every register value a task has read and not yet written back has the `OTHER` bits the register has
(44_channel_register.md R199). -/
def readsAgree (s : State) : Prop := ∀ t c change cur, .access (.writeReg c change cur) ∈ partsOf s t →
  cur &&& pMask s.params.chep = readChep s c &&& pMask s.params.chep

/-- Only the dispatcher and the environment step at the points of the current command. -/
def noTaskSteps (s : State) : Prop := ∀ es ∈ s.slots, ∀ e ∈ es, match e with
  | .env _ | .irq _ => True
  | .start _ | .resume _ => False

/-- The latched conditions of `ISTR` that a rule names (10_state.md R48). -/
def latchMask (p : Params) : Word32 := bitAt p.istr.dcon ||| bitAt p.istr.err ||| bitAt p.istr.pmaovr

/-- No stored `ISTR` bit other than the named latches is set (10_state.md R48). -/
def istrOthersZero (s : State) : Prop := s.istr &&& ~~~ latchMask s.params = 0

/-- What no step undoes: the parameters (10_state.md R69), the log (R66), the clock (R64), the generation (R43) and,
within one generation, the bump pointer (41_allocator.md R152) and the in-use marks (10_state.md R42). -/
structure OnlyForward (s s' : State) : Prop where
  params : s'.params = s.params
  log : s.log <+: s'.log
  now : s.now ≤ s'.now
  gen : s.alloc.gen ≤ s'.alloc.gen
  free : s'.alloc.gen = s.alloc.gen → s.alloc.free ≤ s'.alloc.free
  marks : s'.alloc.gen = s.alloc.gen → ∀ c d, inUse s.alloc c d = true → inUse s'.alloc c d = true

/-! What one poll does, in the shape of the spec's transition tables (46_engine.md R240, R247). -/

/-- A row's outcome: the status the half is given (`none`: it is not written), the operation left in flight, and the
result of the poll. -/
structure Transition where
  status : Option Status
  op : Option Op
  result : Result
deriving DecidableEq, Repr

/-- The read transition function (46_engine.md R240): `conn`, `exp`, `st` and `n` as the rule names them; `bytes` are
the `n` bytes of the received packet. -/
def readTransition (r : ReadOp) (conn exp : Bool) (st : Status) (n : Nat) (bytes : List Byte) : Transition :=
  if !conn then ⟨some .disabled, none, .err .disconnected r.buf⟩
  else if exp then ⟨some .disabled, none, .err .timeout r.buf⟩
  else match st with
  | .disabled =>
    if r.n - r.off < n then ⟨none, none, .err .bufferOverflow r.buf⟩
    else if r.off + n = r.n ∨ n < r.h.mps then ⟨none, none, .ok (.received (r.off + n) (r.buf ++ bytes))⟩
    else ⟨some .valid,
      some (.read { r with buf := r.buf ++ bytes, off := r.off + n, phase := .awaitingCompletion }), .pending⟩
  | .stall => ⟨none, none, .err .stall r.buf⟩
  | .nak => ⟨none, some (.read r), .pending⟩
  | .valid => ⟨none, some (.read r), .pending⟩

/-- The write transition function (46_engine.md R247). -/
def writeTransition (w : WriteOp) (conn exp : Bool) (st : Status) : Transition :=
  if !conn then ⟨some .disabled, none, .err .disconnected []⟩
  else if exp then ⟨some .disabled, none, .err .timeout []⟩
  else match st with
  | .disabled => ⟨none, none, .ok .unit⟩
  | .stall => ⟨none, none, .err .stall []⟩
  | .nak => ⟨none, some (.write w), .pending⟩
  | .valid => ⟨none, some (.write w), .pending⟩

/-- A poll of the current task on `(c, d)` left everything but packet memory, the log, its own record, its waker slot
and its half's status, and did this: its slot holds it, its `woken` flag is down, its operation and the result are the
row's. -/
structure Polled (s s' : State) (c : Chan) (d : Dir) (op : Option Op) (res : Result) : Prop where
  params : s'.params = s.params
  istr : s'.istr = s.istr
  errChan : s'.errChan = s.errChan
  connected : s'.connected = s.connected
  alloc : s'.alloc = s.alloc
  htIn : s'.htIn = s.htIn
  htOut : s'.htOut = s.htOut
  now : s'.now = s.now
  fault : s'.fault = s.fault
  chep : ∀ c', c' ≠ c → readChep s' c' = readChep s c'
  slot : ∀ sl, slotOf s' sl = if sl = .chan c d then some s.task else slotOf s sl
  others : ∀ u, u ≠ s.task → taskRec s' u = taskRec s u
  mine : taskRec s' s.task = ⟨op, false⟩
  inProgress : s'.inProgress = s.inProgress
  out : s'.out = s.out ++ [(.task s.task, res)]

/-- The register after a row's status write, and what the write adds to the log. -/
def Transition.chep (tr : Transition) (p : Params) (h : Half) (v : Word32) : Word32 :=
  match tr.status with
  | none => v
  | some st => putStat p h v st

def Transition.log (tr : Transition) (p : Params) (h : Half) (t : Nat) (c : Chan) (v : Word32) : List LogEntry :=
  match tr.status with
  | none => []
  | some st => [.writeChep (.task t) c (setstatWord p h v st)]

end Sys2Proof.Machine
end

