-- ==== Sys2Proof/Certificates/Slice0/Obligations.lean ====
section
/-! DEFINITION. The statements for the provers, in the order of the spec's files: encodings, the length code, the allocator,
descriptors, the codec, the channel register, the dispatcher, the engine, the lifecycle, the peripheral and the clock,
reset, and the invariants every step keeps. -/

open Sys2Proof Sys2Proof.Machine

/-! ## Encodings (30_encoding.md) -/

/-- Decoding the word of a well-formed instruction gives the instruction back (R111, R112, R127). -/
def Obligations.DecodeOfEncode : Prop := ∀ i : Instr, i.wf = true → decode (encode i) = .ok i

/-- Every word that decodes is the word of the instruction it decodes to, and that instruction is well formed. -/
def Obligations.EncodeOfDecode : Prop := ∀ (w : Word64) (i : Instr), decode w = .ok i → encode i = w ∧ i.wf = true

/-- The decoder accepts exactly the words a row of the opcode map matches, at most one row matches a word, and a word no row
matches is refused (R114, 60_exceptions.md R313): by `step` where it is the choice, and by a report to the driver where a
task issues it within another command, nothing else changing (where the report stands is the model's own choice,
notes/assumptions/11.md). -/
def Obligations.DecodeFollowsTable : Prop :=
  (∀ (w : Word64) (i : Instr), decode w = .ok i →
    ∃ row ∈ opcodeTable, row.mnemonic = mnemonicOf i ∧ w &&& row.mask = row.matchBits) ∧
  (∀ (w : Word64) (row : OpcodeRow), row ∈ opcodeTable → w &&& row.mask = row.matchBits →
    ∃ i, decode w = .ok i ∧ mnemonicOf i = row.mnemonic) ∧
  (∀ (w : Word64) (row row' : OpcodeRow), row ∈ opcodeTable → row' ∈ opcodeTable → w &&& row.mask = row.matchBits →
    w &&& row'.mask = row'.matchBits → row = row') ∧
  (∀ (w : Word64), (∀ row ∈ opcodeTable, w &&& row.mask ≠ row.matchBits) →
    (∃ e, decode w = .error e) ∧
    (∀ (s : State) (c : Command) (rest : List Input), s.fault = none → s.inputs = .command c :: rest → c.code = .word w →
      step s = .refused (.invalid w)) ∧
    (∀ (s : State) (c : Issue) (rest : List Input), s.fault = none → s.inputs = .event (.start c) :: rest →
      c.code = .word w → step s = .refused (.invalid w)) ∧
    (∀ (busy : Option Nat) (s : State) (c : Issue), c.code = .word w →
      eventStep busy (.start c) s = .ok () { s with out := s.out ++ [(.task c.task, .invalid w)] }))

/-- A few words written out in 95_test_vectors.md decode to the commands the spec gives beside them. -/
def Obligations.SampleWordsDecode : Prop :=
  decode 0x0100000000000040 = .ok (.pmAlloc 64) ∧
  decode 0x1220004000500040 = .ok (.bdProgrx 1 64 ⟨80, 64⟩) ∧
  decode 0x2100000300500040 = .ok (.pmRead 3 ⟨80, 64⟩) ∧
  decode 0x3230000000000003 = .ok (.crSetstat 1 .dirIn .valid) ∧
  decode 0x4000000000000000 = .ok .irqDispatch ∧
  decode 0x50300000000000C8 = .ok (.epRead 1 200) ∧
  decode 0x605C180600000000 = .ok (.chClaim 2 .dirIn .interrupt 3 6)

/-- A command word that decodes is executed, with the choice taken and the side operands in place, unless its task has a
command in progress (then it is passed over, notes/assumptions/9.md); the word that `withFetchWord` places is the next
command; a single step of an agent is taken whole; where no choice is left the state stays (the model's own choice,
notes/assumptions/8.md). A step of a command in progress makes at most one access (20_memory.md R88): it stores the
bytes of the one `MemWrite` it is at, or does the one `RegWrite` it is at, and leaves every other agent's state alone. -/
def Obligations.StepRunsDecodedInstruction : Prop :=
  (∀ (s : State) (c : Command) (rest : List Input) (w : Word64) (i : Instr),
    s.fault = none → s.inputs = .command c :: rest → c.code = .word w → decode w = .ok i →
    (i = .irqDispatch ∨ partsOf s c.task = [] → step s = exec i { s with
      inputs := rest, task := c.task, data := c.data, timeout := c.timeout
      slots := c.slots, irqSlots := c.irqSlots, out := [] }) ∧
    (i ≠ .irqDispatch → partsOf s c.task ≠ [] → step s = .next { s with inputs := rest, out := [] })) ∧
  (∀ (s : State) (w : Nat) (i : Instr), s.fault = none → decodeTableWord 64 w = some i →
    ∃ t, partsOf s t = [] ∧ step (s.withFetchWord 64 w) =
      exec i { s with task := t, data := [], timeout := none, slots := [], irqSlots := [], out := [] }) ∧
  (∀ (s : State) (e : Event) (rest : List Input), s.fault = none → s.inputs = .event e :: rest →
    (∀ c, e = .start c → ∀ w, c.code = .word w → ∃ i, decode w = .ok i) →
    step s = .next (stateAfter (eventStep none e { s with inputs := rest, out := [] }))) ∧
  (∀ s : State, s.fault = none → s.inputs = [] → step s = .next s) ∧
  (∀ (s s' : State) (t : Nat) (p : Part) (ps : List Part), partsOf s t = p :: ps →
    eventStep none (.resume t) s = .ok () s' →
    (∀ a n v, p = .access (.store a n v) →
      (∀ k, k < a ∨ a + n ≤ k → pmaByte s' k = pmaByte s k) ∧ s'.chep = s.chep ∧ s'.log = s.log) ∧
    (∀ c change cur, p = .access (.writeReg c change cur) →
      s'.pma = s.pma ∧ (∀ c', c' ≠ c → readChep s' c' = readChep s c') ∧
      readChep s' c = hwWriteChep s.params (readChep s c) (changeWord s.params c cur change) ∧
      s'.log = s.log ++ [.writeChep (.task t) c (changeWord s.params c cur change)]) ∧
    ((∀ a n v, p ≠ .access (.store a n v)) → (∀ c change cur, p ≠ .access (.writeReg c change cur)) →
      s'.pma = s.pma ∧ s'.chep = s.chep ∧ s'.log = s.log) ∧
    (∀ u, u ≠ t → partsOf s' u = partsOf s u ∧ taskRec s' u = taskRec s u) ∧
    s'.istr = s.istr ∧ s'.errChan = s.errChan ∧ s'.connected = s.connected ∧ s'.now = s.now ∧ s'.params = s.params)

/-- Each pseudo-instruction, issued by a task with no command in progress, runs as the command it stands for; an endpoint
address above index 7 faults (R130). -/
def Obligations.PseudoInstructionsExpand : Prop :=
  ∀ (s : State) (c : Command) (rest : List Input) (p : Pseudo),
    s.fault = none → s.inputs = .command c :: rest → c.code = .pseudo p → partsOf s c.task = [] →
    let s' := { s with
      inputs := rest, task := c.task, data := c.data, timeout := c.timeout
      slots := c.slots, irqSlots := c.irqSlots, out := [] }
    match p with
    | .arm ch d => step s = exec (.crSetstat ch d .valid) s'
    | .disable ch d => step s = exec (.crSetstat ch d .disabled) s'
    | .allocIn addr mps etype dev =>
      if h : addr.toNat % 16 < 8 then step s = exec (.chClaim ⟨addr.toNat % 16, h⟩ .dirIn etype dev.val mps.val) s'
      else step s = .next (raiseFault .badIndex s')
    | .allocOut addr mps etype dev =>
      if h : addr.toNat % 16 < 8 then step s = exec (.chClaim ⟨addr.toNat % 16, h⟩ .dirOut etype dev.val mps.val) s'
      else step s = .next (raiseFault .badIndex s')
    | .waitConnect => step s = exec (.busWait .connected) s'
    | .waitDisconnect => step s = exec (.busWait .disconnected) s'

/-- A fault, once set, answers every step (10_state.md R65). -/
def Obligations.FaultIsSticky : Prop := ∀ (s : State) (r : Fault), s.fault = some r → step s = .fault r

/-! ## Memory (20_memory.md) -/

/-- An access of packet memory: little-endian, checked for alignment and bounds, and a store changes only the bytes it
writes (R83, R86, R90). That an access both misaligned and at or above `PMA_BYTES` reports `Misaligned` is the model's
own choice (DESIGN CHOICE, notes/assumptions/14.md): no rule orders the two faults. -/
def Obligations.MemoryAccess : Prop :=
  ∀ (s : State) (a n v : Nat),
    (a % n ≠ 0 → memRead a n s = raise .misaligned s ∧ memWrite a n v s = raise .misaligned s) ∧
    (a % n = 0 → s.params.pmaBytes < a + n →
      memRead a n s = raise .pmaBounds s ∧ memWrite a n v s = raise .pmaBounds s) ∧
    (a % n = 0 → a + n ≤ s.params.pmaBytes →
      (∃ x, memRead a n s = .ok x s ∧ x < 256 ^ n ∧ ∀ j, j < n → BitVec.ofNat 8 (x / 256 ^ j) = pmaByte s (a + j)) ∧
      ∃ t, memWrite a n v s = .ok () t ∧ t = { s with pma := t.pma } ∧
        (∀ j, j < n → pmaByte t (a + j) = BitVec.ofNat 8 (v / 256 ^ j)) ∧
        (∀ k, k < a ∨ a + n ≤ k → pmaByte t k = pmaByte s k) ∧
        memRead a n t = .ok (v % 256 ^ n) t)

/-! ## The allocator (41_allocator.md) -/

/-- `PM.ALLOC` (R150). -/
def Obligations.AllocResult : Prop :=
  (∀ n, n < 65536 → EncodedAs ⟨0x01, 0, 0, 0, 0, 0, n⟩ (.pmAlloc n)) ∧
  ∀ (s : State) (n : Nat),
    (n % granBytes s.params.gran ≠ 0 → exec (.pmAlloc n) s = .next (raiseFault .unalignedLength s)) ∧
    (n % granBytes s.params.gran = 0 → s.params.pmaBytes < s.alloc.free + n →
      exec (.pmAlloc n) s = .next (handOut (.task s.task) (.err .outOfMemory []) s)) ∧
    (n % granBytes s.params.gran = 0 → s.alloc.free + n ≤ s.params.pmaBytes →
      exec (.pmAlloc n) s = .next (handOut (.task s.task) (.ok (.region ⟨s.alloc.free, n⟩))
        { s with alloc := { s.alloc with free := s.alloc.free + n } }))

/-- `PM.RESET` (R151): only the allocator changes (70_reset_and_hazards.md R343). -/
def Obligations.AllocatorReset : Prop :=
  EncodedAs ⟨0x02, 0, 0, 0, 0, 0, 0⟩ .pmReset ∧
  ∀ s : State, exec .pmReset s = .next (handOut (.task s.task) (.ok .unit)
    { s with alloc := { free := 64, inUseIn := 0, inUseOut := 0, gen := s.alloc.gen + 1 } })

/-! ## The length code and the descriptors (42_descriptor.md) -/

/-- The properties the source requires of the length code (R165). -/
def Obligations.LengthCodeProperties : Prop :=
  ∀ (p : Params) (len : Nat), 2 ≤ len → len ≤ 1024 →
    ∃ code, encLength p len = some code ∧ len ≤ decCode code ∧ decCode code ≤ len + 31 ∧
      encLength p (decCode code) = some code ∧
      (len ≤ 60 → decCode code = roundup len (smallAlignBytes p) ∧ decCode code ≤ len + 3) ∧
      (61 ≤ len → decCode code = 32 * ceilDiv len 32 ∧ 64 ≤ decCode code)

/-- `BD.ENC` (R160) and `BD.DEC` (R161): results and faults; no state but the result changes. -/
def Obligations.LengthCodeCommands : Prop :=
  (∀ len, EncodedAs ⟨0x10, 0, 0, 0, 0, len, 0⟩ (.bdEnc len)) ∧
  (∀ code : Half16, EncodedAs ⟨0x11, 0, 0, 0, 0, 0, code.toNat⟩ (.bdDec code)) ∧
  (∀ (s : State) (len : Nat),
    (2 ≤ len → len ≤ 60 → exec (.bdEnc len) s = .next (handOut (.task s.task)
      (.ok (.code (BitVec.ofNat 16 (roundup len (smallAlignBytes s.params) / 2 * 1024)))) s)) ∧
    (61 ≤ len → len ≤ 1024 → exec (.bdEnc len) s = .next (handOut (.task s.task)
      (.ok (.code (BitVec.ofNat 16 ((ceilDiv len 32 - 1) * 1024 + 0x8000)))) s)) ∧
    (len < 2 ∨ 1024 < len → exec (.bdEnc len) s = .next (raiseFault .invalidLength s))) ∧
  (∀ (s : State) (code : Half16),
    exec (.bdDec code) s = .next (handOut (.task s.task)
      (.ok (.length (if code.getLsbD 15 then 32 * (code.toNat / 1024 % 32 + 1) else 2 * (code.toNat / 1024 % 32)))) s))

/-- `BD.PROGRX` (R162). At `GRAN = 2` other agents may step between the two half-words. -/
def Obligations.ProgramReceive : Prop :=
  (∀ (ch : Chan) (mps : Nat) (r : Region), r.wf = true →
    EncodedAs ⟨0x12, ch.val, 0, 0, 0, mps, r.off * 65536 + r.len⟩ (.bdProgrx ch mps r)) ∧
  ∀ (s : State) (ch : Chan) (mps : Nat) (r : Region),
    (encLength s.params mps = none → exec (.bdProgrx ch mps r) s = .next (raiseFault .invalidLength s)) ∧
    ∀ code, encLength s.params mps = some code →
      (r.off % granBytes s.params.gran ≠ 0 → exec (.bdProgrx ch mps r) s = .next (raiseFault .misaligned s)) ∧
      (r.off % granBytes s.params.gran = 0 → r.len < decCode code →
        exec (.bdProgrx ch mps r) s = .next (raiseFault .regionOverflow s)) ∧
      (r.off % granBytes s.params.gran = 0 → decCode code ≤ r.len → r.wf = true → 64 ≤ s.params.pmaBytes →
        (s.params.gran = .four → ∃ t, exec (.bdProgrx ch mps r) s = .next t ∧
          t = handOut (.task s.task) (.ok .unit)
            (pokePma s (8 * ch.val + 4) (leBytes 2 r.off ++ leBytes 2 code.toNat)) ∧
          ∀ a, a < 8 * ch.val + 4 ∨ 8 * ch.val + 8 ≤ a → pmaByte t a = pmaByte s a) ∧
        (s.params.gran = .two → ∀ s1, taskPoint (pokePma s (8 * ch.val + 4) (leBytes 2 r.off)) = .ok () s1 →
          ∃ t, exec (.bdProgrx ch mps r) s = .next t ∧
            t = handOut (.task s1.task) (.ok .unit) (pokePma s1 (8 * ch.val + 6) (leBytes 2 code.toNat)) ∧
            ∀ a, a < 8 * ch.val + 6 ∨ 8 * ch.val + 8 ≤ a → pmaByte t a = pmaByte s1 a))

/-- `BD.PROGTX` (R163). At `GRAN = 2` other agents may step between the two half-words. -/
def Obligations.ProgramTransmit : Prop :=
  (∀ (ch : Chan) (n : Nat) (r : Region), r.wf = true →
    EncodedAs ⟨0x13, ch.val, 0, 0, 0, n, r.off * 65536 + r.len⟩ (.bdProgtx ch n r)) ∧
  ∀ (s : State) (ch : Chan) (n : Nat) (r : Region),
    (r.off % granBytes s.params.gran ≠ 0 → exec (.bdProgtx ch n r) s = .next (raiseFault .misaligned s)) ∧
    (r.off % granBytes s.params.gran = 0 → r.len < n →
      exec (.bdProgtx ch n r) s = .next (raiseFault .regionOverflow s)) ∧
    (r.off % granBytes s.params.gran = 0 → n ≤ r.len → 1023 < n →
      exec (.bdProgtx ch n r) s = .next (raiseFault .countTooLarge s)) ∧
    (r.off % granBytes s.params.gran = 0 → n ≤ r.len → n ≤ 1023 → r.wf = true → 64 ≤ s.params.pmaBytes →
      (s.params.gran = .four → ∃ t, exec (.bdProgtx ch n r) s = .next t ∧
        t = handOut (.task s.task) (.ok .unit) (pokePma s (8 * ch.val) (leBytes 2 r.off ++ leBytes 2 n)) ∧
        ∀ a, a < 8 * ch.val ∨ 8 * ch.val + 4 ≤ a → pmaByte t a = pmaByte s a) ∧
      (s.params.gran = .two → ∀ s1, taskPoint (pokePma s (8 * ch.val) (leBytes 2 r.off)) = .ok () s1 →
        ∃ t, exec (.bdProgtx ch n r) s = .next t ∧
          t = handOut (.task s1.task) (.ok .unit) (pokePma s1 (8 * ch.val + 2) (leBytes 2 n)) ∧
          ∀ a, a < 8 * ch.val + 2 ∨ 8 * ch.val + 4 ≤ a → pmaByte t a = pmaByte s1 a))

/-- `BD.RXLEN` (R164): bits 9:0 of the half-word at `8c + 6`, at either granularity; nothing is stored. -/
def Obligations.ReceivedLength : Prop :=
  (∀ ch : Chan, EncodedAs ⟨0x14, ch.val, 0, 0, 0, 0, 0⟩ (.bdRxlen ch)) ∧
  ∀ (s : State) (ch : Chan), 64 ≤ s.params.pmaBytes →
    exec (.bdRxlen ch) s = .next (handOut (.task s.task)
      (.ok (.length (((pmaByte s (8 * ch.val + 6)).toNat + 256 * (pmaByte s (8 * ch.val + 7)).toNat) % 1024))) s)

/-- What the peripheral and `BD.RXLEN` read after programming is what was programmed, at both granularities (R164,
30_encoding.md R123–R125). -/
def Obligations.DescriptorReadBack : Prop :=
  ∀ (s : State) (ch : Chan) (r : Region), r.wf = true → r.off % granBytes s.params.gran = 0 →
    64 ≤ s.params.pmaBytes → s.slots = [] →
    (∀ mps code, encLength s.params mps = some code → decCode code ≤ r.len →
      ∃ t, exec (.bdProgrx ch mps r) s = .next t ∧ addrRx t ch = r.off ∧ codeRx t ch = code ∧
        exec (.bdRxlen ch) t = .next (handOut (.task t.task) (.ok (.length 0)) t) ∧
        addrTx t ch = addrTx s ch ∧ countTx t ch = countTx s ch) ∧
    (∀ n, n ≤ r.len → n ≤ 1023 →
      ∃ t, exec (.bdProgtx ch n r) s = .next t ∧ addrTx t ch = r.off ∧ countTx t ch = n ∧
        addrRx t ch = addrRx s ch ∧ codeRx t ch = codeRx s ch)

/-! ## The codec (43_codec.md) -/

/-- `PM.WRITE` (R180) when no other agent steps between its words: the bytes, zero-padded to a whole word; where the
words run past `PMA_BYTES`, the words below it are stored and the first above it faults (R86). -/
def Obligations.PackResult : Prop :=
  ∀ (s : State) (r : Region),
    let g := granBytes s.params.gran
    let padded := s.data ++ List.replicate (roundup s.data.length g - s.data.length) 0
    (r.len < s.data.length → exec (.pmWrite r) s = .next (raiseFault .regionOverflow s)) ∧
    (s.data.length ≤ r.len → r.off % g ≠ 0 → exec (.pmWrite r) s = .next (raiseFault .misaligned s)) ∧
    (s.data.length ≤ r.len → r.off % g = 0 → s.slots = [] →
      (s.data = [] ∨ r.off + roundup s.data.length g ≤ s.params.pmaBytes →
        ∃ t, exec (.pmWrite r) s = .next t ∧ t = handOut (.task s.task) (.ok .unit) (pokePma s r.off padded) ∧
          (∀ a, a < r.off ∨ r.off + roundup s.data.length g ≤ a → pmaByte t a = pmaByte s a)) ∧
      (s.data ≠ [] → s.params.pmaBytes < r.off + roundup s.data.length g →
        exec (.pmWrite r) s = .next (raiseFault .pmaBounds
          (pokePma s r.off (padded.take ((s.params.pmaBytes - r.off) / g * g))))))

/-- `PM.READ` (R181) when no other agent steps between its words: the first `n` bytes, and nothing is stored; words that
run past `PMA_BYTES` fault (R86). -/
def Obligations.UnpackResult : Prop :=
  ∀ (s : State) (n : Nat) (r : Region),
    (r.len < n → exec (.pmRead n r) s = .next (raiseFault .regionOverflow s)) ∧
    (n ≤ r.len → r.off % granBytes s.params.gran ≠ 0 → exec (.pmRead n r) s = .next (raiseFault .misaligned s)) ∧
    (n ≤ r.len → r.off % granBytes s.params.gran = 0 → s.slots = [] →
      (n = 0 ∨ r.off + roundup n (granBytes s.params.gran) ≤ s.params.pmaBytes →
        exec (.pmRead n r) s = .next (handOut (.task s.task)
          (.ok (.bytes ((List.range n).map fun k => pmaByte s (r.off + k)))) s)) ∧
      (0 < n → s.params.pmaBytes < r.off + roundup n (granBytes s.params.gran) →
        exec (.pmRead n r) s = .next (raiseFault .pmaBounds s)))

/-- A read after a write gives the bytes back, and the padding past them (R182): the write runs with no other agent
stepping between its words, and whatever happened before the read left the written bytes alone. -/
def Obligations.CodecRoundTrip : Prop :=
  ∀ (s t u : State) (n : Nat) (r : Region), s.slots = [] → exec (.pmWrite r) s = .next t → t.fault = none →
    s.fault = none → u.params = t.params → u.slots = [] → n ≤ r.len →
    n ≤ roundup s.data.length (granBytes s.params.gran) →
    (∀ a, r.off ≤ a → a < r.off + roundup s.data.length (granBytes s.params.gran) → pmaByte u a = pmaByte t a) →
    exec (.pmRead n r) u = .next (handOut (.task u.task) (.ok (.bytes ((s.data ++
      List.replicate (roundup s.data.length (granBytes s.params.gran) - s.data.length) 0).take n))) u)

/-! ## The channel-control register (44_channel_register.md) -/

/-- The masks at the default layout, and at every admitted layout each bit is of exactly one kind (30_encoding.md
R117). -/
def Obligations.RegisterKinds : Prop :=
  (tMask defaultChepLayout = 0x00007070 ∧ cMask defaultChepLayout = 0x06008080 ∧
    rwMask defaultChepLayout = 0x007F060F ∧ pMask defaultChepLayout = 0xF9800900) ∧
  ∀ l : ChepLayout, chepLayoutWf l = true →
    tMask l ||| cMask l ||| rwMask l ||| pMask l = BitVec.allOnes 32 ∧
    tMask l &&& cMask l = 0 ∧ tMask l &&& rwMask l = 0 ∧ tMask l &&& pMask l = 0 ∧
    cMask l &&& rwMask l = 0 ∧ cMask l &&& pMask l = 0 ∧ rwMask l &&& pMask l = 0

/-- The hardware write function, field kind by field kind (R190), and that a register write applies it. -/
def Obligations.HardwareWrite : Prop :=
  (∀ (p : Params) (old w : Word32) (i : Nat), chepLayoutWf p.chep = true → i < 32 →
    ((tMask p.chep).getLsbD i = true →
      (hwWriteChep p old w).getLsbD i = (old.getLsbD i).xor (w.getLsbD i)) ∧
    ((cMask p.chep).getLsbD i = true →
      (hwWriteChep p old w).getLsbD i =
        if w.getLsbD i = (clearC p).getLsbD 0 then false else old.getLsbD i) ∧
    ((rwMask p.chep ||| pMask p.chep).getLsbD i = true → (hwWriteChep p old w).getLsbD i = w.getLsbD i)) ∧
  (∀ (s : State) (a : Agent) (c c' : Chan) (w : Word32),
    readChep (writeChep a c w s) c' = if c' = c then hwWriteChep s.params (readChep s c) w else readChep s c')

/-- `CR.READ` (R195), `CR.CANON` and the laws of the canonical value (R191); no state but the result changes. -/
def Obligations.CanonicalValue : Prop :=
  (∀ ch : Chan, EncodedAs ⟨0x30, ch.val, 0, 0, 0, 0, 0⟩ (.crRead ch)) ∧
  (∀ v : Word32, EncodedAs ⟨0x31, 0, 0, 0, 0, 0, v.toNat⟩ (.crCanon v)) ∧
  (∀ (s : State) (ch : Chan), exec (.crRead ch) s =
    .next (handOut (.task s.task) (.ok (.register (readChep s ch))) s)) ∧
  (∀ (s : State) (v : Word32), exec (.crCanon v) s = .next (handOut (.task s.task) (.ok (.register
    ((v &&& (rwMask s.params.chep ||| pMask s.params.chep)) |||
      (match s.params.chepPolarity with | .w0c => cMask s.params.chep | .w1c => 0)))) s)) ∧
  (∀ (p : Params) (v w : Word32), chepLayoutWf p.chep = true →
    canon p (canon p v) = canon p v ∧
    hwWriteChep p v (canon p v) = v ∧
    ((v ^^^ w) &&& (rwMask p.chep ||| pMask p.chep) = 0 → canon p v = canon p w))

/-- `CR.SETSTAT` (R192), whatever other agents did at the point between its read and its write: the status becomes the
XOR of the status then, the status read and the target, and the target when the status did not change in between; no
other field changes where the other agents left the fields of kinds RW and P alone, as the dispatcher and the
peripheral do (R198). -/
def Obligations.SetStatus : Prop :=
  (∀ (ch : Chan) (d : Dir) (target : Status),
    EncodedAs ⟨0x32, ch.val, if d = .dirIn then 1 else 0, 0, 0, 0, statusCode target⟩ (.crSetstat ch d target)) ∧
  ∀ (s s1 : State) (ch : Chan) (d : Dir) (target : Status), chepLayoutWf s.params.chep = true →
    taskPoint s = .ok () s1 →
    let kept := rwMask s.params.chep ||| pMask s.params.chep
    let f := statField s.params.chep (dirHalf d)
    let w := fieldPut f (canon s.params (readChep s ch))
      (fieldGet f (readChep s ch) ^^^ BitVec.ofNat 32 (statusCode target))
    let v := hwWriteChep s.params (readChep s1 ch) w
    exec (.crSetstat ch d target) s = .next (handOut (.task s.task) (.ok .unit)
      (appendLog (setChep s1 ch v) (.writeChep (.task s.task) ch w))) ∧
    statusCode (getStat s.params (dirHalf d) v) = statusCode (getStat s.params (dirHalf d) (readChep s1 ch)) ^^^
      statusCode (getStat s.params (dirHalf d) (readChep s ch)) ^^^ statusCode target ∧
    (getStat s.params (dirHalf d) (readChep s1 ch) = getStat s.params (dirHalf d) (readChep s ch) →
      getStat s.params (dirHalf d) v = target) ∧
    (readChep s1 ch &&& kept = readChep s ch &&& kept →
      v = fieldPut f (readChep s1 ch)
        (fieldGet f (readChep s1 ch) ^^^ fieldGet f (readChep s ch) ^^^ BitVec.ofNat 32 (statusCode target))) ∧
    (noTaskSteps s → readChep s1 ch &&& kept = readChep s ch &&& kept)

/-- The race of `CR.SETSTAT` (70_reset_and_hazards.md R351): the status it leaves, from the status it read, the status
at its write and the target; and what the peripheral can change a status from and to. -/
def Obligations.SetStatusRace : Prop :=
  (∀ (p : Params) (h : Half) (old cur : Word32) (target : Status), chepLayoutWf p.chep = true →
    (old ^^^ cur) &&& (rwMask p.chep ||| pMask p.chep) = 0 →
    getStat p h (hwWriteChep p old (setstatWord p h cur target)) =
      statusOf (statusCode (getStat p h old) ^^^ statusCode (getStat p h cur) ^^^ statusCode target) ∧
    (∀ row ∈ ([(.valid, .disabled, .disabled, .valid), (.valid, .nak, .disabled, .stall),
          (.valid, .stall, .disabled, .nak), (.nak, .disabled, .disabled, .nak), (.nak, .stall, .disabled, .valid),
          (.nak, .nak, .disabled, .disabled), (.disabled, .disabled, .valid, .valid), (.stall, .stall, .valid, .valid)] :
          List (Status × Status × Status × Status)),
      getStat p h cur = row.1 → getStat p h old = row.2.1 → target = row.2.2.1 →
      getStat p h (hwWriteChep p old (setstatWord p h cur target)) = row.2.2.2)) ∧
  (∀ (s t : State) (e : EnvStep) (c : Chan) (h : Half), chepLayoutWf s.params.chep = true → envStep e s = .ok () t →
    getStat s.params h (readChep t c) ≠ getStat s.params h (readChep s c) →
    (getStat s.params h (readChep s c) = .valid ∨ getStat s.params h (readChep s c) = .nak) ∧
    getStat s.params h (readChep t c) ≠ .valid)

/-- `CR.CLRCTR` and `CR.CLRERR` (R193, R194), whatever other agents did in between: the word computed from the read is
written, and exactly the named flags fall where the other agents left the fields of kinds RW and P alone (R198). -/
def Obligations.ClearFlags : Prop :=
  (∀ (ch : Chan) (fs : FlagSet),
    EncodedAs ⟨0x33, ch.val, 0, 0, 0, 0, fs.rx.toNat + 2 * fs.tx.toNat⟩ (.crClrctr ch fs) ∧
    EncodedAs ⟨0x34, ch.val, 0, 0, 0, 0, fs.rx.toNat + 2 * fs.tx.toNat⟩ (.crClrerr ch fs)) ∧
  ∀ (s s1 : State) (ch : Chan) (fs : FlagSet), chepLayoutWf s.params.chep = true → taskPoint s = .ok () s1 →
    let kept := rwMask s.params.chep ||| pMask s.params.chep
    (∃ t, exec (.crClrctr ch fs) s = .next t ∧
      t = handOut (.task s.task) (.ok .unit) (appendLog (setChep s1 ch (readChep t ch))
        (.writeChep (.task s.task) ch (clrctrWord s.params (readChep s ch) fs))) ∧
      readChep t ch = hwWriteChep s.params (readChep s1 ch) (clrctrWord s.params (readChep s ch) fs) ∧
      (readChep s1 ch &&& kept = readChep s ch &&& kept →
        readChep t ch = readChep s1 ch &&& ~~~ ((if fs.rx then fieldMask (ctrField s.params.chep .rx) else 0) |||
          (if fs.tx then fieldMask (ctrField s.params.chep .tx) else 0)))) ∧
    (∃ t, exec (.crClrerr ch fs) s = .next t ∧
      t = handOut (.task s.task) (.ok .unit) (appendLog (setChep s1 ch (readChep t ch))
        (.writeChep (.task s.task) ch (clrerrWord s.params (readChep s ch) fs))) ∧
      readChep t ch = hwWriteChep s.params (readChep s1 ch) (clrerrWord s.params (readChep s ch) fs) ∧
      (readChep s1 ch &&& kept = readChep s ch &&& kept →
        readChep t ch = readChep s1 ch &&& ~~~ ((if fs.rx then fieldMask (errField s.params.chep .rx) else 0) |||
          (if fs.tx then fieldMask (errField s.params.chep .tx) else 0))))

/-- `CR.INIT` (R196), whatever other agents did in between: the three configuration fields take the operands' values, the
toggle bits and the flags stay as the other agents left them, and so do the preserved bits where they left those alone
(R198). -/
def Obligations.InitialiseChannel : Prop :=
  (∀ (ch : Chan) (etype : EType) (dev : Nat),
    EncodedAs ⟨0x35, ch.val, 0, etypeCode etype, dev, 0, 0⟩ (.crInit ch etype dev)) ∧
  ∀ (s s1 : State) (ch : Chan) (etype : EType) (dev : Nat), chepLayoutWf s.params.chep = true → dev < 128 →
    taskPoint s = .ok () s1 →
    ∃ t, exec (.crInit ch etype dev) s = .next t ∧
      t = handOut (.task s.task) (.ok .unit) (appendLog (setChep s1 ch (readChep t ch))
        (.writeChep (.task s.task) ch (configFields s.params (canon s.params (readChep s ch)) etype dev ch))) ∧
      readChep t ch = hwWriteChep s.params (readChep s1 ch)
        (configFields s.params (canon s.params (readChep s ch)) etype dev ch) ∧
      fieldGet (epTypeField s.params.chep) (readChep t ch) = BitVec.ofNat 32 (regType etype) ∧
      fieldGet (devaddrField s.params.chep) (readChep t ch) = BitVec.ofNat 32 dev ∧
      fieldGet (eaField s.params.chep) (readChep t ch) = BitVec.ofNat 32 ch.val ∧
      readChep t ch &&& (tMask s.params.chep ||| cMask s.params.chep) =
        readChep s1 ch &&& (tMask s.params.chep ||| cMask s.params.chep) ∧
      (readChep s1 ch &&& pMask s.params.chep = readChep s ch &&& pMask s.params.chep →
        readChep t ch &&& ~~~ rwMask s.params.chep = readChep s1 ch &&& ~~~ rwMask s.params.chep)

/-- `CR.TOUCH` (R197), whatever other agents did in between, but for a change of the fields of kinds RW and P (R198): one
log entry and no change to any register. -/
def Obligations.TouchChangesNothing : Prop :=
  (∀ ch : Chan, EncodedAs ⟨0x36, ch.val, 0, 0, 0, 0, 0⟩ (.crTouch ch)) ∧
  ∀ (s s1 : State) (ch : Chan), chepLayoutWf s.params.chep = true → taskPoint s = .ok () s1 →
    let kept := rwMask s.params.chep ||| pMask s.params.chep
    let w := canon s.params (readChep s ch)
    exec (.crTouch ch) s = .next (handOut (.task s.task) (.ok .unit)
      (appendLog (setChep s1 ch (hwWriteChep s.params (readChep s1 ch) w)) (.writeChep (.task s.task) ch w))) ∧
    (readChep s1 ch &&& kept = readChep s ch &&& kept →
      exec (.crTouch ch) s = .next (handOut (.task s.task) (.ok .unit)
        (appendLog s1 (.writeChep (.task s.task) ch w))))

/-! ## The dispatcher (45_dispatcher.md) -/

/-- One invocation while the environment takes no step (R211–R217): every recognised condition that was read falls, the
one channel `IDN` names loses every flag that was read, the waiters wake, the log has the writes in order, and
nothing else changes. -/
def Obligations.DispatchEffect : Prop :=
  ∀ s : State, chepLayoutWf s.params.chep = true → istrLayoutWf s.params.istr = true → s.irqSlots = [] →
    let i := istrFields s
    let v := readChep s i.idn
    let woken := fun sl : Slot => (sl = .bus ∧ i.dcon = true) ∨
      (sl = .chan i.idn .dirIn ∧ i.ctr = true ∧ getCtr s.params .rx v = true) ∨
      (sl = .chan i.idn .dirOut ∧ i.ctr = true ∧ getCtr s.params .tx v = true)
    let errs : FlagSet := ⟨getErr s.params .rx v, getErr s.params .tx v⟩
    let busLog : List LogEntry :=
      if i.dcon then [.writeIstr .dispatcher (clearIstr s.params (bitAt s.params.istr.dcon))] else []
    let errFlagsLog : List LogEntry := if errs.rx || errs.tx then
      [.errFlags i.idn errs, .writeChep .dispatcher i.idn (clrerrWord s.params v errs)] else []
    let completeLog : List LogEntry := if i.ctr then errFlagsLog ++
      [.writeChep .dispatcher i.idn (clrctrWord s.params v ⟨getCtr s.params .rx v, getCtr s.params .tx v⟩)] else []
    let errorLog : List LogEntry := if i.err || i.pmaovr then
      [.writeIstr .dispatcher (clearIstr s.params ((if i.err then bitAt s.params.istr.err else 0) |||
        (if i.pmaovr then bitAt s.params.istr.pmaovr else 0))), .writeChep .dispatcher i.idn (canon s.params v)] else []
    let ackLog : List LogEntry :=
      if i.dcon || i.ctr || i.err || i.pmaovr then [] else [.writeIstr .dispatcher (clearIstr s.params 0)]
    ∃ t, exec .irqDispatch s = .next t ∧ t.out = s.out ++ [(.dispatcher, .ok .unit)] ∧
      t.istr = s.istr &&& ~~~ (bitAt s.params.istr.dcon ||| bitAt s.params.istr.err ||| bitAt s.params.istr.pmaovr) ∧
      (∀ c, readChep t c = if i.ctr = true ∧ c = i.idn then v &&& ~~~ cMask s.params.chep else readChep s c) ∧
      (∀ sl, (woken sl → slotOf t sl = none) ∧ (¬ woken sl → slotOf t sl = slotOf s sl)) ∧
      (∀ u, (taskRec t u).op = (taskRec s u).op ∧
        ((taskRec t u).woken = true ↔ (taskRec s u).woken = true ∨ ∃ sl, woken sl ∧ slotOf s sl = some u)) ∧
      t.log = s.log ++ busLog ++ completeLog ++ errorLog ++ ackLog ∧
      t.params = s.params ∧ t.pma = s.pma ∧ t.errChan = s.errChan ∧ t.connected = s.connected ∧ t.alloc = s.alloc ∧
      t.htIn = s.htIn ∧ t.htOut = s.htOut ∧ t.now = s.now ∧ t.fault = s.fault ∧ t.inProgress = s.inProgress

/-- An invocation with no recognised condition writes the neutral value once and changes nothing but the log
(R216); the draw counter and the result are the model's own fields. -/
def Obligations.SpuriousDispatch : Prop :=
  ∀ s : State, s.irqSlots = [] → linePending s = false →
    exec .irqDispatch s = .next (handOut .dispatcher (.ok .unit)
      { s with draws := s.draws + 1, log := s.log ++ [.writeIstr .dispatcher (clearIstr s.params 0)] })

/-- The interrupt status register. A write (R210) clears exactly the clearable bits written 1 under `W1C` or 0 under
`W0C`, and changes no other bit; `clearISTR` clears the bits of its set and `ISTR_NEUTRAL` none. A read gives the fields
at their places (30_encoding.md R121): the latches as stored, the read-only fields as 10_state.md R46 and R47 derive
them, and 0 where no field is. -/
def Obligations.InterruptStatusRegister : Prop :=
  (∀ (p : Params) (old w : Word32) (i : Nat), i < 32 →
    (p.istr.clearable.getLsbD i = false → (hwWriteIstr p old w).getLsbD i = old.getLsbD i) ∧
    (p.istr.clearable.getLsbD i = true → (hwWriteIstr p old w).getLsbD i =
      if w.getLsbD i = decide (p.istrPolarity = .w1c) then false else old.getLsbD i)) ∧
  (∀ (p : Params) (old set : Word32), set &&& ~~~ p.istr.clearable = 0 →
    hwWriteIstr p old (clearIstr p set) = old &&& ~~~ set ∧ hwWriteIstr p old (istrNeutral p) = old) ∧
  (∀ (s : State) (a : Agent) (w : Word32), writeIstr a w s =
    { s with istr := hwWriteIstr s.params s.istr w, log := s.log ++ [.writeIstr a w] }) ∧
  (∀ s : State, istrLayoutWf s.params.istr = true →
    let l := s.params.istr
    let w := istrWord s.params (istrFields s)
    fieldGet ⟨l.idn, 4⟩ w = BitVec.ofNat 32 (istrFields s).idn.val ∧
    w.getLsbD l.dir = (istrFields s).dir ∧
    (w.getLsbD l.ctr = true ↔ ∃ c h, getCtr s.params h (readChep s c) = true) ∧
    w.getLsbD l.dconStat = s.connected ∧
    w &&& (l.clearable ||| l.otherRo) = s.istr &&& (l.clearable ||| l.otherRo) ∧
    w &&& ~~~ (l.clearable ||| l.otherRo ||| fieldMask ⟨l.idn, 4⟩ ||| bitAt l.dir ||| bitAt l.ctr ||| bitAt l.dconStat) = 0) ∧
  (∀ s : State, s.params.istr = defaultIstrLayout → istrWord s.params (istrFields s) &&& 0x1FFF0060 = 0)

/-- The interrupt line is pending exactly while one of the four conditions holds (60_exceptions.md R315); when the
complete condition is read, the channel `IDN` names has a complete flag set (R213, 10_state.md R46). -/
def Obligations.InterruptLine : Prop :=
  (∀ s : State, linePending s = true ↔
    (∃ c h, getCtr s.params h (readChep s c) = true) ∨ s.istr.getLsbD s.params.istr.dcon = true ∨
    s.istr.getLsbD s.params.istr.err = true ∨ s.istr.getLsbD s.params.istr.pmaovr = true) ∧
  (∀ s : State, (istrFields s).ctr = true →
    getCtr s.params .rx (readChep s (istrFields s).idn) = true ∨
      getCtr s.params .tx (readChep s (istrFields s).idn) = true)

/-- One channel per invocation (R218): while another channel has a complete flag the line stays pending. -/
def Obligations.OneChannelPerInvocation : Prop :=
  ∀ (s t : State) (c : Chan), chepLayoutWf s.params.chep = true → istrLayoutWf s.params.istr = true → s.irqSlots = [] →
    c ≠ (istrFields s).idn → chanComplete s c = true → exec .irqDispatch s = .next t →
    readChep t c = readChep s c ∧ (istrFields t).ctr = true ∧ linePending t = true

/-- What the dispatcher never does, whatever the environment does between its accesses (R221, 41_allocator.md R155): it
completes; no toggle bit is ever written; configuration and preserved bits, the allocator, the handle table, every
operation record and every slot's occupant but for emptying stay; with no environment step packet memory stays. -/
def Obligations.DispatcherNever : Prop :=
  ∀ s : State, chepLayoutWf s.params.chep = true → ∃ t, exec .irqDispatch s = .next t ∧
    (∃ es, t.log = s.log ++ es ∧ ∀ c w, .writeChep .dispatcher c w ∈ es → w &&& tMask s.params.chep = 0) ∧
    (∀ c, readChep t c &&& (rwMask s.params.chep ||| pMask s.params.chep) =
      readChep s c &&& (rwMask s.params.chep ||| pMask s.params.chep)) ∧
    t.alloc = s.alloc ∧ t.htIn = s.htIn ∧ t.htOut = s.htOut ∧ t.inProgress = s.inProgress ∧
    (∀ u, (taskRec t u).op = (taskRec s u).op) ∧
    (∀ sl u, slotOf t sl = some u → slotOf s sl = some u) ∧
    (s.irqSlots = [] → t.pma = s.pma ∧
      ∀ c, readChep t c &&& tMask s.params.chep = readChep s c &&& tMask s.params.chep)

/-! ## The engine (46_engine.md) -/

/-- `EP.READ` (R230): the faults in order, else a fresh `Read` record in `Arming` and the first poll enabled. -/
def Obligations.StartRead : Prop :=
  (∀ (ch : Chan) (n : Nat), EncodedAs ⟨0x50, ch.val, 1, 0, 0, 0, n⟩ (.epRead ch n)) ∧
  ∀ (s : State) (ch : Chan) (n : Nat), tasksWf s.tasks = true →
    (handleAt s ch .dirIn = none → exec (.epRead ch n) s = .next (raiseFault .noHandle s)) ∧
    ∀ h, handleAt s ch .dirIn = some h →
      (h.gen ≠ s.alloc.gen → exec (.epRead ch n) s = .next (raiseFault .staleHandle s)) ∧
      (h.gen = s.alloc.gen →
        ((∃ u op, (taskRec s u).op = some op ∧ opChannel op = some (ch, .dirIn)) →
          exec (.epRead ch n) s = .next (raiseFault .channelBusy s)) ∧
        ((∀ u op, (taskRec s u).op = some op → opChannel op ≠ some (ch, .dirIn)) →
          ((taskRec s s.task).op ≠ none → exec (.epRead ch n) s = .next (raiseFault .taskBusy s)) ∧
          ((taskRec s s.task).op = none →
            exec (.epRead ch n) s = .next (handOut (.task s.task) .pending
              (putTask s s.task ⟨some (.read ⟨h, n, [], 0, s.timeout, none, .arming⟩), true⟩)))))

/-- `EP.WRITE` (R231): the faults in order, both size checks before any access, else a fresh `Write` record. -/
def Obligations.StartWrite : Prop :=
  (∀ ch : Chan, EncodedAs ⟨0x51, ch.val, 0, 0, 0, 0, 0⟩ (.epWrite ch)) ∧
  ∀ (s : State) (ch : Chan), tasksWf s.tasks = true →
    (handleAt s ch .dirOut = none → exec (.epWrite ch) s = .next (raiseFault .noHandle s)) ∧
    ∀ h, handleAt s ch .dirOut = some h →
      (h.gen ≠ s.alloc.gen → exec (.epWrite ch) s = .next (raiseFault .staleHandle s)) ∧
      (h.gen = s.alloc.gen →
        ((∃ u op, (taskRec s u).op = some op ∧ opChannel op = some (ch, .dirOut)) →
          exec (.epWrite ch) s = .next (raiseFault .channelBusy s)) ∧
        ((∀ u op, (taskRec s u).op = some op → opChannel op ≠ some (ch, .dirOut)) →
          ((taskRec s s.task).op ≠ none → exec (.epWrite ch) s = .next (raiseFault .taskBusy s)) ∧
          ((taskRec s s.task).op = none →
            (h.region.len < s.data.length → exec (.epWrite ch) s = .next (raiseFault .writeTooLarge s)) ∧
            (s.data.length ≤ h.region.len → 1023 < s.data.length →
              exec (.epWrite ch) s = .next (raiseFault .countTooLarge s)) ∧
            (s.data.length ≤ h.region.len → s.data.length ≤ 1023 →
              exec (.epWrite ch) s = .next (handOut (.task s.task) .pending
                (putTask s s.task ⟨some (.write ⟨h, s.data, s.timeout, none, .arming⟩), true⟩))))))

/-- `BUS.WAIT` (R232), and the poll of a bus wait (R248) when no other agent steps within it: it registers on the bus
slot and ends when the bus is in the state that is waited for. -/
def Obligations.BusWait : Prop :=
  (∀ (s : State) (target : BusState),
    ((taskRec s s.task).op ≠ none → exec (.busWait target) s = .next (raiseFault .taskBusy s)) ∧
    ((taskRec s s.task).op = none → exec (.busWait target) s = .next (handOut (.task s.task) .pending
      (putTask s s.task ⟨some (.busWait ⟨target, .awaitingCompletion⟩), true⟩)))) ∧
  (∀ (s : State) (b : BusWaitOp), s.slots = [] → (taskRec s s.task).op = some (.busWait b) →
    ∃ t, exec .epPoll s = .next t ∧
      t.out = s.out ++
        [(.task s.task, if (s.connected = true ↔ b.target = .connected) then .ok .unit else .pending)] ∧
      taskRec t s.task = ⟨if (s.connected = true ↔ b.target = .connected) then none else some (.busWait b), false⟩ ∧
      (∀ u, u ≠ s.task → taskRec t u = taskRec s u) ∧
      (∀ sl, slotOf t sl = if sl = .bus then some s.task else slotOf s sl) ∧
      t.params = s.params ∧ t.pma = s.pma ∧ t.chep = s.chep ∧ t.istr = s.istr ∧ t.errChan = s.errChan ∧
      t.connected = s.connected ∧ t.alloc = s.alloc ∧ t.htIn = s.htIn ∧ t.htOut = s.htOut ∧ t.now = s.now ∧
      t.fault = s.fault ∧ t.log = s.log ∧ t.inProgress = s.inProgress)

/-- Where `EP.POLL` faults before its poll function (R233, R236). -/
def Obligations.PollFaults : Prop :=
  ∀ s : State,
    ((taskRec s s.task).op = none → exec .epPoll s = .next (raiseFault .noOperation s)) ∧
    (∀ r, (taskRec s s.task).op = some (.read r) → r.h.gen ≠ s.alloc.gen →
      exec .epPoll s = .next (raiseFault .staleHandle (setWoken s.task false s))) ∧
    (∀ w, (taskRec s s.task).op = some (.write w) → w.h.gen ≠ s.alloc.gen →
      exec .epPoll s = .next (raiseFault .staleHandle (setWoken s.task false s)))

/-- A poll of a read that awaits completion does what the read transition table says (R240), when no other agent steps
within it. The copied packet is the received count's worth of bytes at the region; a row that copies asks that the region
is aligned and holds it. -/
def Obligations.ReadTransitions : Prop :=
  ∀ (s : State) (r : ReadOp), s.slots = [] → paramsWf s.params = true →
    (taskRec s s.task).op = some (.read r) → r.h.gen = s.alloc.gen → r.phase = .awaitingCompletion →
    let c := r.h.index
    let v := readChep s c
    let n := (codeRx s c).toNat % 1024
    (s.connected = true → expired r.timeout r.start s.now = false → getStat s.params .rx v = .disabled →
      n ≤ r.n - r.off → r.h.region.off % granBytes s.params.gran = 0 ∧ n ≤ r.h.region.len ∧
        (n = 0 ∨ r.h.region.off + roundup n (granBytes s.params.gran) ≤ s.params.pmaBytes)) →
    let tr := readTransition r s.connected (expired r.timeout r.start s.now) (getStat s.params .rx v) n
      ((List.range n).map fun k => pmaByte s (r.h.region.off + k))
    ∃ t, exec .epPoll s = .next t ∧ Polled s t c .dirIn tr.op tr.result ∧ t.pma = s.pma ∧
      readChep t c = tr.chep s.params .rx v ∧ t.log = s.log ++ tr.log s.params .rx s.task c v

/-- The first poll of a read arms the half and takes the clock (R237), when no other agent steps within it: pending on a
connected bus, `Disconnected` and disabled again otherwise. -/
def Obligations.ReadArming : Prop :=
  ∀ (s : State) (r : ReadOp), s.slots = [] → paramsWf s.params = true →
    (taskRec s s.task).op = some (.read r) → r.h.gen = s.alloc.gen → r.phase = .arming →
    let c := r.h.index
    let v := readChep s c
    let a := putStat s.params .rx v .valid
    let armed : LogEntry := .writeChep (.task s.task) c (setstatWord s.params .rx v .valid)
    let disabled : LogEntry := .writeChep (.task s.task) c (setstatWord s.params .rx a .disabled)
    ∃ t, exec .epPoll s = .next t ∧ t.pma = s.pma ∧
      (s.connected = true →
        Polled s t c .dirIn (some (.read { r with start := some s.now, phase := .awaitingCompletion })) .pending ∧
        readChep t c = a ∧ t.log = s.log ++ [armed]) ∧
      (s.connected = false →
        Polled s t c .dirIn none (.err .disconnected r.buf) ∧ readChep t c = putStat s.params .rx v .disabled ∧
        t.log = s.log ++ [armed, disabled])

/-- A poll of a write that awaits completion does what the write transition table says (R247), when no other agent steps
within it. -/
def Obligations.WriteTransitions : Prop :=
  ∀ (s : State) (w : WriteOp), s.slots = [] → paramsWf s.params = true →
    (taskRec s s.task).op = some (.write w) → w.h.gen = s.alloc.gen → w.phase = .awaitingCompletion →
    let c := w.h.index
    let v := readChep s c
    let tr := writeTransition w s.connected (expired w.timeout w.start s.now) (getStat s.params .tx v)
    ∃ t, exec .epPoll s = .next t ∧ Polled s t c .dirOut tr.op tr.result ∧ t.pma = s.pma ∧
      readChep t c = tr.chep s.params .tx v ∧ t.log = s.log ++ tr.log s.params .tx s.task c v

/-- The first poll of a write programs the transmit half, copies the data and arms, in that order (R245, 20_memory.md R92,
70_reset_and_hazards.md R350). After its first step it has left, whatever other agents do, the stores of `BD.PROGTX`, then
those of `PM.WRITE`, then the arming read-modify-write, then the checks. When no other agent steps within it, those
stores leave the descriptor and the data in packet memory with no register written yet, and the poll is pending on a
connected bus, `Disconnected` and disabled again otherwise. -/
def Obligations.WriteArming : Prop :=
  ∀ (s : State) (w : WriteOp), paramsWf s.params = true →
    (taskRec s s.task).op = some (.write w) → w.h.gen = s.alloc.gen → w.phase = .arming →
    w.h.region.off % granBytes s.params.gran = 0 → w.h.region.off < 65536 → w.data.length ≤ w.h.region.len →
    w.data.length ≤ 1023 →
    let c := w.h.index
    let v := readChep s c
    let a := putStat s.params .tx v .valid
    let armed : LogEntry := .writeChep (.task s.task) c (setstatWord s.params .tx v .valid)
    let disabled : LogEntry := .writeChep (.task s.task) c (setstatWord s.params .tx a .disabled)
    let stores := progTxParts s.params c w.h.region w.data.length ++ pmWriteParts s.params w.h.region w.data
    let arm : List Part := [changeReg c (.setStatus .tx .valid), .own .armed,
      .access (.register (.chan c .dirOut)), .access .readIstr]
    let stored := (pokePma (pokePma s (8 * c.val) (leBytes 2 w.h.region.off ++ leBytes 2 w.data.length)) w.h.region.off
      (w.data ++ List.replicate (roundup w.data.length (granBytes s.params.gran) - w.data.length) 0)).pma
    (∀ p ∈ stores, ∃ at' n x, p = .access (.store at' n x)) ∧
    ∃ s1, firstStep s.task (begin .epPoll (sideOf s) s) = .ok (stores ++ arm) s1 ∧
      s1.pma = s.pma ∧ s1.chep = s.chep ∧ s1.log = s.log ∧
      (s.slots = [] →
        (w.data = [] ∨ w.h.region.off + roundup w.data.length (granBytes s.params.gran) ≤ s.params.pmaBytes) →
        (∃ s2, finish stores.length (stores ++ arm) s1 = .ok arm s2 ∧
          s2.pma = stored ∧ s2.chep = s.chep ∧ s2.log = s.log) ∧
        ∃ t, exec .epPoll s = .next t ∧ t.pma = stored ∧
          (s.connected = true →
            Polled s t c .dirOut (some (.write { w with start := some s.now, phase := .awaitingCompletion })) .pending ∧
            readChep t c = a ∧ t.log = s.log ++ [armed]) ∧
          (s.connected = false →
            Polled s t c .dirOut none (.err .disconnected []) ∧ readChep t c = putStat s.params .tx v .disabled ∧
            t.log = s.log ++ [armed, disabled]))

/-! ## The lifecycle (47_lifecycle.md) -/

/-- The region sizes of a claim (R261). -/
def Obligations.RegionSizes : Prop :=
  ∀ (s : State) (mps : Nat),
    (2 ≤ mps → mps ≤ 1024 → ∃ code, encLength s.params mps = some code ∧ mps ≤ decCode code ∧
      decCode code ≤ roundup (decCode code) (granBytes s.params.gran) ∧
      regionSize .dirIn mps s = .ok (roundup (decCode code) (granBytes s.params.gran)) s) ∧
    (1 ≤ mps → mps ≤ 1023 → mps ≤ roundup mps (granBytes s.params.gran) ∧
      roundup mps (granBytes s.params.gran) ≤ 1024 ∧
      regionSize .dirOut mps s = .ok (roundup mps (granBytes s.params.gran)) s)

/-- Where a claim ends without a handle (R260): a packet size outside its domain faults first, an index in use is
refused with nothing changed, and exhausted memory is refused with the in-use bit left either way. -/
def Obligations.ClaimRefusals : Prop :=
  ∀ (s : State) (ch : Chan) (d : Dir) (etype : EType) (dev mps : Nat),
    let inDomain := match d with
      | .dirIn => 2 ≤ mps ∧ mps ≤ 1024
      | .dirOut => 1 ≤ mps ∧ mps ≤ 1023
    (¬ inDomain → exec (.chClaim ch d etype dev mps) s = .next (raiseFault .invalidLength s)) ∧
    (inDomain → inUse s.alloc ch d = true →
      exec (.chClaim ch d etype dev mps) s = .next (handOut (.task s.task) (.err .alreadyInUse []) s)) ∧
    (inDomain → inUse s.alloc ch d = false → ∀ size, regionSize d mps s = .ok size s →
      s.params.pmaBytes < s.alloc.free + size →
      ∃ b, exec (.chClaim ch d etype dev mps) s =
        .next (handOut (.task s.task) (.err .outOfMemory []) (nextDraw (setInUse ch d b s))))

/-- A claim that succeeds, when no other agent steps within it (R260): the index is marked, the region allocated, the
half's descriptor programmed, the register configured, the handle entered and returned. -/
def Obligations.ClaimSucceeds : Prop :=
  ∀ (s : State) (ch : Chan) (d : Dir) (etype : EType) (dev mps size : Nat), s.slots = [] → paramsWf s.params = true →
    (match d with
      | .dirIn => 2 ≤ mps ∧ mps ≤ 1024
      | .dirOut => 1 ≤ mps ∧ mps ≤ 1023) →
    inUse s.alloc ch d = false → regionSize d mps s = .ok size s → s.alloc.free % granBytes s.params.gran = 0 →
    s.alloc.free + size ≤ s.params.pmaBytes →
    let v := readChep s ch
    let h : Handle := ⟨ch, d, mps, etype, dev, ⟨s.alloc.free, size⟩, s.alloc.gen⟩
    let marked := setInUse ch d true { s with alloc := { s.alloc with free := s.alloc.free + size } }
    let programmed := match d with
      | .dirIn => pokePma marked (8 * ch.val + 4) (leBytes 2 s.alloc.free ++
          leBytes 2 ((encLength s.params mps).getD 0).toNat)
      | .dirOut => pokePma marked (8 * ch.val) (leBytes 2 s.alloc.free ++ leBytes 2 0)
    exec (.chClaim ch d etype dev mps) s = .next (handOut (.task s.task) (.ok (.handle h))
      (setHandle (appendLog (setChep programmed ch (configFields s.params v etype dev ch))
        (.writeChep (.task s.task) ch (initWord s.params v etype dev ch))) ch d (some h)))

/-- Claiming twice (R264): after a claim that returned a handle, with no reset within it, every claim of the same index and
direction is refused in every state the machine goes forward to in the same generation, or in which the index is still
in use; after `PM.RESET` the index is not in use. -/
def Obligations.ClaimTwice : Prop :=
  ∀ (s t : State) (ch : Chan) (d : Dir) (etype : EType) (dev mps : Nat) (h : Handle),
    exec (.chClaim ch d etype dev mps) s = .next t → s.out = [] → (.task s.task, .ok (.handle h)) ∈ t.out →
    t.alloc.gen = s.alloc.gen →
    inUse t.alloc ch d = true ∧
    ∀ u : State, ((OnlyForward t u ∧ u.alloc.gen = t.alloc.gen) ∨ inUse u.alloc ch d = true →
      ∀ etype' dev' mps', (match d with
          | .dirIn => 2 ≤ mps' ∧ mps' ≤ 1024
          | .dirOut => 1 ≤ mps' ∧ mps' ≤ 1023) →
        exec (.chClaim ch d etype' dev' mps') u = .next (handOut (.task u.task) (.err .alreadyInUse []) u)) ∧
      ∃ u', exec .pmReset u = .next u' ∧ inUse u'.alloc ch d = false ∧ u'.alloc.free = 64

/-- `CH.RECONF0` (R262): a reset, then channel 0 claimed both ways, or the first fault or error of the two claims. The
clauses that reach the second claim are of runs in which no other agent steps within the command. -/
def Obligations.ReconfigureZero : Prop :=
  ∀ (s : State) (dev mps : Nat), paramsWf s.params = true →
    let reset := { s with alloc := ⟨64, 0, 0, s.alloc.gen + 1⟩ }
    (mps < 2 ∨ 1024 < mps → exec (.chReconf0 dev mps) s = .next (raiseFault .invalidLength reset)) ∧
    (mps = 1024 → s.slots = [] → 1088 ≤ s.params.pmaBytes →
      ∃ t, exec (.chReconf0 dev mps) s = .next t ∧ t.fault = some .invalidLength) ∧
    ∀ sizeIn, 2 ≤ mps → mps ≤ 1024 → regionSize .dirIn mps s = .ok sizeIn s →
      (s.params.pmaBytes < 64 + sizeIn → ∃ b, exec (.chReconf0 dev mps) s =
        .next (handOut (.task s.task) (.err .outOfMemory []) (nextDraw (setInUse 0 .dirIn b reset)))) ∧
      ∀ sizeOut, mps ≤ 1023 → dev < 128 → s.slots = [] → 64 + sizeIn ≤ s.params.pmaBytes →
        regionSize .dirOut mps s = .ok sizeOut s →
        let v := readChep s 0
        let hi : Handle := ⟨0, .dirIn, mps, .control, dev, ⟨64, sizeIn⟩, s.alloc.gen + 1⟩
        let ho : Handle := ⟨0, .dirOut, mps, .control, dev, ⟨64 + sizeIn, sizeOut⟩, s.alloc.gen + 1⟩
        let v1 := configFields s.params v .control dev 0
        let programmedIn := pokePma s 4 (leBytes 2 64 ++ leBytes 2 ((encLength s.params mps).getD 0).toNat)
        (s.params.pmaBytes < 64 + sizeIn + sizeOut → ∃ b : Bool, exec (.chReconf0 dev mps) s =
          .next (handOut (.task s.task) (.err .outOfMemory [])
            { s with
              alloc := ⟨64 + sizeIn, 1, if b then 1 else 0, s.alloc.gen + 1⟩
              pma := programmedIn.pma
              chep := s.chep.set 0 v1
              htIn := s.htIn.set 0 (some hi)
              log := s.log ++ [.writeChep (.task s.task) 0 (initWord s.params v .control dev 0)]
              draws := s.draws + 1 })) ∧
        (64 + sizeIn + sizeOut ≤ s.params.pmaBytes →
          exec (.chReconf0 dev mps) s = .next (handOut (.task s.task) (.ok (.handles hi ho))
            { s with
              alloc := ⟨64 + sizeIn + sizeOut, 1, 1, s.alloc.gen + 1⟩
              pma := (pokePma programmedIn 0 (leBytes 2 (64 + sizeIn) ++ leBytes 2 0)).pma
              chep := s.chep.set 0 v1
              htIn := s.htIn.set 0 (some hi)
              htOut := s.htOut.set 0 (some ho)
              log := s.log ++ [.writeChep (.task s.task) 0 (initWord s.params v .control dev 0),
                .writeChep (.task s.task) 0 (initWord s.params v1 .control dev 0)] }))

/-- `CH.DROP` (R263): the handle leaves the table and nothing else changes. -/
def Obligations.DropResult : Prop :=
  (∀ (ch : Chan) (d : Dir), EncodedAs ⟨0x62, ch.val, if d = .dirIn then 1 else 0, 0, 0, 0, 0⟩ (.chDrop ch d)) ∧
  ∀ (s : State) (ch : Chan) (d : Dir), tasksWf s.tasks = true →
    (handleAt s ch d = none → exec (.chDrop ch d) s = .next (raiseFault .noHandle s)) ∧
    (handleAt s ch d ≠ none →
      ((∃ u op, (taskRec s u).op = some op ∧ opChannel op = some (ch, d)) →
        exec (.chDrop ch d) s = .next (raiseFault .channelBusy s)) ∧
      ((∀ u op, (taskRec s u).op = some op → opChannel op ≠ some (ch, d)) →
        exec (.chDrop ch d) s = .next (handOut (.task s.task) (.ok .unit) (setHandle s ch d none))))

/-! ## The peripheral and the clock (48_peripheral.md, 60_exceptions.md) -/

/-- A received packet (48_peripheral.md R277): stored whole where it is empty or its bytes lie in packet memory past the
descriptor table. Where they run to or past `PMA_BYTES` the step faults (20_memory.md R86); that those below it are stored
first is the model's own reading (DEDUCED, notes/assumptions/15.md): no rule says what a faulting step of the peripheral
leaves in packet memory. -/
def Obligations.PeripheralReceives : Prop :=
  ∀ (s : State) (c : Chan) (payload pad : List Byte) (dtog : Bool), s.connected = true →
    (getStat s.params .rx (readChep s c) = .valid ∨ getStat s.params .rx (readChep s c) = .nak) →
    payload.length ≤ decCode (codeRx s c) → payload.length ≤ 1023 →
    payload.length + pad.length = roundup payload.length (granBytes s.params.gran) →
    (paramsWf s.params = true →
      (payload = [] ∨ 64 ≤ addrRx s c ∧ addrRx s c + payload.length + pad.length ≤ s.params.pmaBytes) →
      ∃ t, envStep (.rxData c payload pad dtog) s = .ok () t ∧
        (∀ k, k < payload.length → pmaByte t (addrRx s c + k) = payload.getD k 0) ∧
        (∀ a, (a < addrRx s c ∨ addrRx s c + roundup payload.length (granBytes s.params.gran) ≤ a) →
          a ≠ 8 * c.val + 6 → a ≠ 8 * c.val + 7 → pmaByte t a = pmaByte s a) ∧
        (codeRx t c).toNat % 1024 = payload.length ∧ (codeRx t c).toNat / 1024 = (codeRx s c).toNat / 1024 ∧
        addrRx t c = addrRx s c ∧
        getStat s.params .rx (readChep t c) = .disabled ∧ getCtr s.params .rx (readChep t c) = true ∧
        (readChep t c).getLsbD (dtogField s.params.chep .rx).lo = dtog ∧
        t = { s with pma := t.pma, chep := s.chep.set c (readChep t c), log := s.log ++ [.rxData c payload] } ∧
        (readChep t c ^^^ readChep s c) &&& ~~~ (fieldMask (statField s.params.chep .rx) |||
          fieldMask (ctrField s.params.chep .rx) ||| fieldMask (dtogField s.params.chep .rx)) = 0) ∧
    (payload ≠ [] → s.params.pmaBytes < addrRx s c + payload.length + pad.length →
      envStep (.rxData c payload pad dtog) s = .halt (raiseFault .pmaBounds
        (pokePma s (addrRx s c) ((payload ++ pad).take (s.params.pmaBytes - addrRx s c)))))

/-- A transmitted packet (48_peripheral.md R281): the bytes in packet memory at the transaction. -/
def Obligations.PeripheralTransmits : Prop :=
  ∀ (s : State) (c : Chan) (dtog : Bool), paramsWf s.params = true → s.connected = true →
    (getStat s.params .tx (readChep s c) = .valid ∨ getStat s.params .tx (readChep s c) = .nak) →
    (countTx s c = 0 ∨ addrTx s c + countTx s c ≤ s.params.pmaBytes →
      ∃ t, envStep (.txData c dtog) s = .ok () t ∧
        t = { s with chep := s.chep.set c (readChep t c), log := s.log ++ [.txData c
          ((List.range (countTx s c)).map fun k => pmaByte s (addrTx s c + k))] } ∧
        getStat s.params .tx (readChep t c) = .disabled ∧ getCtr s.params .tx (readChep t c) = true ∧
        (readChep t c).getLsbD (dtogField s.params.chep .tx).lo = dtog ∧
        (readChep t c ^^^ readChep s c) &&& ~~~ (fieldMask (statField s.params.chep .tx) |||
          fieldMask (ctrField s.params.chep .tx) ||| fieldMask (dtogField s.params.chep .tx)) = 0) ∧
    (0 < countTx s c → s.params.pmaBytes < addrTx s c + countTx s c →
      envStep (.txData c dtog) s = .halt (raiseFault .pmaBounds s))

/-- NAK, STALL and connect change (48_peripheral.md R278, R279, R282, R283, R284), for an enabled half. -/
def Obligations.PeripheralAnswers : Prop :=
  ∀ (s : State) (c : Chan),
    (halfEnabled s c .rx = true →
      (∀ b, envStep (.rxNak c b) s = .ok () (appendLog (setChep s c
        (if b then setCtr s.params .rx (putStat s.params .rx (readChep s c) .nak)
          else putStat s.params .rx (readChep s c) .nak)) (.rxNak c))) ∧
      envStep (.rxStall c) s = .ok () (appendLog (setChep s c
        (setCtr s.params .rx (putStat s.params .rx (readChep s c) .stall))) (.rxStall c))) ∧
    (halfEnabled s c .tx = true →
      (∀ b, envStep (.txNak c b) s = .ok () (appendLog (setChep s c
        (if b then setCtr s.params .tx (putStat s.params .tx (readChep s c) .nak)
          else putStat s.params .tx (readChep s c) .nak)) (.txNak c))) ∧
      envStep (.txStall c) s = .ok () (appendLog (setChep s c
        (setCtr s.params .tx (putStat s.params .tx (readChep s c) .stall))) (.txStall c))) ∧
    envStep .connectChange s = .ok () (appendLog
      { s with connected := !s.connected, istr := s.istr ||| bitAt s.params.istr.dcon } (.connectChange (!s.connected)))

/-- A transaction error and an overrun (48_peripheral.md R280, R285): the statuses stay, the condition is latched with
its channel, and no byte outside the advertised receive region changes. -/
def Obligations.PeripheralErrors : Prop :=
  ∀ (s t : State) (c : Chan) (h : Half) (bytes : List Byte), chepLayoutWf s.params.chep = true →
    (halfEnabled s c h = true → bytes.length = (if h = .rx then decCode (codeRx s c) else 0) →
      envStep (.error c h bytes) s = .ok () t →
      t = { s with
        pma := t.pma, chep := s.chep.set c (setErr s.params h (readChep s c))
        istr := s.istr ||| bitAt s.params.istr.err, errChan := some c, log := s.log ++ [.error c h] } ∧
      (∀ h', getStat s.params h' (readChep t c) = getStat s.params h' (readChep s c)) ∧
      (∀ a, a < addrRx s c ∨ addrRx s c + bytes.length ≤ a → pmaByte t a = pmaByte s a)) ∧
    (halfEnabled s c h = true → bytes.length = (if halfEnabled s c .rx then decCode (codeRx s c) else 0) →
      envStep (.overrun c bytes) s = .ok () t →
      t = { s with
        pma := t.pma, istr := s.istr ||| bitAt s.params.istr.pmaovr, errChan := some c
        log := s.log ++ [.overrun c] } ∧
      (∀ a, a < addrRx s c ∨ addrRx s c + bytes.length ≤ a → pmaByte t a = pmaByte s a))

/-- Where nothing happens (48_peripheral.md R276, R285, R286): a half that is `Disabled` or `Stall`, or a bus with no
device, takes no transaction, and a channel with no enabled half has no overrun. That a choice naming such a step
changes nothing, and that an error needs the half it names enabled, even where the channel's other half is, are the
model's own reading (notes/assumptions/9.md, DESIGN CHOICE, and 13.md, DEDUCED). -/
def Obligations.PeripheralIdle : Prop :=
  ∀ (s : State) (c : Chan),
    (∀ h : Half,
      (s.connected = false ∨ getStat s.params h (readChep s c) = .disabled ∨ getStat s.params h (readChep s c) = .stall) →
      (h = .rx → ∀ payload pad dtog b, envStep (.rxData c payload pad dtog) s = .ok () s ∧
        envStep (.rxNak c b) s = .ok () s ∧ envStep (.rxStall c) s = .ok () s) ∧
      (h = .tx → ∀ dtog b, envStep (.txData c dtog) s = .ok () s ∧ envStep (.txNak c b) s = .ok () s ∧
        envStep (.txStall c) s = .ok () s) ∧
      (∀ bytes, envStep (.error c h bytes) s = .ok () s)) ∧
    ((s.connected = false ∨ ∀ h : Half,
        getStat s.params h (readChep s c) = .disabled ∨ getStat s.params h (readChep s c) = .stall) →
      ∀ bytes, envStep (.overrun c bytes) s = .ok () s)

/-- A tick of the clock (60_exceptions.md R326, R327): a task is woken exactly when its timeout passes for the first
time, and nothing else changes. -/
def Obligations.ClockTick : Prop :=
  ∀ s : State, ∃ t, envStep .tick s = .ok () t ∧ t = { s with now := s.now + 1, tasks := t.tasks } ∧
    ∀ u, (taskRec t u).op = (taskRec s u).op ∧
      ((taskRec t u).woken = true ↔ (taskRec s u).woken = true ∨
        (∃ r T st, (taskRec s u).op = some (.read r) ∧ r.timeout = some T ∧ r.start = some st ∧
          s.now - st ≤ T ∧ T < s.now + 1 - st) ∨
        (∃ w T st, (taskRec s u).op = some (.write w) ∧ w.timeout = some T ∧ w.start = some st ∧
          s.now - st ≤ T ∧ T < s.now + 1 - st))

/-! ## Reset (70_reset_and_hazards.md) -/

/-- The values after hardware reset (R340) and driver construction (R342), for every choice of the parameters and whether
or not a device is attached (R344). `s.istr` is the stored bits of `ISTR`: the clearable bits R340 gives, and the
read-only bit no rule names, 0 by the model's own reading (notes/assumptions/6.md). That `State.reset` is one of these
states is the model's choice of parameters and of `connected` (notes/assumptions/1.md and 3.md). -/
def Obligations.ResetState : Prop :=
  (∃ p connected, State.reset = State.resetWith p connected) ∧
  ∀ (p : Params) (connected : Bool), let s := State.resetWith p connected
    (∀ c, readChep s c = 0) ∧ s.istr = 0 ∧ linePending s = false ∧ (istrFields s).dconStat = s.connected ∧
    s.alloc.free = 64 ∧ s.alloc.inUseIn = 0 ∧ s.alloc.inUseOut = 0 ∧ s.alloc.gen = 0 ∧
    (∀ c d, handleAt s c d = none) ∧ (∀ sl, slotOf s sl = none) ∧
    (∀ t, (taskRec s t).op = none ∧ (taskRec s t).woken = false ∧ partsOf s t = []) ∧
    s.fault = none ∧ s.log = [] ∧ s.now = 0

/-- Every invariant stated below holds after reset. The canonical form is the model's own (notes/assumptions/2.md and
17.md), so are the parameters and the connection of `State.reset` (notes/assumptions/1.md and 3.md) and the 0 of the
read-only bit of `ISTR` that no rule names (notes/assumptions/6.md). -/
def Obligations.ResetKeepsInvariants : Prop :=
  (Canonical State.reset ∧ AllocatorInv State.reset ∧ engineSafe State.reset ∧ istrOthersZero State.reset ∧
    readsAgree State.reset) ∧
  ∀ (p : Params) (connected : Bool), paramsWf p = true →
    Canonical (State.resetWith p connected) ∧ AllocatorInv (State.resetWith p connected) ∧
    engineSafe (State.resetWith p connected) ∧ istrOthersZero (State.resetWith p connected) ∧
    readsAgree (State.resetWith p connected)

/-! ## What every step keeps -/

/-- Every step keeps packet memory, the task table and the commands in progress in their canonical forms: rising keys, no
idle task and no ended command listed, the model's own form (DESIGN CHOICE, notes/assumptions/2.md and 17.md). -/
def Obligations.StepKeepsCanonical : Prop := ∀ s s' : State, Canonical s → step s = .next s' → Canonical s'

/-- Every step keeps the allocator invariant (10_state.md R40, R42, R44), under every interleaving in which allocator resets
and claims do not overlap (20_memory.md R95, 70_reset_and_hazards.md R354): live handles and claims in progress own
disjoint, aligned regions between the descriptor table and the bump pointer. -/
def Obligations.StepKeepsAllocator : Prop :=
  ∀ s s' : State, AllocatorInv s → resetsApart s → step s = .next s' → AllocatorInv s'

/-- Every step keeps the engine's invariant: operation records between polls and within them (10_state.md R60–R63),
exclusivity (R52) and the wake invariant (46_engine.md R241), under every interleaving of the agents. -/
def Obligations.StepKeepsEngine : Prop := ∀ s s' : State, engineSafe s → step s = .next s' → engineSafe s'

/-- Every step leaves the `OTHER` bits of `ISTR` 0 (10_state.md R48) and the `OTHER` bits of every channel register as
they were (R39), also of the register values that tasks have read and not yet written back; only `CR.INIT` and the
claims change a configuration field (R38): no other command does while no other task steps within it, and no step of
the environment does (48_peripheral.md R275). -/
def Obligations.StepKeepsReservedBits : Prop :=
  (∀ s s' : State, istrOthersZero s → step s = .next s' → istrOthersZero s') ∧
  (∀ s s' : State, chepLayoutWf s.params.chep = true → readsAgree s → step s = .next s' →
    readsAgree s' ∧ ∀ c, readChep s' c &&& pMask s.params.chep = readChep s c &&& pMask s.params.chep) ∧
  (∀ (i : Instr) (s s' : State), chepLayoutWf s.params.chep = true → noTaskSteps s → exec i s = .next s' →
    (∀ ch etype dev, i ≠ .crInit ch etype dev) → (∀ ch d etype dev mps, i ≠ .chClaim ch d etype dev mps) →
    (∀ dev mps, i ≠ .chReconf0 dev mps) →
    ∀ c, readChep s' c &&& rwMask s.params.chep = readChep s c &&& rwMask s.params.chep) ∧
  (∀ (s : State) (e : EnvStep) (rest : List Input), chepLayoutWf s.params.chep = true → s.fault = none →
    s.inputs = .event (.env e) :: rest → ∃ s', step s = .next s' ∧ ∀ c,
      readChep s' c &&& (rwMask s.params.chep ||| pMask s.params.chep) =
        readChep s c &&& (rwMask s.params.chep ||| pMask s.params.chep))

/-- What no step undoes: parameters, log, clock, generation, and within a generation the bump pointer and the in-use
marks (10_state.md R42, R43, R64, R66, R69, 41_allocator.md R152). -/
def Obligations.StepOnlyForward : Prop := ∀ s s' : State, step s = .next s' → OnlyForward s s'
end

