-- ==== Sys2Proof/Laws/Maps.lean ====
section
/-! SUPPORT. Sorted association lists: what a lookup finds after an insertion or an erasure, and that both keep the
canonical form. -/

namespace Sys2Proof.Machine

variable {α : Type}

theorem mapLookup_mapInsert (m : List (Nat × α)) (k k' : Nat) (v : α) :
    mapLookup (mapInsert m k v) k' = if k' = k then some v else mapLookup m k' := by
  induction m with
  | nil => simp [mapInsert, mapLookup]
  | cons e rest ih =>
    obtain ⟨a, w⟩ := e
    simp only [mapInsert]
    split
    · simp [mapLookup]
    · split
      · subst_vars
        simp only [mapLookup]
        split <;> simp_all
      · simp only [mapLookup, ih]
        split <;> rename_i h
        · subst h
          have : ¬ k' = k := fun e => by simp_all
          simp [this]
        · rfl

theorem mapLookup_none_of_risingFrom (m : List (Nat × α)) (b k : Nat) (h : risingFrom m b = true) (hk : k < b) :
    mapLookup m k = none := by
  induction m generalizing b with
  | nil => rfl
  | cons e rest ih =>
    obtain ⟨a, w⟩ := e
    simp only [risingFrom, Bool.and_eq_true, decide_eq_true_eq] at h
    simp only [mapLookup]
    rw [if_neg (by omega)]
    exact ih (a + 1) h.2 (by omega)

theorem mapLookup_mapErase (m : List (Nat × α)) (k k' : Nat) :
    mapLookup (mapErase m k) k' = if k' = k then none else mapLookup m k' := by
  induction m with
  | nil => simp [mapErase, mapLookup]
  | cons e rest ih =>
    obtain ⟨a, w⟩ := e
    simp only [mapErase]
    split
    · subst_vars
      rw [ih]
      simp only [mapLookup]
      split <;> rfl
    · simp only [mapLookup, ih]
      split <;> rename_i hk
      · subst hk
        rw [if_neg (by intro e; simp_all)]
      · rfl

theorem risingFrom_mono (m : List (Nat × α)) (b b' : Nat) (h : risingFrom m b = true) (hb : b' ≤ b) :
    risingFrom m b' = true := by
  cases m with
  | nil => rfl
  | cons e rest =>
    simp only [risingFrom, Bool.and_eq_true, decide_eq_true_eq] at h ⊢
    exact ⟨by omega, h.2⟩

theorem risingFrom_mapInsert (m : List (Nat × α)) (b k : Nat) (v : α) (h : risingFrom m b = true) (hk : b ≤ k) :
    risingFrom (mapInsert m k v) b = true := by
  induction m generalizing b with
  | nil => simp [mapInsert, risingFrom, hk]
  | cons e rest ih =>
    obtain ⟨a, w⟩ := e
    simp only [risingFrom, Bool.and_eq_true, decide_eq_true_eq] at h
    simp only [mapInsert]
    split
    · simp only [risingFrom, Bool.and_eq_true, decide_eq_true_eq]
      exact ⟨hk, by omega, h.2⟩
    · split
      · subst_vars
        simp only [risingFrom, Bool.and_eq_true, decide_eq_true_eq]
        exact ⟨hk, h.2⟩
      · simp only [risingFrom, Bool.and_eq_true, decide_eq_true_eq]
        exact ⟨h.1, ih _ h.2 (by omega)⟩

theorem risingFrom_mapErase (m : List (Nat × α)) (b k : Nat) (h : risingFrom m b = true) :
    risingFrom (mapErase m k) b = true := by
  induction m generalizing b with
  | nil => rfl
  | cons e rest ih =>
    obtain ⟨a, w⟩ := e
    simp only [risingFrom, Bool.and_eq_true, decide_eq_true_eq] at h
    simp only [mapErase]
    split
    · exact risingFrom_mono _ (a + 1) b (ih _ h.2) (by omega)
    · simp only [risingFrom, Bool.and_eq_true, decide_eq_true_eq]
      exact ⟨h.1, ih _ h.2⟩

theorem all_mapInsert (m : List (Nat × α)) (k : Nat) (v : α) (p : Nat × α → Bool) (h : m.all p = true)
    (hp : p (k, v) = true) : (mapInsert m k v).all p = true := by
  induction m with
  | nil => simp [mapInsert, hp]
  | cons e rest ih =>
    obtain ⟨a, w⟩ := e
    simp only [List.all_cons, Bool.and_eq_true] at h
    simp only [mapInsert]
    split
    · simp [hp, h.1, h.2]
    · split
      · simp [hp, h.2]
      · simp [h.1, ih h.2]

theorem all_mapErase (m : List (Nat × α)) (k : Nat) (p : Nat × α → Bool) (h : m.all p = true) :
    (mapErase m k).all p = true := by
  induction m with
  | nil => rfl
  | cons e rest ih =>
    obtain ⟨a, w⟩ := e
    simp only [List.all_cons, Bool.and_eq_true] at h
    simp only [mapErase]
    split
    · exact ih h.2
    · simp [h.1, ih h.2]

theorem mapLookup_map (m : List (Nat × α)) (f : α → α) (k : Nat) :
    mapLookup (m.map fun e => (e.1, f e.2)) k = (mapLookup m k).map f := by
  induction m with
  | nil => rfl
  | cons e rest ih =>
    simp only [List.map_cons, mapLookup]
    split
    · rfl
    · exact ih

theorem risingFrom_map (m : List (Nat × α)) (f : α → α) (b : Nat) (h : risingFrom m b = true) :
    risingFrom (m.map fun e => (e.1, f e.2)) b = true := by
  induction m generalizing b with
  | nil => rfl
  | cons e rest ih =>
    obtain ⟨a, w⟩ := e
    simp only [risingFrom, Bool.and_eq_true, decide_eq_true_eq, List.map_cons] at h ⊢
    exact ⟨h.1, ih _ h.2⟩

/-- An insertion over an insertion at the same key is one insertion. -/
theorem mapInsert_mapInsert (m : List (Nat × α)) (k : Nat) (v w : α) :
    mapInsert (mapInsert m k v) k w = mapInsert m k w := by
  induction m with
  | nil => simp [mapInsert]
  | cons e rest ih =>
    obtain ⟨a, u⟩ := e
    simp only [mapInsert]
    split
    · simp [mapInsert]
    · split
      · simp [mapInsert]
      · rename_i h1 h2
        simp [mapInsert, h1, h2, ih]

/-- What a lookup finds is in the list. -/
theorem mem_of_mapLookup {m : List (Nat × α)} {k : Nat} {v : α} (h : mapLookup m k = some v) : (k, v) ∈ m := by
  induction m with
  | nil => simp [mapLookup] at h
  | cons e rest ih =>
    obtain ⟨a, u⟩ := e
    simp only [mapLookup] at h
    split at h
    · simp_all
    · simp [ih h]

theorem mapLookup_of_mem {m : List (Nat × α)} {b k : Nat} {v : α} (hm : risingFrom m b = true) (h : (k, v) ∈ m) :
    mapLookup m k = some v := by
  induction m generalizing b with
  | nil => simp at h
  | cons e rest ih =>
    obtain ⟨a, u⟩ := e
    simp only [risingFrom, Bool.and_eq_true, decide_eq_true_eq] at hm
    simp only [List.mem_cons, Prod.mk.injEq] at h
    simp only [mapLookup]
    rcases h with ⟨rfl, rfl⟩ | h
    · simp
    · split
      · rename_i hk
        subst hk
        have := ih hm.2 h
        rw [mapLookup_none_of_risingFrom rest _ _ hm.2 (by omega)] at this
        simp at this
      · exact ih hm.2 h

end Sys2Proof.Machine
end

