-- ==== Sys2Proof/Laws/State.lean ====
section
/-! SUPPORT. One lemma per field per named update of the state: what the update leaves, and what it puts where it writes.
No later proof unfolds a record update. -/

namespace Sys2Proof.Machine

/-! `raiseFault` -/

@[simp] theorem raiseFault_params (r : Fault) (s : State) : (raiseFault r s).params = s.params := rfl
@[simp] theorem raiseFault_pma (r : Fault) (s : State) : (raiseFault r s).pma = s.pma := rfl
@[simp] theorem raiseFault_chep (r : Fault) (s : State) : (raiseFault r s).chep = s.chep := rfl
@[simp] theorem raiseFault_istr (r : Fault) (s : State) : (raiseFault r s).istr = s.istr := rfl
@[simp] theorem raiseFault_errChan (r : Fault) (s : State) : (raiseFault r s).errChan = s.errChan := rfl
@[simp] theorem raiseFault_connected (r : Fault) (s : State) : (raiseFault r s).connected = s.connected := rfl
@[simp] theorem raiseFault_alloc (r : Fault) (s : State) : (raiseFault r s).alloc = s.alloc := rfl
@[simp] theorem raiseFault_htIn (r : Fault) (s : State) : (raiseFault r s).htIn = s.htIn := rfl
@[simp] theorem raiseFault_htOut (r : Fault) (s : State) : (raiseFault r s).htOut = s.htOut := rfl
@[simp] theorem raiseFault_wakerIn (r : Fault) (s : State) : (raiseFault r s).wakerIn = s.wakerIn := rfl
@[simp] theorem raiseFault_wakerOut (r : Fault) (s : State) : (raiseFault r s).wakerOut = s.wakerOut := rfl
@[simp] theorem raiseFault_wakerBus (r : Fault) (s : State) : (raiseFault r s).wakerBus = s.wakerBus := rfl
@[simp] theorem raiseFault_tasks (r : Fault) (s : State) : (raiseFault r s).tasks = s.tasks := rfl
@[simp] theorem raiseFault_now (r : Fault) (s : State) : (raiseFault r s).now = s.now := rfl
@[simp] theorem raiseFault_fault (r : Fault) (s : State) : (raiseFault r s).fault = some r := rfl
@[simp] theorem raiseFault_log (r : Fault) (s : State) : (raiseFault r s).log = s.log := rfl
@[simp] theorem raiseFault_task (r : Fault) (s : State) : (raiseFault r s).task = s.task := rfl
@[simp] theorem raiseFault_data (r : Fault) (s : State) : (raiseFault r s).data = s.data := rfl
@[simp] theorem raiseFault_timeout (r : Fault) (s : State) : (raiseFault r s).timeout = s.timeout := rfl
@[simp] theorem raiseFault_inputs (r : Fault) (s : State) : (raiseFault r s).inputs = s.inputs := rfl
@[simp] theorem raiseFault_slots (r : Fault) (s : State) : (raiseFault r s).slots = s.slots := rfl
@[simp] theorem raiseFault_irqSlots (r : Fault) (s : State) : (raiseFault r s).irqSlots = s.irqSlots := rfl
@[simp] theorem raiseFault_inProgress (r : Fault) (s : State) : (raiseFault r s).inProgress = s.inProgress := rfl
@[simp] theorem raiseFault_draws (r : Fault) (s : State) : (raiseFault r s).draws = s.draws := rfl
@[simp] theorem raiseFault_out (r : Fault) (s : State) : (raiseFault r s).out = s.out := rfl

/-! `setChep` -/

@[simp] theorem setChep_params (s : State) (c : Chan) (v : Word32) : (setChep s c v).params = s.params := rfl
@[simp] theorem setChep_pma (s : State) (c : Chan) (v : Word32) : (setChep s c v).pma = s.pma := rfl
@[simp] theorem setChep_chep (s : State) (c : Chan) (v : Word32) : (setChep s c v).chep = s.chep.set c v := rfl
@[simp] theorem setChep_istr (s : State) (c : Chan) (v : Word32) : (setChep s c v).istr = s.istr := rfl
@[simp] theorem setChep_errChan (s : State) (c : Chan) (v : Word32) : (setChep s c v).errChan = s.errChan := rfl
@[simp] theorem setChep_connected (s : State) (c : Chan) (v : Word32) : (setChep s c v).connected = s.connected := rfl
@[simp] theorem setChep_alloc (s : State) (c : Chan) (v : Word32) : (setChep s c v).alloc = s.alloc := rfl
@[simp] theorem setChep_htIn (s : State) (c : Chan) (v : Word32) : (setChep s c v).htIn = s.htIn := rfl
@[simp] theorem setChep_htOut (s : State) (c : Chan) (v : Word32) : (setChep s c v).htOut = s.htOut := rfl
@[simp] theorem setChep_wakerIn (s : State) (c : Chan) (v : Word32) : (setChep s c v).wakerIn = s.wakerIn := rfl
@[simp] theorem setChep_wakerOut (s : State) (c : Chan) (v : Word32) : (setChep s c v).wakerOut = s.wakerOut := rfl
@[simp] theorem setChep_wakerBus (s : State) (c : Chan) (v : Word32) : (setChep s c v).wakerBus = s.wakerBus := rfl
@[simp] theorem setChep_tasks (s : State) (c : Chan) (v : Word32) : (setChep s c v).tasks = s.tasks := rfl
@[simp] theorem setChep_now (s : State) (c : Chan) (v : Word32) : (setChep s c v).now = s.now := rfl
@[simp] theorem setChep_fault (s : State) (c : Chan) (v : Word32) : (setChep s c v).fault = s.fault := rfl
@[simp] theorem setChep_log (s : State) (c : Chan) (v : Word32) : (setChep s c v).log = s.log := rfl
@[simp] theorem setChep_task (s : State) (c : Chan) (v : Word32) : (setChep s c v).task = s.task := rfl
@[simp] theorem setChep_data (s : State) (c : Chan) (v : Word32) : (setChep s c v).data = s.data := rfl
@[simp] theorem setChep_timeout (s : State) (c : Chan) (v : Word32) : (setChep s c v).timeout = s.timeout := rfl
@[simp] theorem setChep_inputs (s : State) (c : Chan) (v : Word32) : (setChep s c v).inputs = s.inputs := rfl
@[simp] theorem setChep_slots (s : State) (c : Chan) (v : Word32) : (setChep s c v).slots = s.slots := rfl
@[simp] theorem setChep_irqSlots (s : State) (c : Chan) (v : Word32) : (setChep s c v).irqSlots = s.irqSlots := rfl
@[simp] theorem setChep_inProgress (s : State) (c : Chan) (v : Word32) : (setChep s c v).inProgress = s.inProgress := rfl
@[simp] theorem setChep_draws (s : State) (c : Chan) (v : Word32) : (setChep s c v).draws = s.draws := rfl
@[simp] theorem setChep_out (s : State) (c : Chan) (v : Word32) : (setChep s c v).out = s.out := rfl

/-! `appendLog` -/

@[simp] theorem appendLog_params (s : State) (e : LogEntry) : (appendLog s e).params = s.params := rfl
@[simp] theorem appendLog_pma (s : State) (e : LogEntry) : (appendLog s e).pma = s.pma := rfl
@[simp] theorem appendLog_chep (s : State) (e : LogEntry) : (appendLog s e).chep = s.chep := rfl
@[simp] theorem appendLog_istr (s : State) (e : LogEntry) : (appendLog s e).istr = s.istr := rfl
@[simp] theorem appendLog_errChan (s : State) (e : LogEntry) : (appendLog s e).errChan = s.errChan := rfl
@[simp] theorem appendLog_connected (s : State) (e : LogEntry) : (appendLog s e).connected = s.connected := rfl
@[simp] theorem appendLog_alloc (s : State) (e : LogEntry) : (appendLog s e).alloc = s.alloc := rfl
@[simp] theorem appendLog_htIn (s : State) (e : LogEntry) : (appendLog s e).htIn = s.htIn := rfl
@[simp] theorem appendLog_htOut (s : State) (e : LogEntry) : (appendLog s e).htOut = s.htOut := rfl
@[simp] theorem appendLog_wakerIn (s : State) (e : LogEntry) : (appendLog s e).wakerIn = s.wakerIn := rfl
@[simp] theorem appendLog_wakerOut (s : State) (e : LogEntry) : (appendLog s e).wakerOut = s.wakerOut := rfl
@[simp] theorem appendLog_wakerBus (s : State) (e : LogEntry) : (appendLog s e).wakerBus = s.wakerBus := rfl
@[simp] theorem appendLog_tasks (s : State) (e : LogEntry) : (appendLog s e).tasks = s.tasks := rfl
@[simp] theorem appendLog_now (s : State) (e : LogEntry) : (appendLog s e).now = s.now := rfl
@[simp] theorem appendLog_fault (s : State) (e : LogEntry) : (appendLog s e).fault = s.fault := rfl
@[simp] theorem appendLog_log (s : State) (e : LogEntry) : (appendLog s e).log = s.log ++ [e] := rfl
@[simp] theorem appendLog_task (s : State) (e : LogEntry) : (appendLog s e).task = s.task := rfl
@[simp] theorem appendLog_data (s : State) (e : LogEntry) : (appendLog s e).data = s.data := rfl
@[simp] theorem appendLog_timeout (s : State) (e : LogEntry) : (appendLog s e).timeout = s.timeout := rfl
@[simp] theorem appendLog_inputs (s : State) (e : LogEntry) : (appendLog s e).inputs = s.inputs := rfl
@[simp] theorem appendLog_slots (s : State) (e : LogEntry) : (appendLog s e).slots = s.slots := rfl
@[simp] theorem appendLog_irqSlots (s : State) (e : LogEntry) : (appendLog s e).irqSlots = s.irqSlots := rfl
@[simp] theorem appendLog_inProgress (s : State) (e : LogEntry) : (appendLog s e).inProgress = s.inProgress := rfl
@[simp] theorem appendLog_draws (s : State) (e : LogEntry) : (appendLog s e).draws = s.draws := rfl
@[simp] theorem appendLog_out (s : State) (e : LogEntry) : (appendLog s e).out = s.out := rfl

/-! `writeChep` -/

@[simp] theorem writeChep_params (a : Agent) (c : Chan) (w : Word32) (s : State) : (writeChep a c w s).params = s.params := rfl
@[simp] theorem writeChep_pma (a : Agent) (c : Chan) (w : Word32) (s : State) : (writeChep a c w s).pma = s.pma := rfl
@[simp] theorem writeChep_chep (a : Agent) (c : Chan) (w : Word32) (s : State) : (writeChep a c w s).chep = s.chep.set c (hwWriteChep s.params (readChep s c) w) := rfl
@[simp] theorem writeChep_istr (a : Agent) (c : Chan) (w : Word32) (s : State) : (writeChep a c w s).istr = s.istr := rfl
@[simp] theorem writeChep_errChan (a : Agent) (c : Chan) (w : Word32) (s : State) : (writeChep a c w s).errChan = s.errChan := rfl
@[simp] theorem writeChep_connected (a : Agent) (c : Chan) (w : Word32) (s : State) : (writeChep a c w s).connected = s.connected := rfl
@[simp] theorem writeChep_alloc (a : Agent) (c : Chan) (w : Word32) (s : State) : (writeChep a c w s).alloc = s.alloc := rfl
@[simp] theorem writeChep_htIn (a : Agent) (c : Chan) (w : Word32) (s : State) : (writeChep a c w s).htIn = s.htIn := rfl
@[simp] theorem writeChep_htOut (a : Agent) (c : Chan) (w : Word32) (s : State) : (writeChep a c w s).htOut = s.htOut := rfl
@[simp] theorem writeChep_wakerIn (a : Agent) (c : Chan) (w : Word32) (s : State) : (writeChep a c w s).wakerIn = s.wakerIn := rfl
@[simp] theorem writeChep_wakerOut (a : Agent) (c : Chan) (w : Word32) (s : State) : (writeChep a c w s).wakerOut = s.wakerOut := rfl
@[simp] theorem writeChep_wakerBus (a : Agent) (c : Chan) (w : Word32) (s : State) : (writeChep a c w s).wakerBus = s.wakerBus := rfl
@[simp] theorem writeChep_tasks (a : Agent) (c : Chan) (w : Word32) (s : State) : (writeChep a c w s).tasks = s.tasks := rfl
@[simp] theorem writeChep_now (a : Agent) (c : Chan) (w : Word32) (s : State) : (writeChep a c w s).now = s.now := rfl
@[simp] theorem writeChep_fault (a : Agent) (c : Chan) (w : Word32) (s : State) : (writeChep a c w s).fault = s.fault := rfl
@[simp] theorem writeChep_log (a : Agent) (c : Chan) (w : Word32) (s : State) : (writeChep a c w s).log = s.log ++ [.writeChep a c w] := rfl
@[simp] theorem writeChep_task (a : Agent) (c : Chan) (w : Word32) (s : State) : (writeChep a c w s).task = s.task := rfl
@[simp] theorem writeChep_data (a : Agent) (c : Chan) (w : Word32) (s : State) : (writeChep a c w s).data = s.data := rfl
@[simp] theorem writeChep_timeout (a : Agent) (c : Chan) (w : Word32) (s : State) : (writeChep a c w s).timeout = s.timeout := rfl
@[simp] theorem writeChep_inputs (a : Agent) (c : Chan) (w : Word32) (s : State) : (writeChep a c w s).inputs = s.inputs := rfl
@[simp] theorem writeChep_slots (a : Agent) (c : Chan) (w : Word32) (s : State) : (writeChep a c w s).slots = s.slots := rfl
@[simp] theorem writeChep_irqSlots (a : Agent) (c : Chan) (w : Word32) (s : State) : (writeChep a c w s).irqSlots = s.irqSlots := rfl
@[simp] theorem writeChep_inProgress (a : Agent) (c : Chan) (w : Word32) (s : State) : (writeChep a c w s).inProgress = s.inProgress := rfl
@[simp] theorem writeChep_draws (a : Agent) (c : Chan) (w : Word32) (s : State) : (writeChep a c w s).draws = s.draws := rfl
@[simp] theorem writeChep_out (a : Agent) (c : Chan) (w : Word32) (s : State) : (writeChep a c w s).out = s.out := rfl

/-! `nextDraw` -/

@[simp] theorem nextDraw_params (s : State) : (nextDraw s).params = s.params := rfl
@[simp] theorem nextDraw_pma (s : State) : (nextDraw s).pma = s.pma := rfl
@[simp] theorem nextDraw_chep (s : State) : (nextDraw s).chep = s.chep := rfl
@[simp] theorem nextDraw_istr (s : State) : (nextDraw s).istr = s.istr := rfl
@[simp] theorem nextDraw_errChan (s : State) : (nextDraw s).errChan = s.errChan := rfl
@[simp] theorem nextDraw_connected (s : State) : (nextDraw s).connected = s.connected := rfl
@[simp] theorem nextDraw_alloc (s : State) : (nextDraw s).alloc = s.alloc := rfl
@[simp] theorem nextDraw_htIn (s : State) : (nextDraw s).htIn = s.htIn := rfl
@[simp] theorem nextDraw_htOut (s : State) : (nextDraw s).htOut = s.htOut := rfl
@[simp] theorem nextDraw_wakerIn (s : State) : (nextDraw s).wakerIn = s.wakerIn := rfl
@[simp] theorem nextDraw_wakerOut (s : State) : (nextDraw s).wakerOut = s.wakerOut := rfl
@[simp] theorem nextDraw_wakerBus (s : State) : (nextDraw s).wakerBus = s.wakerBus := rfl
@[simp] theorem nextDraw_tasks (s : State) : (nextDraw s).tasks = s.tasks := rfl
@[simp] theorem nextDraw_now (s : State) : (nextDraw s).now = s.now := rfl
@[simp] theorem nextDraw_fault (s : State) : (nextDraw s).fault = s.fault := rfl
@[simp] theorem nextDraw_log (s : State) : (nextDraw s).log = s.log := rfl
@[simp] theorem nextDraw_task (s : State) : (nextDraw s).task = s.task := rfl
@[simp] theorem nextDraw_data (s : State) : (nextDraw s).data = s.data := rfl
@[simp] theorem nextDraw_timeout (s : State) : (nextDraw s).timeout = s.timeout := rfl
@[simp] theorem nextDraw_inputs (s : State) : (nextDraw s).inputs = s.inputs := rfl
@[simp] theorem nextDraw_slots (s : State) : (nextDraw s).slots = s.slots := rfl
@[simp] theorem nextDraw_irqSlots (s : State) : (nextDraw s).irqSlots = s.irqSlots := rfl
@[simp] theorem nextDraw_inProgress (s : State) : (nextDraw s).inProgress = s.inProgress := rfl
@[simp] theorem nextDraw_draws (s : State) : (nextDraw s).draws = s.draws + 1 := rfl
@[simp] theorem nextDraw_out (s : State) : (nextDraw s).out = s.out := rfl

/-! `writeIstr` -/

@[simp] theorem writeIstr_params (a : Agent) (w : Word32) (s : State) : (writeIstr a w s).params = s.params := rfl
@[simp] theorem writeIstr_pma (a : Agent) (w : Word32) (s : State) : (writeIstr a w s).pma = s.pma := rfl
@[simp] theorem writeIstr_chep (a : Agent) (w : Word32) (s : State) : (writeIstr a w s).chep = s.chep := rfl
@[simp] theorem writeIstr_istr (a : Agent) (w : Word32) (s : State) : (writeIstr a w s).istr = hwWriteIstr s.params s.istr w := rfl
@[simp] theorem writeIstr_errChan (a : Agent) (w : Word32) (s : State) : (writeIstr a w s).errChan = s.errChan := rfl
@[simp] theorem writeIstr_connected (a : Agent) (w : Word32) (s : State) : (writeIstr a w s).connected = s.connected := rfl
@[simp] theorem writeIstr_alloc (a : Agent) (w : Word32) (s : State) : (writeIstr a w s).alloc = s.alloc := rfl
@[simp] theorem writeIstr_htIn (a : Agent) (w : Word32) (s : State) : (writeIstr a w s).htIn = s.htIn := rfl
@[simp] theorem writeIstr_htOut (a : Agent) (w : Word32) (s : State) : (writeIstr a w s).htOut = s.htOut := rfl
@[simp] theorem writeIstr_wakerIn (a : Agent) (w : Word32) (s : State) : (writeIstr a w s).wakerIn = s.wakerIn := rfl
@[simp] theorem writeIstr_wakerOut (a : Agent) (w : Word32) (s : State) : (writeIstr a w s).wakerOut = s.wakerOut := rfl
@[simp] theorem writeIstr_wakerBus (a : Agent) (w : Word32) (s : State) : (writeIstr a w s).wakerBus = s.wakerBus := rfl
@[simp] theorem writeIstr_tasks (a : Agent) (w : Word32) (s : State) : (writeIstr a w s).tasks = s.tasks := rfl
@[simp] theorem writeIstr_now (a : Agent) (w : Word32) (s : State) : (writeIstr a w s).now = s.now := rfl
@[simp] theorem writeIstr_fault (a : Agent) (w : Word32) (s : State) : (writeIstr a w s).fault = s.fault := rfl
@[simp] theorem writeIstr_log (a : Agent) (w : Word32) (s : State) : (writeIstr a w s).log = s.log ++ [.writeIstr a w] := rfl
@[simp] theorem writeIstr_task (a : Agent) (w : Word32) (s : State) : (writeIstr a w s).task = s.task := rfl
@[simp] theorem writeIstr_data (a : Agent) (w : Word32) (s : State) : (writeIstr a w s).data = s.data := rfl
@[simp] theorem writeIstr_timeout (a : Agent) (w : Word32) (s : State) : (writeIstr a w s).timeout = s.timeout := rfl
@[simp] theorem writeIstr_inputs (a : Agent) (w : Word32) (s : State) : (writeIstr a w s).inputs = s.inputs := rfl
@[simp] theorem writeIstr_slots (a : Agent) (w : Word32) (s : State) : (writeIstr a w s).slots = s.slots := rfl
@[simp] theorem writeIstr_irqSlots (a : Agent) (w : Word32) (s : State) : (writeIstr a w s).irqSlots = s.irqSlots := rfl
@[simp] theorem writeIstr_inProgress (a : Agent) (w : Word32) (s : State) : (writeIstr a w s).inProgress = s.inProgress := rfl
@[simp] theorem writeIstr_draws (a : Agent) (w : Word32) (s : State) : (writeIstr a w s).draws = s.draws := rfl
@[simp] theorem writeIstr_out (a : Agent) (w : Word32) (s : State) : (writeIstr a w s).out = s.out := rfl

/-! `latchIstr` -/

@[simp] theorem latchIstr_params (n : Nat) (s : State) : (latchIstr n s).params = s.params := rfl
@[simp] theorem latchIstr_pma (n : Nat) (s : State) : (latchIstr n s).pma = s.pma := rfl
@[simp] theorem latchIstr_chep (n : Nat) (s : State) : (latchIstr n s).chep = s.chep := rfl
@[simp] theorem latchIstr_istr (n : Nat) (s : State) : (latchIstr n s).istr = s.istr ||| bitAt n := rfl
@[simp] theorem latchIstr_errChan (n : Nat) (s : State) : (latchIstr n s).errChan = s.errChan := rfl
@[simp] theorem latchIstr_connected (n : Nat) (s : State) : (latchIstr n s).connected = s.connected := rfl
@[simp] theorem latchIstr_alloc (n : Nat) (s : State) : (latchIstr n s).alloc = s.alloc := rfl
@[simp] theorem latchIstr_htIn (n : Nat) (s : State) : (latchIstr n s).htIn = s.htIn := rfl
@[simp] theorem latchIstr_htOut (n : Nat) (s : State) : (latchIstr n s).htOut = s.htOut := rfl
@[simp] theorem latchIstr_wakerIn (n : Nat) (s : State) : (latchIstr n s).wakerIn = s.wakerIn := rfl
@[simp] theorem latchIstr_wakerOut (n : Nat) (s : State) : (latchIstr n s).wakerOut = s.wakerOut := rfl
@[simp] theorem latchIstr_wakerBus (n : Nat) (s : State) : (latchIstr n s).wakerBus = s.wakerBus := rfl
@[simp] theorem latchIstr_tasks (n : Nat) (s : State) : (latchIstr n s).tasks = s.tasks := rfl
@[simp] theorem latchIstr_now (n : Nat) (s : State) : (latchIstr n s).now = s.now := rfl
@[simp] theorem latchIstr_fault (n : Nat) (s : State) : (latchIstr n s).fault = s.fault := rfl
@[simp] theorem latchIstr_log (n : Nat) (s : State) : (latchIstr n s).log = s.log := rfl
@[simp] theorem latchIstr_task (n : Nat) (s : State) : (latchIstr n s).task = s.task := rfl
@[simp] theorem latchIstr_data (n : Nat) (s : State) : (latchIstr n s).data = s.data := rfl
@[simp] theorem latchIstr_timeout (n : Nat) (s : State) : (latchIstr n s).timeout = s.timeout := rfl
@[simp] theorem latchIstr_inputs (n : Nat) (s : State) : (latchIstr n s).inputs = s.inputs := rfl
@[simp] theorem latchIstr_slots (n : Nat) (s : State) : (latchIstr n s).slots = s.slots := rfl
@[simp] theorem latchIstr_irqSlots (n : Nat) (s : State) : (latchIstr n s).irqSlots = s.irqSlots := rfl
@[simp] theorem latchIstr_inProgress (n : Nat) (s : State) : (latchIstr n s).inProgress = s.inProgress := rfl
@[simp] theorem latchIstr_draws (n : Nat) (s : State) : (latchIstr n s).draws = s.draws := rfl
@[simp] theorem latchIstr_out (n : Nat) (s : State) : (latchIstr n s).out = s.out := rfl

/-! `pokePma` -/

@[simp] theorem pokePma_params (s : State) (a : Nat) (bs : List Byte) : (pokePma s a bs).params = s.params := rfl
@[simp] theorem pokePma_pma (s : State) (a : Nat) (bs : List Byte) : (pokePma s a bs).pma = storeBytes s.pma a bs := rfl
@[simp] theorem pokePma_chep (s : State) (a : Nat) (bs : List Byte) : (pokePma s a bs).chep = s.chep := rfl
@[simp] theorem pokePma_istr (s : State) (a : Nat) (bs : List Byte) : (pokePma s a bs).istr = s.istr := rfl
@[simp] theorem pokePma_errChan (s : State) (a : Nat) (bs : List Byte) : (pokePma s a bs).errChan = s.errChan := rfl
@[simp] theorem pokePma_connected (s : State) (a : Nat) (bs : List Byte) : (pokePma s a bs).connected = s.connected := rfl
@[simp] theorem pokePma_alloc (s : State) (a : Nat) (bs : List Byte) : (pokePma s a bs).alloc = s.alloc := rfl
@[simp] theorem pokePma_htIn (s : State) (a : Nat) (bs : List Byte) : (pokePma s a bs).htIn = s.htIn := rfl
@[simp] theorem pokePma_htOut (s : State) (a : Nat) (bs : List Byte) : (pokePma s a bs).htOut = s.htOut := rfl
@[simp] theorem pokePma_wakerIn (s : State) (a : Nat) (bs : List Byte) : (pokePma s a bs).wakerIn = s.wakerIn := rfl
@[simp] theorem pokePma_wakerOut (s : State) (a : Nat) (bs : List Byte) : (pokePma s a bs).wakerOut = s.wakerOut := rfl
@[simp] theorem pokePma_wakerBus (s : State) (a : Nat) (bs : List Byte) : (pokePma s a bs).wakerBus = s.wakerBus := rfl
@[simp] theorem pokePma_tasks (s : State) (a : Nat) (bs : List Byte) : (pokePma s a bs).tasks = s.tasks := rfl
@[simp] theorem pokePma_now (s : State) (a : Nat) (bs : List Byte) : (pokePma s a bs).now = s.now := rfl
@[simp] theorem pokePma_fault (s : State) (a : Nat) (bs : List Byte) : (pokePma s a bs).fault = s.fault := rfl
@[simp] theorem pokePma_log (s : State) (a : Nat) (bs : List Byte) : (pokePma s a bs).log = s.log := rfl
@[simp] theorem pokePma_task (s : State) (a : Nat) (bs : List Byte) : (pokePma s a bs).task = s.task := rfl
@[simp] theorem pokePma_data (s : State) (a : Nat) (bs : List Byte) : (pokePma s a bs).data = s.data := rfl
@[simp] theorem pokePma_timeout (s : State) (a : Nat) (bs : List Byte) : (pokePma s a bs).timeout = s.timeout := rfl
@[simp] theorem pokePma_inputs (s : State) (a : Nat) (bs : List Byte) : (pokePma s a bs).inputs = s.inputs := rfl
@[simp] theorem pokePma_slots (s : State) (a : Nat) (bs : List Byte) : (pokePma s a bs).slots = s.slots := rfl
@[simp] theorem pokePma_irqSlots (s : State) (a : Nat) (bs : List Byte) : (pokePma s a bs).irqSlots = s.irqSlots := rfl
@[simp] theorem pokePma_inProgress (s : State) (a : Nat) (bs : List Byte) : (pokePma s a bs).inProgress = s.inProgress := rfl
@[simp] theorem pokePma_draws (s : State) (a : Nat) (bs : List Byte) : (pokePma s a bs).draws = s.draws := rfl
@[simp] theorem pokePma_out (s : State) (a : Nat) (bs : List Byte) : (pokePma s a bs).out = s.out := rfl

/-! `putTask` -/

@[simp] theorem putTask_params (s : State) (t : Nat) (r : TaskRec) : (putTask s t r).params = s.params := rfl
@[simp] theorem putTask_pma (s : State) (t : Nat) (r : TaskRec) : (putTask s t r).pma = s.pma := rfl
@[simp] theorem putTask_chep (s : State) (t : Nat) (r : TaskRec) : (putTask s t r).chep = s.chep := rfl
@[simp] theorem putTask_istr (s : State) (t : Nat) (r : TaskRec) : (putTask s t r).istr = s.istr := rfl
@[simp] theorem putTask_errChan (s : State) (t : Nat) (r : TaskRec) : (putTask s t r).errChan = s.errChan := rfl
@[simp] theorem putTask_connected (s : State) (t : Nat) (r : TaskRec) : (putTask s t r).connected = s.connected := rfl
@[simp] theorem putTask_alloc (s : State) (t : Nat) (r : TaskRec) : (putTask s t r).alloc = s.alloc := rfl
@[simp] theorem putTask_htIn (s : State) (t : Nat) (r : TaskRec) : (putTask s t r).htIn = s.htIn := rfl
@[simp] theorem putTask_htOut (s : State) (t : Nat) (r : TaskRec) : (putTask s t r).htOut = s.htOut := rfl
@[simp] theorem putTask_wakerIn (s : State) (t : Nat) (r : TaskRec) : (putTask s t r).wakerIn = s.wakerIn := rfl
@[simp] theorem putTask_wakerOut (s : State) (t : Nat) (r : TaskRec) : (putTask s t r).wakerOut = s.wakerOut := rfl
@[simp] theorem putTask_wakerBus (s : State) (t : Nat) (r : TaskRec) : (putTask s t r).wakerBus = s.wakerBus := rfl
@[simp] theorem putTask_tasks (s : State) (t : Nat) (r : TaskRec) : (putTask s t r).tasks = if r = idleTask then mapErase s.tasks t else mapInsert s.tasks t r := rfl
@[simp] theorem putTask_now (s : State) (t : Nat) (r : TaskRec) : (putTask s t r).now = s.now := rfl
@[simp] theorem putTask_fault (s : State) (t : Nat) (r : TaskRec) : (putTask s t r).fault = s.fault := rfl
@[simp] theorem putTask_log (s : State) (t : Nat) (r : TaskRec) : (putTask s t r).log = s.log := rfl
@[simp] theorem putTask_task (s : State) (t : Nat) (r : TaskRec) : (putTask s t r).task = s.task := rfl
@[simp] theorem putTask_data (s : State) (t : Nat) (r : TaskRec) : (putTask s t r).data = s.data := rfl
@[simp] theorem putTask_timeout (s : State) (t : Nat) (r : TaskRec) : (putTask s t r).timeout = s.timeout := rfl
@[simp] theorem putTask_inputs (s : State) (t : Nat) (r : TaskRec) : (putTask s t r).inputs = s.inputs := rfl
@[simp] theorem putTask_slots (s : State) (t : Nat) (r : TaskRec) : (putTask s t r).slots = s.slots := rfl
@[simp] theorem putTask_irqSlots (s : State) (t : Nat) (r : TaskRec) : (putTask s t r).irqSlots = s.irqSlots := rfl
@[simp] theorem putTask_inProgress (s : State) (t : Nat) (r : TaskRec) : (putTask s t r).inProgress = s.inProgress := rfl
@[simp] theorem putTask_draws (s : State) (t : Nat) (r : TaskRec) : (putTask s t r).draws = s.draws := rfl
@[simp] theorem putTask_out (s : State) (t : Nat) (r : TaskRec) : (putTask s t r).out = s.out := rfl

/-! `setOp` -/

@[simp] theorem setOp_params (t : Nat) (op : Option Op) (s : State) : (setOp t op s).params = s.params := rfl
@[simp] theorem setOp_pma (t : Nat) (op : Option Op) (s : State) : (setOp t op s).pma = s.pma := rfl
@[simp] theorem setOp_chep (t : Nat) (op : Option Op) (s : State) : (setOp t op s).chep = s.chep := rfl
@[simp] theorem setOp_istr (t : Nat) (op : Option Op) (s : State) : (setOp t op s).istr = s.istr := rfl
@[simp] theorem setOp_errChan (t : Nat) (op : Option Op) (s : State) : (setOp t op s).errChan = s.errChan := rfl
@[simp] theorem setOp_connected (t : Nat) (op : Option Op) (s : State) : (setOp t op s).connected = s.connected := rfl
@[simp] theorem setOp_alloc (t : Nat) (op : Option Op) (s : State) : (setOp t op s).alloc = s.alloc := rfl
@[simp] theorem setOp_htIn (t : Nat) (op : Option Op) (s : State) : (setOp t op s).htIn = s.htIn := rfl
@[simp] theorem setOp_htOut (t : Nat) (op : Option Op) (s : State) : (setOp t op s).htOut = s.htOut := rfl
@[simp] theorem setOp_wakerIn (t : Nat) (op : Option Op) (s : State) : (setOp t op s).wakerIn = s.wakerIn := rfl
@[simp] theorem setOp_wakerOut (t : Nat) (op : Option Op) (s : State) : (setOp t op s).wakerOut = s.wakerOut := rfl
@[simp] theorem setOp_wakerBus (t : Nat) (op : Option Op) (s : State) : (setOp t op s).wakerBus = s.wakerBus := rfl
@[simp] theorem setOp_now (t : Nat) (op : Option Op) (s : State) : (setOp t op s).now = s.now := rfl
@[simp] theorem setOp_fault (t : Nat) (op : Option Op) (s : State) : (setOp t op s).fault = s.fault := rfl
@[simp] theorem setOp_log (t : Nat) (op : Option Op) (s : State) : (setOp t op s).log = s.log := rfl
@[simp] theorem setOp_task (t : Nat) (op : Option Op) (s : State) : (setOp t op s).task = s.task := rfl
@[simp] theorem setOp_data (t : Nat) (op : Option Op) (s : State) : (setOp t op s).data = s.data := rfl
@[simp] theorem setOp_timeout (t : Nat) (op : Option Op) (s : State) : (setOp t op s).timeout = s.timeout := rfl
@[simp] theorem setOp_inputs (t : Nat) (op : Option Op) (s : State) : (setOp t op s).inputs = s.inputs := rfl
@[simp] theorem setOp_slots (t : Nat) (op : Option Op) (s : State) : (setOp t op s).slots = s.slots := rfl
@[simp] theorem setOp_irqSlots (t : Nat) (op : Option Op) (s : State) : (setOp t op s).irqSlots = s.irqSlots := rfl
@[simp] theorem setOp_inProgress (t : Nat) (op : Option Op) (s : State) : (setOp t op s).inProgress = s.inProgress := rfl
@[simp] theorem setOp_draws (t : Nat) (op : Option Op) (s : State) : (setOp t op s).draws = s.draws := rfl
@[simp] theorem setOp_out (t : Nat) (op : Option Op) (s : State) : (setOp t op s).out = s.out := rfl

/-! `setWoken` -/

@[simp] theorem setWoken_params (t : Nat) (b : Bool) (s : State) : (setWoken t b s).params = s.params := rfl
@[simp] theorem setWoken_pma (t : Nat) (b : Bool) (s : State) : (setWoken t b s).pma = s.pma := rfl
@[simp] theorem setWoken_chep (t : Nat) (b : Bool) (s : State) : (setWoken t b s).chep = s.chep := rfl
@[simp] theorem setWoken_istr (t : Nat) (b : Bool) (s : State) : (setWoken t b s).istr = s.istr := rfl
@[simp] theorem setWoken_errChan (t : Nat) (b : Bool) (s : State) : (setWoken t b s).errChan = s.errChan := rfl
@[simp] theorem setWoken_connected (t : Nat) (b : Bool) (s : State) : (setWoken t b s).connected = s.connected := rfl
@[simp] theorem setWoken_alloc (t : Nat) (b : Bool) (s : State) : (setWoken t b s).alloc = s.alloc := rfl
@[simp] theorem setWoken_htIn (t : Nat) (b : Bool) (s : State) : (setWoken t b s).htIn = s.htIn := rfl
@[simp] theorem setWoken_htOut (t : Nat) (b : Bool) (s : State) : (setWoken t b s).htOut = s.htOut := rfl
@[simp] theorem setWoken_wakerIn (t : Nat) (b : Bool) (s : State) : (setWoken t b s).wakerIn = s.wakerIn := rfl
@[simp] theorem setWoken_wakerOut (t : Nat) (b : Bool) (s : State) : (setWoken t b s).wakerOut = s.wakerOut := rfl
@[simp] theorem setWoken_wakerBus (t : Nat) (b : Bool) (s : State) : (setWoken t b s).wakerBus = s.wakerBus := rfl
@[simp] theorem setWoken_now (t : Nat) (b : Bool) (s : State) : (setWoken t b s).now = s.now := rfl
@[simp] theorem setWoken_fault (t : Nat) (b : Bool) (s : State) : (setWoken t b s).fault = s.fault := rfl
@[simp] theorem setWoken_log (t : Nat) (b : Bool) (s : State) : (setWoken t b s).log = s.log := rfl
@[simp] theorem setWoken_task (t : Nat) (b : Bool) (s : State) : (setWoken t b s).task = s.task := rfl
@[simp] theorem setWoken_data (t : Nat) (b : Bool) (s : State) : (setWoken t b s).data = s.data := rfl
@[simp] theorem setWoken_timeout (t : Nat) (b : Bool) (s : State) : (setWoken t b s).timeout = s.timeout := rfl
@[simp] theorem setWoken_inputs (t : Nat) (b : Bool) (s : State) : (setWoken t b s).inputs = s.inputs := rfl
@[simp] theorem setWoken_slots (t : Nat) (b : Bool) (s : State) : (setWoken t b s).slots = s.slots := rfl
@[simp] theorem setWoken_irqSlots (t : Nat) (b : Bool) (s : State) : (setWoken t b s).irqSlots = s.irqSlots := rfl
@[simp] theorem setWoken_inProgress (t : Nat) (b : Bool) (s : State) : (setWoken t b s).inProgress = s.inProgress := rfl
@[simp] theorem setWoken_draws (t : Nat) (b : Bool) (s : State) : (setWoken t b s).draws = s.draws := rfl
@[simp] theorem setWoken_out (t : Nat) (b : Bool) (s : State) : (setWoken t b s).out = s.out := rfl

/-! `startOp` -/

@[simp] theorem startOp_params (t : Nat) (op : Op) (s : State) : (startOp t op s).params = s.params := rfl
@[simp] theorem startOp_pma (t : Nat) (op : Op) (s : State) : (startOp t op s).pma = s.pma := rfl
@[simp] theorem startOp_chep (t : Nat) (op : Op) (s : State) : (startOp t op s).chep = s.chep := rfl
@[simp] theorem startOp_istr (t : Nat) (op : Op) (s : State) : (startOp t op s).istr = s.istr := rfl
@[simp] theorem startOp_errChan (t : Nat) (op : Op) (s : State) : (startOp t op s).errChan = s.errChan := rfl
@[simp] theorem startOp_connected (t : Nat) (op : Op) (s : State) : (startOp t op s).connected = s.connected := rfl
@[simp] theorem startOp_alloc (t : Nat) (op : Op) (s : State) : (startOp t op s).alloc = s.alloc := rfl
@[simp] theorem startOp_htIn (t : Nat) (op : Op) (s : State) : (startOp t op s).htIn = s.htIn := rfl
@[simp] theorem startOp_htOut (t : Nat) (op : Op) (s : State) : (startOp t op s).htOut = s.htOut := rfl
@[simp] theorem startOp_wakerIn (t : Nat) (op : Op) (s : State) : (startOp t op s).wakerIn = s.wakerIn := rfl
@[simp] theorem startOp_wakerOut (t : Nat) (op : Op) (s : State) : (startOp t op s).wakerOut = s.wakerOut := rfl
@[simp] theorem startOp_wakerBus (t : Nat) (op : Op) (s : State) : (startOp t op s).wakerBus = s.wakerBus := rfl
@[simp] theorem startOp_now (t : Nat) (op : Op) (s : State) : (startOp t op s).now = s.now := rfl
@[simp] theorem startOp_fault (t : Nat) (op : Op) (s : State) : (startOp t op s).fault = s.fault := rfl
@[simp] theorem startOp_log (t : Nat) (op : Op) (s : State) : (startOp t op s).log = s.log := rfl
@[simp] theorem startOp_task (t : Nat) (op : Op) (s : State) : (startOp t op s).task = s.task := rfl
@[simp] theorem startOp_data (t : Nat) (op : Op) (s : State) : (startOp t op s).data = s.data := rfl
@[simp] theorem startOp_timeout (t : Nat) (op : Op) (s : State) : (startOp t op s).timeout = s.timeout := rfl
@[simp] theorem startOp_inputs (t : Nat) (op : Op) (s : State) : (startOp t op s).inputs = s.inputs := rfl
@[simp] theorem startOp_slots (t : Nat) (op : Op) (s : State) : (startOp t op s).slots = s.slots := rfl
@[simp] theorem startOp_irqSlots (t : Nat) (op : Op) (s : State) : (startOp t op s).irqSlots = s.irqSlots := rfl
@[simp] theorem startOp_inProgress (t : Nat) (op : Op) (s : State) : (startOp t op s).inProgress = s.inProgress := rfl
@[simp] theorem startOp_draws (t : Nat) (op : Op) (s : State) : (startOp t op s).draws = s.draws := rfl
@[simp] theorem startOp_out (t : Nat) (op : Op) (s : State) : (startOp t op s).out = s.out := rfl

/-! `handOut` -/

@[simp] theorem handOut_params (a : Agent) (r : Result) (s : State) : (handOut a r s).params = s.params := rfl
@[simp] theorem handOut_pma (a : Agent) (r : Result) (s : State) : (handOut a r s).pma = s.pma := rfl
@[simp] theorem handOut_chep (a : Agent) (r : Result) (s : State) : (handOut a r s).chep = s.chep := rfl
@[simp] theorem handOut_istr (a : Agent) (r : Result) (s : State) : (handOut a r s).istr = s.istr := rfl
@[simp] theorem handOut_errChan (a : Agent) (r : Result) (s : State) : (handOut a r s).errChan = s.errChan := rfl
@[simp] theorem handOut_connected (a : Agent) (r : Result) (s : State) : (handOut a r s).connected = s.connected := rfl
@[simp] theorem handOut_alloc (a : Agent) (r : Result) (s : State) : (handOut a r s).alloc = s.alloc := rfl
@[simp] theorem handOut_htIn (a : Agent) (r : Result) (s : State) : (handOut a r s).htIn = s.htIn := rfl
@[simp] theorem handOut_htOut (a : Agent) (r : Result) (s : State) : (handOut a r s).htOut = s.htOut := rfl
@[simp] theorem handOut_wakerIn (a : Agent) (r : Result) (s : State) : (handOut a r s).wakerIn = s.wakerIn := rfl
@[simp] theorem handOut_wakerOut (a : Agent) (r : Result) (s : State) : (handOut a r s).wakerOut = s.wakerOut := rfl
@[simp] theorem handOut_wakerBus (a : Agent) (r : Result) (s : State) : (handOut a r s).wakerBus = s.wakerBus := rfl
@[simp] theorem handOut_tasks (a : Agent) (r : Result) (s : State) : (handOut a r s).tasks = s.tasks := rfl
@[simp] theorem handOut_now (a : Agent) (r : Result) (s : State) : (handOut a r s).now = s.now := rfl
@[simp] theorem handOut_fault (a : Agent) (r : Result) (s : State) : (handOut a r s).fault = s.fault := rfl
@[simp] theorem handOut_log (a : Agent) (r : Result) (s : State) : (handOut a r s).log = s.log := rfl
@[simp] theorem handOut_task (a : Agent) (r : Result) (s : State) : (handOut a r s).task = s.task := rfl
@[simp] theorem handOut_data (a : Agent) (r : Result) (s : State) : (handOut a r s).data = s.data := rfl
@[simp] theorem handOut_timeout (a : Agent) (r : Result) (s : State) : (handOut a r s).timeout = s.timeout := rfl
@[simp] theorem handOut_inputs (a : Agent) (r : Result) (s : State) : (handOut a r s).inputs = s.inputs := rfl
@[simp] theorem handOut_slots (a : Agent) (r : Result) (s : State) : (handOut a r s).slots = s.slots := rfl
@[simp] theorem handOut_irqSlots (a : Agent) (r : Result) (s : State) : (handOut a r s).irqSlots = s.irqSlots := rfl
@[simp] theorem handOut_inProgress (a : Agent) (r : Result) (s : State) : (handOut a r s).inProgress = s.inProgress := rfl
@[simp] theorem handOut_draws (a : Agent) (r : Result) (s : State) : (handOut a r s).draws = s.draws := rfl
@[simp] theorem handOut_out (a : Agent) (r : Result) (s : State) : (handOut a r s).out = s.out ++ [(a, r)] := rfl

/-! `putParts` -/

@[simp] theorem putParts_params (s : State) (t : Nat) (ps : List Part) : (putParts s t ps).params = s.params := rfl
@[simp] theorem putParts_pma (s : State) (t : Nat) (ps : List Part) : (putParts s t ps).pma = s.pma := rfl
@[simp] theorem putParts_chep (s : State) (t : Nat) (ps : List Part) : (putParts s t ps).chep = s.chep := rfl
@[simp] theorem putParts_istr (s : State) (t : Nat) (ps : List Part) : (putParts s t ps).istr = s.istr := rfl
@[simp] theorem putParts_errChan (s : State) (t : Nat) (ps : List Part) : (putParts s t ps).errChan = s.errChan := rfl
@[simp] theorem putParts_connected (s : State) (t : Nat) (ps : List Part) : (putParts s t ps).connected = s.connected := rfl
@[simp] theorem putParts_alloc (s : State) (t : Nat) (ps : List Part) : (putParts s t ps).alloc = s.alloc := rfl
@[simp] theorem putParts_htIn (s : State) (t : Nat) (ps : List Part) : (putParts s t ps).htIn = s.htIn := rfl
@[simp] theorem putParts_htOut (s : State) (t : Nat) (ps : List Part) : (putParts s t ps).htOut = s.htOut := rfl
@[simp] theorem putParts_wakerIn (s : State) (t : Nat) (ps : List Part) : (putParts s t ps).wakerIn = s.wakerIn := rfl
@[simp] theorem putParts_wakerOut (s : State) (t : Nat) (ps : List Part) : (putParts s t ps).wakerOut = s.wakerOut := rfl
@[simp] theorem putParts_wakerBus (s : State) (t : Nat) (ps : List Part) : (putParts s t ps).wakerBus = s.wakerBus := rfl
@[simp] theorem putParts_tasks (s : State) (t : Nat) (ps : List Part) : (putParts s t ps).tasks = s.tasks := rfl
@[simp] theorem putParts_now (s : State) (t : Nat) (ps : List Part) : (putParts s t ps).now = s.now := rfl
@[simp] theorem putParts_fault (s : State) (t : Nat) (ps : List Part) : (putParts s t ps).fault = s.fault := rfl
@[simp] theorem putParts_log (s : State) (t : Nat) (ps : List Part) : (putParts s t ps).log = s.log := rfl
@[simp] theorem putParts_task (s : State) (t : Nat) (ps : List Part) : (putParts s t ps).task = s.task := rfl
@[simp] theorem putParts_data (s : State) (t : Nat) (ps : List Part) : (putParts s t ps).data = s.data := rfl
@[simp] theorem putParts_timeout (s : State) (t : Nat) (ps : List Part) : (putParts s t ps).timeout = s.timeout := rfl
@[simp] theorem putParts_inputs (s : State) (t : Nat) (ps : List Part) : (putParts s t ps).inputs = s.inputs := rfl
@[simp] theorem putParts_slots (s : State) (t : Nat) (ps : List Part) : (putParts s t ps).slots = s.slots := rfl
@[simp] theorem putParts_irqSlots (s : State) (t : Nat) (ps : List Part) : (putParts s t ps).irqSlots = s.irqSlots := rfl
@[simp] theorem putParts_inProgress (s : State) (t : Nat) (ps : List Part) : (putParts s t ps).inProgress = if ps = [] then mapErase s.inProgress t else mapInsert s.inProgress t ps := rfl
@[simp] theorem putParts_draws (s : State) (t : Nat) (ps : List Part) : (putParts s t ps).draws = s.draws := rfl
@[simp] theorem putParts_out (s : State) (t : Nat) (ps : List Part) : (putParts s t ps).out = s.out := rfl

/-! `setErrChan` -/

@[simp] theorem setErrChan_params (c : Chan) (s : State) : (setErrChan c s).params = s.params := rfl
@[simp] theorem setErrChan_pma (c : Chan) (s : State) : (setErrChan c s).pma = s.pma := rfl
@[simp] theorem setErrChan_chep (c : Chan) (s : State) : (setErrChan c s).chep = s.chep := rfl
@[simp] theorem setErrChan_istr (c : Chan) (s : State) : (setErrChan c s).istr = s.istr := rfl
@[simp] theorem setErrChan_errChan (c : Chan) (s : State) : (setErrChan c s).errChan = some c := rfl
@[simp] theorem setErrChan_connected (c : Chan) (s : State) : (setErrChan c s).connected = s.connected := rfl
@[simp] theorem setErrChan_alloc (c : Chan) (s : State) : (setErrChan c s).alloc = s.alloc := rfl
@[simp] theorem setErrChan_htIn (c : Chan) (s : State) : (setErrChan c s).htIn = s.htIn := rfl
@[simp] theorem setErrChan_htOut (c : Chan) (s : State) : (setErrChan c s).htOut = s.htOut := rfl
@[simp] theorem setErrChan_wakerIn (c : Chan) (s : State) : (setErrChan c s).wakerIn = s.wakerIn := rfl
@[simp] theorem setErrChan_wakerOut (c : Chan) (s : State) : (setErrChan c s).wakerOut = s.wakerOut := rfl
@[simp] theorem setErrChan_wakerBus (c : Chan) (s : State) : (setErrChan c s).wakerBus = s.wakerBus := rfl
@[simp] theorem setErrChan_tasks (c : Chan) (s : State) : (setErrChan c s).tasks = s.tasks := rfl
@[simp] theorem setErrChan_now (c : Chan) (s : State) : (setErrChan c s).now = s.now := rfl
@[simp] theorem setErrChan_fault (c : Chan) (s : State) : (setErrChan c s).fault = s.fault := rfl
@[simp] theorem setErrChan_log (c : Chan) (s : State) : (setErrChan c s).log = s.log := rfl
@[simp] theorem setErrChan_task (c : Chan) (s : State) : (setErrChan c s).task = s.task := rfl
@[simp] theorem setErrChan_data (c : Chan) (s : State) : (setErrChan c s).data = s.data := rfl
@[simp] theorem setErrChan_timeout (c : Chan) (s : State) : (setErrChan c s).timeout = s.timeout := rfl
@[simp] theorem setErrChan_inputs (c : Chan) (s : State) : (setErrChan c s).inputs = s.inputs := rfl
@[simp] theorem setErrChan_slots (c : Chan) (s : State) : (setErrChan c s).slots = s.slots := rfl
@[simp] theorem setErrChan_irqSlots (c : Chan) (s : State) : (setErrChan c s).irqSlots = s.irqSlots := rfl
@[simp] theorem setErrChan_inProgress (c : Chan) (s : State) : (setErrChan c s).inProgress = s.inProgress := rfl
@[simp] theorem setErrChan_draws (c : Chan) (s : State) : (setErrChan c s).draws = s.draws := rfl
@[simp] theorem setErrChan_out (c : Chan) (s : State) : (setErrChan c s).out = s.out := rfl

/-! `setCountRx` -/

@[simp] theorem setCountRx_params (c : Chan) (n : Nat) (s : State) : (setCountRx c n s).params = s.params := rfl
@[simp] theorem setCountRx_chep (c : Chan) (n : Nat) (s : State) : (setCountRx c n s).chep = s.chep := rfl
@[simp] theorem setCountRx_istr (c : Chan) (n : Nat) (s : State) : (setCountRx c n s).istr = s.istr := rfl
@[simp] theorem setCountRx_errChan (c : Chan) (n : Nat) (s : State) : (setCountRx c n s).errChan = s.errChan := rfl
@[simp] theorem setCountRx_connected (c : Chan) (n : Nat) (s : State) : (setCountRx c n s).connected = s.connected := rfl
@[simp] theorem setCountRx_alloc (c : Chan) (n : Nat) (s : State) : (setCountRx c n s).alloc = s.alloc := rfl
@[simp] theorem setCountRx_htIn (c : Chan) (n : Nat) (s : State) : (setCountRx c n s).htIn = s.htIn := rfl
@[simp] theorem setCountRx_htOut (c : Chan) (n : Nat) (s : State) : (setCountRx c n s).htOut = s.htOut := rfl
@[simp] theorem setCountRx_wakerIn (c : Chan) (n : Nat) (s : State) : (setCountRx c n s).wakerIn = s.wakerIn := rfl
@[simp] theorem setCountRx_wakerOut (c : Chan) (n : Nat) (s : State) : (setCountRx c n s).wakerOut = s.wakerOut := rfl
@[simp] theorem setCountRx_wakerBus (c : Chan) (n : Nat) (s : State) : (setCountRx c n s).wakerBus = s.wakerBus := rfl
@[simp] theorem setCountRx_tasks (c : Chan) (n : Nat) (s : State) : (setCountRx c n s).tasks = s.tasks := rfl
@[simp] theorem setCountRx_now (c : Chan) (n : Nat) (s : State) : (setCountRx c n s).now = s.now := rfl
@[simp] theorem setCountRx_fault (c : Chan) (n : Nat) (s : State) : (setCountRx c n s).fault = s.fault := rfl
@[simp] theorem setCountRx_log (c : Chan) (n : Nat) (s : State) : (setCountRx c n s).log = s.log := rfl
@[simp] theorem setCountRx_task (c : Chan) (n : Nat) (s : State) : (setCountRx c n s).task = s.task := rfl
@[simp] theorem setCountRx_data (c : Chan) (n : Nat) (s : State) : (setCountRx c n s).data = s.data := rfl
@[simp] theorem setCountRx_timeout (c : Chan) (n : Nat) (s : State) : (setCountRx c n s).timeout = s.timeout := rfl
@[simp] theorem setCountRx_inputs (c : Chan) (n : Nat) (s : State) : (setCountRx c n s).inputs = s.inputs := rfl
@[simp] theorem setCountRx_slots (c : Chan) (n : Nat) (s : State) : (setCountRx c n s).slots = s.slots := rfl
@[simp] theorem setCountRx_irqSlots (c : Chan) (n : Nat) (s : State) : (setCountRx c n s).irqSlots = s.irqSlots := rfl
@[simp] theorem setCountRx_inProgress (c : Chan) (n : Nat) (s : State) : (setCountRx c n s).inProgress = s.inProgress := rfl
@[simp] theorem setCountRx_draws (c : Chan) (n : Nat) (s : State) : (setCountRx c n s).draws = s.draws := rfl
@[simp] theorem setCountRx_out (c : Chan) (n : Nat) (s : State) : (setCountRx c n s).out = s.out := rfl

/-! `hwSetChep` -/

@[simp] theorem hwSetChep_params (c : Chan) (f : Word32 → Word32) (s : State) : (hwSetChep c f s).params = s.params := rfl
@[simp] theorem hwSetChep_pma (c : Chan) (f : Word32 → Word32) (s : State) : (hwSetChep c f s).pma = s.pma := rfl
@[simp] theorem hwSetChep_chep (c : Chan) (f : Word32 → Word32) (s : State) : (hwSetChep c f s).chep = s.chep.set c (f (readChep s c)) := rfl
@[simp] theorem hwSetChep_istr (c : Chan) (f : Word32 → Word32) (s : State) : (hwSetChep c f s).istr = s.istr := rfl
@[simp] theorem hwSetChep_errChan (c : Chan) (f : Word32 → Word32) (s : State) : (hwSetChep c f s).errChan = s.errChan := rfl
@[simp] theorem hwSetChep_connected (c : Chan) (f : Word32 → Word32) (s : State) : (hwSetChep c f s).connected = s.connected := rfl
@[simp] theorem hwSetChep_alloc (c : Chan) (f : Word32 → Word32) (s : State) : (hwSetChep c f s).alloc = s.alloc := rfl
@[simp] theorem hwSetChep_htIn (c : Chan) (f : Word32 → Word32) (s : State) : (hwSetChep c f s).htIn = s.htIn := rfl
@[simp] theorem hwSetChep_htOut (c : Chan) (f : Word32 → Word32) (s : State) : (hwSetChep c f s).htOut = s.htOut := rfl
@[simp] theorem hwSetChep_wakerIn (c : Chan) (f : Word32 → Word32) (s : State) : (hwSetChep c f s).wakerIn = s.wakerIn := rfl
@[simp] theorem hwSetChep_wakerOut (c : Chan) (f : Word32 → Word32) (s : State) : (hwSetChep c f s).wakerOut = s.wakerOut := rfl
@[simp] theorem hwSetChep_wakerBus (c : Chan) (f : Word32 → Word32) (s : State) : (hwSetChep c f s).wakerBus = s.wakerBus := rfl
@[simp] theorem hwSetChep_tasks (c : Chan) (f : Word32 → Word32) (s : State) : (hwSetChep c f s).tasks = s.tasks := rfl
@[simp] theorem hwSetChep_now (c : Chan) (f : Word32 → Word32) (s : State) : (hwSetChep c f s).now = s.now := rfl
@[simp] theorem hwSetChep_fault (c : Chan) (f : Word32 → Word32) (s : State) : (hwSetChep c f s).fault = s.fault := rfl
@[simp] theorem hwSetChep_log (c : Chan) (f : Word32 → Word32) (s : State) : (hwSetChep c f s).log = s.log := rfl
@[simp] theorem hwSetChep_task (c : Chan) (f : Word32 → Word32) (s : State) : (hwSetChep c f s).task = s.task := rfl
@[simp] theorem hwSetChep_data (c : Chan) (f : Word32 → Word32) (s : State) : (hwSetChep c f s).data = s.data := rfl
@[simp] theorem hwSetChep_timeout (c : Chan) (f : Word32 → Word32) (s : State) : (hwSetChep c f s).timeout = s.timeout := rfl
@[simp] theorem hwSetChep_inputs (c : Chan) (f : Word32 → Word32) (s : State) : (hwSetChep c f s).inputs = s.inputs := rfl
@[simp] theorem hwSetChep_slots (c : Chan) (f : Word32 → Word32) (s : State) : (hwSetChep c f s).slots = s.slots := rfl
@[simp] theorem hwSetChep_irqSlots (c : Chan) (f : Word32 → Word32) (s : State) : (hwSetChep c f s).irqSlots = s.irqSlots := rfl
@[simp] theorem hwSetChep_inProgress (c : Chan) (f : Word32 → Word32) (s : State) : (hwSetChep c f s).inProgress = s.inProgress := rfl
@[simp] theorem hwSetChep_draws (c : Chan) (f : Word32 → Word32) (s : State) : (hwSetChep c f s).draws = s.draws := rfl
@[simp] theorem hwSetChep_out (c : Chan) (f : Word32 → Word32) (s : State) : (hwSetChep c f s).out = s.out := rfl

/-! `endTransaction` -/

@[simp] theorem endTransaction_params (c : Chan) (h : Half) (st : Status) (s : State) : (endTransaction c h st s).params = s.params := rfl
@[simp] theorem endTransaction_pma (c : Chan) (h : Half) (st : Status) (s : State) : (endTransaction c h st s).pma = s.pma := rfl
@[simp] theorem endTransaction_istr (c : Chan) (h : Half) (st : Status) (s : State) : (endTransaction c h st s).istr = s.istr := rfl
@[simp] theorem endTransaction_errChan (c : Chan) (h : Half) (st : Status) (s : State) : (endTransaction c h st s).errChan = s.errChan := rfl
@[simp] theorem endTransaction_connected (c : Chan) (h : Half) (st : Status) (s : State) : (endTransaction c h st s).connected = s.connected := rfl
@[simp] theorem endTransaction_alloc (c : Chan) (h : Half) (st : Status) (s : State) : (endTransaction c h st s).alloc = s.alloc := rfl
@[simp] theorem endTransaction_htIn (c : Chan) (h : Half) (st : Status) (s : State) : (endTransaction c h st s).htIn = s.htIn := rfl
@[simp] theorem endTransaction_htOut (c : Chan) (h : Half) (st : Status) (s : State) : (endTransaction c h st s).htOut = s.htOut := rfl
@[simp] theorem endTransaction_wakerIn (c : Chan) (h : Half) (st : Status) (s : State) : (endTransaction c h st s).wakerIn = s.wakerIn := rfl
@[simp] theorem endTransaction_wakerOut (c : Chan) (h : Half) (st : Status) (s : State) : (endTransaction c h st s).wakerOut = s.wakerOut := rfl
@[simp] theorem endTransaction_wakerBus (c : Chan) (h : Half) (st : Status) (s : State) : (endTransaction c h st s).wakerBus = s.wakerBus := rfl
@[simp] theorem endTransaction_tasks (c : Chan) (h : Half) (st : Status) (s : State) : (endTransaction c h st s).tasks = s.tasks := rfl
@[simp] theorem endTransaction_now (c : Chan) (h : Half) (st : Status) (s : State) : (endTransaction c h st s).now = s.now := rfl
@[simp] theorem endTransaction_fault (c : Chan) (h : Half) (st : Status) (s : State) : (endTransaction c h st s).fault = s.fault := rfl
@[simp] theorem endTransaction_log (c : Chan) (h : Half) (st : Status) (s : State) : (endTransaction c h st s).log = s.log := rfl
@[simp] theorem endTransaction_task (c : Chan) (h : Half) (st : Status) (s : State) : (endTransaction c h st s).task = s.task := rfl
@[simp] theorem endTransaction_data (c : Chan) (h : Half) (st : Status) (s : State) : (endTransaction c h st s).data = s.data := rfl
@[simp] theorem endTransaction_timeout (c : Chan) (h : Half) (st : Status) (s : State) : (endTransaction c h st s).timeout = s.timeout := rfl
@[simp] theorem endTransaction_inputs (c : Chan) (h : Half) (st : Status) (s : State) : (endTransaction c h st s).inputs = s.inputs := rfl
@[simp] theorem endTransaction_slots (c : Chan) (h : Half) (st : Status) (s : State) : (endTransaction c h st s).slots = s.slots := rfl
@[simp] theorem endTransaction_irqSlots (c : Chan) (h : Half) (st : Status) (s : State) : (endTransaction c h st s).irqSlots = s.irqSlots := rfl
@[simp] theorem endTransaction_inProgress (c : Chan) (h : Half) (st : Status) (s : State) : (endTransaction c h st s).inProgress = s.inProgress := rfl
@[simp] theorem endTransaction_draws (c : Chan) (h : Half) (st : Status) (s : State) : (endTransaction c h st s).draws = s.draws := rfl
@[simp] theorem endTransaction_out (c : Chan) (h : Half) (st : Status) (s : State) : (endTransaction c h st s).out = s.out := rfl

/-! `takeInput` -/

@[simp] theorem takeInput_params (rest : List Input) (s : State) : (takeInput rest s).params = s.params := rfl
@[simp] theorem takeInput_pma (rest : List Input) (s : State) : (takeInput rest s).pma = s.pma := rfl
@[simp] theorem takeInput_chep (rest : List Input) (s : State) : (takeInput rest s).chep = s.chep := rfl
@[simp] theorem takeInput_istr (rest : List Input) (s : State) : (takeInput rest s).istr = s.istr := rfl
@[simp] theorem takeInput_errChan (rest : List Input) (s : State) : (takeInput rest s).errChan = s.errChan := rfl
@[simp] theorem takeInput_connected (rest : List Input) (s : State) : (takeInput rest s).connected = s.connected := rfl
@[simp] theorem takeInput_alloc (rest : List Input) (s : State) : (takeInput rest s).alloc = s.alloc := rfl
@[simp] theorem takeInput_htIn (rest : List Input) (s : State) : (takeInput rest s).htIn = s.htIn := rfl
@[simp] theorem takeInput_htOut (rest : List Input) (s : State) : (takeInput rest s).htOut = s.htOut := rfl
@[simp] theorem takeInput_wakerIn (rest : List Input) (s : State) : (takeInput rest s).wakerIn = s.wakerIn := rfl
@[simp] theorem takeInput_wakerOut (rest : List Input) (s : State) : (takeInput rest s).wakerOut = s.wakerOut := rfl
@[simp] theorem takeInput_wakerBus (rest : List Input) (s : State) : (takeInput rest s).wakerBus = s.wakerBus := rfl
@[simp] theorem takeInput_tasks (rest : List Input) (s : State) : (takeInput rest s).tasks = s.tasks := rfl
@[simp] theorem takeInput_now (rest : List Input) (s : State) : (takeInput rest s).now = s.now := rfl
@[simp] theorem takeInput_fault (rest : List Input) (s : State) : (takeInput rest s).fault = s.fault := rfl
@[simp] theorem takeInput_log (rest : List Input) (s : State) : (takeInput rest s).log = s.log := rfl
@[simp] theorem takeInput_task (rest : List Input) (s : State) : (takeInput rest s).task = s.task := rfl
@[simp] theorem takeInput_data (rest : List Input) (s : State) : (takeInput rest s).data = s.data := rfl
@[simp] theorem takeInput_timeout (rest : List Input) (s : State) : (takeInput rest s).timeout = s.timeout := rfl
@[simp] theorem takeInput_inputs (rest : List Input) (s : State) : (takeInput rest s).inputs = rest := rfl
@[simp] theorem takeInput_slots (rest : List Input) (s : State) : (takeInput rest s).slots = s.slots := rfl
@[simp] theorem takeInput_irqSlots (rest : List Input) (s : State) : (takeInput rest s).irqSlots = s.irqSlots := rfl
@[simp] theorem takeInput_inProgress (rest : List Input) (s : State) : (takeInput rest s).inProgress = s.inProgress := rfl
@[simp] theorem takeInput_draws (rest : List Input) (s : State) : (takeInput rest s).draws = s.draws := rfl
@[simp] theorem takeInput_out (rest : List Input) (s : State) : (takeInput rest s).out = [] := rfl

/-! `loadCommand` -/

@[simp] theorem loadCommand_params (c : Command) (s : State) : (loadCommand c s).params = s.params := rfl
@[simp] theorem loadCommand_pma (c : Command) (s : State) : (loadCommand c s).pma = s.pma := rfl
@[simp] theorem loadCommand_chep (c : Command) (s : State) : (loadCommand c s).chep = s.chep := rfl
@[simp] theorem loadCommand_istr (c : Command) (s : State) : (loadCommand c s).istr = s.istr := rfl
@[simp] theorem loadCommand_errChan (c : Command) (s : State) : (loadCommand c s).errChan = s.errChan := rfl
@[simp] theorem loadCommand_connected (c : Command) (s : State) : (loadCommand c s).connected = s.connected := rfl
@[simp] theorem loadCommand_alloc (c : Command) (s : State) : (loadCommand c s).alloc = s.alloc := rfl
@[simp] theorem loadCommand_htIn (c : Command) (s : State) : (loadCommand c s).htIn = s.htIn := rfl
@[simp] theorem loadCommand_htOut (c : Command) (s : State) : (loadCommand c s).htOut = s.htOut := rfl
@[simp] theorem loadCommand_wakerIn (c : Command) (s : State) : (loadCommand c s).wakerIn = s.wakerIn := rfl
@[simp] theorem loadCommand_wakerOut (c : Command) (s : State) : (loadCommand c s).wakerOut = s.wakerOut := rfl
@[simp] theorem loadCommand_wakerBus (c : Command) (s : State) : (loadCommand c s).wakerBus = s.wakerBus := rfl
@[simp] theorem loadCommand_tasks (c : Command) (s : State) : (loadCommand c s).tasks = s.tasks := rfl
@[simp] theorem loadCommand_now (c : Command) (s : State) : (loadCommand c s).now = s.now := rfl
@[simp] theorem loadCommand_fault (c : Command) (s : State) : (loadCommand c s).fault = s.fault := rfl
@[simp] theorem loadCommand_log (c : Command) (s : State) : (loadCommand c s).log = s.log := rfl
@[simp] theorem loadCommand_task (c : Command) (s : State) : (loadCommand c s).task = c.task := rfl
@[simp] theorem loadCommand_data (c : Command) (s : State) : (loadCommand c s).data = c.data := rfl
@[simp] theorem loadCommand_timeout (c : Command) (s : State) : (loadCommand c s).timeout = c.timeout := rfl
@[simp] theorem loadCommand_inputs (c : Command) (s : State) : (loadCommand c s).inputs = s.inputs := rfl
@[simp] theorem loadCommand_slots (c : Command) (s : State) : (loadCommand c s).slots = c.slots := rfl
@[simp] theorem loadCommand_irqSlots (c : Command) (s : State) : (loadCommand c s).irqSlots = c.irqSlots := rfl
@[simp] theorem loadCommand_inProgress (c : Command) (s : State) : (loadCommand c s).inProgress = s.inProgress := rfl
@[simp] theorem loadCommand_draws (c : Command) (s : State) : (loadCommand c s).draws = s.draws := rfl
@[simp] theorem loadCommand_out (c : Command) (s : State) : (loadCommand c s).out = s.out := rfl

/-! `pmReset` -/

@[simp] theorem pmReset_params (s : State) : (pmReset s).params = s.params := rfl
@[simp] theorem pmReset_pma (s : State) : (pmReset s).pma = s.pma := rfl
@[simp] theorem pmReset_chep (s : State) : (pmReset s).chep = s.chep := rfl
@[simp] theorem pmReset_istr (s : State) : (pmReset s).istr = s.istr := rfl
@[simp] theorem pmReset_errChan (s : State) : (pmReset s).errChan = s.errChan := rfl
@[simp] theorem pmReset_connected (s : State) : (pmReset s).connected = s.connected := rfl
@[simp] theorem pmReset_alloc (s : State) : (pmReset s).alloc = ⟨descTableBytes, 0, 0, s.alloc.gen + 1⟩ := rfl
@[simp] theorem pmReset_htIn (s : State) : (pmReset s).htIn = s.htIn := rfl
@[simp] theorem pmReset_htOut (s : State) : (pmReset s).htOut = s.htOut := rfl
@[simp] theorem pmReset_wakerIn (s : State) : (pmReset s).wakerIn = s.wakerIn := rfl
@[simp] theorem pmReset_wakerOut (s : State) : (pmReset s).wakerOut = s.wakerOut := rfl
@[simp] theorem pmReset_wakerBus (s : State) : (pmReset s).wakerBus = s.wakerBus := rfl
@[simp] theorem pmReset_tasks (s : State) : (pmReset s).tasks = s.tasks := rfl
@[simp] theorem pmReset_now (s : State) : (pmReset s).now = s.now := rfl
@[simp] theorem pmReset_fault (s : State) : (pmReset s).fault = s.fault := rfl
@[simp] theorem pmReset_log (s : State) : (pmReset s).log = s.log := rfl
@[simp] theorem pmReset_task (s : State) : (pmReset s).task = s.task := rfl
@[simp] theorem pmReset_data (s : State) : (pmReset s).data = s.data := rfl
@[simp] theorem pmReset_timeout (s : State) : (pmReset s).timeout = s.timeout := rfl
@[simp] theorem pmReset_inputs (s : State) : (pmReset s).inputs = s.inputs := rfl
@[simp] theorem pmReset_slots (s : State) : (pmReset s).slots = s.slots := rfl
@[simp] theorem pmReset_irqSlots (s : State) : (pmReset s).irqSlots = s.irqSlots := rfl
@[simp] theorem pmReset_inProgress (s : State) : (pmReset s).inProgress = s.inProgress := rfl
@[simp] theorem pmReset_draws (s : State) : (pmReset s).draws = s.draws := rfl
@[simp] theorem pmReset_out (s : State) : (pmReset s).out = s.out := rfl

/-! `setSlot` -/

@[simp] theorem setSlot_params (s : State) (sl : Slot) (o : Option Nat) : (setSlot s sl o).params = s.params := by rcases sl with ⟨c, _ | _⟩ | _ <;> rfl
@[simp] theorem setSlot_pma (s : State) (sl : Slot) (o : Option Nat) : (setSlot s sl o).pma = s.pma := by rcases sl with ⟨c, _ | _⟩ | _ <;> rfl
@[simp] theorem setSlot_chep (s : State) (sl : Slot) (o : Option Nat) : (setSlot s sl o).chep = s.chep := by rcases sl with ⟨c, _ | _⟩ | _ <;> rfl
@[simp] theorem setSlot_istr (s : State) (sl : Slot) (o : Option Nat) : (setSlot s sl o).istr = s.istr := by rcases sl with ⟨c, _ | _⟩ | _ <;> rfl
@[simp] theorem setSlot_errChan (s : State) (sl : Slot) (o : Option Nat) : (setSlot s sl o).errChan = s.errChan := by rcases sl with ⟨c, _ | _⟩ | _ <;> rfl
@[simp] theorem setSlot_connected (s : State) (sl : Slot) (o : Option Nat) : (setSlot s sl o).connected = s.connected := by rcases sl with ⟨c, _ | _⟩ | _ <;> rfl
@[simp] theorem setSlot_alloc (s : State) (sl : Slot) (o : Option Nat) : (setSlot s sl o).alloc = s.alloc := by rcases sl with ⟨c, _ | _⟩ | _ <;> rfl
@[simp] theorem setSlot_htIn (s : State) (sl : Slot) (o : Option Nat) : (setSlot s sl o).htIn = s.htIn := by rcases sl with ⟨c, _ | _⟩ | _ <;> rfl
@[simp] theorem setSlot_htOut (s : State) (sl : Slot) (o : Option Nat) : (setSlot s sl o).htOut = s.htOut := by rcases sl with ⟨c, _ | _⟩ | _ <;> rfl
@[simp] theorem setSlot_tasks (s : State) (sl : Slot) (o : Option Nat) : (setSlot s sl o).tasks = s.tasks := by rcases sl with ⟨c, _ | _⟩ | _ <;> rfl
@[simp] theorem setSlot_now (s : State) (sl : Slot) (o : Option Nat) : (setSlot s sl o).now = s.now := by rcases sl with ⟨c, _ | _⟩ | _ <;> rfl
@[simp] theorem setSlot_fault (s : State) (sl : Slot) (o : Option Nat) : (setSlot s sl o).fault = s.fault := by rcases sl with ⟨c, _ | _⟩ | _ <;> rfl
@[simp] theorem setSlot_log (s : State) (sl : Slot) (o : Option Nat) : (setSlot s sl o).log = s.log := by rcases sl with ⟨c, _ | _⟩ | _ <;> rfl
@[simp] theorem setSlot_task (s : State) (sl : Slot) (o : Option Nat) : (setSlot s sl o).task = s.task := by rcases sl with ⟨c, _ | _⟩ | _ <;> rfl
@[simp] theorem setSlot_data (s : State) (sl : Slot) (o : Option Nat) : (setSlot s sl o).data = s.data := by rcases sl with ⟨c, _ | _⟩ | _ <;> rfl
@[simp] theorem setSlot_timeout (s : State) (sl : Slot) (o : Option Nat) : (setSlot s sl o).timeout = s.timeout := by rcases sl with ⟨c, _ | _⟩ | _ <;> rfl
@[simp] theorem setSlot_inputs (s : State) (sl : Slot) (o : Option Nat) : (setSlot s sl o).inputs = s.inputs := by rcases sl with ⟨c, _ | _⟩ | _ <;> rfl
@[simp] theorem setSlot_slots (s : State) (sl : Slot) (o : Option Nat) : (setSlot s sl o).slots = s.slots := by rcases sl with ⟨c, _ | _⟩ | _ <;> rfl
@[simp] theorem setSlot_irqSlots (s : State) (sl : Slot) (o : Option Nat) : (setSlot s sl o).irqSlots = s.irqSlots := by rcases sl with ⟨c, _ | _⟩ | _ <;> rfl
@[simp] theorem setSlot_inProgress (s : State) (sl : Slot) (o : Option Nat) : (setSlot s sl o).inProgress = s.inProgress := by rcases sl with ⟨c, _ | _⟩ | _ <;> rfl
@[simp] theorem setSlot_draws (s : State) (sl : Slot) (o : Option Nat) : (setSlot s sl o).draws = s.draws := by rcases sl with ⟨c, _ | _⟩ | _ <;> rfl
@[simp] theorem setSlot_out (s : State) (sl : Slot) (o : Option Nat) : (setSlot s sl o).out = s.out := by rcases sl with ⟨c, _ | _⟩ | _ <;> rfl

/-! `register` -/

@[simp] theorem register_params (sl : Slot) (t : Nat) (s : State) : (register sl t s).params = s.params := setSlot_params s sl (some t)
@[simp] theorem register_pma (sl : Slot) (t : Nat) (s : State) : (register sl t s).pma = s.pma := setSlot_pma s sl (some t)
@[simp] theorem register_chep (sl : Slot) (t : Nat) (s : State) : (register sl t s).chep = s.chep := setSlot_chep s sl (some t)
@[simp] theorem register_istr (sl : Slot) (t : Nat) (s : State) : (register sl t s).istr = s.istr := setSlot_istr s sl (some t)
@[simp] theorem register_errChan (sl : Slot) (t : Nat) (s : State) : (register sl t s).errChan = s.errChan := setSlot_errChan s sl (some t)
@[simp] theorem register_connected (sl : Slot) (t : Nat) (s : State) : (register sl t s).connected = s.connected := setSlot_connected s sl (some t)
@[simp] theorem register_alloc (sl : Slot) (t : Nat) (s : State) : (register sl t s).alloc = s.alloc := setSlot_alloc s sl (some t)
@[simp] theorem register_htIn (sl : Slot) (t : Nat) (s : State) : (register sl t s).htIn = s.htIn := setSlot_htIn s sl (some t)
@[simp] theorem register_htOut (sl : Slot) (t : Nat) (s : State) : (register sl t s).htOut = s.htOut := setSlot_htOut s sl (some t)
@[simp] theorem register_tasks (sl : Slot) (t : Nat) (s : State) : (register sl t s).tasks = s.tasks := setSlot_tasks s sl (some t)
@[simp] theorem register_now (sl : Slot) (t : Nat) (s : State) : (register sl t s).now = s.now := setSlot_now s sl (some t)
@[simp] theorem register_fault (sl : Slot) (t : Nat) (s : State) : (register sl t s).fault = s.fault := setSlot_fault s sl (some t)
@[simp] theorem register_log (sl : Slot) (t : Nat) (s : State) : (register sl t s).log = s.log := setSlot_log s sl (some t)
@[simp] theorem register_task (sl : Slot) (t : Nat) (s : State) : (register sl t s).task = s.task := setSlot_task s sl (some t)
@[simp] theorem register_data (sl : Slot) (t : Nat) (s : State) : (register sl t s).data = s.data := setSlot_data s sl (some t)
@[simp] theorem register_timeout (sl : Slot) (t : Nat) (s : State) : (register sl t s).timeout = s.timeout := setSlot_timeout s sl (some t)
@[simp] theorem register_inputs (sl : Slot) (t : Nat) (s : State) : (register sl t s).inputs = s.inputs := setSlot_inputs s sl (some t)
@[simp] theorem register_slots (sl : Slot) (t : Nat) (s : State) : (register sl t s).slots = s.slots := setSlot_slots s sl (some t)
@[simp] theorem register_irqSlots (sl : Slot) (t : Nat) (s : State) : (register sl t s).irqSlots = s.irqSlots := setSlot_irqSlots s sl (some t)
@[simp] theorem register_inProgress (sl : Slot) (t : Nat) (s : State) : (register sl t s).inProgress = s.inProgress := setSlot_inProgress s sl (some t)
@[simp] theorem register_draws (sl : Slot) (t : Nat) (s : State) : (register sl t s).draws = s.draws := setSlot_draws s sl (some t)
@[simp] theorem register_out (sl : Slot) (t : Nat) (s : State) : (register sl t s).out = s.out := setSlot_out s sl (some t)

/-! `wake` -/

@[simp] theorem wake_params (sl : Slot) (s : State) : (wake sl s).params = s.params := by unfold wake; split <;> simp
@[simp] theorem wake_pma (sl : Slot) (s : State) : (wake sl s).pma = s.pma := by unfold wake; split <;> simp
@[simp] theorem wake_chep (sl : Slot) (s : State) : (wake sl s).chep = s.chep := by unfold wake; split <;> simp
@[simp] theorem wake_istr (sl : Slot) (s : State) : (wake sl s).istr = s.istr := by unfold wake; split <;> simp
@[simp] theorem wake_errChan (sl : Slot) (s : State) : (wake sl s).errChan = s.errChan := by unfold wake; split <;> simp
@[simp] theorem wake_connected (sl : Slot) (s : State) : (wake sl s).connected = s.connected := by unfold wake; split <;> simp
@[simp] theorem wake_alloc (sl : Slot) (s : State) : (wake sl s).alloc = s.alloc := by unfold wake; split <;> simp
@[simp] theorem wake_htIn (sl : Slot) (s : State) : (wake sl s).htIn = s.htIn := by unfold wake; split <;> simp
@[simp] theorem wake_htOut (sl : Slot) (s : State) : (wake sl s).htOut = s.htOut := by unfold wake; split <;> simp
@[simp] theorem wake_now (sl : Slot) (s : State) : (wake sl s).now = s.now := by unfold wake; split <;> simp
@[simp] theorem wake_fault (sl : Slot) (s : State) : (wake sl s).fault = s.fault := by unfold wake; split <;> simp
@[simp] theorem wake_log (sl : Slot) (s : State) : (wake sl s).log = s.log := by unfold wake; split <;> simp
@[simp] theorem wake_task (sl : Slot) (s : State) : (wake sl s).task = s.task := by unfold wake; split <;> simp
@[simp] theorem wake_data (sl : Slot) (s : State) : (wake sl s).data = s.data := by unfold wake; split <;> simp
@[simp] theorem wake_timeout (sl : Slot) (s : State) : (wake sl s).timeout = s.timeout := by unfold wake; split <;> simp
@[simp] theorem wake_inputs (sl : Slot) (s : State) : (wake sl s).inputs = s.inputs := by unfold wake; split <;> simp
@[simp] theorem wake_slots (sl : Slot) (s : State) : (wake sl s).slots = s.slots := by unfold wake; split <;> simp
@[simp] theorem wake_irqSlots (sl : Slot) (s : State) : (wake sl s).irqSlots = s.irqSlots := by unfold wake; split <;> simp
@[simp] theorem wake_inProgress (sl : Slot) (s : State) : (wake sl s).inProgress = s.inProgress := by unfold wake; split <;> simp
@[simp] theorem wake_draws (sl : Slot) (s : State) : (wake sl s).draws = s.draws := by unfold wake; split <;> simp
@[simp] theorem wake_out (sl : Slot) (s : State) : (wake sl s).out = s.out := by unfold wake; split <;> simp

/-! `wakeFlags` -/

@[simp] theorem wakeFlags_params (c : Chan) (fs : FlagSet) (s : State) : (wakeFlags c fs s).params = s.params := by unfold wakeFlags; split <;> split <;> simp
@[simp] theorem wakeFlags_pma (c : Chan) (fs : FlagSet) (s : State) : (wakeFlags c fs s).pma = s.pma := by unfold wakeFlags; split <;> split <;> simp
@[simp] theorem wakeFlags_chep (c : Chan) (fs : FlagSet) (s : State) : (wakeFlags c fs s).chep = s.chep := by unfold wakeFlags; split <;> split <;> simp
@[simp] theorem wakeFlags_istr (c : Chan) (fs : FlagSet) (s : State) : (wakeFlags c fs s).istr = s.istr := by unfold wakeFlags; split <;> split <;> simp
@[simp] theorem wakeFlags_errChan (c : Chan) (fs : FlagSet) (s : State) : (wakeFlags c fs s).errChan = s.errChan := by unfold wakeFlags; split <;> split <;> simp
@[simp] theorem wakeFlags_connected (c : Chan) (fs : FlagSet) (s : State) : (wakeFlags c fs s).connected = s.connected := by unfold wakeFlags; split <;> split <;> simp
@[simp] theorem wakeFlags_alloc (c : Chan) (fs : FlagSet) (s : State) : (wakeFlags c fs s).alloc = s.alloc := by unfold wakeFlags; split <;> split <;> simp
@[simp] theorem wakeFlags_htIn (c : Chan) (fs : FlagSet) (s : State) : (wakeFlags c fs s).htIn = s.htIn := by unfold wakeFlags; split <;> split <;> simp
@[simp] theorem wakeFlags_htOut (c : Chan) (fs : FlagSet) (s : State) : (wakeFlags c fs s).htOut = s.htOut := by unfold wakeFlags; split <;> split <;> simp
@[simp] theorem wakeFlags_now (c : Chan) (fs : FlagSet) (s : State) : (wakeFlags c fs s).now = s.now := by unfold wakeFlags; split <;> split <;> simp
@[simp] theorem wakeFlags_fault (c : Chan) (fs : FlagSet) (s : State) : (wakeFlags c fs s).fault = s.fault := by unfold wakeFlags; split <;> split <;> simp
@[simp] theorem wakeFlags_log (c : Chan) (fs : FlagSet) (s : State) : (wakeFlags c fs s).log = s.log := by unfold wakeFlags; split <;> split <;> simp
@[simp] theorem wakeFlags_task (c : Chan) (fs : FlagSet) (s : State) : (wakeFlags c fs s).task = s.task := by unfold wakeFlags; split <;> split <;> simp
@[simp] theorem wakeFlags_data (c : Chan) (fs : FlagSet) (s : State) : (wakeFlags c fs s).data = s.data := by unfold wakeFlags; split <;> split <;> simp
@[simp] theorem wakeFlags_timeout (c : Chan) (fs : FlagSet) (s : State) : (wakeFlags c fs s).timeout = s.timeout := by unfold wakeFlags; split <;> split <;> simp
@[simp] theorem wakeFlags_inputs (c : Chan) (fs : FlagSet) (s : State) : (wakeFlags c fs s).inputs = s.inputs := by unfold wakeFlags; split <;> split <;> simp
@[simp] theorem wakeFlags_slots (c : Chan) (fs : FlagSet) (s : State) : (wakeFlags c fs s).slots = s.slots := by unfold wakeFlags; split <;> split <;> simp
@[simp] theorem wakeFlags_irqSlots (c : Chan) (fs : FlagSet) (s : State) : (wakeFlags c fs s).irqSlots = s.irqSlots := by unfold wakeFlags; split <;> split <;> simp
@[simp] theorem wakeFlags_inProgress (c : Chan) (fs : FlagSet) (s : State) : (wakeFlags c fs s).inProgress = s.inProgress := by unfold wakeFlags; split <;> split <;> simp
@[simp] theorem wakeFlags_draws (c : Chan) (fs : FlagSet) (s : State) : (wakeFlags c fs s).draws = s.draws := by unfold wakeFlags; split <;> split <;> simp
@[simp] theorem wakeFlags_out (c : Chan) (fs : FlagSet) (s : State) : (wakeFlags c fs s).out = s.out := by unfold wakeFlags; split <;> split <;> simp

/-! `setHandle` -/

@[simp] theorem setHandle_params (s : State) (c : Chan) (d : Dir) (h : Option Handle) : (setHandle s c d h).params = s.params := by cases d <;> rfl
@[simp] theorem setHandle_pma (s : State) (c : Chan) (d : Dir) (h : Option Handle) : (setHandle s c d h).pma = s.pma := by cases d <;> rfl
@[simp] theorem setHandle_chep (s : State) (c : Chan) (d : Dir) (h : Option Handle) : (setHandle s c d h).chep = s.chep := by cases d <;> rfl
@[simp] theorem setHandle_istr (s : State) (c : Chan) (d : Dir) (h : Option Handle) : (setHandle s c d h).istr = s.istr := by cases d <;> rfl
@[simp] theorem setHandle_errChan (s : State) (c : Chan) (d : Dir) (h : Option Handle) : (setHandle s c d h).errChan = s.errChan := by cases d <;> rfl
@[simp] theorem setHandle_connected (s : State) (c : Chan) (d : Dir) (h : Option Handle) : (setHandle s c d h).connected = s.connected := by cases d <;> rfl
@[simp] theorem setHandle_alloc (s : State) (c : Chan) (d : Dir) (h : Option Handle) : (setHandle s c d h).alloc = s.alloc := by cases d <;> rfl
@[simp] theorem setHandle_wakerIn (s : State) (c : Chan) (d : Dir) (h : Option Handle) : (setHandle s c d h).wakerIn = s.wakerIn := by cases d <;> rfl
@[simp] theorem setHandle_wakerOut (s : State) (c : Chan) (d : Dir) (h : Option Handle) : (setHandle s c d h).wakerOut = s.wakerOut := by cases d <;> rfl
@[simp] theorem setHandle_wakerBus (s : State) (c : Chan) (d : Dir) (h : Option Handle) : (setHandle s c d h).wakerBus = s.wakerBus := by cases d <;> rfl
@[simp] theorem setHandle_tasks (s : State) (c : Chan) (d : Dir) (h : Option Handle) : (setHandle s c d h).tasks = s.tasks := by cases d <;> rfl
@[simp] theorem setHandle_now (s : State) (c : Chan) (d : Dir) (h : Option Handle) : (setHandle s c d h).now = s.now := by cases d <;> rfl
@[simp] theorem setHandle_fault (s : State) (c : Chan) (d : Dir) (h : Option Handle) : (setHandle s c d h).fault = s.fault := by cases d <;> rfl
@[simp] theorem setHandle_log (s : State) (c : Chan) (d : Dir) (h : Option Handle) : (setHandle s c d h).log = s.log := by cases d <;> rfl
@[simp] theorem setHandle_task (s : State) (c : Chan) (d : Dir) (h : Option Handle) : (setHandle s c d h).task = s.task := by cases d <;> rfl
@[simp] theorem setHandle_data (s : State) (c : Chan) (d : Dir) (h : Option Handle) : (setHandle s c d h).data = s.data := by cases d <;> rfl
@[simp] theorem setHandle_timeout (s : State) (c : Chan) (d : Dir) (h : Option Handle) : (setHandle s c d h).timeout = s.timeout := by cases d <;> rfl
@[simp] theorem setHandle_inputs (s : State) (c : Chan) (d : Dir) (h : Option Handle) : (setHandle s c d h).inputs = s.inputs := by cases d <;> rfl
@[simp] theorem setHandle_slots (s : State) (c : Chan) (d : Dir) (h : Option Handle) : (setHandle s c d h).slots = s.slots := by cases d <;> rfl
@[simp] theorem setHandle_irqSlots (s : State) (c : Chan) (d : Dir) (h : Option Handle) : (setHandle s c d h).irqSlots = s.irqSlots := by cases d <;> rfl
@[simp] theorem setHandle_inProgress (s : State) (c : Chan) (d : Dir) (h : Option Handle) : (setHandle s c d h).inProgress = s.inProgress := by cases d <;> rfl
@[simp] theorem setHandle_draws (s : State) (c : Chan) (d : Dir) (h : Option Handle) : (setHandle s c d h).draws = s.draws := by cases d <;> rfl
@[simp] theorem setHandle_out (s : State) (c : Chan) (d : Dir) (h : Option Handle) : (setHandle s c d h).out = s.out := by cases d <;> rfl

/-! `setInUse` -/

@[simp] theorem setInUse_params (c : Chan) (d : Dir) (b : Bool) (s : State) : (setInUse c d b s).params = s.params := by cases d <;> rfl
@[simp] theorem setInUse_pma (c : Chan) (d : Dir) (b : Bool) (s : State) : (setInUse c d b s).pma = s.pma := by cases d <;> rfl
@[simp] theorem setInUse_chep (c : Chan) (d : Dir) (b : Bool) (s : State) : (setInUse c d b s).chep = s.chep := by cases d <;> rfl
@[simp] theorem setInUse_istr (c : Chan) (d : Dir) (b : Bool) (s : State) : (setInUse c d b s).istr = s.istr := by cases d <;> rfl
@[simp] theorem setInUse_errChan (c : Chan) (d : Dir) (b : Bool) (s : State) : (setInUse c d b s).errChan = s.errChan := by cases d <;> rfl
@[simp] theorem setInUse_connected (c : Chan) (d : Dir) (b : Bool) (s : State) : (setInUse c d b s).connected = s.connected := by cases d <;> rfl
@[simp] theorem setInUse_htIn (c : Chan) (d : Dir) (b : Bool) (s : State) : (setInUse c d b s).htIn = s.htIn := by cases d <;> rfl
@[simp] theorem setInUse_htOut (c : Chan) (d : Dir) (b : Bool) (s : State) : (setInUse c d b s).htOut = s.htOut := by cases d <;> rfl
@[simp] theorem setInUse_wakerIn (c : Chan) (d : Dir) (b : Bool) (s : State) : (setInUse c d b s).wakerIn = s.wakerIn := by cases d <;> rfl
@[simp] theorem setInUse_wakerOut (c : Chan) (d : Dir) (b : Bool) (s : State) : (setInUse c d b s).wakerOut = s.wakerOut := by cases d <;> rfl
@[simp] theorem setInUse_wakerBus (c : Chan) (d : Dir) (b : Bool) (s : State) : (setInUse c d b s).wakerBus = s.wakerBus := by cases d <;> rfl
@[simp] theorem setInUse_tasks (c : Chan) (d : Dir) (b : Bool) (s : State) : (setInUse c d b s).tasks = s.tasks := by cases d <;> rfl
@[simp] theorem setInUse_now (c : Chan) (d : Dir) (b : Bool) (s : State) : (setInUse c d b s).now = s.now := by cases d <;> rfl
@[simp] theorem setInUse_fault (c : Chan) (d : Dir) (b : Bool) (s : State) : (setInUse c d b s).fault = s.fault := by cases d <;> rfl
@[simp] theorem setInUse_log (c : Chan) (d : Dir) (b : Bool) (s : State) : (setInUse c d b s).log = s.log := by cases d <;> rfl
@[simp] theorem setInUse_task (c : Chan) (d : Dir) (b : Bool) (s : State) : (setInUse c d b s).task = s.task := by cases d <;> rfl
@[simp] theorem setInUse_data (c : Chan) (d : Dir) (b : Bool) (s : State) : (setInUse c d b s).data = s.data := by cases d <;> rfl
@[simp] theorem setInUse_timeout (c : Chan) (d : Dir) (b : Bool) (s : State) : (setInUse c d b s).timeout = s.timeout := by cases d <;> rfl
@[simp] theorem setInUse_inputs (c : Chan) (d : Dir) (b : Bool) (s : State) : (setInUse c d b s).inputs = s.inputs := by cases d <;> rfl
@[simp] theorem setInUse_slots (c : Chan) (d : Dir) (b : Bool) (s : State) : (setInUse c d b s).slots = s.slots := by cases d <;> rfl
@[simp] theorem setInUse_irqSlots (c : Chan) (d : Dir) (b : Bool) (s : State) : (setInUse c d b s).irqSlots = s.irqSlots := by cases d <;> rfl
@[simp] theorem setInUse_inProgress (c : Chan) (d : Dir) (b : Bool) (s : State) : (setInUse c d b s).inProgress = s.inProgress := by cases d <;> rfl
@[simp] theorem setInUse_draws (c : Chan) (d : Dir) (b : Bool) (s : State) : (setInUse c d b s).draws = s.draws := by cases d <;> rfl
@[simp] theorem setInUse_out (c : Chan) (d : Dir) (b : Bool) (s : State) : (setInUse c d b s).out = s.out := by cases d <;> rfl

/-! `drawInUse` -/

@[simp] theorem drawInUse_params (c : Chan) (d : Dir) (s : State) : (drawInUse c d s).params = s.params := by simp [drawInUse]
@[simp] theorem drawInUse_pma (c : Chan) (d : Dir) (s : State) : (drawInUse c d s).pma = s.pma := by simp [drawInUse]
@[simp] theorem drawInUse_chep (c : Chan) (d : Dir) (s : State) : (drawInUse c d s).chep = s.chep := by simp [drawInUse]
@[simp] theorem drawInUse_istr (c : Chan) (d : Dir) (s : State) : (drawInUse c d s).istr = s.istr := by simp [drawInUse]
@[simp] theorem drawInUse_errChan (c : Chan) (d : Dir) (s : State) : (drawInUse c d s).errChan = s.errChan := by simp [drawInUse]
@[simp] theorem drawInUse_connected (c : Chan) (d : Dir) (s : State) : (drawInUse c d s).connected = s.connected := by simp [drawInUse]
@[simp] theorem drawInUse_htIn (c : Chan) (d : Dir) (s : State) : (drawInUse c d s).htIn = s.htIn := by simp [drawInUse]
@[simp] theorem drawInUse_htOut (c : Chan) (d : Dir) (s : State) : (drawInUse c d s).htOut = s.htOut := by simp [drawInUse]
@[simp] theorem drawInUse_wakerIn (c : Chan) (d : Dir) (s : State) : (drawInUse c d s).wakerIn = s.wakerIn := by simp [drawInUse]
@[simp] theorem drawInUse_wakerOut (c : Chan) (d : Dir) (s : State) : (drawInUse c d s).wakerOut = s.wakerOut := by simp [drawInUse]
@[simp] theorem drawInUse_wakerBus (c : Chan) (d : Dir) (s : State) : (drawInUse c d s).wakerBus = s.wakerBus := by simp [drawInUse]
@[simp] theorem drawInUse_tasks (c : Chan) (d : Dir) (s : State) : (drawInUse c d s).tasks = s.tasks := by simp [drawInUse]
@[simp] theorem drawInUse_now (c : Chan) (d : Dir) (s : State) : (drawInUse c d s).now = s.now := by simp [drawInUse]
@[simp] theorem drawInUse_fault (c : Chan) (d : Dir) (s : State) : (drawInUse c d s).fault = s.fault := by simp [drawInUse]
@[simp] theorem drawInUse_log (c : Chan) (d : Dir) (s : State) : (drawInUse c d s).log = s.log := by simp [drawInUse]
@[simp] theorem drawInUse_task (c : Chan) (d : Dir) (s : State) : (drawInUse c d s).task = s.task := by simp [drawInUse]
@[simp] theorem drawInUse_data (c : Chan) (d : Dir) (s : State) : (drawInUse c d s).data = s.data := by simp [drawInUse]
@[simp] theorem drawInUse_timeout (c : Chan) (d : Dir) (s : State) : (drawInUse c d s).timeout = s.timeout := by simp [drawInUse]
@[simp] theorem drawInUse_inputs (c : Chan) (d : Dir) (s : State) : (drawInUse c d s).inputs = s.inputs := by simp [drawInUse]
@[simp] theorem drawInUse_slots (c : Chan) (d : Dir) (s : State) : (drawInUse c d s).slots = s.slots := by simp [drawInUse]
@[simp] theorem drawInUse_irqSlots (c : Chan) (d : Dir) (s : State) : (drawInUse c d s).irqSlots = s.irqSlots := by simp [drawInUse]
@[simp] theorem drawInUse_inProgress (c : Chan) (d : Dir) (s : State) : (drawInUse c d s).inProgress = s.inProgress := by simp [drawInUse]
@[simp] theorem drawInUse_draws (c : Chan) (d : Dir) (s : State) : (drawInUse c d s).draws = s.draws + 1 := by simp [drawInUse]
@[simp] theorem drawInUse_out (c : Chan) (d : Dir) (s : State) : (drawInUse c d s).out = s.out := by simp [drawInUse]

end Sys2Proof.Machine
end

