-- ==== Sys2Proof/Laws/Memory.lean ====
section
/-! SUPPORT. Packet memory: the bytes a store leaves, numbers and their little-endian bytes (20_memory.md R83, R84),
and that every store keeps the canonical form. -/

namespace Sys2Proof.Machine

/-- What a byte of the list reads as after a store. -/
theorem mapLookup_storeBytes (m : List Host.Cell) (a : Nat) (bs : List Byte) (k : Nat) :
    mapLookup (storeBytes m a bs) k = if a ≤ k ∧ k < a + bs.length then bs[k - a]? else mapLookup m k := by
  induction bs generalizing m a with
  | nil => simp [storeBytes]
  | cons b rest ih =>
    simp only [storeBytes, ih, mapLookup_mapInsert, List.length_cons]
    by_cases h1 : a + 1 ≤ k ∧ k < a + 1 + rest.length
    · rw [if_pos h1, if_pos (by omega)]
      have : k - a = (k - (a + 1)) + 1 := by omega
      rw [this, List.getElem?_cons_succ]
    · rw [if_neg h1]
      by_cases h2 : k = a
      · subst h2
        rw [if_pos rfl, if_pos (by omega)]
        simp
      · rw [if_neg h2, if_neg (by omega)]

/-- A byte after a store: the byte stored there, or the byte it was. -/
theorem pmaByte_pokePma (s : State) (a : Nat) (bs : List Byte) (k : Nat) :
    pmaByte (pokePma s a bs) k = if a ≤ k ∧ k < a + bs.length then bs.getD (k - a) 0 else pmaByte s k := by
  simp only [pmaByte, pokePma, mapLookup_storeBytes]
  split
  · rename_i h
    have : k - a < bs.length := by omega
    simp [List.getD, List.getElem?_eq_getElem this]
  · rfl

/-- A byte outside the stored ones reads as before. -/
theorem pmaByte_pokePma_outside (s : State) (a : Nat) (bs : List Byte) (k : Nat) (h : k < a ∨ a + bs.length ≤ k) :
    pmaByte (pokePma s a bs) k = pmaByte s k := by
  rw [pmaByte_pokePma, if_neg (by omega)]

/-- A stored byte reads as what was stored. -/
theorem pmaByte_pokePma_inside (s : State) (a : Nat) (bs : List Byte) (j : Nat) (h : j < bs.length) :
    pmaByte (pokePma s a bs) (a + j) = bs[j] := by
  rw [pmaByte_pokePma, if_pos (by omega)]
  simp [List.getD, List.getElem?_eq_getElem h]

theorem storeBytes_append (m : List Host.Cell) (a : Nat) (bs cs : List Byte) :
    storeBytes m a (bs ++ cs) = storeBytes (storeBytes m a bs) (a + bs.length) cs := by
  induction bs generalizing m a with
  | nil => simp [storeBytes]
  | cons b rest ih =>
    simp only [List.cons_append, storeBytes, ih, List.length_cons]
    rw [show a + 1 + rest.length = a + (rest.length + 1) by omega]

/-- Two stores, the second where the first ends, are one. -/
theorem pokePma_pokePma (s : State) (a : Nat) (bs cs : List Byte) :
    pokePma (pokePma s a bs) (a + bs.length) cs = pokePma s a (bs ++ cs) := by
  simp [pokePma, storeBytes_append]

@[simp] theorem pokePma_nil (s : State) (a : Nat) : pokePma s a [] = s := rfl

@[simp] theorem leBytes_length (n v : Nat) : (leBytes n v).length = n := by simp [leBytes]

@[simp] theorem pmaBytesAt_length (s : State) (a n : Nat) : (pmaBytesAt s a n).length = n := by simp [pmaBytesAt]

theorem leBytes_getElem (n v j : Nat) (h : j < (leBytes n v).length) :
    (leBytes n v)[j] = BitVec.ofNat 8 (v / 256 ^ j) := by
  simp [leBytes]

theorem leNat_lt (bs : List Byte) : leNat bs < 256 ^ bs.length := by
  induction bs with
  | nil => simp [leNat]
  | cons b rest ih =>
    simp only [leNat, List.foldr_cons, List.length_cons, Nat.pow_succ] at ih ⊢
    have := b.isLt
    omega

theorem leBytes_succ (n v : Nat) : leBytes (n + 1) v = BitVec.ofNat 8 v :: leBytes n (v / 256) := by
  simp only [leBytes, List.range_succ_eq_map, List.map_cons, List.map_map, pow_zero, Nat.div_one]
  congr 1
  apply List.map_congr_left
  intro j _
  simp only [Function.comp, Nat.succ_eq_add_one, Nat.pow_succ, Nat.div_div_eq_div_mul, Nat.mul_comm]

/-- The number of the bytes of a number is that number, at the width (20_memory.md R83). -/
theorem leNat_leBytes (n v : Nat) : leNat (leBytes n v) = v % 256 ^ n := by
  induction n generalizing v with
  | zero => simp [leBytes, leNat, Nat.mod_one]
  | succ n ih =>
    rw [leBytes_succ]
    simp only [leNat, List.foldr_cons] at ih ⊢
    rw [ih, BitVec.toNat_ofNat, show 256 ^ (n + 1) = 256 * 256 ^ n by ring, Nat.mod_mul, show (2 : Nat) ^ 8 = 256 by rfl]

/-- The bytes of the number of a list of bytes are the list (20_memory.md R83). -/
theorem leBytes_leNat (bs : List Byte) : leBytes bs.length (leNat bs) = bs := by
  induction bs with
  | nil => rfl
  | cons b rest ih =>
    rw [List.length_cons, leBytes_succ]
    have hb := b.isLt
    have h1 : leNat (b :: rest) = b.toNat + 256 * leNat rest := rfl
    rw [h1]
    congr 1
    · apply BitVec.eq_of_toNat_eq
      simp only [BitVec.toNat_ofNat]
      omega
    · rw [show (b.toNat + 256 * leNat rest) / 256 = leNat rest by omega, ih]

theorem leBytes_add (m n v : Nat) : leBytes (m + n) v = leBytes m v ++ leBytes n (v / 256 ^ m) := by
  induction m generalizing v with
  | zero => simp [leBytes]
  | succ m ih =>
    rw [show m + 1 + n = (m + n) + 1 by omega, leBytes_succ, leBytes_succ, ih, List.cons_append, Nat.div_div_eq_div_mul,
      Nat.pow_succ, Nat.mul_comm 256]

theorem pmaBytesAt_getElem (s : State) (a n j : Nat) (h : j < (pmaBytesAt s a n).length) :
    (pmaBytesAt s a n)[j] = pmaByte s (a + j) := by
  simp [pmaBytesAt]

theorem pmaBytesAt_add (s : State) (a m n : Nat) :
    pmaBytesAt s a (m + n) = pmaBytesAt s a m ++ pmaBytesAt s (a + m) n := by
  simp only [pmaBytesAt, List.range_add, List.map_append, List.map_map]
  congr 1
  apply List.map_congr_left
  intro j _
  simp [Nat.add_assoc]

/-- The bytes just stored. -/
theorem pmaBytesAt_pokePma (s : State) (a : Nat) (bs : List Byte) : pmaBytesAt (pokePma s a bs) a bs.length = bs := by
  apply List.ext_getElem (by simp)
  intro j h1 h2
  rw [pmaBytesAt_getElem, pmaByte_pokePma_inside _ _ _ _ h2]

/-- Bytes that agree one by one. -/
theorem pmaBytesAt_congr (s s' : State) (a n : Nat) (h : ∀ k, a ≤ k → k < a + n → pmaByte s k = pmaByte s' k) :
    pmaBytesAt s a n = pmaBytesAt s' a n := by
  apply List.ext_getElem (by simp)
  intro j h1 h2
  rw [pmaBytesAt_getElem, pmaBytesAt_getElem]
  simp at h1
  exact h _ (by omega) (by omega)

theorem pmaBytesAt_pokePma_outside (s : State) (a : Nat) (bs : List Byte) (b n : Nat)
    (h : b + n ≤ a ∨ a + bs.length ≤ b) : pmaBytesAt (pokePma s a bs) b n = pmaBytesAt s b n := by
  apply pmaBytesAt_congr
  intro k h1 h2
  exact pmaByte_pokePma_outside _ _ _ _ (by omega)

/-! The checked accesses, said once. -/

theorem accessFault_none {s : State} {a n : Nat} : accessFault s a n = none ↔ a % n = 0 ∧ a + n ≤ s.params.pmaBytes := by
  simp only [accessFault]
  split
  · simp_all
  · split <;> simp_all

/-- `MemRead` answers the little-endian number and changes nothing, or faults and changes nothing else. -/
theorem memRead_ok {s : State} {a n : Nat} (h1 : a % n = 0) (h2 : a + n ≤ s.params.pmaBytes) :
    memRead a n s = .ok (leNat (pmaBytesAt s a n)) s := by
  simp [memRead, accessFault_none.mpr ⟨h1, h2⟩]

/-- `MemWrite` stores the little-endian bytes. -/
theorem memWrite_ok {s : State} {a n v : Nat} (h1 : a % n = 0) (h2 : a + n ≤ s.params.pmaBytes) :
    memWrite a n v s = .ok () (pokePma s a (leBytes n v)) := by
  simp [memWrite, accessFault_none.mpr ⟨h1, h2⟩]

/-- All that `MemRead` can do. -/
theorem memRead_cases (a n : Nat) (s : State) :
    (memRead a n s = .ok (leNat (pmaBytesAt s a n)) s ∧ a % n = 0 ∧ a + n ≤ s.params.pmaBytes) ∨
    ∃ r, memRead a n s = raise r s := by
  simp only [memRead]
  split
  · exact .inr ⟨_, rfl⟩
  · rename_i h
    exact .inl ⟨rfl, accessFault_none.mp h⟩

/-- All that `MemWrite` can do. -/
theorem memWrite_cases (a n v : Nat) (s : State) :
    (memWrite a n v s = .ok () (pokePma s a (leBytes n v)) ∧ a % n = 0 ∧ a + n ≤ s.params.pmaBytes) ∨
    ∃ r, memWrite a n v s = raise r s := by
  simp only [memWrite]
  split
  · exact .inr ⟨_, rfl⟩
  · rename_i h
    exact .inl ⟨rfl, accessFault_none.mp h⟩

/-! The canonical form. -/

theorem pmaWf_mapInsert {m : List Host.Cell} {bound a : Nat} {b : Byte} (h : pmaWf m bound = true) (ha : a < bound) :
    pmaWf (mapInsert m a b) bound = true := by
  simp only [pmaWf, Bool.and_eq_true] at h ⊢
  exact ⟨risingFrom_mapInsert _ _ _ _ h.1 (by omega), all_mapInsert _ _ _ _ h.2 (by simp [ha])⟩

/-- A store inside packet memory keeps the canonical form. -/
theorem pmaWf_storeBytes {m : List Host.Cell} {bound a : Nat} {bs : List Byte} (h : pmaWf m bound = true)
    (ha : a + bs.length ≤ bound) : pmaWf (storeBytes m a bs) bound = true := by
  induction bs generalizing m a with
  | nil => exact h
  | cons b rest ih =>
    simp only [List.length_cons] at ha
    exact ih (pmaWf_mapInsert h (by omega)) (by omega)

/-- Every checked store keeps the canonical form. -/
theorem pmaWf_memWrite {s : State} {a n v : Nat} (h : pmaWf s.pma s.params.pmaBytes = true) :
    pmaWf (match memWrite a n v s with | .ok _ s' => s'.pma | .halt s' => s'.pma) s.params.pmaBytes = true := by
  rcases memWrite_cases a n v s with ⟨h1, _, h2⟩ | ⟨r, h1⟩
  · rw [h1]
    exact pmaWf_storeBytes h (by simpa using h2)
  · rw [h1]
    exact h

/-- The memory after reset has the canonical form. -/
theorem pmaWf_reset (p : Params) (connected : Bool) :
    pmaWf (State.resetWith p connected).pma (State.resetWith p connected).params.pmaBytes = true := by
  simp [State.resetWith, pmaWf, risingFrom]

end Sys2Proof.Machine
end

