-- ==== Sys2Proof/Laws/Register.lean ====
section
/-! SUPPORT. The register algebra bit by bit: fields, kinds, the canonical value, and what the hardware makes of every
value the block writes, whether or not the register changed after it was read (44_channel_register.md R190–R198). -/

namespace Sys2Proof.Machine

/-- Bit `i` belongs to a field. -/
def inField (f : Field) (i : Nat) : Bool := decide (f.lo ≤ i) && decide (i < f.lo + f.width)

theorem getLsbD_fieldMask (f : Field) (i : Nat) : (fieldMask f).getLsbD i = (inField f i && decide (i < 32)) := by
  simp only [fieldMask, inField, BitVec.getLsbD_shiftLeft, BitVec.getLsbD_setWidth, BitVec.getLsbD_allOnes]
  by_cases h1 : f.lo ≤ i <;> by_cases h2 : i < f.lo + f.width <;> by_cases h3 : i < 32 <;>
    simp [h1, h2, h3] <;> omega

theorem getLsbD_fieldGet (f : Field) (v : Word32) (i : Nat) :
    (fieldGet f v).getLsbD i = (decide (i < f.width) && v.getLsbD (f.lo + i)) := by
  simp only [fieldGet, BitVec.getLsbD_and, BitVec.getLsbD_ushiftRight, BitVec.getLsbD_setWidth, BitVec.getLsbD_allOnes]
  by_cases h1 : i < f.width
  · by_cases h2 : i < 32
    · simp [h1, h2]
    · have : v.getLsbD (f.lo + i) = false := BitVec.getLsbD_of_ge _ _ (by omega)
      simp [this]
  · simp [h1]

theorem getLsbD_fieldPut (f : Field) (v x : Word32) (i : Nat) :
    (fieldPut f v x).getLsbD i =
      if inField f i && decide (i < 32) then x.getLsbD (i - f.lo) else v.getLsbD i := by
  simp only [fieldPut, BitVec.getLsbD_or, BitVec.getLsbD_and, BitVec.getLsbD_not, getLsbD_fieldMask,
    BitVec.getLsbD_shiftLeft]
  by_cases h3 : i < 32
  · by_cases h : inField f i = true
    · have : ¬ i < f.lo := by simp [inField] at h; omega
      simp [h, h3, this]
    · simp [h, h3]
  · have : v.getLsbD i = false := BitVec.getLsbD_of_ge _ _ (by omega)
    simp [h3, this]

theorem fieldPut_fieldGet (f : Field) (v : Word32) : fieldPut f v (fieldGet f v) = v := by
  apply BitVec.eq_of_getLsbD_eq
  intro i hi
  rw [getLsbD_fieldPut, getLsbD_fieldGet]
  split
  · rename_i h
    simp only [inField, Bool.and_eq_true, decide_eq_true_eq] at h
    have : f.lo + (i - f.lo) = i := by omega
    rw [this]
    simp
    omega
  · rfl

theorem fieldGet_fieldPut (f : Field) (v x : Word32) (h : f.lo + f.width ≤ 32) :
    fieldGet f (fieldPut f v x) = x &&& ((BitVec.allOnes f.width).setWidth 32) := by
  apply BitVec.eq_of_getLsbD_eq
  intro i hi
  simp only [getLsbD_fieldGet, getLsbD_fieldPut, inField, BitVec.getLsbD_and, BitVec.getLsbD_setWidth,
    BitVec.getLsbD_allOnes]
  by_cases hw : i < f.width
  · have h1 : f.lo + i < 32 := by omega
    simp [hw, h1, hi]
  · simp [hw]

theorem fieldGet_fieldPut_apart (f g : Field) (v x : Word32) (h : fieldsApart f g = true) :
    fieldGet f (fieldPut g v x) = fieldGet f v := by
  apply BitVec.eq_of_getLsbD_eq
  intro i hi
  simp only [getLsbD_fieldGet, getLsbD_fieldPut]
  by_cases hw : i < f.width
  · have : inField g (f.lo + i) = false := by
      simp only [fieldsApart, Bool.or_eq_true, decide_eq_true_eq] at h
      simp only [inField, Bool.and_eq_false_iff, decide_eq_false_iff_not]
      omega
    simp [this]
  · simp [hw]

theorem getLsbD_maskOf (fs : List Field) (i : Nat) :
    (maskOf fs).getLsbD i = (fs.any (fun f => inField f i) && decide (i < 32)) := by
  induction fs with
  | nil => simp [maskOf]
  | cons f rest ih =>
    simp only [maskOf, List.foldr_cons, BitVec.getLsbD_or, getLsbD_fieldMask] at ih ⊢
    rw [ih]
    simp only [List.any_cons]
    cases inField f i <;> cases rest.any (fun f => inField f i) <;> cases decide (i < 32) <;> rfl

/-- Bit `i` is of kind T. -/
def isToggle (l : ChepLayout) (i : Nat) : Bool := (toggleFields l).any fun f => inField f i

/-- Bit `i` is of kind C. -/
def isClear (l : ChepLayout) (i : Nat) : Bool := (clearFields l).any fun f => inField f i

/-- Bit `i` is of kind RW. -/
def isPlain (l : ChepLayout) (i : Nat) : Bool := (plainFields l).any fun f => inField f i

theorem not_inField_of_apart {f g : Field} {i : Nat} (h : fieldsApart f g = true) (hf : inField f i = true) :
    inField g i = false := by
  simp only [fieldsApart, Bool.or_eq_true, decide_eq_true_eq, inField, Bool.and_eq_true] at h hf
  simp only [inField, Bool.and_eq_false_iff, decide_eq_false_iff_not]
  omega

theorem fieldsApart_symm {f g : Field} (h : fieldsApart f g = true) : fieldsApart g f = true := by
  simp only [fieldsApart, Bool.or_eq_true, decide_eq_true_eq] at h ⊢
  omega

theorem chepLayoutWf_pairwise {l : ChepLayout} (h : chepLayoutWf l = true) :
    (toggleFields l ++ clearFields l ++ plainFields l).Pairwise fun a b => fieldsApart a b = true := by
  simp only [chepLayoutWf, Bool.and_eq_true, decide_eq_true_eq] at h
  exact h.2

theorem chepLayoutWf_fits {l : ChepLayout} (h : chepLayoutWf l = true) (f : Field)
    (hf : f ∈ toggleFields l ++ clearFields l ++ plainFields l) : f.lo + f.width ≤ 32 := by
  simp only [chepLayoutWf, Bool.and_eq_true, List.all_eq_true, decide_eq_true_eq] at h
  exact h.1 f hf

/-- At an admitted layout a toggle bit is no clearable flag. -/
theorem isClear_of_isToggle {l : ChepLayout} (h : chepLayoutWf l = true) {i : Nat} (ht : isToggle l i = true) :
    isClear l i = false := by
  have hp := chepLayoutWf_pairwise h
  rw [List.append_assoc, List.pairwise_append] at hp
  simp only [isToggle, List.any_eq_true] at ht
  obtain ⟨f, hf, hfi⟩ := ht
  simp only [isClear, List.any_eq_false]
  intro g hg
  simp [not_inField_of_apart (hp.2.2 f hf g (by simp [hg])) hfi]

theorem isPlain_of_isToggle {l : ChepLayout} (h : chepLayoutWf l = true) {i : Nat} (ht : isToggle l i = true) :
    isPlain l i = false := by
  have hp := chepLayoutWf_pairwise h
  rw [List.append_assoc, List.pairwise_append] at hp
  simp only [isToggle, List.any_eq_true] at ht
  obtain ⟨f, hf, hfi⟩ := ht
  simp only [isPlain, List.any_eq_false]
  intro g hg
  simp [not_inField_of_apart (hp.2.2 f hf g (by simp [hg])) hfi]

theorem isPlain_of_isClear {l : ChepLayout} (h : chepLayoutWf l = true) {i : Nat} (hc : isClear l i = true) :
    isPlain l i = false := by
  have hp := chepLayoutWf_pairwise h
  rw [List.pairwise_append] at hp
  simp only [isClear, List.any_eq_true] at hc
  obtain ⟨f, hf, hfi⟩ := hc
  simp only [isPlain, List.any_eq_false]
  intro g hg
  simp [not_inField_of_apart (hp.2.2 f (by simp [hf]) g hg) hfi]

theorem getLsbD_tMask (l : ChepLayout) (i : Nat) : (tMask l).getLsbD i = (isToggle l i && decide (i < 32)) :=
  getLsbD_maskOf _ _

theorem getLsbD_cMask (l : ChepLayout) (i : Nat) : (cMask l).getLsbD i = (isClear l i && decide (i < 32)) :=
  getLsbD_maskOf _ _

theorem getLsbD_rwMask (l : ChepLayout) (i : Nat) : (rwMask l).getLsbD i = (isPlain l i && decide (i < 32)) :=
  getLsbD_maskOf _ _

/-- A bit the register algebra keeps as written: kinds RW and P. -/
theorem getLsbD_keptMask {l : ChepLayout} (h : chepLayoutWf l = true) {i : Nat} (hi : i < 32) :
    (rwMask l ||| pMask l).getLsbD i = (!isToggle l i && !isClear l i) := by
  simp only [pMask, BitVec.getLsbD_or, BitVec.getLsbD_not, getLsbD_rwMask, getLsbD_tMask, getLsbD_cMask, hi]
  cases ht : isToggle l i
  · cases hc : isClear l i
    · cases isPlain l i <;> simp
    · simp [isPlain_of_isClear h hc]
  · simp [isPlain_of_isToggle h ht]

/-- The neutral value of a C bit (30_encoding.md R118). -/
def neutralC (p : Params) : Bool :=
  match p.chepPolarity with
  | .w0c => true
  | .w1c => false

/-- The canonical value bit by bit (44_channel_register.md R191). -/
theorem getLsbD_canon {p : Params} (h : chepLayoutWf p.chep = true) (v : Word32) {i : Nat} (hi : i < 32) :
    (canon p v).getLsbD i =
      if isToggle p.chep i then false else if isClear p.chep i then neutralC p else v.getLsbD i := by
  have hk := getLsbD_keptMask h hi
  have hx := fun ht => isClear_of_isToggle h (i := i) ht
  have hz : BitVec.getLsbD (0 : Word32) i = false := BitVec.getLsbD_zero
  simp only [canon, neutralFlags, neutralC, BitVec.getLsbD_or, BitVec.getLsbD_and, hk]
  cases p.chepPolarity <;> simp only [getLsbD_cMask, hz, decide_eq_true hi] <;>
    cases ht : isToggle p.chep i <;> cases hc : isClear p.chep i <;> simp_all

/-- The hardware write function bit by bit (44_channel_register.md R190). -/
theorem getLsbD_hwWriteChep {p : Params} (h : chepLayoutWf p.chep = true) (old w : Word32) {i : Nat} (hi : i < 32) :
    (hwWriteChep p old w).getLsbD i =
      if isToggle p.chep i then (old.getLsbD i).xor (w.getLsbD i)
      else if isClear p.chep i then old.getLsbD i && (w.getLsbD i == neutralC p)
      else w.getLsbD i := by
  have hk := getLsbD_keptMask h hi
  have hx := fun ht => isClear_of_isToggle h (i := i) ht
  simp only [hwWriteChep, neutralC, BitVec.getLsbD_or, BitVec.getLsbD_and, hk]
  cases p.chepPolarity <;>
    simp only [BitVec.getLsbD_xor, BitVec.getLsbD_not, BitVec.getLsbD_and, getLsbD_cMask, getLsbD_tMask,
      decide_eq_true hi] <;>
    cases ht : isToggle p.chep i <;> cases hc : isClear p.chep i <;>
    cases old.getLsbD i <;> cases w.getLsbD i <;> simp_all

/-- The hardware's write is bit for bit what the bits of the value written say. -/
theorem hwWriteChep_ext {p : Params} (h : chepLayoutWf p.chep = true) (old w v : Word32)
    (bits : ∀ i, i < 32 →
      (if isToggle p.chep i then (old.getLsbD i).xor (w.getLsbD i)
       else if isClear p.chep i then old.getLsbD i && (w.getLsbD i == neutralC p)
       else w.getLsbD i) = v.getLsbD i) : hwWriteChep p old w = v := by
  apply BitVec.eq_of_getLsbD_eq
  intro i hi
  rw [getLsbD_hwWriteChep h _ _ hi]
  exact bits i hi

theorem inField_statField {l : ChepLayout} (hf : Half) {i : Nat} (h : inField (statField l hf) i = true) :
    isToggle l i = true := by
  simp only [isToggle, toggleFields, List.any_cons, Bool.or_eq_true]
  cases hf <;> simp [h]

theorem inField_ctrField {l : ChepLayout} (hf : Half) {i : Nat} (h : inField (ctrField l hf) i = true) :
    isClear l i = true := by
  simp only [isClear, clearFields, List.any_cons, Bool.or_eq_true]
  cases hf <;> simp [h]

theorem inField_errField {l : ChepLayout} (hf : Half) {i : Nat} (h : inField (errField l hf) i = true) :
    isClear l i = true := by
  simp only [isClear, clearFields, List.any_cons, Bool.or_eq_true]
  cases hf <;> simp [h]

/-- Two register values agree on every bit of kinds RW and P: the peripheral changes none of them
(48_peripheral.md R275). -/
def agreeKept (p : Params) (a b : Word32) : Prop :=
  ∀ i, i < 32 → isToggle p.chep i = false → isClear p.chep i = false → a.getLsbD i = b.getLsbD i

theorem agreeKept_refl (p : Params) (a : Word32) : agreeKept p a a := fun _ _ _ _ => rfl

/-- What the hardware makes of a canonical write: nothing changes (44_channel_register.md R197, R198). -/
theorem hwWriteChep_canon {p : Params} (h : chepLayoutWf p.chep = true) {old cur : Word32} (ha : agreeKept p cur old) :
    hwWriteChep p old (canon p cur) = old := by
  apply hwWriteChep_ext h
  intro i hi
  rw [getLsbD_canon h _ hi]
  cases ht : isToggle p.chep i
  · cases hc : isClear p.chep i
    · simpa using ha i hi ht hc
    · simp
  · simp

/-- What the hardware makes of a status write: the XOR of three statuses, every other field as the register has it
(44_channel_register.md R192, 70_reset_and_hazards.md R351). -/
theorem hwWriteChep_setstatWord {p : Params} (h : chepLayoutWf p.chep = true) {old cur : Word32} (hf : Half)
    (target : Status) (ha : agreeKept p cur old) :
    hwWriteChep p old (setstatWord p hf cur target) =
      fieldPut (statField p.chep hf) old (fieldGet (statField p.chep hf) old ^^^
        (fieldGet (statField p.chep hf) cur ^^^ BitVec.ofNat 32 (statusCode target))) := by
  apply hwWriteChep_ext h
  intro i hi
  simp only [setstatWord, getLsbD_fieldPut, decide_eq_true hi, Bool.and_true]
  cases hfi : inField (statField p.chep hf) i
  · simp only [Bool.false_eq_true, if_false, getLsbD_canon h _ hi]
    cases ht : isToggle p.chep i
    · cases hc : isClear p.chep i
      · simpa using ha i hi ht hc
      · simp
    · simp
  · have ht := inField_statField hf hfi
    have h1 : (statField p.chep hf).lo + (i - (statField p.chep hf).lo) = i := by
      simp only [inField, Bool.and_eq_true, decide_eq_true_eq] at hfi; omega
    have h2 : decide (i - (statField p.chep hf).lo < (statField p.chep hf).width) = true := by
      simp only [inField, Bool.and_eq_true, decide_eq_true_eq] at hfi ⊢; omega
    simp only [ht, if_true, BitVec.getLsbD_xor, getLsbD_fieldGet, h1, h2, Bool.true_and]

/-- The bits a write of a set of flag fields clears. -/
def clearedBits (p : Params) (field : ChepLayout → Half → Field) (fs : FlagSet) : Word32 :=
  (if fs.rx then fieldMask (field p.chep .rx) else 0) ||| (if fs.tx then fieldMask (field p.chep .tx) else 0)

theorem getLsbD_clearedBits (p : Params) (field : ChepLayout → Half → Field) (fs : FlagSet) {i : Nat} (hi : i < 32) :
    (clearedBits p field fs).getLsbD i =
      ((fs.rx && inField (field p.chep .rx) i) || (fs.tx && inField (field p.chep .tx) i)) := by
  have hz : BitVec.getLsbD (0 : Word32) i = false := BitVec.getLsbD_zero
  simp only [clearedBits]
  cases fs.rx <;> cases fs.tx <;> simp only [hz, Bool.false_eq_true, if_false, if_true, BitVec.getLsbD_or,
    getLsbD_fieldMask, decide_eq_true hi, Bool.and_true, Bool.false_or, Bool.or_false,
    Bool.true_and, Bool.false_and]

/-- A value written with `CLEAR_C` in the named flag fields, over any base. -/
theorem getLsbD_clearIf (p : Params) (named : Bool) (f : Field) (w : Word32) {i : Nat} (hi : i < 32)
    (hw : f.width = 1) :
    (clearIf p named f w).getLsbD i = if named && inField f i then !neutralC p else w.getLsbD i := by
  cases named
  · simp [clearIf]
  · simp only [clearIf, if_true, getLsbD_fieldPut, decide_eq_true hi, Bool.and_true, Bool.true_and]
    cases hfi : inField f i
    · simp
    · have : i - f.lo = 0 := by simp only [inField, Bool.and_eq_true, decide_eq_true_eq] at hfi; omega
      simp only [if_true, this, clearC, neutralC]
      cases p.chepPolarity <;> rfl

/-- What the hardware makes of a flag-clearing write: exactly the named flags fall, every other bit as the
register has it (44_channel_register.md R193, R194, R198). -/
theorem hwWriteChep_clearing {p : Params} (h : chepLayoutWf p.chep = true) {old cur : Word32}
    (field : ChepLayout → Half → Field) (hw : ∀ hf, (field p.chep hf).width = 1)
    (hk : ∀ hf i, inField (field p.chep hf) i = true → isClear p.chep i = true) (fs : FlagSet)
    (ha : agreeKept p cur old) :
    hwWriteChep p old (clearIf p fs.tx (field p.chep .tx) (clearIf p fs.rx (field p.chep .rx) (canon p cur))) =
      old &&& ~~~ clearedBits p field fs := by
  apply hwWriteChep_ext h
  intro i hi
  rw [getLsbD_clearIf p _ _ _ hi (hw _), getLsbD_clearIf p _ _ _ hi (hw _), getLsbD_canon h _ hi, BitVec.getLsbD_and,
    BitVec.getLsbD_not, getLsbD_clearedBits p field fs hi]
  have hT := hk .tx i
  have hR := hk .rx i
  have hx := fun ht => isClear_of_isToggle h (i := i) ht
  have hold := ha i hi
  cases ht : isToggle p.chep i <;> cases hc : isClear p.chep i <;> cases h1 : inField (field p.chep .tx) i <;>
    cases h2 : inField (field p.chep .rx) i <;> cases fs.rx <;> cases fs.tx <;> cases neutralC p <;> simp_all

theorem hwWriteChep_clrctrWord {p : Params} (h : chepLayoutWf p.chep = true) {old cur : Word32} (fs : FlagSet)
    (ha : agreeKept p cur old) :
    hwWriteChep p old (clrctrWord p cur fs) = old &&& ~~~ clearedBits p ctrField fs :=
  hwWriteChep_clearing h ctrField (fun hf => by cases hf <;> rfl) (fun hf i => inField_ctrField hf) fs ha

theorem hwWriteChep_clrerrWord {p : Params} (h : chepLayoutWf p.chep = true) {old cur : Word32} (fs : FlagSet)
    (ha : agreeKept p cur old) :
    hwWriteChep p old (clrerrWord p cur fs) = old &&& ~~~ clearedBits p errField fs :=
  hwWriteChep_clearing h errField (fun hf => by cases hf <;> rfl) (fun hf i => inField_errField hf) fs ha

theorem inField_plain {l : ChepLayout} {f : Field} (hf : f ∈ plainFields l) {i : Nat} (h : inField f i = true) :
    isPlain l i = true := by
  simp only [isPlain, List.any_eq_true]
  exact ⟨f, hf, h⟩

/-- What the hardware makes of the claim-time write: the three configuration fields, every other bit as the
register has it (44_channel_register.md R196, R198). -/
theorem hwWriteChep_initWord {p : Params} (h : chepLayoutWf p.chep = true) {old cur : Word32} (etype : EType)
    (devaddr : Nat) (c : Chan) (ha : agreeKept p cur old) :
    hwWriteChep p old (initWord p cur etype devaddr c) = configFields p old etype devaddr c := by
  apply hwWriteChep_ext h
  intro i hi
  simp only [initWord, configFields, getLsbD_fieldPut, decide_eq_true hi, Bool.and_true, getLsbD_canon h _ hi]
  have hold := ha i hi
  have hplain : ∀ f ∈ plainFields p.chep, inField f i = true → isToggle p.chep i = false ∧ isClear p.chep i = false := by
    intro f hf hfi
    have hpl := inField_plain hf hfi
    constructor
    · cases ht : isToggle p.chep i
      · rfl
      · rw [isPlain_of_isToggle h ht] at hpl; simp at hpl
    · cases hc : isClear p.chep i
      · rfl
      · rw [isPlain_of_isClear h hc] at hpl; simp at hpl
  have h1 := hplain (eaField p.chep) (by simp [plainFields])
  have h2 := hplain (epTypeField p.chep) (by simp [plainFields])
  have h3 := hplain (devaddrField p.chep) (by simp [plainFields])
  cases ht : isToggle p.chep i <;> cases hc : isClear p.chep i <;> cases hea : inField (eaField p.chep) i <;>
    cases hep : inField (epTypeField p.chep) i <;> cases hda : inField (devaddrField p.chep) i <;> simp_all

/-- The bits of kind P of every value the hardware makes are those of the value written (44_channel_register.md R190). -/
theorem hwWriteChep_kept {p : Params} (h : chepLayoutWf p.chep = true) (old w : Word32) : agreeKept p (hwWriteChep p old w) w := by
  intro i hi ht hc
  rw [getLsbD_hwWriteChep h _ _ hi, ht, hc]
  simp

/-- The status of a half after a hardware change of it. -/
theorem getStat_putStat {p : Params} (h : chepLayoutWf p.chep = true) (hf : Half) (v : Word32) (st : Status) :
    getStat p hf (putStat p hf v st) = st := by
  have hfit : (statField p.chep hf).lo + (statField p.chep hf).width ≤ 32 :=
    chepLayoutWf_fits h _ (by cases hf <;> simp [toggleFields])
  have hw : (statField p.chep hf).width = 2 := by cases hf <;> rfl
  rw [getStat, putStat, fieldGet_fieldPut _ _ _ hfit, hw]
  cases st <;> rfl

end Sys2Proof.Machine
end

