-- ==== Sys2Proof/Laws/Run.lean ====
section
/-! SUPPORT. Sequencing of accesses: how `Run.bind` computes, and how a relation between the states before and after a
sequence follows from its parts, whether or not a fault stops it. -/

namespace Sys2Proof.Machine

/-- The state a sequence leaves, whether or not a fault stopped it. -/
def Run.state {α : Type} : Run α → State
  | .ok _ s => s
  | .halt s => s

@[simp] theorem Run.bind_ok {α β : Type} (a : α) (s : State) (f : α → State → Run β) :
    (Run.ok a s).bind f = f a s := rfl

@[simp] theorem Run.bind_halt {α β : Type} (s : State) (f : α → State → Run β) :
    (Run.halt s : Run α).bind f = .halt s := rfl

@[simp] theorem Run.state_ok {α : Type} (a : α) (s : State) : (Run.ok a s).state = s := rfl

@[simp] theorem Run.state_halt {α : Type} (s : State) : (Run.halt s : Run α).state = s := rfl

@[simp] theorem Run.raise_state {α : Type} (r : Fault) (s : State) : (raise r s : Run α).state = raiseFault r s := rfl

@[simp] theorem Run.raise_bind {α β : Type} (r : Fault) (s : State) (f : α → State → Run β) :
    (raise r s : Run α).bind f = raise r s := rfl

theorem Run.bind_assoc {α β γ : Type} (r : Run α) (f : α → State → Run β) (g : β → State → Run γ) :
    (r.bind f).bind g = r.bind fun a s => (f a s).bind g := by
  cases r <;> rfl

/-- A sequence that goes on to its end goes through its first part. -/
theorem Run.bind_eq_ok {α β : Type} {r : Run α} {f : α → State → Run β} {b : β} {s' : State}
    (h : r.bind f = .ok b s') : ∃ a s, r = .ok a s ∧ f a s = .ok b s' := by
  cases r with
  | ok a s => exact ⟨a, s, rfl, h⟩
  | halt s => simp at h

/-- A transitive relation holds across a sequence when it holds across each part. -/
theorem Run.rel_bind {α β : Type} {R : State → State → Prop} {s : State} {r : Run α} {f : α → State → Run β}
    (trans : ∀ a b c, R a b → R b c → R a c) (first : R s r.state)
    (next : ∀ a s1, r = .ok a s1 → R s1 (f a s1).state) : R s (r.bind f).state := by
  cases r with
  | ok a s1 => exact trans _ _ _ first (next a s1 rfl)
  | halt s1 => exact first

/-- A property of the final state follows from the parts. -/
theorem Run.state_bind {α β : Type} {P : State → Prop} {r : Run α} {f : α → State → Run β}
    (halt : ∀ s, r = .halt s → P s) (next : ∀ a s, r = .ok a s → P (f a s).state) : P (r.bind f).state := by
  cases r with
  | ok a s => exact next a s rfl
  | halt s => exact halt s rfl

@[simp] theorem stateAfter_eq (r : Run Unit) : stateAfter r = r.state := by cases r <;> rfl

/-- A command that runs to its end gives a next state. -/
theorem runCommand_eq (s : State) (r : Run (List Part)) :
    runCommand s r = .next ((firstStep s.task r).bind fun ps s => finish (partsLeft ps) ps s).state := by
  simp only [runCommand]
  cases (firstStep s.task r).bind fun ps s => finish (partsLeft ps) ps s <;> rfl

/-- A point at which nobody steps changes nothing. -/
theorem taskPoint_nil {s : State} (h : s.slots = []) : taskPoint s = .ok () s := by
  simp [taskPoint, h]

/-- A point of a dispatcher invocation at which nobody steps changes nothing. -/
theorem envPoint_nil {s : State} (h : s.irqSlots = []) : envPoint s = .ok () s := by
  simp [envPoint, h]

end Sys2Proof.Machine
end

