-- ==== Sys2Proof/Laws/Tasks.lean ====
section
/-! SUPPORT. The task records and the wakers (10_state.md R55, R56, R59): what each update leaves, and that the task table
keeps its canonical form. -/

namespace Sys2Proof.Machine

theorem taskRec_congr {s s' : State} (h : s'.tasks = s.tasks) (t : Nat) : taskRec s' t = taskRec s t := by
  simp [taskRec, h]

theorem taskRec_putTask (s : State) (t : Nat) (r : TaskRec) (u : Nat) :
    taskRec (putTask s t r) u = if u = t then r else taskRec s u := by
  simp only [taskRec, putTask]
  by_cases hr : r = idleTask
  · rw [if_pos hr, mapLookup_mapErase]
    split
    · simp [hr]
    · rfl
  · rw [if_neg hr, mapLookup_mapInsert]
    split <;> rfl

theorem taskRec_setOp (t : Nat) (op : Option Op) (s : State) (u : Nat) :
    taskRec (setOp t op s) u = if u = t then { taskRec s t with op := op } else taskRec s u :=
  taskRec_putTask _ _ _ _

theorem taskRec_setWoken (t : Nat) (b : Bool) (s : State) (u : Nat) :
    taskRec (setWoken t b s) u = if u = t then { taskRec s t with woken := b } else taskRec s u :=
  taskRec_putTask _ _ _ _

/-- Setting an operation leaves every `woken` flag. -/
@[simp] theorem taskRec_setOp_woken (t : Nat) (op : Option Op) (s : State) (u : Nat) :
    (taskRec (setOp t op s) u).woken = (taskRec s u).woken := by
  rw [taskRec_setOp]
  split
  · subst_vars; rfl
  · rfl

theorem taskRec_setOp_op (t : Nat) (op : Option Op) (s : State) (u : Nat) :
    (taskRec (setOp t op s) u).op = if u = t then op else (taskRec s u).op := by
  rw [taskRec_setOp]
  split <;> rfl

/-- Setting a `woken` flag leaves every operation. -/
@[simp] theorem taskRec_setWoken_op (t : Nat) (b : Bool) (s : State) (u : Nat) :
    (taskRec (setWoken t b s) u).op = (taskRec s u).op := by
  rw [taskRec_setWoken]
  split
  · subst_vars; rfl
  · rfl

theorem taskRec_setWoken_woken (t : Nat) (b : Bool) (s : State) (u : Nat) :
    (taskRec (setWoken t b s) u).woken = if u = t then b else (taskRec s u).woken := by
  rw [taskRec_setWoken]
  split <;> rfl

/-! The slots. -/

theorem slotOf_congr {s s' : State} (h1 : s'.wakerIn = s.wakerIn) (h2 : s'.wakerOut = s.wakerOut)
    (h3 : s'.wakerBus = s.wakerBus) (sl : Slot) : slotOf s' sl = slotOf s sl := by
  cases sl with
  | chan c d => cases d <;> simp [slotOf, h1, h2]
  | bus => simp [slotOf, h3]

theorem slotOf_setSlot (s : State) (sl : Slot) (o : Option Nat) (sl' : Slot) :
    slotOf (setSlot s sl o) sl' = if sl' = sl then o else slotOf s sl' := by
  cases sl with
  | bus =>
    cases sl' with
    | bus => simp [slotOf, setSlot]
    | chan c d => cases d <;> simp [slotOf, setSlot]
  | chan c d =>
    cases sl' with
    | bus => cases d <;> simp [slotOf, setSlot]
    | chan c' d' =>
      cases d <;> cases d' <;> simp [slotOf, setSlot, Vector.getElem_set, Fin.val_inj, eq_comm]

theorem slotOf_putTask (s : State) (t : Nat) (r : TaskRec) (sl : Slot) : slotOf (putTask s t r) sl = slotOf s sl :=
  slotOf_congr rfl rfl rfl sl

@[simp] theorem slotOf_setOp (t : Nat) (op : Option Op) (s : State) (sl : Slot) :
    slotOf (setOp t op s) sl = slotOf s sl := slotOf_putTask _ _ _ _

@[simp] theorem slotOf_setWoken (t : Nat) (b : Bool) (s : State) (sl : Slot) :
    slotOf (setWoken t b s) sl = slotOf s sl := slotOf_putTask _ _ _ _

/-- A registration puts the task in the slot and nothing else (10_state.md R55). -/
theorem slotOf_register (sl : Slot) (t : Nat) (s : State) (sl' : Slot) :
    slotOf (register sl t s) sl' = if sl' = sl then some t else slotOf s sl' :=
  slotOf_setSlot _ _ _ _

@[simp] theorem taskRec_register (sl : Slot) (t : Nat) (s : State) (u : Nat) :
    taskRec (register sl t s) u = taskRec s u := taskRec_congr (by simp [register]) u

/-- A wake empties its slot and leaves the others (10_state.md R55). -/
theorem slotOf_wake (sl : Slot) (s : State) (sl' : Slot) :
    slotOf (wake sl s) sl' = if sl' = sl then none else slotOf s sl' := by
  simp only [wake]
  split
  · rename_i h
    split
    · subst_vars; exact h
    · rfl
  · rw [slotOf_setWoken, slotOf_setSlot]

/-- A wake sets its occupant's `woken` and leaves every other task (10_state.md R55). -/
theorem taskRec_wake (sl : Slot) (s : State) (u : Nat) :
    taskRec (wake sl s) u = if slotOf s sl = some u then { taskRec s u with woken := true } else taskRec s u := by
  simp only [wake]
  split
  · rename_i h
    simp [h]
  · rename_i t h
    rw [taskRec_setWoken]
    by_cases hu : u = t
    · subst hu
      rw [if_pos rfl, if_pos h, taskRec_congr (setSlot_tasks _ _ _)]
    · rw [if_neg hu, if_neg (by rw [h]; intro e; exact hu (Option.some.inj e).symm), taskRec_congr (setSlot_tasks _ _ _)]

@[simp] theorem taskRec_wake_op (sl : Slot) (s : State) (u : Nat) : (taskRec (wake sl s) u).op = (taskRec s u).op := by
  rw [taskRec_wake]; split <;> rfl

theorem taskRec_wake_woken (sl : Slot) (s : State) (u : Nat) :
    (taskRec (wake sl s) u).woken = (decide (slotOf s sl = some u) || (taskRec s u).woken) := by
  rw [taskRec_wake]; split <;> simp_all

/-! Which channel halves are busy. -/

/-- A half that is not busy carries no task's operation (46_engine.md R230). -/
theorem not_busy {s : State} {c : Chan} {d : Dir} (h : channelBusyAt s c d = false) {t : Nat} {op : Op}
    (ht : (taskRec s t).op = some op) : opChannel op ≠ some (c, d) := by
  intro hop
  simp only [channelBusyAt, List.any_eq_false] at h
  simp only [taskRec] at ht
  cases hl : mapLookup s.tasks t with
  | none => simp [hl, idleTask] at ht
  | some r =>
    rw [hl] at ht
    have := h _ (mem_of_mapLookup hl)
    simp only [Option.getD_some] at ht
    simp [ht, hop] at this

/-- A busy half carries some task's operation, in a table in canonical form. -/
theorem busy_iff {s : State} (hw : tasksWf s.tasks = true) (c : Chan) (d : Dir) :
    channelBusyAt s c d = true ↔ ∃ t op, (taskRec s t).op = some op ∧ opChannel op = some (c, d) := by
  constructor
  · intro h
    simp only [channelBusyAt, List.any_eq_true] at h
    obtain ⟨⟨t, r⟩, hm, hr⟩ := h
    simp only [tasksWf, Bool.and_eq_true] at hw
    have hl := mapLookup_of_mem hw.1 hm
    cases ho : r.op with
    | none => simp [ho] at hr
    | some op =>
      refine ⟨t, op, ?_, by simpa [ho] using hr⟩
      simp [taskRec, hl, ho]
  · rintro ⟨t, op, ht, hop⟩
    cases hb : channelBusyAt s c d
    · exact absurd hop (not_busy hb ht)
    · rfl

/-! The canonical form of the task table. -/

/-- Every update of a task record keeps the canonical form. -/
theorem tasksWf_putTask {s : State} {t : Nat} {r : TaskRec} (h : tasksWf s.tasks = true) :
    tasksWf (putTask s t r).tasks = true := by
  simp only [tasksWf, Bool.and_eq_true, putTask] at h ⊢
  split
  · exact ⟨risingFrom_mapErase _ _ _ h.1, all_mapErase _ _ _ h.2⟩
  · rename_i hr
    exact ⟨risingFrom_mapInsert _ _ _ _ h.1 (by omega), all_mapInsert _ _ _ _ h.2 (by simp [hr])⟩

theorem tasksWf_setOp {t : Nat} {op : Option Op} {s : State} (h : tasksWf s.tasks = true) :
    tasksWf (setOp t op s).tasks = true := tasksWf_putTask h

theorem tasksWf_setWoken {t : Nat} {b : Bool} {s : State} (h : tasksWf s.tasks = true) :
    tasksWf (setWoken t b s).tasks = true := tasksWf_putTask h

theorem tasksWf_wake {sl : Slot} {s : State} (h : tasksWf s.tasks = true) : tasksWf (wake sl s).tasks = true := by
  simp only [wake]
  split
  · exact h
  · exact tasksWf_setWoken (by simpa using h)

/-- The timer gives an idle task nothing, and leaves no listed task idle (60_exceptions.md R327). -/
theorem timerWake_op (now : Nat) (r : TaskRec) : (timerWake now r).op = r.op := by
  simp only [timerWake]; split <;> rfl

theorem timerWake_woken (now : Nat) (r : TaskRec) (h : r.woken = true) : (timerWake now r).woken = true := by
  simp only [timerWake]; split <;> simp_all

theorem timerWake_idle (now : Nat) : timerWake now idleTask = idleTask := by
  simp [timerWake, idleTask, opExpired]

theorem timerWake_ne_idle (now : Nat) (r : TaskRec) (h : r ≠ idleTask) : timerWake now r ≠ idleTask := by
  simp only [timerWake]
  split
  · intro e
    have := congrArg TaskRec.woken e
    simp [idleTask] at this
  · exact h

/-- What a clock tick makes of each task (60_exceptions.md R327). -/
theorem taskRec_tick (s : State) (t : Nat) :
    taskRec { s with now := s.now + 1, tasks := s.tasks.map fun e => (e.1, timerWake s.now e.2) } t =
      timerWake s.now (taskRec s t) := by
  simp only [taskRec, mapLookup_map]
  cases mapLookup s.tasks t with
  | none => simp [timerWake_idle]
  | some r => rfl

theorem tasksWf_tick {s : State} (h : tasksWf s.tasks = true) :
    tasksWf (s.tasks.map fun e => (e.1, timerWake s.now e.2)) = true := by
  simp only [tasksWf, Bool.and_eq_true] at h ⊢
  refine ⟨risingFrom_map _ _ _ h.1, ?_⟩
  simp only [List.all_map, List.all_eq_true, Function.comp, decide_eq_true_eq] at h ⊢
  exact fun e he => timerWake_ne_idle _ _ (h.2 e he)

end Sys2Proof.Machine
end

