-- ==== Sys2Proof/Laws/Quiet.lean ====
section
/-! SUPPORT. What the environment and the dispatcher can do, said once: `Quiet s s'` holds of every state they lead to,
through any number of their steps. -/

namespace Sys2Proof.Machine

/-- What no step of the peripheral, the clock or the dispatcher does. -/
structure Quiet (s s' : State) : Prop where
  params : s'.params = s.params
  alloc : s'.alloc = s.alloc
  htIn : s'.htIn = s.htIn
  htOut : s'.htOut = s.htOut
  task : s'.task = s.task
  data : s'.data = s.data
  timeout : s'.timeout = s.timeout
  inputs : s'.inputs = s.inputs
  slots : s'.slots = s.slots
  inProgress : s'.inProgress = s.inProgress
  out : s'.out = s.out
  now : s.now ≤ s'.now
  log : s.log <+: s'.log
  ops : ∀ t, (taskRec s' t).op = (taskRec s t).op
  woken : ∀ t, (taskRec s t).woken = true → (taskRec s' t).woken = true
  slot : ∀ sl t, slotOf s sl = some t → slotOf s' sl = some t ∨ (taskRec s' t).woken = true
  noRegister : ∀ sl t, slotOf s' sl = some t → slotOf s sl = some t
  kept : chepLayoutWf s.params.chep = true → ∀ c, agreeKept s.params (readChep s c) (readChep s' c)
  istr : ∀ i, s'.istr.getLsbD i = true → s.istr.getLsbD i = true ∨ (latchMask s.params).getLsbD i = true
  canonical : Canonical s → Canonical s'

theorem Quiet.refl (s : State) : Quiet s s where
  params := rfl
  alloc := rfl
  htIn := rfl
  htOut := rfl
  task := rfl
  data := rfl
  timeout := rfl
  inputs := rfl
  slots := rfl
  inProgress := rfl
  out := rfl
  now := Nat.le_refl _
  log := List.prefix_refl _
  ops := fun _ => rfl
  woken := fun _ h => h
  slot := fun _ _ h => .inl h
  noRegister := fun _ _ h => h
  kept := fun _ _ => agreeKept_refl _ _
  istr := fun _ h => .inl h
  canonical := fun h => h

theorem agreeKept_trans {p : Params} {a b c : Word32} (h1 : agreeKept p a b) (h2 : agreeKept p b c) :
    agreeKept p a c := fun i hi ht hc => (h1 i hi ht hc).trans (h2 i hi ht hc)

theorem Quiet.trans {a b c : State} (h1 : Quiet a b) (h2 : Quiet b c) : Quiet a c where
  params := h2.params.trans h1.params
  alloc := h2.alloc.trans h1.alloc
  htIn := h2.htIn.trans h1.htIn
  htOut := h2.htOut.trans h1.htOut
  task := h2.task.trans h1.task
  data := h2.data.trans h1.data
  timeout := h2.timeout.trans h1.timeout
  inputs := h2.inputs.trans h1.inputs
  slots := h2.slots.trans h1.slots
  inProgress := h2.inProgress.trans h1.inProgress
  out := h2.out.trans h1.out
  now := Nat.le_trans h1.now h2.now
  log := h1.log.trans h2.log
  ops := fun t => (h2.ops t).trans (h1.ops t)
  woken := fun t h => h2.woken t (h1.woken t h)
  slot := fun sl t h => by
    rcases h1.slot sl t h with h | h
    · exact h2.slot sl t h
    · exact .inr (h2.woken t h)
  noRegister := fun sl t h => h1.noRegister sl t (h2.noRegister sl t h)
  kept := fun h c => by
    have h2k := h2.kept (by rw [h1.params]; exact h) c
    rw [h1.params] at h2k
    exact agreeKept_trans (h1.kept h c) h2k
  istr := fun i h => by
    rcases h2.istr i h with h | h
    · exact h1.istr i h
    · rw [h1.params] at h; exact .inr h
  canonical := fun h => h2.canonical (h1.canonical h)

/-- The handle a channel half has is not changed. -/
theorem Quiet.handle {s s' : State} (h : Quiet s s') (c : Chan) (d : Dir) : handleAt s' c d = handleAt s c d := by
  cases d <;> simp [handleAt, h.htIn, h.htOut]

/-! The updates the environment and the dispatcher are made of. -/

theorem Quiet.raiseFault (r : Fault) (s : State) : Quiet s (raiseFault r s) := { Quiet.refl s with
  canonical := fun h => ⟨h.params, h.pma, h.tasks, h.progress⟩ }

theorem Quiet.appendLog (s : State) (e : LogEntry) : Quiet s (appendLog s e) := { Quiet.refl s with
  log := List.prefix_append _ _
  canonical := fun h => ⟨h.params, h.pma, h.tasks, h.progress⟩ }

theorem Quiet.nextDraw (s : State) : Quiet s (nextDraw s) := { Quiet.refl s with
  canonical := fun h => ⟨h.params, h.pma, h.tasks, h.progress⟩ }

theorem Quiet.setIrqSlots (s : State) (x : List (List EnvStep)) : Quiet s { s with irqSlots := x } := { Quiet.refl s with
  canonical := fun h => ⟨h.params, h.pma, h.tasks, h.progress⟩ }

theorem Quiet.setErrChan (c : Chan) (s : State) : Quiet s (setErrChan c s) := { Quiet.refl s with
  canonical := fun h => ⟨h.params, h.pma, h.tasks, h.progress⟩ }

theorem Quiet.setConnected (b : Bool) (s : State) : Quiet s { s with connected := b } := { Quiet.refl s with
  canonical := fun h => ⟨h.params, h.pma, h.tasks, h.progress⟩ }

/-- A register's content after one is replaced. -/
theorem readChep_setChep (s : State) (c : Chan) (v : Word32) (c' : Chan) :
    readChep (setChep s c v) c' = if c' = c then v else readChep s c' := by
  change (s.chep.set c.val v c.isLt)[c'.val] = if c' = c then v else s.chep[c'.val]
  rw [Vector.getElem_set]
  by_cases e : c' = c
  · subst e; simp
  · rw [if_neg e, if_neg (fun h => e (Fin.ext h.symm))]

theorem Quiet.setChep (s : State) (c : Chan) (v : Word32)
    (h : chepLayoutWf s.params.chep = true → agreeKept s.params (readChep s c) v) : Quiet s (setChep s c v) :=
  { Quiet.refl s with
    kept := fun hl c' => by
      rw [readChep_setChep]
      split
      · subst_vars; exact h hl
      · exact agreeKept_refl _ _
    canonical := fun h => ⟨h.params, h.pma, h.tasks, h.progress⟩ }

theorem Quiet.writeChep (agent : Agent) (c : Chan) (w : Word32) (s : State)
    (h : chepLayoutWf s.params.chep = true → agreeKept s.params (readChep s c) (hwWriteChep s.params (readChep s c) w)) :
    Quiet s (writeChep agent c w s) :=
  (Quiet.setChep s c _ h).trans (Quiet.appendLog _ _)

/-- A write of `ISTR` sets nothing (45_dispatcher.md R210). -/
theorem getLsbD_hwWriteIstr (p : Params) (old w : Word32) (i : Nat) (h : (hwWriteIstr p old w).getLsbD i = true) :
    old.getLsbD i = true := by
  simp only [hwWriteIstr] at h
  cases hp : p.istrPolarity <;> simp only [hp, BitVec.getLsbD_or, BitVec.getLsbD_and] at h <;>
    cases ho : old.getLsbD i <;> simp_all

theorem Quiet.writeIstr (agent : Agent) (w : Word32) (s : State) : Quiet s (writeIstr agent w s) :=
  { Quiet.refl s with
    log := List.prefix_append _ _
    istr := fun _ h => .inl (getLsbD_hwWriteIstr _ _ _ _ h)
    canonical := fun h => ⟨h.params, h.pma, h.tasks, h.progress⟩ }

theorem Quiet.latchIstr (bit : Nat) (s : State)
    (h : ∀ i, (bitAt bit).getLsbD i = true → (latchMask s.params).getLsbD i = true) : Quiet s (latchIstr bit s) :=
  { Quiet.refl s with
    istr := fun i hi => by
      rw [latchIstr_istr, BitVec.getLsbD_or, Bool.or_eq_true] at hi
      exact hi.imp id (h i)
    canonical := fun h => ⟨h.params, h.pma, h.tasks, h.progress⟩ }

theorem Quiet.pokePma (s : State) (a : Nat) (bs : List Byte)
    (h : paramsWf s.params = true → a + bs.length ≤ s.params.pmaBytes) : Quiet s (pokePma s a bs) :=
  { Quiet.refl s with
    canonical := fun hc => ⟨hc.params, pmaWf_storeBytes hc.pma (h hc.params), hc.tasks, hc.progress⟩ }

theorem Quiet.wake (sl : Slot) (s : State) : Quiet s (wake sl s) where
  params := wake_params sl s
  alloc := wake_alloc sl s
  htIn := wake_htIn sl s
  htOut := wake_htOut sl s
  task := wake_task sl s
  data := wake_data sl s
  timeout := wake_timeout sl s
  inputs := wake_inputs sl s
  slots := wake_slots sl s
  inProgress := wake_inProgress sl s
  out := wake_out sl s
  now := Nat.le_of_eq (wake_now sl s).symm
  log := by rw [wake_log]
  ops := taskRec_wake_op sl s
  woken := fun t h => by rw [taskRec_wake_woken, h, Bool.or_true]
  slot := fun sl' t h => by
    rw [slotOf_wake, taskRec_wake_woken]
    by_cases e : sl' = sl
    · subst e; right; simp [h]
    · left; rw [if_neg e]; exact h
  noRegister := fun sl' t h => by
    rw [slotOf_wake] at h
    split at h
    · cases h
    · exact h
  kept := fun _ c => by
    rw [show readChep (Machine.wake sl s) c = readChep s c by simp [readChep]]
    exact agreeKept_refl _ _
  istr := fun i h => by rw [wake_istr] at h; exact .inl h
  canonical := fun h => ⟨by rw [wake_params]; exact h.params, by rw [wake_params, wake_pma]; exact h.pma, tasksWf_wake h.tasks,
    by rw [wake_inProgress]; exact h.progress⟩

theorem Quiet.tick (s : State) :
    Quiet s { s with now := s.now + 1, tasks := s.tasks.map fun e => (e.1, timerWake s.now e.2) } :=
  { Quiet.refl s with
    now := Nat.le_succ _
    ops := fun t => by rw [taskRec_tick, timerWake_op]
    woken := fun t h => by rw [taskRec_tick]; exact timerWake_woken _ _ h
    slot := fun sl t h => .inl h
    noRegister := fun _ _ h => h
    kept := fun _ _ => agreeKept_refl _ _
    canonical := fun h => ⟨h.params, h.pma, tasksWf_tick h.tasks, h.progress⟩ }

/-! Runs of accesses. -/

/-- A run that leads only where the environment and the dispatcher lead; a fault is set exactly when it stops. -/
structure QuietRun {α : Type} (s : State) (r : Run α) : Prop where
  quiet : Quiet s r.state
  ok : ∀ a s', r = .ok a s' → s'.fault = s.fault
  halt : ∀ s', r = .halt s' → s'.fault ≠ none

theorem QuietRun.of_ok {α : Type} {s s' : State} (a : α) (h : Quiet s s') (hf : s'.fault = s.fault) :
    QuietRun s (.ok a s' : Run α) :=
  ⟨h, fun _ _ e => by cases e; exact hf, fun _ e => by cases e⟩

theorem QuietRun.raise {α : Type} (r : Fault) (s : State) : QuietRun s (raise r s : Run α) :=
  ⟨Quiet.raiseFault r s, fun _ _ e => (by cases e), fun _ e => by cases e; simp⟩

theorem QuietRun.bind {α β : Type} {s : State} {r : Run α} {f : α → State → Run β} (h : QuietRun s r)
    (hf : ∀ a s1, r = .ok a s1 → QuietRun s1 (f a s1)) : QuietRun s (r.bind f) := by
  cases r with
  | ok a s1 =>
    have h1 := hf a s1 rfl
    have h0 := h.ok a s1 rfl
    exact ⟨h.quiet.trans h1.quiet, fun b s2 e => (h1.ok b s2 e).trans h0, h1.halt⟩
  | halt s1 => exact ⟨h.quiet, fun _ _ e => (by cases e), fun s2 e => by cases e; exact h.halt s1 rfl⟩

/-- A run from a state the environment or the dispatcher led to. -/
theorem QuietRun.after {α : Type} {s s1 : State} {r : Run α} (h : Quiet s s1) (hf : s1.fault = s.fault)
    (hr : QuietRun s1 r) : QuietRun s r :=
  ⟨h.trans hr.quiet, fun a s' e => (hr.ok a s' e).trans hf, hr.halt⟩

end Sys2Proof.Machine
end

