-- ==== Sys2Proof/Laws/Agents.lean ====
section
/-! SUPPORT. Every step of the environment and every dispatcher invocation is a `QuietRun`: the lemmas the claims about the
interleaving cite. -/

namespace Sys2Proof.Machine

/-! Register changes that keep every bit of kinds RW and P. -/

theorem agreeKept_fieldPut {p : Params} (f : Field) (v x : Word32)
    (h : ∀ i, inField f i = true → isToggle p.chep i = true ∨ isClear p.chep i = true) :
    agreeKept p v (fieldPut f v x) := by
  intro i hi ht hc
  rw [getLsbD_fieldPut]
  cases hf : inField f i
  · simp
  · rcases h i hf with h | h <;> simp_all

theorem inField_dtogField {l : ChepLayout} (hf : Half) {i : Nat} (h : inField (dtogField l hf) i = true) :
    isToggle l i = true := by
  simp only [isToggle, toggleFields, List.any_cons, Bool.or_eq_true]
  cases hf <;> simp [h]

theorem agreeKept_setCtr (p : Params) (hf : Half) (v : Word32) : agreeKept p v (setCtr p hf v) :=
  agreeKept_fieldPut _ _ _ fun _ h => .inr (inField_ctrField hf h)

theorem agreeKept_setErr (p : Params) (hf : Half) (v : Word32) : agreeKept p v (setErr p hf v) :=
  agreeKept_fieldPut _ _ _ fun _ h => .inr (inField_errField hf h)

theorem agreeKept_putStat (p : Params) (hf : Half) (v : Word32) (st : Status) : agreeKept p v (putStat p hf v st) :=
  agreeKept_fieldPut _ _ _ fun _ h => .inl (inField_statField hf h)

theorem agreeKept_putDtog (p : Params) (hf : Half) (v : Word32) (b : Bool) : agreeKept p v (putDtog p hf v b) :=
  agreeKept_fieldPut _ _ _ fun _ h => .inl (inField_dtogField hf h)

theorem agreeKept_raiseCtrIf (p : Params) (hf : Half) (b : Bool) (v : Word32) : agreeKept p v (raiseCtrIf p hf b v) := by
  simp only [raiseCtrIf]
  split
  · exact agreeKept_setCtr _ _ _
  · exact agreeKept_refl _ _

/-- Clearing flags changes no bit of kinds RW and P. -/
theorem agreeKept_clear (p : Params) (field : ChepLayout → Half → Field)
    (hk : ∀ hf i, inField (field p.chep hf) i = true → isClear p.chep i = true) (fs : FlagSet) (v : Word32) :
    agreeKept p v (v &&& ~~~ clearedBits p field fs) := by
  intro i hi ht hc
  rw [BitVec.getLsbD_and, BitVec.getLsbD_not, getLsbD_clearedBits p field fs hi]
  have h1 : inField (field p.chep .rx) i = false := by
    cases h : inField (field p.chep .rx) i
    · rfl
    · rw [hk .rx i h] at hc; cases hc
  have h2 : inField (field p.chep .tx) i = false := by
    cases h : inField (field p.chep .tx) i
    · rfl
    · rw [hk .tx i h] at hc; cases hc
  simp [h1, h2, hi]

theorem agreeKept_symm {p : Params} {a b : Word32} (h : agreeKept p a b) : agreeKept p b a :=
  fun i hi ht hc => (h i hi ht hc).symm

/-! The environment's steps. -/

theorem Quiet.hwSetChep (c : Chan) (f : Word32 → Word32) (s : State) (h : ∀ v, agreeKept s.params v (f v)) :
    Quiet s (hwSetChep c f s) := Quiet.setChep s c _ fun _ => h _

theorem Quiet.endTransaction (c : Chan) (hf : Half) (st : Status) (s : State) : Quiet s (endTransaction c hf st s) :=
  Quiet.hwSetChep c _ s fun _ => agreeKept_trans (agreeKept_putStat _ _ _ _) (agreeKept_setCtr _ _ _)

theorem descTable_le {s : State} (h : paramsWf s.params = true) : descTableBytes ≤ s.params.pmaBytes := by
  simp only [paramsWf, Bool.and_eq_true, decide_eq_true_eq] at h
  exact h.1.1.1.2

theorem Quiet.setCountRx (c : Chan) (n : Nat) (s : State) : Quiet s (setCountRx c n s) :=
  Quiet.pokePma _ _ _ fun h => by
    have h1 := descTable_le h
    have h2 := c.isLt
    simp only [descTableBytes, leBytes_length] at h1 ⊢
    omega

theorem QuietRun.envStore (a : Nat) (bs : List Byte) (s : State) : QuietRun s (envStore a bs s) := by
  induction bs generalizing a s with
  | nil => exact QuietRun.of_ok () (Quiet.refl s) rfl
  | cons b rest ih =>
    simp only [Machine.envStore]
    split
    · exact QuietRun.raise _ _
    · exact QuietRun.after (Quiet.pokePma s a [b] fun _ => by simp; omega) rfl (ih _ _)

theorem QuietRun.envRxData (c : Chan) (payload pad : List Byte) (dtog : Bool) (s : State) :
    QuietRun s (envRxData c payload pad dtog s) := by
  refine (QuietRun.envStore _ _ _).bind fun _ s1 _ => ?_
  refine QuietRun.of_ok () ?_ (by simp)
  refine Quiet.trans (Quiet.setCountRx c payload.length s1) (Quiet.trans (Quiet.endTransaction c .rx .disabled _) ?_)
  exact (Quiet.hwSetChep c _ _ fun _ => agreeKept_putDtog _ _ _ _).trans (Quiet.appendLog _ _)

theorem QuietRun.envNak (c : Chan) (hf : Half) (raise : Bool) (e : LogEntry) (s : State) :
    QuietRun s (envNak c hf raise e s) :=
  QuietRun.of_ok () ((Quiet.hwSetChep c _ s fun _ =>
    agreeKept_trans (agreeKept_putStat _ _ _ _) (agreeKept_raiseCtrIf _ _ _ _)).trans (Quiet.appendLog _ _)) (by simp)

theorem QuietRun.envStall (c : Chan) (hf : Half) (e : LogEntry) (s : State) : QuietRun s (envStall c hf e s) :=
  QuietRun.of_ok () ((Quiet.endTransaction c hf .stall s).trans (Quiet.appendLog _ _)) (by simp)

theorem latchMask_dcon (p : Params) (i : Nat) (h : (bitAt p.istr.dcon).getLsbD i = true) :
    (latchMask p).getLsbD i = true := by simp only [latchMask, BitVec.getLsbD_or, h, Bool.true_or]

theorem latchMask_err (p : Params) (i : Nat) (h : (bitAt p.istr.err).getLsbD i = true) :
    (latchMask p).getLsbD i = true := by simp only [latchMask, BitVec.getLsbD_or, h, Bool.true_or, Bool.or_true]

theorem latchMask_pmaovr (p : Params) (i : Nat) (h : (bitAt p.istr.pmaovr).getLsbD i = true) :
    (latchMask p).getLsbD i = true := by simp only [latchMask, BitVec.getLsbD_or, h, Bool.or_true]

theorem QuietRun.envError (c : Chan) (hf : Half) (scribble : List Byte) (s : State) :
    QuietRun s (envError c hf scribble s) := by
  have h1 := Quiet.hwSetChep c (fun v => setErr s.params hf v) s fun _ => agreeKept_setErr _ _ _
  have h2 := Quiet.latchIstr (hwSetChep c (fun v => setErr s.params hf v) s).params.istr.err _ (latchMask_err _)
  refine QuietRun.bind (QuietRun.after (h1.trans (h2.trans (Quiet.setErrChan c _))) (by simp) (QuietRun.envStore _ _ _))
    fun _ s1 _ => QuietRun.of_ok () (Quiet.appendLog _ _) (by simp)

theorem QuietRun.envFetch (a k : Nat) (s : State) : QuietRun s (envFetch a k s) := by
  simp only [Machine.envFetch]
  split
  · exact QuietRun.raise _ _
  · exact QuietRun.of_ok _ (Quiet.refl s) rfl

theorem QuietRun.envTxData (c : Chan) (dtog : Bool) (s : State) : QuietRun s (envTxData c dtog s) := by
  refine (QuietRun.envFetch _ _ s).bind fun b s1 _ => ?_
  refine QuietRun.of_ok () ?_ (by simp)
  exact (Quiet.endTransaction c .tx .disabled s1).trans
    ((Quiet.hwSetChep c _ _ fun _ => agreeKept_putDtog _ _ _ _).trans (Quiet.appendLog _ _))

theorem QuietRun.envConnectChange (s : State) : QuietRun s (envConnectChange s) :=
  QuietRun.of_ok () ((Quiet.setConnected (!s.connected) s).trans
    ((Quiet.latchIstr s.params.istr.dcon { s with connected := !s.connected } (latchMask_dcon s.params)).trans
      (Quiet.appendLog _ _))) (by simp)

theorem QuietRun.envOverrun (c : Chan) (scribble : List Byte) (s : State) : QuietRun s (envOverrun c scribble s) := by
  have h2 := Quiet.latchIstr s.params.istr.pmaovr s (latchMask_pmaovr _)
  refine QuietRun.bind (QuietRun.after (h2.trans (Quiet.setErrChan c _)) (by simp) (QuietRun.envStore _ _ _))
    fun _ s1 _ => QuietRun.of_ok () (Quiet.appendLog _ _) (by simp)

theorem QuietRun.envTick (s : State) : QuietRun s (envTick s) := QuietRun.of_ok () (Quiet.tick s) rfl

theorem QuietRun.envPerform (e : EnvStep) (s : State) : QuietRun s (envPerform e s) := by
  cases e with
  | rxData c payload pad dtog => exact QuietRun.envRxData c payload pad dtog s
  | rxNak c raise => exact QuietRun.envNak c .rx raise _ s
  | rxStall c => exact QuietRun.envStall c .rx _ s
  | error c h scribble => exact QuietRun.envError c h scribble s
  | txData c dtog => exact QuietRun.envTxData c dtog s
  | txNak c raise => exact QuietRun.envNak c .tx raise _ s
  | txStall c => exact QuietRun.envStall c .tx _ s
  | connectChange => exact QuietRun.envConnectChange s
  | overrun c scribble => exact QuietRun.envOverrun c scribble s
  | tick => exact QuietRun.envTick s

/-- A step of the environment (48_peripheral.md R275, R289). -/
theorem QuietRun.envStep (e : EnvStep) (s : State) : QuietRun s (envStep e s) := by
  simp only [Machine.envStep]
  split
  · exact QuietRun.envPerform e s
  · exact QuietRun.of_ok () (Quiet.refl s) rfl

theorem QuietRun.envSteps (es : List EnvStep) (s : State) : QuietRun s (envSteps es s) := by
  induction es generalizing s with
  | nil => exact QuietRun.of_ok () (Quiet.refl s) rfl
  | cons e rest ih => exact (QuietRun.envStep e s).bind fun _ s1 _ => ih s1

/-- A point between two accesses of a dispatcher invocation. -/
theorem QuietRun.envPoint (s : State) : QuietRun s (envPoint s) := by
  simp only [Machine.envPoint]
  split
  · exact QuietRun.of_ok () (Quiet.refl s) rfl
  · rename_i es rest _
    exact QuietRun.after (Quiet.setIrqSlots s rest) rfl (QuietRun.envSteps _ _)

/-! The dispatcher. -/

theorem QuietRun.dispatchBus (i : IstrRead) (s : State) : QuietRun s (dispatchBus i s) := by
  simp only [Machine.dispatchBus]
  split
  · exact (QuietRun.envPoint s).bind fun _ s1 _ =>
      QuietRun.of_ok () ((Quiet.writeIstr _ _ s1).trans (Quiet.wake _ _)) (by simp)
  · exact QuietRun.of_ok () (Quiet.refl s) rfl

theorem Quiet.wakeFlags (c : Chan) (fs : FlagSet) (s : State) : Quiet s (wakeFlags c fs s) := by
  simp only [Machine.wakeFlags]
  cases fs.rx <;> cases fs.tx <;> simp only [Bool.false_eq_true, if_false, if_true]
  · exact Quiet.refl s
  · exact Quiet.wake _ s
  · exact Quiet.wake _ s
  · exact (Quiet.wake _ s).trans (Quiet.wake _ _)

/-- A flag-clearing write computed from an earlier read (44_channel_register.md R198). -/
theorem Quiet.writeClrerr {agent : Agent} {c : Chan} {fs : FlagSet} {cur : Word32} {s : State}
    (h : chepLayoutWf s.params.chep = true → agreeKept s.params cur (readChep s c)) :
    Quiet s (Machine.writeChep agent c (clrerrWord s.params cur fs) s) :=
  Quiet.writeChep _ _ _ _ fun hl => by
    rw [hwWriteChep_clrerrWord hl fs (h hl)]
    exact agreeKept_clear _ _ (fun hf i => inField_errField hf) _ _

theorem Quiet.writeClrctr {agent : Agent} {c : Chan} {fs : FlagSet} {cur : Word32} {s : State}
    (h : chepLayoutWf s.params.chep = true → agreeKept s.params cur (readChep s c)) :
    Quiet s (Machine.writeChep agent c (clrctrWord s.params cur fs) s) :=
  Quiet.writeChep _ _ _ _ fun hl => by
    rw [hwWriteChep_clrctrWord hl fs (h hl)]
    exact agreeKept_clear _ _ (fun hf i => inField_ctrField hf) _ _

theorem Quiet.writeCanon {agent : Agent} {c : Chan} {cur : Word32} {s : State}
    (h : chepLayoutWf s.params.chep = true → agreeKept s.params cur (readChep s c)) :
    Quiet s (Machine.writeChep agent c (canon s.params cur) s) :=
  Quiet.writeChep _ _ _ _ fun hl => by
    rw [hwWriteChep_canon hl (h hl)]
    exact agreeKept_refl _ _

theorem Quiet.writeSetstat {agent : Agent} {c : Chan} {hf : Half} {target : Status} {cur : Word32} {s : State}
    (h : chepLayoutWf s.params.chep = true → agreeKept s.params cur (readChep s c)) :
    Quiet s (Machine.writeChep agent c (setstatWord s.params hf cur target) s) :=
  Quiet.writeChep _ _ _ _ fun hl => by
    rw [hwWriteChep_setstatWord hl hf target (h hl)]
    exact agreeKept_fieldPut _ _ _ fun _ h => .inl (inField_statField hf h)

/-- What an earlier read of a register still says of its bits of kinds RW and P. -/
theorem Quiet.readKept {s s1 : State} (h : Quiet s s1) (c : Chan) :
    chepLayoutWf s1.params.chep = true → agreeKept s1.params (readChep s c) (readChep s1 c) := by
  rw [h.params]
  exact fun hl => h.kept hl c

theorem QuietRun.dispatchErrFlags (c : Chan) (v : Word32) (s : State)
    (h : chepLayoutWf s.params.chep = true → agreeKept s.params v (readChep s c)) :
    QuietRun s (dispatchErrFlags c v s) := by
  simp only [Machine.dispatchErrFlags]
  split
  · refine QuietRun.after (Quiet.appendLog s _) rfl ((QuietRun.envPoint _).bind fun _ s1 e => ?_)
    have hq := (QuietRun.envPoint (appendLog s (.errFlags c (errFlagsOf s.params v)))).quiet
    rw [e] at hq
    have hq2 : Quiet s s1 := (Quiet.appendLog s _).trans hq
    refine QuietRun.of_ok () (Quiet.writeClrerr fun hl => ?_) (by simp)
    have hk := hq2.readKept c hl
    rw [hq2.params] at hl hk ⊢
    exact agreeKept_trans (h hl) hk
  · exact QuietRun.of_ok () (Quiet.refl s) rfl

theorem QuietRun.dispatchComplete (i : IstrRead) (s : State) : QuietRun s (dispatchComplete i s) := by
  simp only [Machine.dispatchComplete]
  split
  · refine (QuietRun.envPoint s).bind fun _ s1 _ => ?_
    have hr := QuietRun.dispatchErrFlags i.idn (readChep s1 i.idn) s1 fun _ => agreeKept_refl _ _
    refine hr.bind fun _ s2 e2 => ?_
    have hq2 := hr.quiet
    rw [e2] at hq2
    have hp := QuietRun.envPoint s2
    refine hp.bind fun _ s3 e3 => ?_
    have hq3 := hp.quiet
    rw [e3] at hq3
    have hq := Quiet.trans hq2 hq3
    refine QuietRun.of_ok () ((Quiet.writeClrctr fun hl => hq.readKept _ hl).trans (Quiet.wakeFlags _ _ _)) (by simp)
  · exact QuietRun.of_ok () (Quiet.refl s) rfl

theorem QuietRun.dispatchError (i : IstrRead) (s : State) : QuietRun s (dispatchError i s) := by
  simp only [Machine.dispatchError]
  split
  · refine (QuietRun.envPoint s).bind fun _ s1 _ => ?_
    refine QuietRun.after (Quiet.writeIstr _ _ s1) rfl ((QuietRun.envPoint _).bind fun _ s2 _ => ?_)
    have hp := QuietRun.envPoint s2
    refine hp.bind fun _ s3 e3 => ?_
    have hq := hp.quiet
    rw [e3] at hq
    exact QuietRun.of_ok () (Quiet.writeCanon fun hl => hq.readKept _ hl) (by simp)
  · exact QuietRun.of_ok () (Quiet.refl s) rfl

theorem QuietRun.dispatchAck (i : IstrRead) (s : State) : QuietRun s (dispatchAck i s) := by
  simp only [Machine.dispatchAck]
  split
  · exact QuietRun.of_ok () (Quiet.refl s) rfl
  · exact (QuietRun.envPoint s).bind fun _ s1 _ => QuietRun.of_ok () (Quiet.writeIstr _ _ s1) rfl

/-- A dispatcher invocation (45_dispatcher.md R211, R221). -/
theorem QuietRun.dispatch (s : State) : QuietRun s (dispatch s) :=
  QuietRun.after (Quiet.nextDraw s) rfl <| (QuietRun.dispatchBus _ _).bind fun _ s1 _ =>
    (QuietRun.dispatchComplete _ s1).bind fun _ s2 _ =>
    (QuietRun.dispatchError _ s2).bind fun _ s3 _ => QuietRun.dispatchAck _ s3

/-- A dispatcher invocation as an event (20_memory.md R89), or a step of the environment. -/
theorem QuietRun.irqEvent (busy : Option Nat) (between : List (List EnvStep)) (s : State) :
    QuietRun s (eventStep busy (.irq between) s) :=
  QuietRun.after (Quiet.setIrqSlots s between) rfl ((QuietRun.dispatch _).bind fun _ s1 _ =>
    QuietRun.of_ok () (Quiet.setIrqSlots s1 []) rfl)

theorem QuietRun.envEvent (busy : Option Nat) (e : EnvStep) (s : State) : QuietRun s (eventStep busy (.env e) s) :=
  QuietRun.envStep e s

end Sys2Proof.Machine
end

