-- ==== Sys2Proof/Laws/Operations.lean ====
section
/-! SUPPORT. What each step of a task's command can do, said once per operation: the accesses, what a task does on its own
after one, and the first steps of the commands. -/

namespace Sys2Proof.Machine

/-! Numbers. -/

theorem granBytes_pos (g : Gran) : 0 < granBytes g := by cases g <;> decide

theorem ceilDiv_mul_ge (a b : Nat) (h : 0 < b) : a ≤ ceilDiv a b * b := by
  simp only [ceilDiv]
  have := Nat.div_add_mod (a + b - 1) b
  have := Nat.mod_lt (a + b - 1) h
  rw [Nat.mul_comm]
  omega

theorem roundup_mod (a b : Nat) : roundup a b % b = 0 := by simp [roundup]

/-- The length code's two forms (42_descriptor.md R160). -/
theorem encLength_small (p : Params) (len : Nat) (h1 : 2 ≤ len) (h2 : len ≤ 60) :
    encLength p len = some (BitVec.ofNat 16 (roundup len (smallAlignBytes p) / 2) <<< 10) := by
  have hm : maxDescLen = 1024 := rfl
  simp only [encLength]
  rw [if_neg (by omega), if_pos h2]

theorem encLength_large (p : Params) (len : Nat) (h1 : 61 ≤ len) (h2 : len ≤ 1024) :
    encLength p len = some ((BitVec.ofNat 16 (ceilDiv len 32 - 1) <<< 10) ||| 0x8000#16) := by
  have hm : maxDescLen = 1024 := rfl
  simp only [encLength]
  rw [if_neg (by omega), if_neg (by omega)]

/-! Accesses that change at most packet memory. -/

theorem QuietRun.memRead (a n : Nat) (s : State) : QuietRun s (memRead a n s) := by
  rcases memRead_cases a n s with ⟨h, _, _⟩ | ⟨r, h⟩
  · rw [h]; exact QuietRun.of_ok _ (Quiet.refl s) rfl
  · rw [h]; exact QuietRun.raise _ _

theorem QuietRun.memWrite (a n v : Nat) (s : State) : QuietRun s (memWrite a n v s) := by
  rcases memWrite_cases a n v s with ⟨h, _, h2⟩ | ⟨r, h⟩
  · rw [h]; exact QuietRun.of_ok _ (Quiet.pokePma s a _ fun _ => by simpa using h2) rfl
  · rw [h]; exact QuietRun.raise _ _

theorem QuietRun.encOrFault (len : Nat) (s : State) : QuietRun s (encOrFault len s) := by
  simp only [Machine.encOrFault]
  split
  · exact QuietRun.of_ok _ (Quiet.refl s) rfl
  · exact QuietRun.raise _ _

/-- All that `MemWrite` as a step can do: nothing is left to do of it. -/
theorem storeStep_cases (a n v : Nat) (s : State) :
    (storeStep a n v s = .ok [] (pokePma s a (leBytes n v)) ∧ a % n = 0 ∧ a + n ≤ s.params.pmaBytes) ∨
    ∃ r, storeStep a n v s = raise r s := by
  rcases memWrite_cases a n v s with ⟨h, h1⟩ | ⟨r, h⟩
  · exact .inl ⟨by simp [storeStep, h], h1⟩
  · exact .inr ⟨r, by simp [storeStep, h]⟩

/-- All that the load of one word can do. -/
theorem loadStep_cases (off k todo n : Nat) (got : List Byte) (purpose : ReadFor) (s : State) :
    (∃ w, loadStep off k todo n got purpose s =
      .ok (loadParts off (k + 1) (todo - 1) n (got ++ leBytes (granBytes s.params.gran) w) purpose) s) ∨
    ∃ r, loadStep off k todo n got purpose s = raise r s := by
  rcases memRead_cases (off + k * granBytes s.params.gran) (granBytes s.params.gran) s with ⟨h, _⟩ | ⟨r, h⟩
  · exact .inl ⟨leNat (pmaBytesAt s (off + k * granBytes s.params.gran) (granBytes s.params.gran)),
      by simp only [loadStep, h, Run.bind_ok]⟩
  · exact .inr ⟨r, by simp [loadStep, h]⟩

/-- The received count fits its ten bits and reading it changes nothing (42_descriptor.md R164). -/
theorem rxLen_cases (c : Chan) (s : State) :
    (∃ n, rxLen c s = .ok n s ∧ n ≤ 1023) ∨ ∃ r, rxLen c s = raise r s := by
  have hc : ∀ v, countOf v ≤ 1023 := fun v => by
    simp only [countOf]
    have : v % 2 ^ rxCountBits < 1024 := Nat.mod_lt _ (by decide)
    omega
  simp only [rxLen]
  cases s.params.gran with
  | two =>
    rcases memRead_cases (8 * c.val + 6) 2 s with ⟨h, _⟩ | ⟨r, h⟩
    · exact .inl ⟨_, by simp only [h, Run.bind_ok]; exact ⟨rfl, hc _⟩⟩
    · exact .inr ⟨r, by simp [h]⟩
  | four =>
    rcases memRead_cases (8 * c.val + 4) 4 s with ⟨h, _⟩ | ⟨r, h⟩
    · exact .inl ⟨_, by simp only [h, Run.bind_ok]; exact ⟨rfl, hc _⟩⟩
    · exact .inr ⟨r, by simp [h]⟩

/-! The allocator. -/

/-- All that `PM.ALLOC` can do (41_allocator.md R150). -/
theorem pmAlloc_cases (n : Nat) (s : State) :
    (∃ r, pmAlloc n s = raise r s) ∨ pmAlloc n s = .ok none s ∨
    (pmAlloc n s = .ok (some ⟨s.alloc.free, n⟩) { s with alloc := { s.alloc with free := s.alloc.free + n } } ∧
      n % granBytes s.params.gran = 0 ∧ s.alloc.free + n ≤ s.params.pmaBytes) := by
  simp only [pmAlloc]
  split
  · exact .inl ⟨_, rfl⟩
  · split
    · exact .inr (.inl rfl)
    · exact .inr (.inr ⟨rfl, by omega, by omega⟩)

/-- An admitted packet size has a region size, a multiple of `GRAN`, and computing it changes nothing
(47_lifecycle.md R261). -/
theorem regionSize_ok {d : Dir} {mps : Nat} (h : mpsInDomain d mps = true) (s : State) :
    ∃ size, regionSize d mps s = .ok size s ∧ size % granBytes s.params.gran = 0 := by
  cases d with
  | dirOut => exact ⟨_, rfl, roundup_mod _ _⟩
  | dirIn =>
    simp only [mpsInDomain, Bool.and_eq_true, decide_eq_true_eq] at h
    have hm : maxDescLen = 1024 := rfl
    have henc : ∃ code, encLength s.params mps = some code := by
      by_cases h60 : mps ≤ 60
      · exact ⟨_, encLength_small _ _ h.1 h60⟩
      · exact ⟨_, encLength_large _ _ (by omega) (by omega)⟩
    obtain ⟨code, hc⟩ := henc
    exact ⟨roundup (decCode code) (granBytes s.params.gran), by simp [regionSize, encOrFault, hc], roundup_mod _ _⟩

/-- The state of a claim that has marked its index and allocated `size` bytes (47_lifecycle.md R260). -/
def claimed (c : Chan) (d : Dir) (size : Nat) (s : State) : State :=
  { setInUse c d true s with alloc := { (setInUse c d true s).alloc with free := s.alloc.free + size } }

@[simp] theorem setInUse_free (c : Chan) (d : Dir) (b : Bool) (s : State) :
    (setInUse c d b s).alloc.free = s.alloc.free := by cases d <;> rfl

@[simp] theorem setInUse_gen (c : Chan) (d : Dir) (b : Bool) (s : State) :
    (setInUse c d b s).alloc.gen = s.alloc.gen := by cases d <;> rfl

/-- All that the checks, the mark and the allocation of a claim can do (47_lifecycle.md R260). -/
theorem claimStep_cases (t : Nat) (a : Claim) (s : State) :
    claimStep t a s = raise .invalidLength s ∨
    (inUse s.alloc a.ch a.dir = true ∧ claimStep t a s = reply t (.err .alreadyInUse []) s) ∨
    (inUse s.alloc a.ch a.dir = false ∧
      claimStep t a s = reply t (.err .outOfMemory []) (drawInUse a.ch a.dir (setInUse a.ch a.dir true s))) ∨
    ∃ size, inUse s.alloc a.ch a.dir = false ∧ size % granBytes s.params.gran = 0 ∧
      s.alloc.free + size ≤ s.params.pmaBytes ∧
      claimStep t a s = .ok (bindParts s.params a ⟨s.alloc.free, size⟩) (claimed a.ch a.dir size s) := by
  simp only [claimStep]
  by_cases hm : mpsInDomain a.dir a.mps = true
  · rw [if_neg (by simp [hm])]
    by_cases hu : inUse s.alloc a.ch a.dir = true
    · rw [if_pos hu]; exact .inr (.inl ⟨hu, rfl⟩)
    · rw [if_neg hu]
      have hu' : inUse s.alloc a.ch a.dir = false := by simpa using hu
      obtain ⟨size, hs, hg⟩ := regionSize_ok hm (setInUse a.ch a.dir true s)
      rw [hs, Run.bind_ok]
      rw [setInUse_params] at hg
      have hpar : (setInUse a.ch a.dir true s).params = s.params := setInUse_params _ _ _ _
      simp only [pmAlloc, hpar, hg, ne_eq, not_true, if_false, setInUse_free]
      by_cases hfit : s.params.pmaBytes < s.alloc.free + size
      · rw [if_pos hfit]; exact .inr (.inr (.inl ⟨hu', rfl⟩))
      · rw [if_neg hfit]
        exact .inr (.inr (.inr ⟨size, hu', hg, by omega, by simp [claimed]⟩))
  · rw [if_pos (by simp [hm])]; exact .inl rfl

/-! Parts that a command can have left. -/

/-- A part of a list that a command's plan is made of: no register value read yet, no handle to enter. -/
def plainPart : Part → Bool
  | .access (.writeReg _ _ _) | .own (.enter _ _) => false
  | _ => true

theorem plain_all {ps : List Part} (h : ps.all plainPart = true) : ∀ x ∈ ps, plainPart x = true := List.all_eq_true.mp h

theorem descriptorParts_stores (p : Params) (a lo hi : Nat) {x : Part} (h : x ∈ descriptorParts p a lo hi) :
    ∃ b n v, x = storePart b n v := by
  simp only [descriptorParts] at h
  cases hg : p.gran <;> simp only [hg, List.mem_cons, List.not_mem_nil, or_false] at h
  · rcases h with h | h <;> exact ⟨_, _, _, h⟩
  · exact ⟨_, _, _, h⟩

/-- Programming a descriptor is stores, or a fault. -/
theorem progRxParts_parts (p : Params) (c : Chan) (r : Region) (mps : Nat) :
    (∃ f, progRxParts p c r mps = faultParts f) ∨ ∃ a lo hi, progRxParts p c r mps = descriptorParts p a lo hi := by
  simp only [progRxParts]
  split
  · exact .inl ⟨_, rfl⟩
  · split
    · exact .inl ⟨_, rfl⟩
    · split
      · exact .inl ⟨_, rfl⟩
      · exact .inr ⟨_, _, _, rfl⟩

theorem progTxParts_parts (p : Params) (c : Chan) (r : Region) (n : Nat) :
    (∃ f, progTxParts p c r n = faultParts f) ∨ ∃ a lo hi, progTxParts p c r n = descriptorParts p a lo hi := by
  simp only [progTxParts]
  split
  · exact .inl ⟨_, rfl⟩
  · split
    · exact .inl ⟨_, rfl⟩
    · split
      · exact .inl ⟨_, rfl⟩
      · exact .inr ⟨_, _, _, rfl⟩

theorem progHalfParts_parts (p : Params) (c : Chan) (d : Dir) (r : Region) (mps : Nat) :
    (∃ f, progHalfParts p c d r mps = faultParts f) ∨
    ∃ a lo hi, progHalfParts p c d r mps = descriptorParts p a lo hi := by
  cases d
  · exact progTxParts_parts _ _ _ _
  · exact progRxParts_parts _ _ _ _

theorem packParts_stores (off g : Nat) (data : List Byte) (todo k : Nat) {x : Part}
    (h : x ∈ packParts off g data todo k) : ∃ b n v, x = storePart b n v := by
  induction todo generalizing k with
  | zero => simp [packParts] at h
  | succ n ih =>
    simp only [packParts, List.mem_cons] at h
    rcases h with h | h
    · exact ⟨_, _, _, h⟩
    · exact ih _ h

/-- Copying bytes in is stores, or a fault (43_codec.md R180). -/
theorem pmWriteParts_parts (p : Params) (r : Region) (data : List Byte) :
    (∃ f, pmWriteParts p r data = faultParts f) ∨ ∃ off g todo, pmWriteParts p r data = packParts off g data todo 0 := by
  simp only [pmWriteParts]
  split
  · exact .inl ⟨_, rfl⟩
  · split
    · exact .inl ⟨_, rfl⟩
    · exact .inr ⟨_, _, _, rfl⟩

/-- A list of stores and faults. -/
def storesOrFaults (ps : List Part) : Bool :=
  ps.all fun
    | .access (.store _ _ _) | .own (.raise _) => true
    | _ => false

theorem storesOrFaults_faultParts (f : Fault) : storesOrFaults (faultParts f) = true := rfl

theorem storesOrFaults_of_stores {ps : List Part} (h : ∀ x ∈ ps, ∃ b n v, x = storePart b n v) :
    storesOrFaults ps = true := by
  simp only [storesOrFaults, List.all_eq_true]
  intro x hx
  obtain ⟨b, n, v, rfl⟩ := h x hx
  rfl

theorem storesOrFaults_progRx (p : Params) (c : Chan) (r : Region) (mps : Nat) :
    storesOrFaults (progRxParts p c r mps) = true := by
  rcases progRxParts_parts p c r mps with ⟨f, h⟩ | ⟨a, lo, hi, h⟩ <;> rw [h]
  · rfl
  · exact storesOrFaults_of_stores fun _ hx => descriptorParts_stores _ _ _ _ hx

theorem storesOrFaults_progTx (p : Params) (c : Chan) (r : Region) (n : Nat) :
    storesOrFaults (progTxParts p c r n) = true := by
  rcases progTxParts_parts p c r n with ⟨f, h⟩ | ⟨a, lo, hi, h⟩ <;> rw [h]
  · rfl
  · exact storesOrFaults_of_stores fun _ hx => descriptorParts_stores _ _ _ _ hx

theorem storesOrFaults_progHalf (p : Params) (c : Chan) (d : Dir) (r : Region) (mps : Nat) :
    storesOrFaults (progHalfParts p c d r mps) = true := by
  cases d
  · exact storesOrFaults_progTx _ _ _ _
  · exact storesOrFaults_progRx _ _ _ _

theorem storesOrFaults_pmWrite (p : Params) (r : Region) (data : List Byte) :
    storesOrFaults (pmWriteParts p r data) = true := by
  rcases pmWriteParts_parts p r data with ⟨f, h⟩ | ⟨off, g, todo, h⟩ <;> rw [h]
  · rfl
  · exact storesOrFaults_of_stores fun _ hx => packParts_stores _ _ _ _ _ hx

theorem plainPart_of_storesOrFaults {ps : List Part} (h : storesOrFaults ps = true) {x : Part} (hx : x ∈ ps) :
    plainPart x = true := by
  simp only [storesOrFaults, List.all_eq_true] at h
  have := h x hx
  split at this <;> first | rfl | cases this

/-- Copying bytes out is one load at a time, or a fault (43_codec.md R181). -/
theorem pmReadParts_parts (p : Params) (r : Region) (n : Nat) (purpose : ReadFor) :
    (∃ f, pmReadParts p r n purpose = faultParts f) ∨
    pmReadParts p r n purpose = loadParts r.off 0 (ceilDiv n (granBytes p.gran)) n [] purpose := by
  simp only [pmReadParts]
  split
  · exact .inl ⟨_, rfl⟩
  · split
    · exact .inl ⟨_, rfl⟩
    · exact .inr rfl

theorem loadParts_plain (off k todo n : Nat) (got : List Byte) (purpose : ReadFor) {x : Part}
    (h : x ∈ loadParts off k todo n got purpose) : plainPart x = true := by
  cases todo <;> simp only [loadParts, List.mem_singleton] at h <;> subst h <;> rfl

theorem pmReadParts_plain (p : Params) (r : Region) (n : Nat) (purpose : ReadFor) {x : Part}
    (h : x ∈ pmReadParts p r n purpose) : plainPart x = true := by
  rcases pmReadParts_parts p r n purpose with ⟨f, e⟩ | e <;> rw [e] at h
  · simp only [faultParts, List.mem_singleton] at h; subst h; rfl
  · exact loadParts_plain _ _ _ _ _ _ h

end Sys2Proof.Machine
end

