-- ==== Sys2Proof/Laws/TaskSteps.lean ====
section
/-! SUPPORT. What one step of a task's command leaves alone: `Mild t s s'` holds of every step but those that touch the
allocator and the handle table, which have a case lemma of their own. -/

namespace Sys2Proof.Machine

/-- What a step of task `t` that touches neither the allocator nor the handle table leaves alone. -/
structure Mild (t : Nat) (s s' : State) : Prop where
  params : s'.params = s.params
  alloc : s'.alloc = s.alloc
  htIn : s'.htIn = s.htIn
  htOut : s'.htOut = s.htOut
  istr : s'.istr = s.istr
  errChan : s'.errChan = s.errChan
  connected : s'.connected = s.connected
  now : s'.now = s.now
  task : s'.task = s.task
  inputs : s'.inputs = s.inputs
  slots : s'.slots = s.slots
  inProgress : s'.inProgress = s.inProgress
  log : s.log <+: s'.log
  others : ∀ u, u ≠ t → taskRec s' u = taskRec s u
  canonical : Canonical s → Canonical s'

theorem Mild.refl (t : Nat) (s : State) : Mild t s s where
  params := rfl
  alloc := rfl
  htIn := rfl
  htOut := rfl
  istr := rfl
  errChan := rfl
  connected := rfl
  now := rfl
  task := rfl
  inputs := rfl
  slots := rfl
  inProgress := rfl
  log := List.prefix_refl _
  others := fun _ _ => rfl
  canonical := fun h => h

theorem Mild.trans {t : Nat} {a b c : State} (h1 : Mild t a b) (h2 : Mild t b c) : Mild t a c where
  params := h2.params.trans h1.params
  alloc := h2.alloc.trans h1.alloc
  htIn := h2.htIn.trans h1.htIn
  htOut := h2.htOut.trans h1.htOut
  istr := h2.istr.trans h1.istr
  errChan := h2.errChan.trans h1.errChan
  connected := h2.connected.trans h1.connected
  now := h2.now.trans h1.now
  task := h2.task.trans h1.task
  inputs := h2.inputs.trans h1.inputs
  slots := h2.slots.trans h1.slots
  inProgress := h2.inProgress.trans h1.inProgress
  log := h1.log.trans h2.log
  others := fun u hu => (h2.others u hu).trans (h1.others u hu)
  canonical := fun h => h2.canonical (h1.canonical h)

/-- The handle a channel half has is not changed. -/
theorem Mild.handle {t : Nat} {s s' : State} (h : Mild t s s') (c : Chan) (d : Dir) : handleAt s' c d = handleAt s c d := by
  cases d <;> simp [handleAt, h.htIn, h.htOut]

/-! The updates. -/

theorem Mild.raiseFault (t : Nat) (r : Fault) (s : State) : Mild t s (raiseFault r s) := { Mild.refl t s with
  canonical := fun h => ⟨h.params, h.pma, h.tasks, h.progress⟩ }

theorem Mild.handOut (t : Nat) (a : Agent) (r : Result) (s : State) : Mild t s (handOut a r s) := { Mild.refl t s with
  canonical := fun h => ⟨h.params, h.pma, h.tasks, h.progress⟩ }

theorem Mild.nextDraw (t : Nat) (s : State) : Mild t s (nextDraw s) := { Mild.refl t s with
  canonical := fun h => ⟨h.params, h.pma, h.tasks, h.progress⟩ }

theorem Mild.writeChep (t : Nat) (a : Agent) (c : Chan) (w : Word32) (s : State) : Mild t s (writeChep a c w s) :=
  { Mild.refl t s with
    log := List.prefix_append _ _
    canonical := fun h => ⟨h.params, h.pma, h.tasks, h.progress⟩ }

theorem Mild.pokePma (t : Nat) (s : State) (a : Nat) (bs : List Byte) (h : a + bs.length ≤ s.params.pmaBytes) :
    Mild t s (pokePma s a bs) :=
  { Mild.refl t s with canonical := fun hc => ⟨hc.params, pmaWf_storeBytes hc.pma h, hc.tasks, hc.progress⟩ }

theorem Mild.setOp (t : Nat) (op : Option Op) (s : State) : Mild t s (setOp t op s) := { Mild.refl t s with
  others := fun u hu => by rw [taskRec_setOp, if_neg hu]
  canonical := fun h => ⟨h.params, h.pma, tasksWf_setOp h.tasks, h.progress⟩ }

theorem Mild.setWoken (t : Nat) (b : Bool) (s : State) : Mild t s (setWoken t b s) := { Mild.refl t s with
  others := fun u hu => by rw [taskRec_setWoken, if_neg hu]
  canonical := fun h => ⟨h.params, h.pma, tasksWf_setWoken h.tasks, h.progress⟩ }

theorem Mild.startOp (t : Nat) (op : Op) (s : State) : Mild t s (startOp t op s) :=
  (Mild.setOp t _ s).trans (Mild.setWoken t _ _)

theorem Mild.register (t : Nat) (sl : Slot) (u : Nat) (s : State) : Mild t s (register sl u s) where
  params := register_params _ _ _
  alloc := register_alloc _ _ _
  htIn := register_htIn _ _ _
  htOut := register_htOut _ _ _
  istr := register_istr _ _ _
  errChan := register_errChan _ _ _
  connected := register_connected _ _ _
  now := register_now _ _ _
  task := register_task _ _ _
  inputs := register_inputs _ _ _
  slots := register_slots _ _ _
  inProgress := register_inProgress _ _ _
  log := by rw [register_log]
  others := fun u _ => taskRec_register _ _ _ u
  canonical := fun h => ⟨by rw [register_params]; exact h.params, by rw [register_params, register_pma]; exact h.pma,
    by rw [register_tasks]; exact h.tasks, by rw [register_inProgress]; exact h.progress⟩

/-! Runs. -/

/-- A step that leaves all that alone, and sets a fault exactly when it stops. -/
structure MildRun {α : Type} (t : Nat) (s : State) (r : Run α) : Prop where
  mild : Mild t s r.state
  ok : ∀ a s', r = .ok a s' → s'.fault = s.fault
  halt : ∀ s', r = .halt s' → s'.fault ≠ none

theorem MildRun.of_ok {α : Type} {t : Nat} {s s' : State} (a : α) (h : Mild t s s') (hf : s'.fault = s.fault) :
    MildRun t s (.ok a s' : Run α) := ⟨h, fun _ _ e => by cases e; exact hf, fun _ e => by cases e⟩

theorem MildRun.raise {α : Type} (t : Nat) (r : Fault) (s : State) : MildRun t s (raise r s : Run α) :=
  ⟨Mild.raiseFault t r s, fun _ _ e => (by cases e), fun _ e => by cases e; simp⟩

theorem MildRun.reply (t u : Nat) (r : Result) (s : State) : MildRun t s (reply u r s) :=
  MildRun.of_ok _ (Mild.handOut t _ r s) rfl

theorem MildRun.bind {α β : Type} {t : Nat} {s : State} {r : Run α} {f : α → State → Run β} (h : MildRun t s r)
    (hf : ∀ a s1, r = .ok a s1 → MildRun t s1 (f a s1)) : MildRun t s (r.bind f) := by
  cases r with
  | ok a s1 =>
    have h1 := hf a s1 rfl
    have h0 := h.ok a s1 rfl
    exact ⟨h.mild.trans h1.mild, fun b s2 e => (h1.ok b s2 e).trans h0, h1.halt⟩
  | halt s1 => exact ⟨h.mild, fun _ _ e => (by cases e), fun s2 e => by cases e; exact h.halt s1 rfl⟩

/-- A run after a mild update. -/
theorem MildRun.after {α : Type} {t : Nat} {s s1 : State} {r : Run α} (h : Mild t s s1) (hf : s1.fault = s.fault)
    (hr : MildRun t s1 r) : MildRun t s r :=
  ⟨h.trans hr.mild, fun a s' e => (hr.ok a s' e).trans hf, hr.halt⟩

/-! Runs on a task's own record. -/

/-- What a step leaves alone that works on the record of task `t` only. -/
structure Record (t : Nat) (s s' : State) : Prop extends Mild t s s' where
  chep : s'.chep = s.chep
  pma : s'.pma = s.pma
  logged : s'.log = s.log
  fault : s'.fault = s.fault

theorem Record.refl (t : Nat) (s : State) : Record t s s := ⟨Mild.refl t s, rfl, rfl, rfl, rfl⟩

theorem Record.trans {t : Nat} {a b c : State} (h1 : Record t a b) (h2 : Record t b c) : Record t a c :=
  ⟨h1.toMild.trans h2.toMild, h2.chep.trans h1.chep, h2.pma.trans h1.pma, h2.logged.trans h1.logged,
    h2.fault.trans h1.fault⟩

theorem Record.handOut (t : Nat) (a : Agent) (r : Result) (s : State) : Record t s (handOut a r s) :=
  ⟨Mild.handOut t a r s, rfl, rfl, rfl, rfl⟩

theorem Record.nextDraw (t : Nat) (s : State) : Record t s (nextDraw s) := ⟨Mild.nextDraw t s, rfl, rfl, rfl, rfl⟩

theorem Record.setOp (t : Nat) (op : Option Op) (s : State) : Record t s (setOp t op s) :=
  ⟨Mild.setOp t op s, rfl, rfl, rfl, rfl⟩

theorem Record.setWoken (t : Nat) (b : Bool) (s : State) : Record t s (setWoken t b s) :=
  ⟨Mild.setWoken t b s, rfl, rfl, rfl, rfl⟩

theorem Record.startOp (t : Nat) (op : Op) (s : State) : Record t s (startOp t op s) :=
  ⟨Mild.startOp t op s, rfl, rfl, rfl, rfl⟩

theorem Record.register (t : Nat) (sl : Slot) (u : Nat) (s : State) : Record t s (register sl u s) :=
  ⟨Mild.register t sl u s, register_chep _ _ _, register_pma _ _ _, register_log _ _ _, register_fault _ _ _⟩

/-- A run on the record of task `t` that leaves no register value to write back and no handle to enter. -/
structure RecordRun (t : Nat) (s : State) (r : Run (List Part)) : Prop where
  ok : ∀ ps s', r = .ok ps s' → Record t s s' ∧ ∀ x ∈ ps, plainPart x = true
  halt : ∀ s', r = .halt s' → ∃ f s1, Record t s s1 ∧ s' = Machine.raiseFault f s1

theorem RecordRun.mildRun {t : Nat} {s : State} {r : Run (List Part)} (h : RecordRun t s r) : MildRun t s r := by
  cases r with
  | ok ps s' =>
    have hr := (h.ok ps s' rfl).1
    exact MildRun.of_ok ps hr.toMild hr.fault
  | halt s' =>
    obtain ⟨f, s1, hr, rfl⟩ := h.halt s' rfl
    exact MildRun.after hr.toMild hr.fault (MildRun.raise t f s1)

theorem RecordRun.of_ok {t : Nat} {s s' : State} {ps : List Part} (h : Record t s s')
    (hp : ∀ x ∈ ps, plainPart x = true) : RecordRun t s (.ok ps s') :=
  ⟨fun _ _ e => by cases e; exact ⟨h, hp⟩, fun _ e => by cases e⟩

theorem RecordRun.raise (t : Nat) (r : Fault) (s : State) : RecordRun t s (raise r s) :=
  ⟨fun _ _ e => (by cases e), fun _ e => by cases e; exact ⟨r, s, Record.refl t s, rfl⟩⟩

theorem RecordRun.reply (t u : Nat) (r : Result) (s : State) : RecordRun t s (reply u r s) :=
  RecordRun.of_ok (Record.handOut t _ r s) (by simp)

theorem RecordRun.after {t : Nat} {s s1 : State} {r : Run (List Part)} (h : Record t s s1) (hr : RecordRun t s1 r) :
    RecordRun t s r :=
  ⟨fun ps s' e => ⟨h.trans (hr.ok ps s' e).1, (hr.ok ps s' e).2⟩, fun s' e => by
    obtain ⟨f, s2, h2, e2⟩ := hr.halt s' e
    exact ⟨f, s2, h.trans h2, e2⟩⟩

/-! The polls. -/

/-- A step of a poll works on the polled task's operation, or finds none. -/
theorem withOp_cases (t : Nat) (s : State) (f : Op → Run (List Part)) :
    (∃ op, (taskRec s t).op = some op ∧ withOp t s f = f op) ∨
    ((taskRec s t).op = none ∧ withOp t s f = raise .noOperation s) := by
  simp only [withOp]
  cases e : (taskRec s t).op with
  | some op => exact .inl ⟨op, rfl, rfl⟩
  | none => exact .inr ⟨rfl, rfl⟩

theorem RecordRun.withOp {t : Nat} {s0 s : State} {f : Op → Run (List Part)} (h0 : Record t s0 s)
    (h : ∀ op, RecordRun t s (f op)) : RecordRun t s0 (withOp t s f) := by
  refine RecordRun.after h0 ?_
  rcases withOp_cases t s f with ⟨op, _, e⟩ | ⟨_, e⟩ <;> rw [e]
  · exact h op
  · exact RecordRun.raise _ _ _

theorem RecordRun.finishPoll (t : Nat) (op : Op) (p : Phase) (res : Result) (s : State) :
    RecordRun t s (finishPoll t op p res s) :=
  RecordRun.after ((Record.setOp t _ s).trans (Record.setOp t _ _)) (RecordRun.reply t t res _)

theorem RecordRun.pollPrologue (t : Nat) (s : State) : RecordRun t s (pollPrologue t s) := by
  refine RecordRun.withOp (Record.refl t s) fun op => ?_
  simp only
  split
  · exact RecordRun.after (Record.setWoken t false s) (RecordRun.raise _ _ _)
  · refine RecordRun.after (Record.setWoken t false s) ?_
    have check : ∀ x ∈ checkParts op, plainPart x = true := plain_all rfl
    simp only [Machine.pollParts]
    split
    · split
      · refine RecordRun.of_ok (Record.setOp t _ _) fun x hx => ?_
        rcases List.mem_append.mp hx with hx | hx
        · exact plain_all (ps := armReadParts _) rfl x hx
        · exact check x hx
      · exact RecordRun.of_ok (Record.refl t _) check
    · split
      · refine RecordRun.of_ok (Record.setOp t _ _) fun x hx => ?_
        rcases List.mem_append.mp hx with hx | hx
        · rcases List.mem_append.mp hx with hx | hx
          · exact plainPart_of_storesOrFaults (storesOrFaults_progTx _ _ _ _) hx
          · rcases List.mem_append.mp hx with hx | hx
            · exact plainPart_of_storesOrFaults (storesOrFaults_pmWrite _ _ _) hx
            · exact plain_all (ps := [changeReg _ _, .own .armed]) rfl x hx
        · exact check x hx
      · exact RecordRun.of_ok (Record.refl t _) check
    · exact RecordRun.of_ok (Record.refl t _) check

theorem RecordRun.checkConnected (t : Nat) (c : Chan) (h : Half) (b : Bool) (s : State) :
    RecordRun t s (checkConnected c h b s) := by
  simp only [Machine.checkConnected]
  split <;> exact RecordRun.of_ok (Record.refl t s) (plain_all rfl)

theorem RecordRun.checkTimeout (t : Nat) (c : Chan) (h : Half) (timeout start : Option Nat) (s : State) :
    RecordRun t s (checkTimeout c h timeout start s) := by
  simp only [Machine.checkTimeout]
  split <;> exact RecordRun.of_ok (Record.refl t s) (plain_all rfl)

theorem RecordRun.pollIstr (t : Nat) (s : State) : RecordRun t s (pollIstr t s) := by
  refine RecordRun.withOp (Record.nextDraw t s) fun op => ?_
  cases op with
  | read r => exact RecordRun.checkConnected t _ _ _ _
  | write w => exact RecordRun.checkConnected t _ _ _ _
  | busWait b =>
    simp only
    split
    · exact RecordRun.finishPoll t _ _ _ _
    · exact RecordRun.reply t t _ _

theorem RecordRun.pollClock (t : Nat) (s : State) : RecordRun t s (pollClock t s) := by
  refine RecordRun.withOp (Record.refl t s) fun op => ?_
  cases op with
  | read r => exact RecordRun.checkTimeout t _ _ _ _ _
  | write w => exact RecordRun.checkTimeout t _ _ _ _ _
  | busWait b => exact RecordRun.raise _ _ _

theorem RecordRun.pollInspect (t : Nat) (s : State) : RecordRun t s (pollInspect t s) := by
  refine RecordRun.withOp (Record.refl t s) fun op => ?_
  cases op with
  | read r =>
    simp only
    split
    · exact RecordRun.of_ok (Record.setOp t _ s) (plain_all rfl)
    · exact RecordRun.finishPoll t _ _ _ _
    · exact RecordRun.reply t t _ _
    · exact RecordRun.reply t t _ _
  | write w =>
    simp only
    split
    · exact RecordRun.finishPoll t _ _ _ _
    · exact RecordRun.finishPoll t _ _ _ _
    · exact RecordRun.reply t t _ _
    · exact RecordRun.reply t t _ _
  | busWait b => exact RecordRun.raise _ _ _

theorem RecordRun.pollCount (t : Nat) (s : State) : RecordRun t s (pollCount t s) := by
  refine RecordRun.withOp (Record.refl t s) fun op => ?_
  cases op with
  | read r =>
    simp only
    rcases rxLen_cases r.h.index s with ⟨n, e, _⟩ | ⟨f, e⟩ <;> rw [e]
    · rw [Run.bind_ok]
      split
      · exact RecordRun.finishPoll t _ _ _ _
      · exact RecordRun.of_ok (Record.refl t s) fun _ h => pmReadParts_plain _ _ _ _ h
    · exact RecordRun.raise _ _ _
  | write w => exact RecordRun.raise _ _ _
  | busWait b => exact RecordRun.raise _ _ _

theorem RecordRun.pollUnpacked (t : Nat) (bytes : List Byte) (s : State) : RecordRun t s (pollUnpacked t bytes s) := by
  refine RecordRun.withOp (Record.refl t s) fun op => ?_
  cases op with
  | read r =>
    simp only
    split
    · exact RecordRun.finishPoll t _ _ _ _
    · exact RecordRun.of_ok (Record.setOp t _ s) (plain_all rfl)
  | write w => exact RecordRun.raise _ _ _
  | busWait b => exact RecordRun.raise _ _ _

theorem RecordRun.pollArmed (t : Nat) (s : State) : RecordRun t s (pollArmed t s) :=
  RecordRun.withOp (Record.refl t s) fun _ => RecordRun.of_ok (Record.setOp t _ s) (by simp)

theorem RecordRun.pollFail (t : Nat) (e : Err) (s : State) : RecordRun t s (pollFail t e s) :=
  RecordRun.withOp (Record.refl t s) fun _ => RecordRun.finishPoll t _ _ _ _

theorem RecordRun.pollRearmed (t : Nat) (s : State) : RecordRun t s (pollRearmed t s) :=
  RecordRun.withOp (Record.refl t s) fun _ => RecordRun.after (Record.setOp t _ s) (RecordRun.reply t t _ _)

/-! The steps of a command. -/

/-- The part touches the allocator or the handle table. -/
def claimPart : Part → Bool
  | .access (.claim _) | .own (.enter _ _) => true
  | _ => false

/-- The accesses that touch neither packet memory nor a register nor the allocator, and read no register to change it. -/
def recordAccess : Access → Bool
  | .store _ _ _ | .readReg _ _ | .writeReg _ _ _ | .claim _ => false
  | _ => true

theorem RecordRun.accessStep {t : Nat} {a : Access} (ha : recordAccess a = true) (s : State) :
    RecordRun t s (accessStep t a s) := by
  cases a <;> simp only [recordAccess, Bool.false_eq_true] at ha
  case load off k todo n got purpose =>
    rcases loadStep_cases off k todo n got purpose s with ⟨w, e⟩ | ⟨r, e⟩ <;> rw [Machine.accessStep, e]
    · exact RecordRun.of_ok (Record.refl t s) fun _ h => loadParts_plain _ _ _ _ _ _ h
    · exact RecordRun.raise _ _ _
  case prologue => exact RecordRun.pollPrologue t s
  case register sl => exact RecordRun.of_ok (Record.register t sl t s) (by simp)
  case readIstr => exact RecordRun.pollIstr t s
  case clock => exact RecordRun.pollClock t s
  case inspect => exact RecordRun.pollInspect t s
  case readCount => exact RecordRun.pollCount t s

/-- An access that is no claim (20_memory.md R88). -/
theorem MildRun.accessStep {t : Nat} {a : Access} (ha : claimPart (.access a) = false) (s : State) :
    MildRun t s (accessStep t a s) := by
  by_cases hr : recordAccess a = true
  · exact (RecordRun.accessStep hr s).mildRun
  · cases a with
    | store a n v =>
      rcases storeStep_cases a n v s with ⟨e, _, h⟩ | ⟨r, e⟩ <;> rw [Machine.accessStep, e]
      · exact MildRun.of_ok _ (Mild.pokePma t s _ _ (by simpa using h)) rfl
      · exact MildRun.raise _ _ _
    | readReg c change => exact MildRun.of_ok _ (Mild.refl t s) rfl
    | writeReg c change cur => exact MildRun.of_ok _ (Mild.writeChep t _ _ _ s) rfl
    | claim a => cases ha
    | _ => exact absurd rfl hr

/-- What a task does on its own, but for entering a handle. -/
theorem RecordRun.ownStep {t : Nat} {o : Own} (ho : claimPart (.own o) = false) (s : State) :
    RecordRun t s (ownStep t o s) := by
  cases o with
  | raise r => exact RecordRun.raise _ _ _
  | reply r => exact RecordRun.reply t t r s
  | enter a r => cases ho
  | unpacked bytes purpose =>
    cases purpose with
    | caller => exact RecordRun.reply t t _ s
    | poll => exact RecordRun.pollUnpacked t bytes s
  | armed => exact RecordRun.pollArmed t s
  | fail e => exact RecordRun.pollFail t e s
  | rearmed => exact RecordRun.pollRearmed t s

/-- All that entering a handle can do (47_lifecycle.md R260, R262). -/
theorem enterHandle_cases (t : Nat) (a : Claim) (r : Region) (s : State) :
    ∃ more s', enterHandle t a r s = .ok more s' ∧
      (s' = setHandle s a.ch a.dir (some ⟨a.ch, a.dir, a.mps, a.etype, a.devaddr, r, s.alloc.gen⟩) ∨
        ∃ res, s' = handOut (.task t) res
          (setHandle s a.ch a.dir (some ⟨a.ch, a.dir, a.mps, a.etype, a.devaddr, r, s.alloc.gen⟩))) ∧
      (more = [] ∨ ∃ hi, a.purpose = .reconfIn ∧ more = [.access (.claim (secondClaim hi))]) := by
  simp only [enterHandle]
  cases hp : a.purpose with
  | caller => exact ⟨_, _, rfl, .inr ⟨_, rfl⟩, .inl rfl⟩
  | reconfIn => exact ⟨_, _, rfl, .inl rfl, .inr ⟨_, rfl, rfl⟩⟩
  | reconfOut hi => exact ⟨_, _, rfl, .inr ⟨_, rfl⟩, .inl rfl⟩

/-! Starting an operation. -/

/-- All that the checks on a handle can do (46_engine.md R230). -/
theorem takeHandle_cases (t : Nat) (c : Chan) (d : Dir) (s : State) :
    (∃ h, takeHandle t c d s = .ok h s ∧ handleAt s c d = some h ∧ h.gen = s.alloc.gen ∧ channelBusyAt s c d = false ∧
      (taskRec s t).op = none) ∨ ∃ r, takeHandle t c d s = raise r s := by
  simp only [takeHandle]
  cases hh : handleAt s c d with
  | none => exact .inr ⟨_, rfl⟩
  | some h =>
    simp only
    split
    · exact .inr ⟨_, rfl⟩
    · split
      · exact .inr ⟨_, rfl⟩
      · split
        · exact .inr ⟨_, rfl⟩
        · exact .inl ⟨h, rfl, rfl, by simp_all, by simp_all, by simp_all⟩

/-- The commands whose first step touches neither the allocator nor the handle table. -/
def mildBegin : Instr → Bool
  | .pmAlloc _ | .pmReset | .chReconf0 _ _ | .chDrop _ _ => false
  | _ => true

theorem RecordRun.begin {i : Instr} (hi : mildBegin i = true) (o : Side) (s : State) :
    RecordRun o.task s (Machine.begin i o s) := by
  have plan : ∀ {ps : List Part}, (∀ x ∈ ps, plainPart x = true) → RecordRun o.task s (.ok ps s) :=
    fun h => RecordRun.of_ok (Record.refl _ s) h
  have stores : ∀ {ps : List Part}, storesOrFaults ps = true → ∀ x ∈ ps ++ [replyUnit], plainPart x = true := by
    intro ps h x hx
    rcases List.mem_append.mp hx with hx | hx
    · exact plainPart_of_storesOrFaults h hx
    · rw [List.mem_singleton.mp hx]; rfl
  cases i <;> simp only [mildBegin, Bool.false_eq_true] at hi
  case bdEnc len =>
    simp only [Machine.begin, beginBdEnc, encOrFault]
    split
    · exact RecordRun.reply _ _ _ s
    · exact RecordRun.raise _ _ _
  case bdRxlen ch =>
    simp only [Machine.begin, beginBdRxlen]
    rcases rxLen_cases ch s with ⟨n, e, _⟩ | ⟨f, e⟩ <;> rw [e]
    · exact RecordRun.reply _ _ _ s
    · exact RecordRun.raise _ _ _
  case bdDec | crRead | crCanon => exact RecordRun.reply _ _ _ s
  case epRead ch n =>
    simp only [Machine.begin, beginEpRead]
    rcases takeHandle_cases o.task ch .dirIn s with ⟨h, e, _⟩ | ⟨f, e⟩ <;> rw [e]
    · exact RecordRun.after (Record.startOp _ _ s) (RecordRun.reply _ _ _ _)
    · exact RecordRun.raise _ _ _
  case epWrite ch =>
    simp only [Machine.begin, beginEpWrite]
    rcases takeHandle_cases o.task ch .dirOut s with ⟨h, e, _⟩ | ⟨f, e⟩ <;> rw [e]
    · rw [Run.bind_ok]
      split
      · exact RecordRun.raise _ _ _
      · split
        · exact RecordRun.raise _ _ _
        · exact RecordRun.after (Record.startOp _ _ s) (RecordRun.reply _ _ _ _)
    · exact RecordRun.raise _ _ _
  case busWait target =>
    simp only [Machine.begin, beginBusWait]
    split
    · exact RecordRun.raise _ _ _
    · exact RecordRun.after (Record.startOp _ _ s) (RecordRun.reply _ _ _ _)
  case bdProgrx => exact plan (stores (storesOrFaults_progRx _ _ _ _))
  case bdProgtx => exact plan (stores (storesOrFaults_progTx _ _ _ _))
  case pmWrite => exact plan (stores (storesOrFaults_pmWrite _ _ _))
  case pmRead => exact plan fun _ h => pmReadParts_plain _ _ _ _ h
  all_goals exact plan (plain_all rfl)

/-! Every step of a command. -/

/-- What no step of task `t` undoes, and what it leaves alone, the allocator's steps included. -/
structure Steady (t : Nat) (s s' : State) : Prop where
  params : s'.params = s.params
  istr : s'.istr = s.istr
  errChan : s'.errChan = s.errChan
  connected : s'.connected = s.connected
  now : s'.now = s.now
  task : s'.task = s.task
  inputs : s'.inputs = s.inputs
  slots : s'.slots = s.slots
  inProgress : s'.inProgress = s.inProgress
  log : s.log <+: s'.log
  gen : s.alloc.gen ≤ s'.alloc.gen
  free : s'.alloc.gen = s.alloc.gen → s.alloc.free ≤ s'.alloc.free
  marks : s'.alloc.gen = s.alloc.gen → ∀ c d, inUse s.alloc c d = true → inUse s'.alloc c d = true
  others : ∀ u, u ≠ t → taskRec s' u = taskRec s u
  canonical : Canonical s → Canonical s'

theorem Mild.steady {t : Nat} {s s' : State} (h : Mild t s s') : Steady t s s' where
  params := h.params
  istr := h.istr
  errChan := h.errChan
  connected := h.connected
  now := h.now
  task := h.task
  inputs := h.inputs
  slots := h.slots
  inProgress := h.inProgress
  log := h.log
  gen := by rw [h.alloc]
  free := fun _ => by rw [h.alloc]
  marks := fun _ _ _ hu => by rw [h.alloc]; exact hu
  others := h.others
  canonical := h.canonical

theorem Steady.trans {t : Nat} {a b c : State} (h1 : Steady t a b) (h2 : Steady t b c) : Steady t a c where
  params := h2.params.trans h1.params
  istr := h2.istr.trans h1.istr
  errChan := h2.errChan.trans h1.errChan
  connected := h2.connected.trans h1.connected
  now := h2.now.trans h1.now
  task := h2.task.trans h1.task
  inputs := h2.inputs.trans h1.inputs
  slots := h2.slots.trans h1.slots
  inProgress := h2.inProgress.trans h1.inProgress
  log := h1.log.trans h2.log
  gen := Nat.le_trans h1.gen h2.gen
  free := fun e => by
    have g1 := h1.gen
    have g2 := h2.gen
    exact Nat.le_trans (h1.free (by omega)) (h2.free (by omega))
  marks := fun e x d hu => by
    have g1 := h1.gen
    have g2 := h2.gen
    exact h2.marks (by omega) x d (h1.marks (by omega) x d hu)
  others := fun u hu => (h2.others u hu).trans (h1.others u hu)
  canonical := fun h => h2.canonical (h1.canonical h)

theorem getLsbD_maskWith (m : BitVec 8) (c : Chan) (b : Bool) (i : Nat) (hi : i < 8) :
    (maskWith m c b).getLsbD i = if i = c.val then b else m.getLsbD i := by
  have h1 : ((1#8) <<< c.val).getLsbD i = decide (i = c.val) := by
    rw [BitVec.getLsbD_shiftLeft, BitVec.getLsbD_one]
    by_cases e : i = c.val
    · subst e; simp [hi]
    · by_cases hlt : i < c.val
      · simp [hlt, e]
      · simp [e]; omega
  cases b <;> simp only [maskWith, Bool.false_eq_true, if_false, if_true, BitVec.getLsbD_or, BitVec.getLsbD_and,
    BitVec.getLsbD_not, h1] <;> by_cases e : i = c.val <;> simp [e, hi]

theorem maskWith_maskWith (m : BitVec 8) (c : Chan) (b b' : Bool) : maskWith (maskWith m c b) c b' = maskWith m c b' := by
  apply BitVec.eq_of_getLsbD_eq
  intro i hi
  rw [getLsbD_maskWith _ _ _ _ hi, getLsbD_maskWith _ _ _ _ hi, getLsbD_maskWith _ _ _ _ hi]
  split <;> rfl

/-- The in-use masks after one bit is given a value (10_state.md R42). -/
theorem inUse_setInUse (s : State) (c : Chan) (d : Dir) (b : Bool) (c' : Chan) (d' : Dir) :
    inUse (setInUse c d b s).alloc c' d' = if c' = c ∧ d' = d then b else inUse s.alloc c' d' := by
  have hm : ∀ m : BitVec 8, (maskWith m c b).getLsbD c'.val = if c' = c then b else m.getLsbD c'.val := by
    intro m
    rw [getLsbD_maskWith m c b c'.val c'.isLt]
    by_cases e : c' = c
    · subst e; simp
    · rw [if_neg e, if_neg fun h => e (Fin.ext h)]
  cases d <;> cases d' <;> simp only [inUse, setInUse, hm, and_true, and_false, if_false, reduceCtorEq]

theorem Steady.refl (t : Nat) (s : State) : Steady t s s := (Mild.refl t s).steady

/-- An update of the allocator that keeps the marks of its generation. -/
theorem Steady.setAlloc (t : Nat) (s : State) (a : Alloc) (gen : s.alloc.gen ≤ a.gen)
    (free : a.gen = s.alloc.gen → s.alloc.free ≤ a.free)
    (marks : a.gen = s.alloc.gen → ∀ c d, inUse s.alloc c d = true → inUse a c d = true) :
    Steady t s { s with alloc := a } :=
  { Steady.refl t s with
    gen := gen, free := free, marks := marks, canonical := fun h => ⟨h.params, h.pma, h.tasks, h.progress⟩ }

theorem Steady.setInUse (t : Nat) (s : State) (c : Chan) (d : Dir) (b : Bool) (h : b = true ∨ inUse s.alloc c d = false) :
    Steady t s (setInUse c d b s) := by
  have hm : ∀ c' d', inUse s.alloc c' d' = true → inUse (Machine.setInUse c d b s).alloc c' d' = true := by
    intro c' d' hu
    rw [inUse_setInUse]
    split
    · rename_i e
      obtain ⟨rfl, rfl⟩ := e
      rcases h with h | h
      · exact h
      · rw [h] at hu; cases hu
    · exact hu
  have := Steady.setAlloc t s (Machine.setInUse c d b s).alloc (by simp) (fun _ => by simp) fun _ => hm
  cases d <;> exact this

theorem Steady.setHandle (t : Nat) (s : State) (c : Chan) (d : Dir) (h : Option Handle) : Steady t s (setHandle s c d h) := by
  cases d <;> exact { Steady.refl t s with canonical := fun h => ⟨h.params, h.pma, h.tasks, h.progress⟩ }

/-- The same run, `t` being any task. -/
structure TaskRun (t : Nat) (s : State) (r : Run (List Part)) : Prop where
  steady : Steady t s r.state
  ok : ∀ a s', r = .ok a s' → s'.fault = s.fault
  halt : ∀ s', r = .halt s' → s'.fault ≠ none

theorem MildRun.taskRun {t : Nat} {s : State} {r : Run (List Part)} (h : MildRun t s r) : TaskRun t s r :=
  ⟨h.mild.steady, h.ok, h.halt⟩

theorem TaskRun.of_ok {t : Nat} {s s' : State} (ps : List Part) (h : Steady t s s') (hf : s'.fault = s.fault) :
    TaskRun t s (.ok ps s') := ⟨h, fun _ _ e => by cases e; exact hf, fun _ e => by cases e⟩

theorem TaskRun.bind {t : Nat} {s : State} {r : Run (List Part)} {f : List Part → State → Run (List Part)}
    (h : TaskRun t s r) (hf : ∀ a s1, r = .ok a s1 → TaskRun t s1 (f a s1)) : TaskRun t s (r.bind f) := by
  cases r with
  | ok a s1 =>
    have h1 := hf a s1 rfl
    have h0 := h.ok a s1 rfl
    exact ⟨h.steady.trans h1.steady, fun b s2 e => (h1.ok b s2 e).trans h0, h1.halt⟩
  | halt s1 => exact ⟨h.steady, fun _ _ e => (by cases e), fun s2 e => by cases e; exact h.halt s1 rfl⟩

theorem TaskRun.after {t : Nat} {s s1 : State} {r : Run (List Part)} (h : Steady t s s1) (hf : s1.fault = s.fault)
    (hr : TaskRun t s1 r) : TaskRun t s r := ⟨h.trans hr.steady, fun a s' e => (hr.ok a s' e).trans hf, hr.halt⟩

theorem TaskRun.reply (t u : Nat) (r : Result) (s : State) : TaskRun t s (reply u r s) := (MildRun.reply t u r s).taskRun

/-- The mark and the allocation of a claim. -/
theorem Steady.claimed (t : Nat) (c : Chan) (d : Dir) (size : Nat) (s : State) : Steady t s (claimed c d size s) := by
  refine (Steady.setInUse t s c d true (.inl rfl)).trans ?_
  refine Steady.setAlloc t _ _ (Nat.le_refl _) (fun _ => ?_) fun _ c' d' hu => ?_
  · simp
  · cases d' <;> exact hu

/-- One access of task `t` (20_memory.md R88). -/
theorem TaskRun.accessStep (t : Nat) (a : Access) (s : State) : TaskRun t s (accessStep t a s) := by
  by_cases h : claimPart (.access a) = false
  · exact (MildRun.accessStep h s).taskRun
  · cases a with
    | claim a =>
      rcases claimStep_cases t a s with e | ⟨_, e⟩ | ⟨hu, e⟩ | ⟨size, _, _, _, e⟩ <;> rw [Machine.accessStep, e]
      · exact (MildRun.raise t _ s).taskRun
      · exact TaskRun.reply t t _ s
      · refine TaskRun.after ?_ (by simp [drawInUse]) (TaskRun.reply t t _ _)
        have : drawInUse a.ch a.dir (setInUse a.ch a.dir true s) =
            nextDraw (setInUse a.ch a.dir (Config.inUseDraw s.draws) s) := by
          cases hd : a.dir <;> simp [drawInUse, setInUse, maskWith_maskWith]
        rw [this]
        exact (Steady.setInUse t s a.ch a.dir _ (.inr hu)).trans (Mild.nextDraw t _).steady
      · exact TaskRun.of_ok _ (Steady.claimed t _ _ _ s) (by simp [claimed])
    | _ => exact absurd rfl h

/-- What task `t` does on its own after an access. -/
theorem TaskRun.ownStep (t : Nat) (o : Own) (s : State) : TaskRun t s (ownStep t o s) := by
  by_cases h : claimPart (.own o) = false
  · exact (RecordRun.ownStep h s).mildRun.taskRun
  · cases o with
    | enter a r =>
      obtain ⟨more, s', e, hs, _⟩ := enterHandle_cases t a r s
      rw [Machine.ownStep, e]
      rcases hs with rfl | ⟨res, rfl⟩
      · exact TaskRun.of_ok _ (Steady.setHandle t s _ _ _) (by simp)
      · exact TaskRun.of_ok _ ((Steady.setHandle t s _ _ _).trans (Mild.handOut t _ _ _).steady) (by simp)
    | _ => exact absurd rfl h

theorem TaskRun.settle (t : Nat) (ps : List Part) (s : State) : TaskRun t s (settle t ps s) := by
  induction ps generalizing s with
  | nil => exact TaskRun.of_ok _ (Steady.refl t s) rfl
  | cons p rest ih =>
    cases p with
    | access a => exact TaskRun.of_ok _ (Steady.refl t s) rfl
    | own o =>
      refine (TaskRun.ownStep t o s).bind fun more s1 _ => ?_
      cases more with
      | nil => exact ih s1
      | cons m ms => exact TaskRun.of_ok _ (Steady.refl t s1) rfl

/-- One step of task `t`'s command (20_memory.md R88). -/
theorem TaskRun.advance (t : Nat) (ps : List Part) (s : State) : TaskRun t s (advance t ps s) := by
  cases ps with
  | nil => exact TaskRun.settle t [] s
  | cons p rest =>
    cases p with
    | access a => exact (TaskRun.accessStep t a s).bind fun more s1 _ => TaskRun.settle t _ s1
    | own o => exact TaskRun.settle t _ s

theorem Steady.pmReset (t : Nat) (s : State) : Steady t s (pmReset s) :=
  Steady.setAlloc t s _ (Nat.le_succ _) (fun e => by simp at e) fun e => by simp at e

/-- What a command does as it is begun. -/
theorem TaskRun.begin (i : Instr) (o : Side) (s : State) : TaskRun o.task s (begin i o s) := by
  by_cases h : mildBegin i = true
  · exact (RecordRun.begin h o s).mildRun.taskRun
  · cases i <;> try exact absurd rfl h
    case pmAlloc n =>
      simp only [Machine.begin, beginPmAlloc]
      rcases pmAlloc_cases n s with ⟨r, e⟩ | e | ⟨e, _, _⟩ <;> rw [e]
      · exact (MildRun.raise _ _ s).taskRun
      · exact TaskRun.reply _ _ _ s
      · refine TaskRun.after (Steady.setAlloc o.task s { s.alloc with free := s.alloc.free + n } (Nat.le_refl _)
          (fun _ => Nat.le_add_right _ _) fun _ c d hu => ?_) rfl (TaskRun.reply _ _ _ _)
        cases d <;> exact hu
    case pmReset => exact TaskRun.after (Steady.pmReset _ s) rfl (TaskRun.reply _ _ _ _)
    case chReconf0 dev mps => exact TaskRun.of_ok _ (Steady.pmReset _ s) rfl
    case chDrop ch d =>
      simp only [Machine.begin, beginChDrop]
      split
      · exact (MildRun.raise _ _ s).taskRun
      · split
        · exact (MildRun.raise _ _ s).taskRun
        · exact TaskRun.after (Steady.setHandle _ s _ _ _) (by simp) (TaskRun.reply _ _ _ _)

/-- The first step of a command (20_memory.md R88). -/
theorem TaskRun.firstStep (i : Instr) (o : Side) (s : State) : TaskRun o.task s (firstStep o.task (Machine.begin i o s)) :=
  (TaskRun.begin i o s).bind fun ps s1 _ => TaskRun.advance o.task ps s1

end Sys2Proof.Machine
end

