-- ==== Sys2Proof/Laws/Progress.lean ====
section
/-! SUPPORT. What is left of a command: the record of the commands in progress, the bound that falls at every step, and that
a command run to its end has nothing left. -/

namespace Sys2Proof.Machine

/-! The record. -/

theorem partsOf_congr {s s' : State} (h : s'.inProgress = s.inProgress) (t : Nat) : partsOf s' t = partsOf s t := by
  simp [partsOf, h]

theorem partsOf_putParts (s : State) (t : Nat) (ps : List Part) (u : Nat) :
    partsOf (putParts s t ps) u = if u = t then ps else partsOf s u := by
  simp only [partsOf, putParts]
  by_cases h : ps = []
  · rw [if_pos h, mapLookup_mapErase]
    split
    · simp [h]
    · rfl
  · rw [if_neg h, mapLookup_mapInsert]
    split <;> rfl

theorem progressWf_putParts {s : State} (h : progressWf s.inProgress = true) (t : Nat) (ps : List Part) :
    progressWf (putParts s t ps).inProgress = true := by
  simp only [progressWf, Bool.and_eq_true, putParts] at h ⊢
  split
  · exact ⟨risingFrom_mapErase _ _ _ h.1, all_mapErase _ _ _ h.2⟩
  · rename_i hne
    exact ⟨risingFrom_mapInsert _ _ _ _ h.1 (Nat.zero_le _), all_mapInsert _ _ _ _ h.2 (by simpa using hne)⟩

/-! The bound. -/

theorem partLeft_pos (p : Part) : 0 < partLeft p := by
  cases p with
  | access a => cases a <;> simp [partLeft]; rename_i a; cases a.purpose <;> simp [claimLeft]
  | own o => cases o <;> simp [partLeft]; rename_i a r; cases a.purpose <;> simp [enterLeft]

theorem partsLeft_append (ps qs : List Part) : partsLeft (ps ++ qs) = partsLeft ps + partsLeft qs := by
  induction ps with
  | nil => simp [partsLeft]
  | cons p rest ih => simp only [List.cons_append, partsLeft, ih]; omega

theorem partsLeft_eq_zero {ps : List Part} (h : partsLeft ps = 0) : ps = [] := by
  cases ps with
  | nil => rfl
  | cons p rest =>
    have := partLeft_pos p
    simp only [partsLeft] at h
    omega

/-- No poll's prologue is left. -/
def begun (ps : List Part) : Prop := .access .prologue ∉ ps

theorem begun_append {ps qs : List Part} (h1 : begun ps) (h2 : begun qs) : begun (ps ++ qs) := by
  simp only [begun, List.mem_append, not_or] at *
  exact ⟨h1, h2⟩

theorem begun_of_storesOrFaults {ps : List Part} (h : storesOrFaults ps = true) : begun ps := by
  intro hm
  simp only [storesOrFaults, List.all_eq_true] at h
  have := h _ hm
  cases this

theorem begun_pmReadParts (p : Params) (r : Region) (n : Nat) (purpose : ReadFor) : begun (pmReadParts p r n purpose) := by
  rcases pmReadParts_parts p r n purpose with ⟨f, e⟩ | e <;> rw [e]
  · simp [begun, faultParts]
  · cases ceilDiv n (granBytes p.gran) <;> simp [begun, loadParts]

theorem partsLeft_loadParts (off k todo n : Nat) (got : List Byte) (purpose : ReadFor) :
    partsLeft (loadParts off k todo n got purpose) ≤ todo + 5 := by
  cases todo <;> simp [loadParts, partsLeft, partLeft]

theorem begun_loadParts (off k todo n : Nat) (got : List Byte) (purpose : ReadFor) :
    begun (loadParts off k todo n got purpose) := by cases todo <;> simp [begun, loadParts]

theorem partsLeft_progHalfParts (p : Params) (c : Chan) (d : Dir) (r : Region) (mps : Nat) :
    partsLeft (progHalfParts p c d r mps) ≤ 2 := by
  rcases progHalfParts_parts p c d r mps with ⟨f, e⟩ | ⟨a, lo, hi, e⟩ <;> rw [e]
  · simp [faultParts, partsLeft, partLeft]
  · simp only [descriptorParts]
    cases p.gran <;> simp [storePart, partsLeft, partLeft]

/-- What a part leads to is below its bound and holds no prologue. -/
def Falls (bound : Nat) (r : Run (List Part)) : Prop := ∀ more s', r = .ok more s' → partsLeft more < bound ∧ begun more

theorem Falls.halt (b : Nat) (s : State) : Falls b (.halt s) := fun _ _ e => by cases e

theorem Falls.raise (b : Nat) (r : Fault) (s : State) : Falls b (raise r s) := Falls.halt b _

theorem Falls.of_ok {b : Nat} {ps : List Part} {s : State} (h1 : partsLeft ps < b) (h2 : begun ps) : Falls b (.ok ps s) :=
  fun _ _ e => by cases e; exact ⟨h1, h2⟩

theorem Falls.reply {b : Nat} (hb : 0 < b) (t : Nat) (r : Result) (s : State) : Falls b (reply t r s) :=
  Falls.of_ok hb (by simp [begun])

theorem Falls.withOp {b t : Nat} {s : State} {f : Op → Run (List Part)} (h : ∀ op, Falls b (f op)) :
    Falls b (withOp t s f) := by
  rcases withOp_cases t s f with ⟨op, _, e⟩ | ⟨_, e⟩ <;> rw [e]
  · exact h op
  · exact Falls.raise _ _ _

theorem Falls.finishPoll {b : Nat} (hb : 0 < b) (t : Nat) (op : Op) (p : Phase) (res : Result) (s : State) :
    Falls b (finishPoll t op p res s) := Falls.reply hb t res _

theorem partsLeft_disableParts (c : Chan) (h : Half) (e : Err) : partsLeft (disableParts c h e) = 3 := rfl

theorem begun_disableParts (c : Chan) (h : Half) (e : Err) : begun (disableParts c h e) := by
  simp [begun, disableParts, changeReg]

theorem Falls.checkConnected {b : Nat} (hb : 522 < b) (c : Chan) (h : Half) (x : Bool) (s : State) :
    Falls b (checkConnected c h x s) := by
  simp only [Machine.checkConnected]
  split
  · exact Falls.of_ok hb (by simp [begun])
  · exact Falls.of_ok (by rw [partsLeft_disableParts]; omega) (begun_disableParts _ _ _)

theorem Falls.checkTimeout {b : Nat} (hb : 521 < b) (c : Chan) (h : Half) (timeout start : Option Nat) (s : State) :
    Falls b (checkTimeout c h timeout start s) := by
  simp only [Machine.checkTimeout]
  split
  · exact Falls.of_ok (by rw [partsLeft_disableParts]; omega) (begun_disableParts _ _ _)
  · exact Falls.of_ok hb (by simp [begun])

/-- What an access that is no prologue leads to. -/
theorem Falls.accessStep {a : Access} (ha : a ≠ .prologue) (t : Nat) (s : State) :
    Falls (partLeft (.access a)) (accessStep t a s) := by
  cases a with
  | store a n v =>
    rcases storeStep_cases a n v s with ⟨e, _⟩ | ⟨r, e⟩ <;> rw [Machine.accessStep, e]
    · exact Falls.of_ok (by simp [partsLeft, partLeft]) (by simp [begun])
    · exact Falls.raise _ _ _
  | readReg c change => exact Falls.of_ok (by simp [partsLeft, partLeft]) (by simp [begun])
  | writeReg c change cur => exact Falls.of_ok (by simp [partsLeft, partLeft]) (by simp [begun])
  | load off k todo n got purpose =>
    rcases loadStep_cases off k todo n got purpose s with ⟨w, e⟩ | ⟨r, e⟩ <;> rw [Machine.accessStep, e]
    · cases todo with
      | zero => exact fun _ _ e => by cases e; exact ⟨by simp [loadParts, partsLeft, partLeft], begun_loadParts _ _ _ _ _ _⟩
      | succ todo =>
        refine Falls.of_ok (Nat.lt_of_le_of_lt (partsLeft_loadParts _ _ _ _ _ _) ?_) (begun_loadParts _ _ _ _ _ _)
        simp [partLeft]
    · exact Falls.raise _ _ _
  | claim a =>
    have hp : 0 < partLeft (.access (.claim a)) := partLeft_pos _
    rcases claimStep_cases t a s with e | ⟨_, e⟩ | ⟨_, e⟩ | ⟨size, _, _, _, e⟩ <;> rw [Machine.accessStep, e]
    · exact Falls.raise _ _ _
    · exact Falls.reply hp _ _ _
    · exact Falls.reply hp _ _ _
    · refine Falls.of_ok ?_ ?_
      · have := partsLeft_progHalfParts s.params a.ch a.dir ⟨s.alloc.free, size⟩ a.mps
        simp only [bindParts, partsLeft_append, partsLeft, partLeft, changeReg]
        cases a.purpose <;> simp only [claimLeft, enterLeft] <;> omega
      · exact begun_append (begun_of_storesOrFaults (storesOrFaults_progHalf _ _ _ _ _)) (by simp [begun, changeReg])
  | prologue => exact absurd rfl ha
  | register sl => exact Falls.of_ok (by simp [partsLeft, partLeft]) (by simp [begun])
  | readIstr =>
    refine Falls.withOp fun op => ?_
    cases op with
    | read r => exact Falls.checkConnected (by simp [partLeft]) _ _ _ _
    | write w => exact Falls.checkConnected (by simp [partLeft]) _ _ _ _
    | busWait b =>
      simp only
      split
      · exact Falls.finishPoll (by simp [partLeft]) _ _ _ _ _
      · exact Falls.reply (by simp [partLeft]) _ _ _
  | clock =>
    refine Falls.withOp fun op => ?_
    cases op with
    | read r => exact Falls.checkTimeout (by simp [partLeft]) _ _ _ _ _
    | write w => exact Falls.checkTimeout (by simp [partLeft]) _ _ _ _ _
    | busWait b => exact Falls.raise _ _ _
  | inspect =>
    refine Falls.withOp fun op => ?_
    cases op with
    | read r =>
      simp only
      split
      · exact Falls.of_ok (by simp [partsLeft, partLeft]) (by simp [begun])
      · exact Falls.finishPoll (by simp [partLeft]) _ _ _ _ _
      · exact Falls.reply (by simp [partLeft]) _ _ _
      · exact Falls.reply (by simp [partLeft]) _ _ _
    | write w =>
      simp only
      split
      · exact Falls.finishPoll (by simp [partLeft]) _ _ _ _ _
      · exact Falls.finishPoll (by simp [partLeft]) _ _ _ _ _
      · exact Falls.reply (by simp [partLeft]) _ _ _
      · exact Falls.reply (by simp [partLeft]) _ _ _
    | busWait b => exact Falls.raise _ _ _
  | readCount =>
    refine Falls.withOp fun op => ?_
    cases op with
    | read r =>
      simp only
      rcases rxLen_cases r.h.index s with ⟨n, e, hn⟩ | ⟨f, e⟩ <;> rw [e]
      · rw [Run.bind_ok]
        split
        · exact Falls.finishPoll (by simp [partLeft]) _ _ _ _ _
        · refine Falls.of_ok ?_ (begun_pmReadParts _ _ _ _)
          rcases pmReadParts_parts s.params r.h.region n .poll with ⟨f, e⟩ | e <;> rw [e]
          · simp [faultParts, partsLeft, partLeft]
          · have : ceilDiv n (granBytes s.params.gran) ≤ 512 := by
              simp only [ceilDiv]
              cases s.params.gran <;> simp only [granBytes] <;> omega
            refine Nat.lt_of_le_of_lt (partsLeft_loadParts _ _ _ _ _ _) ?_
            simp only [partLeft]
            omega
      · exact Falls.raise _ _ _
    | write w => exact Falls.raise _ _ _
    | busWait b => exact Falls.raise _ _ _

/-- What a task's own doing leads to. -/
theorem Falls.ownStep (o : Own) (t : Nat) (s : State) : Falls (partLeft (.own o)) (ownStep t o s) := by
  have hp : 0 < partLeft (.own o) := partLeft_pos _
  cases o with
  | raise r => exact Falls.raise _ _ _
  | reply r => exact Falls.reply hp _ _ _
  | enter a r =>
    obtain ⟨more, s', e, _, hm⟩ := enterHandle_cases t a r s
    rw [Machine.ownStep, e]
    rcases hm with rfl | ⟨hi, hr, rfl⟩
    · exact Falls.of_ok hp (by simp [begun])
    · exact Falls.of_ok (by simp [partsLeft, partLeft, hr, secondClaim, claimLeft, enterLeft]) (by simp [begun])
  | unpacked bytes purpose =>
    cases purpose with
    | caller => exact Falls.reply hp _ _ _
    | poll =>
      refine Falls.withOp fun op => ?_
      cases op with
      | read r =>
        simp only
        split
        · exact Falls.finishPoll hp _ _ _ _ _
        · exact fun _ _ e => by
            cases e
            exact ⟨by simp [partsLeft, partLeft, changeReg], by simp [begun, changeReg]⟩
      | write w => exact Falls.raise _ _ _
      | busWait b => exact Falls.raise _ _ _
  | armed => exact Falls.withOp fun op => Falls.of_ok hp (by simp [begun])
  | fail e => exact Falls.withOp fun op => Falls.finishPoll hp _ _ _ _ _
  | rearmed => exact Falls.withOp fun op => Falls.reply hp _ _ _

theorem settle_falls {ps : List Part} (hb : begun ps) (t : Nat) (s : State) {ps' : List Part} {s' : State}
    (e : settle t ps s = .ok ps' s') : partsLeft ps' ≤ partsLeft ps ∧ begun ps' := by
  induction ps generalizing s with
  | nil => cases e; exact ⟨Nat.le_refl _, hb⟩
  | cons p rest ih =>
    have hr : begun rest := fun h => hb (List.mem_cons_of_mem _ h)
    cases p with
    | access a => cases e; exact ⟨Nat.le_refl _, hb⟩
    | own o =>
      simp only [settle] at e
      obtain ⟨more, s1, e1, e⟩ := Run.bind_eq_ok e
      have hf := Falls.ownStep o t s more s1 e1
      cases more with
      | nil =>
        have := ih hr s1 e
        exact ⟨by simp only [partsLeft]; omega, this.2⟩
      | cons m ms =>
        cases e
        refine ⟨?_, begun_append hf.2 hr⟩
        rw [partsLeft_append]
        simp only [partsLeft] at hf ⊢
        omega

/-- Every step of a command leaves less of it. -/
theorem advance_falls {ps : List Part} (hne : ps ≠ []) (hb : begun ps) (t : Nat) (s : State) {ps' : List Part}
    {s' : State} (e : advance t ps s = .ok ps' s') : partsLeft ps' < partsLeft ps ∧ begun ps' := by
  cases ps with
  | nil => exact absurd rfl hne
  | cons p rest =>
    have hr : begun rest := fun h => hb (List.mem_cons_of_mem _ h)
    cases p with
    | access a =>
      simp only [advance] at e
      obtain ⟨more, s1, e1, e⟩ := Run.bind_eq_ok e
      have hf := Falls.accessStep (a := a) (fun h => hb (by simp [h])) t s more s1 e1
      have hs := settle_falls (begun_append hf.2 hr) t s1 e
      rw [partsLeft_append] at hs
      simp only [partsLeft]
      exact ⟨by omega, hs.2⟩
    | own o =>
      simp only [advance, settle] at e
      obtain ⟨more, s1, e1, e⟩ := Run.bind_eq_ok e
      have hf := Falls.ownStep o t s more s1 e1
      cases more with
      | nil =>
        have := settle_falls hr t s1 e
        simp only [partsLeft]
        exact ⟨by have := partLeft_pos (.own o); omega, this.2⟩
      | cons m ms =>
        cases e
        refine ⟨?_, begun_append hf.2 hr⟩
        rw [partsLeft_append]
        simp only [partsLeft] at hf ⊢
        omega

theorem checkParts_begun (op : Op) : begun (checkParts op) := by simp [begun, checkParts]

/-- A poll's prologue leaves none. -/
theorem pollPrologue_begun {t : Nat} {s s' : State} {more : List Part} (e : pollPrologue t s = .ok more s') :
    begun more := by
  simp only [pollPrologue] at e
  rcases withOp_cases t s _ with ⟨op, _, e'⟩ | ⟨_, e'⟩ <;> rw [e'] at e
  · split at e
    · cases e
    · cases op with
      | read r =>
        simp only [pollParts] at e
        split at e <;> cases e
        · exact begun_append (by simp [begun, armReadParts, changeReg]) (checkParts_begun _)
        · exact checkParts_begun _
      | write w =>
        simp only [pollParts] at e
        split at e <;> cases e
        · exact begun_append (begun_append (begun_of_storesOrFaults (storesOrFaults_progTx _ _ _ _))
            (begun_append (begun_of_storesOrFaults (storesOrFaults_pmWrite _ _ _)) (by simp [begun, changeReg])))
            (checkParts_begun _)
        · exact checkParts_begun _
      | busWait b => cases e; exact checkParts_begun _
  · cases e

/-- What a command has to do as it is begun: a poll starts with its prologue, no other command has one. -/
theorem begin_begun {i : Instr} {o : Side} {s s' : State} {ps : List Part} (e : begin i o s = .ok ps s') :
    (i = .epPoll ∧ ps = [.access .prologue]) ∨ begun ps := by
  have unit : ∀ {qs : List Part}, storesOrFaults qs = true → begun (qs ++ [replyUnit]) := fun h =>
    begun_append (begun_of_storesOrFaults h) (by simp [begun, replyUnit])
  have rep : ∀ {t r s}, reply t r s = .ok ps s' → begun ps := fun h => by cases h; simp [begun]
  have bnd : ∀ {α : Type} {r : Run α} {f : α → State → Run (List Part)}, r.bind f = .ok ps s' →
      (∀ a s1, f a s1 = .ok ps s' → begun ps) → begun ps := fun h hf => by
    obtain ⟨a, s1, _, h⟩ := Run.bind_eq_ok h
    exact hf a s1 h
  cases i with
  | epPoll => left; cases e; exact ⟨rfl, rfl⟩
  | pmAlloc => exact .inr (bnd e fun a s1 h => by cases a <;> exact rep h)
  | pmReset | bdDec | crRead | crCanon => exact .inr (rep e)
  | bdEnc | bdRxlen | epRead => exact .inr (bnd e fun a s1 h => rep h)
  | bdProgrx => right; cases e; exact unit (storesOrFaults_progRx _ _ _ _)
  | bdProgtx => right; cases e; exact unit (storesOrFaults_progTx _ _ _ _)
  | pmWrite => right; cases e; exact unit (storesOrFaults_pmWrite _ _ _)
  | pmRead => right; cases e; exact begun_pmReadParts _ _ _ _
  | crSetstat | crClrctr | crClrerr | crInit | crTouch => right; cases e; simp [begun, changeReg, replyUnit]
  | irqDispatch => right; cases e; simp [begun]
  | epWrite =>
    exact .inr (bnd e fun a s1 h => by
      split at h
      · cases h
      · split at h
        · cases h
        · exact rep h)
  | busWait =>
    right
    simp only [begin, beginBusWait] at e
    split at e
    · cases e
    · exact rep e
  | chClaim | chReconf0 => right; cases e; simp [begun]
  | chDrop =>
    right
    simp only [begin, beginChDrop] at e
    split at e
    · cases e
    · split at e
      · cases e
      · exact rep e

/-- After its first step a command's bound falls at every step. -/
theorem firstStep_begun {i : Instr} {o : Side} {s s' : State} {ps : List Part}
    (e : firstStep o.task (begin i o s) = .ok ps s') : begun ps := by
  obtain ⟨qs, s1, e1, e⟩ := Run.bind_eq_ok e
  rcases begin_begun e1 with ⟨_, rfl⟩ | hb
  · simp only [advance] at e
    obtain ⟨more, s2, e2, e⟩ := Run.bind_eq_ok e
    rw [List.append_nil] at e
    exact (settle_falls (pollPrologue_begun e2) _ _ e).2
  · cases qs with
    | nil => cases e; exact hb
    | cons q qs => exact (advance_falls (by simp) hb _ _ e).2

/-- A command run to its end has nothing left. -/
theorem finish_nothing {fuel : Nat} {ps ps' : List Part} {s s' : State} (hb : begun ps) (hf : partsLeft ps ≤ fuel)
    (e : finish fuel ps s = .ok ps' s') : ps' = [] := by
  induction fuel generalizing ps s with
  | zero => cases e; exact partsLeft_eq_zero (by omega)
  | succ n ih =>
    cases ps with
    | nil => cases e; rfl
    | cons p rest =>
      simp only [finish] at e
      obtain ⟨_, s1, _, e⟩ := Run.bind_eq_ok e
      obtain ⟨qs, s2, e2, e⟩ := Run.bind_eq_ok e
      have h := advance_falls (by simp) hb s1.task s1 e2
      exact ih h.2 (by omega) e

/-- More fuel than the bound changes nothing. -/
theorem finish_fuel {ps : List Part} (hb : begun ps) {fuel : Nat} (hf : partsLeft ps ≤ fuel) (s : State) :
    finish fuel ps s = finish (partsLeft ps) ps s := by
  have key : ∀ n m ps s, begun ps → partsLeft ps ≤ n → partsLeft ps ≤ m → finish n ps s = finish m ps s := by
    intro n
    induction n with
    | zero =>
      intro m ps s _ h _
      have := partsLeft_eq_zero (by omega : partsLeft ps = 0)
      subst this
      cases m <;> rfl
    | succ n ih =>
      intro m ps s hb hn hm
      cases ps with
      | nil => cases m <;> rfl
      | cons p rest =>
        cases m with
        | zero =>
          have h0 := partsLeft_eq_zero (by omega : partsLeft (p :: rest) = 0)
          cases h0
        | succ m =>
          simp only [finish]
          cases e1 : taskPoint s with
          | halt s1 => rfl
          | ok _ s1 =>
            simp only [Run.bind_ok]
            cases e2 : advance s1.task (p :: rest) s1 with
            | halt s2 => rfl
            | ok qs s2 =>
              have h := advance_falls (by simp) hb s1.task s1 e2
              simp only [Run.bind_ok]
              exact ih m qs s2 h.2 (by omega) (by omega)
  exact key _ _ _ _ hb hf (Nat.le_refl _)

/-- What is left of the current task's command, run to its end. -/
def finishAll (ps : List Part) (s : State) : Run (List Part) := finish (partsLeft ps) ps s

@[simp] theorem finishAll_nil (s : State) : finishAll [] s = .ok [] s := rfl

/-- One point, one step, and the rest. -/
theorem finishAll_cons {p : Part} {ps : List Part} (hb : begun (p :: ps)) (s : State) :
    finishAll (p :: ps) s =
      (taskPoint s).bind fun _ s => (advance s.task (p :: ps) s).bind fun qs s => finishAll qs s := by
  have hpos := partLeft_pos p
  obtain ⟨n, hn⟩ : ∃ n, partsLeft (p :: ps) = n + 1 := ⟨partsLeft (p :: ps) - 1, by simp only [partsLeft]; omega⟩
  simp only [finishAll]
  rw [hn]
  simp only [finish]
  cases e1 : taskPoint s with
  | halt s1 => rfl
  | ok _ s1 =>
    simp only [Run.bind_ok]
    cases e2 : advance s1.task (p :: ps) s1 with
    | halt s2 => rfl
    | ok qs s2 =>
      have h := advance_falls (by simp) hb s1.task s1 e2
      simp only [Run.bind_ok]
      exact finish_fuel h.2 (by omega) s2

/-- A command of a task is its first step and the rest. -/
theorem runCommand_finishAll (s : State) (r : Run (List Part)) :
    runCommand s r = .next ((firstStep s.task r).bind finishAll).state := runCommand_eq s r

/-- Every command of a task runs what it has to do. -/
theorem exec_eq_runCommand {i : Instr} (hi : i ≠ .irqDispatch) (s : State) :
    exec i s = runCommand s (begin i (sideOf s) s) := by
  cases i <;> first | exact absurd rfl hi | rfl

end Sys2Proof.Machine
end

