-- ==== Sys2Proof/Laws/Closed.lean ====
section
/-! SUPPORT. Induction over the interleaving, packaged once: a property of a state and of what each task has left to do,
kept by the environment, the dispatcher and every step of a command, is kept by every step of any agent, every point
within a command, and every command run to its end. -/

namespace Sys2Proof.Machine

/-- What each task has left, a command that is being run included: `b` is its task and what is left of it. -/
def leftWith (b : Option (Nat × List Part)) (s : State) (t : Nat) : List Part :=
  match b with
  | some (u, ps) => if t = u then ps else partsOf s t
  | none => partsOf s t

theorem leftWith_congr {s s' : State} (h : s'.inProgress = s.inProgress) (b : Option (Nat × List Part)) :
    leftWith b s' = leftWith b s := by
  funext t
  cases b <;> simp [leftWith, partsOf_congr h]

/-- A task takes a step that leaves `ps` of its command, within nobody's command or another task's. -/
theorem leftWith_putParts {b : Option (Nat × List Part)} {t : Nat} (h : b.map Prod.fst ≠ some t) {s s' : State}
    (hs : s'.inProgress = s.inProgress) (ps : List Part) :
    leftWith b (putParts s' t ps) = Function.update (leftWith b s) t ps := by
  funext u
  cases b with
  | none =>
    simp only [leftWith, partsOf_putParts, Function.update_apply, partsOf_congr hs]
  | some b =>
    have ht : b.1 ≠ t := fun e => h (by simp [e])
    simp only [leftWith, partsOf_putParts, Function.update_apply, partsOf_congr hs]
    by_cases e : u = b.1
    · subst e; rw [if_pos rfl, if_neg ht, if_pos rfl]
    · rw [if_neg e, if_neg e]

theorem leftWith_of_ne {b : Option (Nat × List Part)} {t : Nat} (h : b.map Prod.fst ≠ some t) (s : State) :
    leftWith b s t = partsOf s t := by
  cases b with
  | none => rfl
  | some b => simp only [leftWith]; rw [if_neg fun e => h (by simp [e])]

/-- A command of which nothing is left is no command in progress. -/
theorem leftWith_idle {s : State} {t : Nat} (h : partsOf s t = []) : leftWith (some (t, [])) s = partsOf s := by
  funext u
  simp only [leftWith]
  split
  · subst_vars; exact h.symm
  · rfl

/-- Properties of a state and of what each task has left. -/
abbrev LeftProp := (Nat → List Part) → State → Prop

/-- The run keeps the property, `next` being what the tasks have left after it. -/
def Keeps (P : LeftProp) (left : Nat → List Part) (t : Nat) (r : Run (List Part)) : Prop :=
  (∀ ps s', r = .ok ps s' → P (Function.update left t ps) s') ∧ ∀ s', r = .halt s' → P left s'

/-- Kept by the environment and the dispatcher, by the model's own bookkeeping, by the first step of an admitted command
and by every next step. -/
structure StepClosed (adm : Instr → Prop) (P : LeftProp) : Prop where
  quiet : ∀ left s (r : Run Unit), QuietRun s r → P left s → P left r.state
  put : ∀ left s t ps, P left s → P left (putParts s t ps)
  slots : ∀ left s x, P left s → P left { s with slots := x }
  report : ∀ left s t w, P left s → P left (handOut (.task t) (.invalid w) s)
  first : ∀ left s i (o : Side), adm i → left o.task = [] → P left s → Keeps P left o.task (firstStep o.task (begin i o s))
  next : ∀ left s t, left t ≠ [] → P left s → Keeps P left t (advance t (left t) s)

/-- The event starts no command that is not admitted. -/
def Admitted (adm : Instr → Prop) (e : Event) : Prop := ∀ c i, e = .start c → issued c.code = .instr i → adm i

variable {adm : Instr → Prop} {P : LeftProp}

/-- A task that may start a command has none in progress. -/
theorem free_of_not_occupied {busy : Option Nat} {t : Nat} {s : State} (h : ¬ occupied busy t s = true) :
    busy ≠ some t ∧ partsOf s t = [] := by
  simpa [occupied, hasCommand, not_or] using h

theorem keepParts_closed (H : StepClosed adm P) {b : Option (Nat × List Part)} {t : Nat} (hb : b.map Prod.fst ≠ some t)
    {s : State} {r : Run (List Part)} (hr : TaskRun t s r) (hk : Keeps P (leftWith b s) t r) :
    P (leftWith b (keepParts t r).state) (keepParts t r).state := by
  have hi := hr.steady.inProgress
  cases r with
  | ok ps s1 =>
    simp only [keepParts, Run.bind_ok, Run.state_ok] at hi ⊢
    rw [leftWith_putParts hb hi]
    exact H.put _ _ _ _ (hk.1 ps s1 rfl)
  | halt s1 =>
    simp only [keepParts, Run.bind_halt, Run.state_halt] at hi ⊢
    rw [leftWith_congr hi]
    exact hk.2 s1 rfl

/-- Every step of any agent, on its own or within a command of the task that `b` names. -/
theorem eventStep_closed (H : StepClosed adm P) (b : Option (Nat × List Part)) {e : Event} (he : Admitted adm e)
    {s : State} (h : P (leftWith b s) s) :
    P (leftWith b (eventStep (b.map Prod.fst) e s).state) (eventStep (b.map Prod.fst) e s).state := by
  have quiet : ∀ {r : Run Unit}, QuietRun s r → P (leftWith b r.state) r.state := fun hr => by
    rw [leftWith_congr hr.quiet.inProgress]
    exact H.quiet _ _ _ hr h
  cases e with
  | env e => exact quiet (QuietRun.envEvent _ e s)
  | irq between => exact quiet (QuietRun.irqEvent _ between s)
  | start c =>
    simp only [eventStep, startStep]
    cases hi : issued c.code with
    | invalid w =>
      simp only [Run.state_ok]
      rw [leftWith_congr (handOut_inProgress _ _ s)]
      exact H.report _ _ _ _ h
    | fault r =>
      simp only
      split
      · exact h
      · exact quiet (QuietRun.raise r s)
    | instr i =>
      simp only
      split
      · exact h
      · rename_i hn
        have hn := free_of_not_occupied hn
        exact keepParts_closed H hn.1 (TaskRun.firstStep i c.toSide s)
          (H.first _ _ i c.toSide (he c i rfl hi) ((leftWith_of_ne hn.1 s).trans hn.2) h)
  | resume t =>
    simp only [eventStep]
    split
    · exact h
    · rename_i hn
      simp only [resumeStep]
      have ht := leftWith_of_ne hn s
      cases hp : partsOf s t with
      | nil => exact h
      | cons p ps =>
        simp only
        have hk := H.next _ s t (by rw [ht, hp]; simp) h
        rw [ht, hp] at hk
        exact keepParts_closed H hn (TaskRun.advance t _ s) hk

/-- What a step of any agent leaves of the model's own fields. -/
structure EventFrame (s s' : State) : Prop where
  task : s'.task = s.task
  slots : s'.slots = s.slots
  inputs : s'.inputs = s.inputs
  params : s'.params = s.params

theorem EventFrame.refl (s : State) : EventFrame s s := ⟨rfl, rfl, rfl, rfl⟩

theorem EventFrame.trans {a b c : State} (h1 : EventFrame a b) (h2 : EventFrame b c) : EventFrame a c :=
  ⟨h2.task.trans h1.task, h2.slots.trans h1.slots, h2.inputs.trans h1.inputs, h2.params.trans h1.params⟩

theorem EventFrame.of_quiet {s s' : State} (h : Quiet s s') : EventFrame s s' := ⟨h.task, h.slots, h.inputs, h.params⟩

theorem EventFrame.of_steady {t : Nat} {s s' : State} (h : Steady t s s') : EventFrame s s' :=
  ⟨h.task, h.slots, h.inputs, h.params⟩

theorem EventFrame.keepParts {t : Nat} {s : State} {r : Run (List Part)} (hr : TaskRun t s r) :
    EventFrame s (keepParts t r).state := by
  have h := EventFrame.of_steady hr.steady
  cases r with
  | ok ps s1 => exact h.trans ⟨rfl, rfl, rfl, rfl⟩
  | halt s1 => exact h

theorem EventFrame.eventStep (b : Option Nat) (e : Event) (s : State) : EventFrame s (eventStep b e s).state := by
  cases e with
  | env e => exact EventFrame.of_quiet (QuietRun.envEvent _ e s).quiet
  | irq between => exact EventFrame.of_quiet (QuietRun.irqEvent _ between s).quiet
  | start c =>
    simp only [Machine.eventStep, startStep]
    split
    · split
      · exact EventFrame.refl s
      · exact EventFrame.keepParts (TaskRun.firstStep _ c.toSide s)
    · split
      · exact EventFrame.refl s
      · exact EventFrame.of_quiet (QuietRun.raise (α := Unit) _ s).quiet
    · exact ⟨rfl, rfl, rfl, rfl⟩
  | resume t =>
    simp only [Machine.eventStep]
    split
    · exact EventFrame.refl s
    · simp only [resumeStep]
      split
      · exact EventFrame.refl s
      · exact EventFrame.keepParts (TaskRun.advance t _ s)

theorem EventFrame.eventSteps (b : Option Nat) (es : List Event) (s : State) : EventFrame s (eventSteps b es s).state := by
  induction es generalizing s with
  | nil => exact EventFrame.refl s
  | cons e rest ih =>
    have h := EventFrame.eventStep b e s
    simp only [Machine.eventSteps]
    cases hr : Machine.eventStep b e s with
    | halt s1 => rw [hr] at h; exact h
    | ok _ s1 => rw [hr] at h; exact h.trans (ih s1)

/-- A run of steps of other agents. -/
theorem eventSteps_closed (H : StepClosed adm P) (b : Option (Nat × List Part)) {es : List Event}
    (he : ∀ e ∈ es, Admitted adm e) {s : State} (h : P (leftWith b s) s) :
    P (leftWith b (eventSteps (b.map Prod.fst) es s).state) (eventSteps (b.map Prod.fst) es s).state := by
  induction es generalizing s with
  | nil => exact h
  | cons e rest ih =>
    have h1 := eventStep_closed H b (he e (by simp)) h
    simp only [eventSteps]
    cases hr : eventStep (b.map Prod.fst) e s with
    | halt s1 => rw [hr] at h1; exact h1
    | ok _ s1 => rw [hr] at h1; exact ih (fun e h => he e (by simp [h])) h1

/-- The steps at the points of the running command start only admitted commands. -/
def slotsAdmitted (adm : Instr → Prop) (s : State) : Prop := ∀ es ∈ s.slots, ∀ e ∈ es, Admitted adm e

/-- A point within the current task's command, of which `ps` is left. -/
theorem taskPoint_closed (H : StepClosed adm P) {ps : List Part} {s : State} (ha : slotsAdmitted adm s)
    (h : P (leftWith (some (s.task, ps)) s) s) :
    P (leftWith (some ((taskPoint s).state.task, ps)) (taskPoint s).state) (taskPoint s).state ∧
      (taskPoint s).state.task = s.task ∧ slotsAdmitted adm (taskPoint s).state := by
  simp only [taskPoint]
  cases hs : s.slots with
  | nil => exact ⟨h, rfl, ha⟩
  | cons es rest =>
    have f := EventFrame.eventSteps (some s.task) es { s with slots := rest }
    have hc := eventSteps_closed H (some (s.task, ps)) (fun e he => ha es (by simp [hs]) e he)
      (s := { s with slots := rest }) (H.slots _ _ rest h)
    refine ⟨?_, f.task, ?_⟩
    · rw [show (eventSteps (some s.task) es { s with slots := rest }).state.task = s.task from f.task]
      exact hc
    · intro fs hfs
      rw [show (eventSteps (some s.task) es { s with slots := rest }).state.slots = rest from f.slots] at hfs
      exact ha fs (by simp [hs, hfs])

/-- The rest of a command. -/
theorem finish_closed (H : StepClosed adm P) {fuel : Nat} {ps : List Part} {s : State} (ha : slotsAdmitted adm s)
    (h : P (leftWith (some (s.task, ps)) s) s) :
    (∀ ps' s', finish fuel ps s = .ok ps' s' → P (leftWith (some (s'.task, ps')) s') s') ∧
      ∀ s', finish fuel ps s = .halt s' → ∃ qs, P (leftWith (some (s'.task, qs)) s') s' := by
  induction fuel generalizing ps s with
  | zero => exact ⟨fun _ _ e => by cases e; exact h, fun _ e => by cases e⟩
  | succ n ih =>
    cases ps with
    | nil => exact ⟨fun _ _ e => by cases e; exact h, fun _ e => by cases e⟩
    | cons p rest =>
      simp only [finish]
      obtain ⟨h1, ht, ha1⟩ := taskPoint_closed H ha h
      cases e1 : taskPoint s with
      | halt s1 =>
        rw [e1] at h1
        exact ⟨fun _ _ e => (by cases e), fun _ e => by cases e; exact ⟨_, h1⟩⟩
      | ok _ s1 =>
        rw [e1] at h1 ha1
        simp only [Run.bind_ok, Run.state_ok] at h1 ha1 ⊢
        have hl : leftWith (some (s1.task, p :: rest)) s1 s1.task = p :: rest := by simp [leftWith]
        have hk := H.next _ s1 s1.task (by rw [hl]; simp) h1
        rw [hl] at hk
        have hr := TaskRun.advance s1.task (p :: rest) s1
        have hu : ∀ s2 qs, s2.inProgress = s1.inProgress → s2.task = s1.task →
            leftWith (some (s2.task, qs)) s2 = Function.update (leftWith (some (s1.task, p :: rest)) s1) s1.task qs := by
          intro s2 qs hi h2
          funext u
          simp only [leftWith, Function.update_apply, h2, partsOf_congr hi]
          split <;> rfl
        cases e2 : advance s1.task (p :: rest) s1 with
        | halt s2 =>
          rw [e2] at hk hr
          refine ⟨fun _ _ e => (by cases e), fun _ e => by
            cases e
            refine ⟨p :: rest, ?_⟩
            have hself := Function.update_eq_self s1.task (leftWith (some (s1.task, p :: rest)) s1)
            rw [hl] at hself
            rw [hu s2 _ hr.steady.inProgress hr.steady.task, hself]
            exact hk.2 _ rfl⟩
        | ok qs s2 =>
          rw [e2] at hk hr
          have hp := hk.1 qs s2 rfl
          rw [← hu s2 qs hr.steady.inProgress hr.steady.task] at hp
          have ha2 : slotsAdmitted adm s2 := fun es hes => ha1 es (by rw [← hr.steady.slots]; exact hes)
          simpa using ih ha2 hp

/-! The task whose command is run has no other command in progress. -/

/-- A step of any agent within the command of task `t` starts and ends no command of `t`. -/
theorem eventStep_busy (t : Nat) (e : Event) (s : State) : partsOf (eventStep (some t) e s).state t = partsOf s t := by
  have keep : ∀ {u : Nat} {r : Run (List Part)}, t ≠ u → TaskRun u s r →
      partsOf (keepParts u r).state t = partsOf s t := fun {u r} hn hr => by
    have hi := hr.steady.inProgress
    cases r with
    | ok ps s1 =>
      simp only [keepParts, Run.bind_ok, Run.state_ok] at hi ⊢
      rw [partsOf_putParts, if_neg hn]
      exact partsOf_congr hi t
    | halt s1 => exact partsOf_congr hi t
  cases e with
  | env e => exact partsOf_congr (QuietRun.envEvent _ e s).quiet.inProgress t
  | irq between => exact partsOf_congr (QuietRun.irqEvent _ between s).quiet.inProgress t
  | start c =>
    simp only [eventStep, startStep]
    split
    · split
      · rfl
      · rename_i hn
        exact keep (fun e => (free_of_not_occupied hn).1 (congrArg some e)) (TaskRun.firstStep _ c.toSide s)
    · split
      · rfl
      · rfl
    · rfl
  | resume u =>
    simp only [eventStep]
    split
    · rfl
    · rename_i hn
      simp only [Option.some.injEq] at hn
      simp only [resumeStep]
      split
      · rfl
      · exact keep hn (TaskRun.advance u _ s)

theorem eventSteps_busy (t : Nat) (es : List Event) (s : State) :
    partsOf (eventSteps (some t) es s).state t = partsOf s t := by
  induction es generalizing s with
  | nil => rfl
  | cons e rest ih =>
    have h := eventStep_busy t e s
    simp only [eventSteps]
    cases hr : eventStep (some t) e s with
    | halt s1 => rw [hr] at h; exact h
    | ok _ s1 => rw [hr] at h; exact (ih s1).trans h

theorem taskPoint_busy (s : State) :
    (taskPoint s).state.task = s.task ∧ partsOf (taskPoint s).state s.task = partsOf s s.task := by
  simp only [taskPoint]
  split
  · exact ⟨rfl, rfl⟩
  · rename_i es rest _
    exact ⟨(EventFrame.eventSteps (some s.task) es { s with slots := rest }).task,
      eventSteps_busy s.task es { s with slots := rest }⟩

/-- Running the rest of a command leaves the record of its task alone. -/
theorem finish_busy (fuel : Nat) (ps : List Part) (s : State) :
    (finish fuel ps s).state.task = s.task ∧ partsOf (finish fuel ps s).state s.task = partsOf s s.task := by
  induction fuel generalizing ps s with
  | zero => exact ⟨rfl, rfl⟩
  | succ n ih =>
    cases ps with
    | nil => exact ⟨rfl, rfl⟩
    | cons p rest =>
      have h1 := taskPoint_busy s
      simp only [finish]
      cases e1 : taskPoint s with
      | halt s1 => rw [e1] at h1; exact h1
      | ok _ s1 =>
        rw [e1, Run.state_ok] at h1
        have hr := (TaskRun.advance s1.task (p :: rest) s1).steady
        simp only [Run.bind_ok]
        cases e2 : advance s1.task (p :: rest) s1 with
        | halt s2 =>
          rw [e2, Run.state_halt] at hr
          exact ⟨hr.task.trans h1.1, (partsOf_congr hr.inProgress _).trans h1.2⟩
        | ok qs s2 =>
          rw [e2, Run.state_ok] at hr
          have h3 := ih qs s2
          have ht := hr.task.trans h1.1
          rw [ht] at h3
          exact ⟨h3.1, h3.2.trans ((partsOf_congr hr.inProgress _).trans h1.2)⟩

/-! A fault is set exactly when a run stops. -/

/-- A run that goes on leaves the fault as it was; one that stops has set it. -/
structure FaultRun {α : Type} (s : State) (r : Run α) : Prop where
  ok : ∀ a s', r = .ok a s' → s'.fault = s.fault
  halt : ∀ s', r = .halt s' → s'.fault ≠ none

theorem FaultRun.of_ok {α : Type} {s s' : State} (a : α) (hf : s'.fault = s.fault) : FaultRun s (.ok a s' : Run α) :=
  ⟨fun _ _ e => by cases e; exact hf, fun _ e => by cases e⟩

theorem FaultRun.of_quiet {α : Type} {s : State} {r : Run α} (h : QuietRun s r) : FaultRun s r := ⟨h.ok, h.halt⟩

theorem FaultRun.of_task {t : Nat} {s : State} {r : Run (List Part)} (h : TaskRun t s r) : FaultRun s r := ⟨h.ok, h.halt⟩

theorem FaultRun.bind {α β : Type} {s : State} {r : Run α} {f : α → State → Run β} (h : FaultRun s r)
    (hf : ∀ a s1, r = .ok a s1 → FaultRun s1 (f a s1)) : FaultRun s (r.bind f) := by
  cases r with
  | ok a s1 =>
    have h1 := hf a s1 rfl
    have h0 := h.ok a s1 rfl
    exact ⟨fun b s2 e => (h1.ok b s2 e).trans h0, h1.halt⟩
  | halt s1 => exact ⟨fun _ _ e => (by cases e), fun s2 e => by cases e; exact h.halt s1 rfl⟩

theorem FaultRun.keepParts {t : Nat} {s : State} {r : Run (List Part)} (h : FaultRun s r) : FaultRun s (keepParts t r) :=
  h.bind fun _ s1 _ => FaultRun.of_ok () (by simp)

theorem FaultRun.eventStep (b : Option Nat) (e : Event) (s : State) : FaultRun s (eventStep b e s) := by
  cases e with
  | env e => exact FaultRun.of_quiet (QuietRun.envEvent b e s)
  | irq between => exact FaultRun.of_quiet (QuietRun.irqEvent b between s)
  | start c =>
    simp only [Machine.eventStep, startStep]
    split
    · split
      · exact FaultRun.of_ok () rfl
      · exact FaultRun.keepParts (FaultRun.of_task (TaskRun.firstStep _ c.toSide s))
    · split
      · exact FaultRun.of_ok () rfl
      · exact FaultRun.of_quiet (QuietRun.raise _ s)
    · exact FaultRun.of_ok () rfl
  | resume t =>
    simp only [Machine.eventStep]
    split
    · exact FaultRun.of_ok () rfl
    · simp only [resumeStep]
      split
      · exact FaultRun.of_ok () rfl
      · exact FaultRun.keepParts (FaultRun.of_task (TaskRun.advance t _ s))

theorem FaultRun.eventSteps (b : Option Nat) (es : List Event) (s : State) : FaultRun s (eventSteps b es s) := by
  induction es generalizing s with
  | nil => exact FaultRun.of_ok () rfl
  | cons e rest ih => exact (FaultRun.eventStep b e s).bind fun _ s1 _ => ih s1

theorem FaultRun.taskPoint (s : State) : FaultRun s (taskPoint s) := by
  simp only [Machine.taskPoint]
  split
  · exact FaultRun.of_ok () rfl
  · rename_i es rest _
    have h := FaultRun.eventSteps (some s.task) es { s with slots := rest }
    exact ⟨h.ok, h.halt⟩

theorem FaultRun.finish (fuel : Nat) (ps : List Part) (s : State) : FaultRun s (finish fuel ps s) := by
  induction fuel generalizing ps s with
  | zero => exact FaultRun.of_ok _ rfl
  | succ n ih =>
    cases ps with
    | nil => exact FaultRun.of_ok _ rfl
    | cons p rest =>
      exact (FaultRun.taskPoint s).bind fun _ s1 _ =>
        (FaultRun.of_task (TaskRun.advance s1.task _ s1)).bind fun qs s2 _ => ih qs s2

/-! Commands run to their end. -/

/-- A command of a task that has none in progress, run to its end: it has none after it, and the property holds of what
the tasks have left, or else the command ended in a fault. -/
theorem runCommand_closed (H : StepClosed adm P) {i : Instr} {s s' : State} (ha : slotsAdmitted adm s)
    (hf : partsOf s s.task = []) (hk : Keeps P (partsOf s) s.task (firstStep s.task (begin i (sideOf s) s)))
    (e : runCommand s (begin i (sideOf s) s) = .next s') :
    (s'.task = s.task ∧ partsOf s' s.task = []) ∧
      (P (partsOf s') s' ∨ s'.fault ≠ none ∧ ∃ qs, P (leftWith (some (s'.task, qs)) s') s') := by
  have hr := TaskRun.firstStep i (sideOf s) s
  have hu : ∀ s2 qs, s2.inProgress = s.inProgress → s2.task = s.task →
      leftWith (some (s2.task, qs)) s2 = Function.update (partsOf s) s.task qs := by
    intro s2 qs hi h2
    funext u
    simp only [leftWith, Function.update_apply, h2, partsOf_congr hi]
  simp only [runCommand] at e
  have htask : (sideOf s).task = s.task := rfl
  rw [htask] at hr
  cases e1 : firstStep s.task (begin i (sideOf s) s) with
  | halt s1 =>
    rw [e1] at e hk hr
    cases e
    have hsame : partsOf s' = partsOf s := funext (partsOf_congr hr.steady.inProgress)
    refine ⟨⟨hr.steady.task, by rw [hsame]; exact hf⟩, .inl ?_⟩
    rw [hsame]
    exact hk.2 _ rfl
  | ok ps s1 =>
    rw [e1] at e hk hr
    have hs := hr.steady
    simp only [Run.bind_ok] at e
    rw [Run.state_ok] at hs
    have hp := hk.1 ps s1 rfl
    rw [← hu s1 ps hs.inProgress hs.task] at hp
    have hfin := finish_closed H (fuel := partsLeft ps) (fun es hes => ha es (by rw [← hs.slots]; exact hes)) hp
    have hff := FaultRun.finish (partsLeft ps) ps s1
    have hb := finish_busy (partsLeft ps) ps s1
    rw [hs.task, partsOf_congr hs.inProgress, hf] at hb
    cases e2 : finish (partsLeft ps) ps s1 with
    | ok qs s2 =>
      rw [e2] at e hb
      cases e
      refine ⟨hb, .inl ?_⟩
      have hnil := finish_nothing (firstStep_begun (o := sideOf s) e1) (Nat.le_refl _) e2
      subst hnil
      have hP := hfin.1 [] _ e2
      rwa [leftWith_idle (by rw [show s'.task = s.task from hb.1]; exact hb.2)] at hP
    | halt s2 =>
      rw [e2] at e hff hb
      cases e
      exact ⟨hb, .inr ⟨hff.halt _ rfl, hfin.2 _ e2⟩⟩

/-! One read-modify-write. -/

/-- No step at a point changes the parameters. -/
theorem taskPoint_params (s : State) : (taskPoint s).state.params = s.params := by
  simp only [taskPoint]
  split
  · rfl
  · rename_i es rest _
    exact (EventFrame.eventSteps (some s.task) es { s with slots := rest }).params

/-- A command that is one read-modify-write (44_channel_register.md R192–R197), whatever other agents do at its point: the
word computed from the value read is written to the register as it stands then. -/
theorem runCommand_changeReg {s s1 : State} (c : Chan) (change : RegChange) (h : taskPoint s = .ok () s1) :
    runCommand s (.ok [changeReg c change, .own (.reply (.ok .unit))] s) = .next (handOut (.task s.task) (.ok .unit)
      (writeChep (.task s.task) c (changeWord s.params c (readChep s c) change) s1)) := by
  have ht := (taskPoint_busy s).1
  have hp := taskPoint_params s
  rw [h] at ht hp
  simp only [Run.state_ok] at ht hp
  simp [runCommand, firstStep, changeReg, advance, accessStep, readForChange, settle, ownStep, finish, partsLeft, partLeft,
    h, writeChange, reply, ht, hp]

end Sys2Proof.Machine
end

