-- ==== Sys2Proof/Laws/Growing.lean ====
section
/-! SUPPORT. Properties that only speak of single parts of what the tasks have left: it is enough that each access and each
doing of a task keeps them, what it leads to being added. With it: what no step undoes, and the bits of the channel
registers that no step changes. -/

namespace Sys2Proof.Machine

/-- What a run leads to is added to what task `t` has left. -/
def Adds (P : LeftProp) (left : Nat → List Part) (t : Nat) (r : Run (List Part)) : Prop :=
  P left r.state ∧ ∀ more s', r = .ok more s' → P (Function.update left t (more ++ left t)) s'

/-- Kept by each part on its own, and by leaving parts out. -/
structure GrowClosed (adm : Instr → Prop) (P : LeftProp) : Prop where
  anti : ∀ (left left' : Nat → List Part) s, (∀ u p, p ∈ left' u → p ∈ left u) → P left s → P left' s
  quiet : ∀ left s (r : Run Unit), QuietRun s r → P left s → P left r.state
  put : ∀ left s t ps, P left s → P left (putParts s t ps)
  slots : ∀ left s x, P left s → P left { s with slots := x }
  report : ∀ left s t w, P left s → P left (handOut (.task t) (.invalid w) s)
  access : ∀ left s t a, .access a ∈ left t → P left s → Adds P left t (accessStep t a s)
  own : ∀ left s t o, .own o ∈ left t → P left s → Adds P left t (ownStep t o s)
  begin : ∀ left s i (o : Side), adm i → P left s → Adds P left o.task (begin i o s)

variable {adm : Instr → Prop} {P : LeftProp}

theorem mem_update_self {left : Nat → List Part} {t : Nat} {ps qs : List Part} (h1 : ∀ p ∈ ps, p ∈ qs)
    (h2 : ∀ p ∈ left t, p ∈ qs) (u : Nat) (p : Part) (h : p ∈ Function.update left t ps u ∨ p ∈ left u) :
    p ∈ Function.update left t qs u := by
  rw [Function.update_apply] at h ⊢
  split
  · rename_i e
    subst e
    rw [if_pos rfl] at h
    exact h.elim (h1 p) (h2 p)
  · rename_i e
    rw [if_neg e] at h
    exact h.elim id id

/-- What is left after a task's own doing, and what it had left before, keep the property together. -/
theorem settle_grow (H : GrowClosed adm P) {t : Nat} {ps : List Part} {left : Nat → List Part} {s : State}
    (hp : ∀ p ∈ ps, p ∈ left t) (h : P left s) :
    P left (settle t ps s).state ∧ ∀ ps' s', settle t ps s = .ok ps' s' →
      ∃ qs, (∀ p ∈ ps', p ∈ qs) ∧ (∀ p ∈ left t, p ∈ qs) ∧ P (Function.update left t qs) s' := by
  induction ps generalizing s with
  | nil => exact ⟨h, fun _ _ e => by cases e; exact ⟨left t, by simp, fun _ h => h, by rw [Function.update_eq_self]; exact h⟩⟩
  | cons p rest ih =>
    cases p with
    | access a =>
      exact ⟨h, fun _ _ e => by cases e; exact ⟨left t, hp, fun _ h => h, by rw [Function.update_eq_self]; exact h⟩⟩
    | own o =>
      have ho := H.own left s t o (hp _ (by simp)) h
      simp only [settle]
      cases e : ownStep t o s with
      | halt s1 => rw [e] at ho; exact ⟨ho.1, fun _ _ e => by cases e⟩
      | ok more s1 =>
        rw [e] at ho
        cases more with
        | nil => exact ih (fun p hp' => hp p (by simp [hp'])) ho.1
        | cons m ms =>
          refine ⟨ho.1, fun _ _ e => ?_⟩
          cases e
          refine ⟨m :: ms ++ left t, fun p hp' => ?_, fun p hp' => by simp [hp'], ho.2 _ _ rfl⟩
          rcases List.mem_append.mp hp' with h1 | h1
          · exact List.mem_append.mpr (.inl h1)
          · exact List.mem_append.mpr (.inr (hp p (by simp [h1])))

theorem advance_grow (H : GrowClosed adm P) {t : Nat} {ps : List Part} {left : Nat → List Part} {s : State}
    (hp : ∀ p ∈ ps, p ∈ left t) (h : P left s) :
    P left (advance t ps s).state ∧ ∀ ps' s', advance t ps s = .ok ps' s' → P (Function.update left t ps') s' := by
  have fin : ∀ {left' : Nat → List Part} {qs : List Part} {s1 : State}, (∀ u p, p ∈ left u → p ∈ left' u) →
      (∀ u, u ≠ t → left' u = left u) → (∀ p ∈ qs, p ∈ left' t) → P left' s1 → P left (settle t qs s1).state ∧
      ∀ ps' s', settle t qs s1 = .ok ps' s' → P (Function.update left t ps') s' := by
    intro left' qs s1 hsub hne hq h1
    have hs := settle_grow H hq h1
    refine ⟨H.anti _ _ _ hsub hs.1, fun ps' s' e => ?_⟩
    obtain ⟨rs, h2, _, h4⟩ := hs.2 ps' s' e
    refine H.anti _ _ _ (fun u p hm => ?_) h4
    rw [Function.update_apply] at hm ⊢
    split
    · rename_i e
      rw [if_pos e] at hm
      exact h2 p hm
    · rename_i e
      rw [if_neg e] at hm
      exact hsub u p hm
  cases ps with
  | nil => exact fin (left' := left) (fun _ _ h => h) (fun _ _ => rfl) hp h
  | cons p rest =>
    cases p with
    | own o => exact fin (left' := left) (fun _ _ h => h) (fun _ _ => rfl) hp h
    | access a =>
      have ha := H.access left s t a (hp _ (by simp)) h
      simp only [advance]
      cases e : accessStep t a s with
      | halt s1 => rw [e] at ha; exact ⟨ha.1, fun _ _ e => by cases e⟩
      | ok more s1 =>
        rw [e] at ha
        simp only [Run.bind_ok]
        refine fin (left' := Function.update left t (more ++ left t)) (fun u p hm => ?_)
          (fun u hu => by rw [Function.update_apply, if_neg hu]) (fun p hm => ?_) (ha.2 _ _ rfl)
        · rw [Function.update_apply]
          split
          · rename_i e; subst e; exact List.mem_append.mpr (.inr hm)
          · exact hm
        · rw [Function.update_self]
          rcases List.mem_append.mp hm with h1 | h1
          · exact List.mem_append.mpr (.inl h1)
          · exact List.mem_append.mpr (.inr (hp p (by simp [h1])))

/-- The first step of a command by a task that has none in progress. -/
theorem firstStep_grow (H : GrowClosed adm P) {left : Nat → List Part} {s : State} {i : Instr} {o : Side}
    (hidle : left o.task = []) (hb : Adds P left o.task (begin i o s)) :
    Keeps P left o.task (firstStep o.task (begin i o s)) := by
  simp only [firstStep]
  cases e : begin i o s with
  | halt s1 => rw [e] at hb; exact ⟨fun _ _ e => (by cases e), fun _ e => by cases e; exact hb.1⟩
  | ok ps s1 =>
    rw [e] at hb
    simp only [Run.bind_ok]
    have h2 := hb.2 ps s1 rfl
    rw [hidle, List.append_nil] at h2
    have ha := advance_grow H (t := o.task) (ps := ps) (by simp) h2
    refine ⟨fun qs s' e => ?_, fun s' e => ?_⟩
    · have := ha.2 qs s' e
      rwa [Function.update_idem] at this
    · have h3 := ha.1
      rw [e] at h3
      refine H.anti _ _ _ (fun u p hm => ?_) h3
      rw [Function.update_apply]
      split
      · rename_i e; subst e; rw [hidle] at hm; cases hm
      · exact hm

theorem GrowClosed.stepClosed (H : GrowClosed adm P) : StepClosed adm P where
  quiet := H.quiet
  put := H.put
  slots := H.slots
  report := H.report
  next := fun left s t _ h => by
    have ha := advance_grow H (t := t) (ps := left t) (fun _ h => h) h
    exact ⟨fun ps s' e => ha.2 ps s' e, fun s' e => by have := ha.1; rw [e] at this; exact this⟩
  first := fun left s i o hi hidle h => firstStep_grow H hidle (H.begin left s i o hi h)

/-- A run that only adds parts without an effect on the property. -/
theorem Adds.of_state {left : Nat → List Part} {t : Nat} {r : Run (List Part)} (h : P left r.state)
    (hm : ∀ more s', r = .ok more s' → P left s' → P (Function.update left t (more ++ left t)) s') : Adds P left t r :=
  ⟨h, fun more s' e => hm more s' e (by rw [e] at h; exact h)⟩

/-! What no step undoes. -/

/-- What no step of any agent undoes. -/
structure Forward (s s' : State) : Prop extends OnlyForward s s' where
  istr : ∀ i, s'.istr.getLsbD i = true → s.istr.getLsbD i = true ∨ (latchMask s.params).getLsbD i = true
  canonical : Canonical s → Canonical s'

theorem Forward.refl (s : State) : Forward s s :=
  ⟨⟨rfl, List.prefix_refl _, Nat.le_refl _, Nat.le_refl _, fun _ => Nat.le_refl _, fun _ _ _ h => h⟩,
    fun _ h => .inl h, fun h => h⟩

theorem Forward.trans {a b c : State} (h1 : Forward a b) (h2 : Forward b c) : Forward a c where
  params := h2.params.trans h1.params
  log := h1.log.trans h2.log
  now := Nat.le_trans h1.now h2.now
  gen := Nat.le_trans h1.gen h2.gen
  free := fun e => by
    have g1 := h1.gen
    have g2 := h2.gen
    exact Nat.le_trans (h1.free (by omega)) (h2.free (by omega))
  marks := fun e x d hu => by
    have g1 := h1.gen
    have g2 := h2.gen
    exact h2.marks (by omega) x d (h1.marks (by omega) x d hu)
  istr := fun i h => by
    rcases h2.istr i h with h | h
    · exact h1.istr i h
    · rw [h1.params] at h; exact .inr h
  canonical := fun h => h2.canonical (h1.canonical h)

theorem Forward.of_quiet {s s' : State} (h : Quiet s s') : Forward s s' where
  params := h.params
  log := h.log
  now := h.now
  gen := by rw [h.alloc]
  free := fun _ => by rw [h.alloc]
  marks := fun _ _ _ hu => by rw [h.alloc]; exact hu
  istr := h.istr
  canonical := h.canonical

theorem Forward.of_steady {t : Nat} {s s' : State} (h : Steady t s s') : Forward s s' where
  params := h.params
  log := h.log
  now := Nat.le_of_eq h.now.symm
  gen := h.gen
  free := h.free
  marks := h.marks
  istr := fun i hi => by rw [h.istr] at hi; exact .inl hi
  canonical := h.canonical

theorem Forward.putParts (s : State) (t : Nat) (ps : List Part) : Forward s (putParts s t ps) :=
  { Forward.refl s with
    canonical := fun h => ⟨h.params, h.pma, h.tasks, progressWf_putParts h.progress t ps⟩ }

/-- Every step of every agent only goes forward. -/
theorem forward_closed (s0 : State) : StepClosed (fun _ => True) fun _ s => Forward s0 s where
  quiet := fun _ _ _ hr h => h.trans (Forward.of_quiet hr.quiet)
  put := fun _ s t ps h => h.trans (Forward.putParts s t ps)
  report := fun _ s t w h => h.trans
    { Forward.refl s with canonical := fun h => ⟨h.params, h.pma, h.tasks, h.progress⟩ }
  slots := fun _ s x h => h.trans
    { Forward.refl s with canonical := fun h => ⟨h.params, h.pma, h.tasks, h.progress⟩ }
  first := fun _ s i o _ _ h =>
    have hr := (TaskRun.firstStep i o s).steady
    ⟨fun _ _ e => h.trans (Forward.of_steady (by rw [e] at hr; exact hr)),
      fun _ e => h.trans (Forward.of_steady (by rw [e] at hr; exact hr))⟩
  next := fun left s t _ h =>
    have hr := (TaskRun.advance t (left t) s).steady
    ⟨fun _ _ e => h.trans (Forward.of_steady (by rw [e] at hr; exact hr)),
      fun _ e => h.trans (Forward.of_steady (by rw [e] at hr; exact hr))⟩

/-! The bits of the channel registers that no step changes. -/

/-- The `OTHER` bits are those of `s0`, in the registers and in every value read and not yet written back. -/
structure OthersKept (s0 : State) (left : Nat → List Part) (s : State) : Prop where
  params : s.params = s0.params
  regs : ∀ c, readChep s c &&& pMask s0.params.chep = readChep s0 c &&& pMask s0.params.chep
  reads : ∀ t c change cur, .access (.writeReg c change cur) ∈ left t →
    cur &&& pMask s0.params.chep = readChep s0 c &&& pMask s0.params.chep

/-- A bit of kind P is in no field of another kind (30_encoding.md R117). -/
theorem others_kind {l : ChepLayout} {i : Nat} (hi : i < 32) (h : (pMask l).getLsbD i = true) :
    isToggle l i = false ∧ isClear l i = false ∧ isPlain l i = false := by
  simp only [pMask, BitVec.getLsbD_not, BitVec.getLsbD_or, getLsbD_tMask, getLsbD_cMask, getLsbD_rwMask, hi] at h
  revert h
  cases isToggle l i <;> cases isClear l i <;> cases isPlain l i <;> simp

/-- Values that agree on every bit of kind P have the same `OTHER` bits. -/
theorem others_eq {l : ChepLayout} {a b : Word32}
    (h : ∀ i, i < 32 → isToggle l i = false → isClear l i = false → isPlain l i = false → a.getLsbD i = b.getLsbD i) :
    a &&& pMask l = b &&& pMask l := by
  apply BitVec.eq_of_getLsbD_eq
  intro i hi
  rw [BitVec.getLsbD_and, BitVec.getLsbD_and]
  cases hm : (pMask l).getLsbD i
  · simp
  · obtain ⟨h1, h2, h3⟩ := others_kind hi hm
    rw [h i hi h1 h2 h3]

theorem others_of_agree {p : Params} {a b : Word32} (h : agreeKept p a b) : a &&& pMask p.chep = b &&& pMask p.chep :=
  others_eq fun i hi ht hc _ => h i hi ht hc

/-- The configuration fields are of kind RW (30_encoding.md R117). -/
theorem others_configFields (p : Params) (v : Word32) (etype : EType) (devaddr : Nat) (c : Chan) :
    configFields p v etype devaddr c &&& pMask p.chep = v &&& pMask p.chep := by
  refine others_eq fun i hi _ _ hp => ?_
  have hno : ∀ f ∈ plainFields p.chep, inField f i = false := fun f hf => by
    cases hfi : inField f i
    · rfl
    · rw [inField_plain hf hfi] at hp; cases hp
  have h1 := hno (eaField p.chep) (by simp [plainFields])
  have h2 := hno (epTypeField p.chep) (by simp [plainFields])
  have h3 := hno (devaddrField p.chep) (by simp [plainFields])
  simp only [configFields, getLsbD_fieldPut, h1, h2, h3, Bool.false_and, Bool.false_eq_true, if_false]

/-- A read-modify-write writes the `OTHER` bits it read, and the register takes them (44_channel_register.md R190, R199). -/
theorem others_changeWord {p : Params} (h : chepLayoutWf p.chep = true) (c : Chan) (old cur : Word32) (change : RegChange) :
    hwWriteChep p old (changeWord p c cur change) &&& pMask p.chep = cur &&& pMask p.chep := by
  have hold := others_of_agree (hwWriteChep_kept h old (changeWord p c cur change))
  have hcur := others_of_agree (hwWriteChep_kept h cur (changeWord p c cur change))
  rw [hold, ← hcur]
  have ha := agreeKept_refl p cur
  cases change with
  | setStatus hf target =>
    simp only [changeWord]
    rw [hwWriteChep_setstatWord h hf target ha]
    exact (others_of_agree (agreeKept_fieldPut _ _ _ fun _ h => .inl (inField_statField hf h))).symm
  | clearComplete fs =>
    simp only [changeWord]
    rw [hwWriteChep_clrctrWord h fs ha]
    exact (others_of_agree (agreeKept_clear _ _ (fun hf i => inField_ctrField hf) _ _)).symm
  | clearError fs =>
    simp only [changeWord]
    rw [hwWriteChep_clrerrWord h fs ha]
    exact (others_of_agree (agreeKept_clear _ _ (fun hf i => inField_errField hf) _ _)).symm
  | init etype devaddr =>
    simp only [changeWord]
    rw [hwWriteChep_initWord h etype devaddr c ha]
    exact others_configFields p cur etype devaddr c
  | touch =>
    simp only [changeWord]
    rw [hwWriteChep_canon h ha]

/-- A change of nothing but what the property does not read. -/
theorem OthersKept.transfer {s0 s s' : State} {left : Nat → List Part} (h : OthersKept s0 left s)
    (hp : s'.params = s.params) (hc : s'.chep = s.chep) : OthersKept s0 left s' :=
  ⟨hp.trans h.params, fun c => by rw [← h.regs c]; simp [readChep, hc], h.reads⟩

/-- Adding parts that hold no register value. -/
theorem OthersKept.adds {s0 : State} {left : Nat → List Part} {t : Nat} {s s' : State} {more : List Part}
    (h : OthersKept s0 left s') (hm : ∀ c change cur, .access (.writeReg c change cur) ∈ more → cur = readChep s c)
    (hs : OthersKept s0 left s) : OthersKept s0 (Function.update left t (more ++ left t)) s' :=
  ⟨h.params, h.regs, fun u c change cur hx => by
    rw [Function.update_apply] at hx
    split at hx
    · rcases List.mem_append.mp hx with hx | hx
      · rw [hm c change cur hx]; exact hs.regs c
      · exact h.reads t c change cur hx
    · exact h.reads u c change cur hx⟩

theorem OthersKept.plain {s0 : State} {left : Nat → List Part} {t : Nat} {s' : State} {more : List Part}
    (h : OthersKept s0 left s') (hm : ∀ x ∈ more, plainPart x = true) :
    OthersKept s0 (Function.update left t (more ++ left t)) s' :=
  h.adds (fun _ _ _ hx => by have := hm _ hx; cases this) h

theorem OthersKept.of_ok {s0 : State} {left : Nat → List Part} {t : Nat} {s' : State} {ps : List Part}
    (h : OthersKept s0 left s') (hm : ∀ x ∈ ps, plainPart x = true) : Adds (OthersKept s0) left t (.ok ps s') :=
  ⟨h, fun _ _ e => by cases e; exact h.plain hm⟩

theorem OthersKept.record {s0 : State} {left : Nat → List Part} {t : Nat} {s : State} {r : Run (List Part)}
    (h : OthersKept s0 left s) (hr : RecordRun t s r) : Adds (OthersKept s0) left t r := by
  cases r with
  | ok ps s1 =>
    obtain ⟨h1, h2⟩ := hr.ok ps s1 rfl
    have := h.transfer h1.params h1.chep
    exact ⟨this, fun _ _ e => by cases e; exact this.plain h2⟩
  | halt s1 =>
    obtain ⟨f, s2, h1, rfl⟩ := hr.halt s1 rfl
    exact ⟨h.transfer h1.params h1.chep, fun _ _ e => by cases e⟩

/-- Parts a claim adds hold no register value (47_lifecycle.md R260). -/
theorem bindParts_reads (p : Params) (a : Claim) (r : Region) {c : Chan} {change : RegChange} {cur : Word32} :
    .access (.writeReg c change cur) ∉ bindParts p a r := by
  intro h
  simp only [bindParts, List.mem_append] at h
  rcases h with h | h
  · have := plainPart_of_storesOrFaults (storesOrFaults_progHalf _ _ _ _ _) h
    cases this
  · simp [changeReg] at h

/-- No step changes an `OTHER` bit of a channel register (10_state.md R39). -/
theorem others_closed {s0 : State} (hl : chepLayoutWf s0.params.chep = true) :
    GrowClosed (fun _ => True) (OthersKept s0) where
  anti := fun _ _ _ hsub h => ⟨h.params, h.regs, fun t c change cur hx => h.reads t c change cur (hsub _ _ hx)⟩
  put := fun _ _ _ _ h => h.transfer rfl rfl
  slots := fun _ _ _ h => h.transfer rfl rfl
  report := fun _ _ _ _ h => h.transfer rfl rfl
  quiet := fun left s r hr h => by
    have q := hr.quiet
    refine ⟨q.params.trans h.params, fun c => ?_, h.reads⟩
    rw [← h.regs c, ← h.params]
    exact (others_of_agree (q.kept (by rw [h.params]; exact hl) c)).symm
  access := fun left s t a ha h => by
    by_cases hr : recordAccess a = true
    · exact h.record (RecordRun.accessStep hr s)
    · cases a with
      | store a n v =>
        rcases storeStep_cases a n v s with ⟨e, _⟩ | ⟨r, e⟩ <;> rw [accessStep, e]
        · exact OthersKept.of_ok (h.transfer rfl rfl) (plain_all rfl)
        · exact ⟨h.transfer rfl rfl, fun _ _ e => by cases e⟩
      | readReg c change =>
        refine ⟨h, fun _ _ e => ?_⟩
        cases e
        refine h.adds (fun c' change' cur hx => ?_) h
        simp only [List.mem_singleton, Part.access.injEq, Access.writeReg.injEq] at hx
        obtain ⟨rfl, _, rfl⟩ := hx
        rfl
      | writeReg c change cur =>
        have hk : OthersKept s0 left (writeChep (.task t) c (changeWord s.params c cur change) s) := by
          refine ⟨h.params, fun c' => ?_, h.reads⟩
          change readChep (setChep s c _) c' &&& _ = _
          rw [readChep_setChep]
          split
          · subst_vars
            rw [h.params, others_changeWord hl]
            exact h.reads t c' change cur ha
          · exact h.regs c'
        exact ⟨hk, fun _ _ e => by cases e; exact hk.plain (by simp)⟩
      | claim a =>
        rcases claimStep_cases t a s with e | ⟨_, e⟩ | ⟨_, e⟩ | ⟨size, _, _, _, e⟩ <;> rw [accessStep, e]
        · exact ⟨h.transfer rfl rfl, fun _ _ e => by cases e⟩
        · exact OthersKept.of_ok (h.transfer rfl rfl) (plain_all rfl)
        · have hk := h.transfer (s' := handOut (.task t) (.err .outOfMemory [])
            (drawInUse a.ch a.dir (setInUse a.ch a.dir true s))) (by simp [drawInUse]) (by simp [drawInUse])
          exact ⟨hk, fun _ _ e => by cases e; exact hk.plain (by simp)⟩
        · have hk := h.transfer (s' := claimed a.ch a.dir size s) (by simp [claimed]) (by simp [claimed])
          exact ⟨hk, fun _ _ e => by cases e; exact hk.adds (fun _ _ _ hx => absurd hx (bindParts_reads _ _ _)) hk⟩
      | _ => exact absurd rfl hr
  own := fun left s t o ho h => by
    by_cases hc : claimPart (.own o) = false
    · exact h.record (RecordRun.ownStep hc s)
    · cases o with
      | enter a r =>
        obtain ⟨more, s', e, hs, hm⟩ := enterHandle_cases t a r s
        rw [ownStep, e]
        have hk : OthersKept s0 left s' := by
          rcases hs with rfl | ⟨res, rfl⟩
          · exact h.transfer (by simp) (by simp)
          · exact h.transfer (by simp) (by simp)
        refine ⟨hk, fun _ _ e => ?_⟩
        cases e
        refine hk.plain fun x hx => ?_
        rcases hm with rfl | ⟨hi, _, rfl⟩
        · cases hx
        · rw [List.mem_singleton.mp hx]; rfl
      | _ => exact absurd rfl hc
  begin := fun left s i o _ h => by
    by_cases hm : mildBegin i = true
    · exact h.record (RecordRun.begin hm o s)
    · cases i <;> try exact absurd rfl hm
      case pmAlloc n =>
        simp only [begin, beginPmAlloc]
        rcases pmAlloc_cases n s with ⟨r, e⟩ | e | ⟨e, _, _⟩ <;> rw [e]
        · exact ⟨h.transfer rfl rfl, fun _ _ e => by cases e⟩
        · exact OthersKept.of_ok (h.transfer rfl rfl) (plain_all rfl)
        · exact OthersKept.of_ok (h.transfer rfl rfl) (plain_all rfl)
      case pmReset => exact OthersKept.of_ok (h.transfer rfl rfl) (plain_all rfl)
      case chReconf0 => exact OthersKept.of_ok (h.transfer rfl rfl) (plain_all rfl)
      case chDrop ch d =>
        simp only [begin, beginChDrop]
        split
        · exact ⟨h.transfer rfl rfl, fun _ _ e => by cases e⟩
        · split
          · exact ⟨h.transfer rfl rfl, fun _ _ e => by cases e⟩
          · exact OthersKept.of_ok (h.transfer (by simp) (by simp)) (plain_all rfl)

end Sys2Proof.Machine
end

