-- ==== Sys2Proof/Laws/Allocator.lean ====
section
/-! SUPPORT. The handle table, the in-use masks, and what each step makes of the allocator invariant (10_state.md R40–R44)
with the regions that claims in progress have allocated. -/

namespace Sys2Proof.Machine

/-- The handle table after one entry is replaced (10_state.md R51). -/
theorem handleAt_setHandle (s : State) (c : Chan) (d : Dir) (h : Option Handle) (c' : Chan) (d' : Dir) :
    handleAt (setHandle s c d h) c' d' = if c' = c ∧ d' = d then h else handleAt s c' d' := by
  cases d <;> cases d' <;> simp [handleAt, setHandle, Vector.getElem_set, Fin.val_inj, eq_comm]

@[simp] theorem handleAt_setInUse (s : State) (c : Chan) (d : Dir) (b : Bool) (c' : Chan) (d' : Dir) :
    handleAt (setInUse c d b s) c' d' = handleAt s c' d' := by cases d <;> cases d' <;> rfl

/-- Owners of regions, from owners before, carry the region clauses over. -/
theorem AllocatorGood.of_owners {left left' : Nat → List Part} {s s' : State} (h : AllocatorGood left s)
    (hp : s'.params = s.params) (hg : s'.alloc.gen = s.alloc.gen)
    (hfree : s.alloc.free ≤ s'.alloc.free) (hfit : s'.alloc.free ≤ s.params.pmaBytes)
    (halign : s'.alloc.free % granBytes s.params.gran = 0)
    (hmark : ∀ c d r, ownsRegion left' s' c d r → inUse s.alloc c d = true → inUse s'.alloc c d = true)
    (hnamed : ∀ c d x, handleAt s' c d = some x → handleAt s c d = some x ∨
      x.index = c ∧ x.dir = d ∧ x.gen = s.alloc.gen)
    (hown : ∀ c d r, ownsRegion left' s' c d r → ownsRegion left s c d r) : AllocatorGood left' s' where
  params := by rw [hp]; exact h.params
  low := Nat.le_trans h.low hfree
  high := by rw [hp]; exact hfit
  aligned := by rw [hp]; exact halign
  named := fun c d x e => by
    rw [hg]
    rcases hnamed c d x e with e | ⟨h1, h2, h3⟩
    · exact h.named c d x e
    · exact ⟨h1, h2, Nat.le_of_eq h3⟩
  marked := fun c d r o => hmark c d r o (h.marked c d r (hown c d r o))
  inside := fun c d r o => by
    have := h.inside c d r (hown c d r o)
    rw [hp]
    exact ⟨this.1, Nat.le_trans this.2.1 hfree, this.2.2⟩
  apart := fun c d r c' d' r' o o' hne => h.apart c d r c' d' r' (hown _ _ _ o) (hown _ _ _ o') hne

/-- The invariant reads the parameters, the allocator and the handle table. -/
theorem AllocatorGood.transfer {left : Nat → List Part} {s s' : State} (h : AllocatorGood left s)
    (hp : s'.params = s.params) (ha : s'.alloc = s.alloc) (hh : ∀ c d, handleAt s' c d = handleAt s c d) :
    AllocatorGood left s' :=
  h.of_owners hp (by rw [ha]) (by rw [ha]) (by rw [ha]; exact h.high) (by rw [ha]; exact h.aligned)
    (fun _ _ _ _ hu => by rw [ha]; exact hu) (fun c d x e => .inl (by rw [← hh]; exact e))
    fun c d r o => by
      rcases o with ⟨x, ⟨e1, e2⟩, e3⟩ | o
      · exact .inl ⟨x, ⟨by rw [← hh]; exact e1, by rw [e2, ha]⟩, e3⟩
      · exact .inr o

/-- Fewer parts own fewer regions. -/
theorem AllocatorGood.anti {left left' : Nat → List Part} {s : State}
    (hsub : ∀ t a r, .own (.enter a r) ∈ left' t → .own (.enter a r) ∈ left t) (h : AllocatorGood left s) :
    AllocatorGood left' s :=
  h.of_owners rfl rfl (Nat.le_refl _) h.high h.aligned (fun _ _ _ _ hu => hu) (fun _ _ _ e => .inl e) fun c d r o => by
    rcases o with o | ⟨t, a, hm, e⟩
    · exact .inl o
    · exact .inr ⟨t, a, hsub t a r hm, e⟩

/-- Parts with no handle to enter own nothing. -/
theorem AllocatorGood.of_ok {left : Nat → List Part} {t : Nat} {s : State} {ps : List Part} (h : AllocatorGood left s)
    (hp : ∀ x ∈ ps, plainPart x = true) : Adds AllocatorGood left t (.ok ps s) :=
  ⟨h, fun _ _ e => by
    cases e
    refine h.anti fun u a r hm => ?_
    rw [Function.update_apply] at hm
    split at hm
    · subst_vars
      rcases List.mem_append.mp hm with hm | hm
      · have := hp _ hm; cases this
      · exact hm
    · exact hm⟩

theorem AllocatorGood.halt {left : Nat → List Part} {t : Nat} {s : State} (h : AllocatorGood left s) :
    Adds AllocatorGood left t (.halt s) := ⟨h, fun _ _ e => by cases e⟩

theorem AllocatorGood.raise {left : Nat → List Part} {t : Nat} {s : State} (h : AllocatorGood left s) (f : Fault) :
    Adds AllocatorGood left t (.halt (raiseFault f s)) :=
  ⟨h.transfer rfl rfl fun _ _ => rfl, fun _ _ e => by cases e⟩

theorem AllocatorGood.mild {left : Nat → List Part} {t : Nat} {s s' : State} (h : AllocatorGood left s)
    (m : Mild t s s') : AllocatorGood left s' := h.transfer m.params m.alloc m.handle

theorem AllocatorGood.record {left : Nat → List Part} {t : Nat} {s : State} {r : Run (List Part)}
    (h : AllocatorGood left s) (hr : RecordRun t s r) : Adds AllocatorGood left t r := by
  cases r with
  | ok ps s1 =>
    obtain ⟨h1, h2⟩ := hr.ok ps s1 rfl
    exact (h.mild h1.toMild).of_ok h2
  | halt s1 =>
    obtain ⟨f, s2, h1, rfl⟩ := hr.halt s1 rfl
    exact (h.mild h1.toMild).raise f

/-- `PM.ALLOC` keeps the invariant (41_allocator.md R153). -/
theorem AllocatorGood.grow {left : Nat → List Part} {s : State} (h : AllocatorGood left s) {n : Nat}
    (h1 : n % granBytes s.params.gran = 0) (h2 : s.alloc.free + n ≤ s.params.pmaBytes) :
    AllocatorGood left { s with alloc := { s.alloc with free := s.alloc.free + n } } :=
  h.of_owners (s' := { s with alloc := { s.alloc with free := s.alloc.free + n } }) rfl rfl (Nat.le_add_right _ _) h2
    (by show (s.alloc.free + n) % _ = 0; rw [Nat.add_mod, h.aligned, h1]; simp)
    (fun _ d _ _ hu => by cases d <;> exact hu) (fun _ _ _ e => .inl e) fun _ _ _ o => o

/-- Marking an index, or giving any mark to an index that owns no region, keeps the invariant. -/
theorem AllocatorGood.mark {left : Nat → List Part} {s : State} (h : AllocatorGood left s) (c : Chan) (d : Dir) (b : Bool)
    (hu : b = true ∨ ∀ r, ¬ ownsRegion left s c d r) : AllocatorGood left (setInUse c d b s) := by
  have hown : ∀ c' d' r, ownsRegion left (setInUse c d b s) c' d' r → ownsRegion left s c' d' r := by
    intro c' d' r o
    simpa only [ownsRegion, liveHandle, handleAt_setInUse, setInUse_gen] using o
  refine h.of_owners (setInUse_params _ _ _ _) (setInUse_gen _ _ _ _) (by simp) (by simpa using h.high)
    (by simpa using h.aligned) (fun c' d' r o hm => ?_) (fun c' d' x e => .inl (by simpa using e)) hown
  rw [inUse_setInUse]
  split
  · rename_i e
    obtain ⟨rfl, rfl⟩ := e
    rcases hu with rfl | hu
    · rfl
    · exact absurd (hown _ _ _ o) (hu _)
  · exact hm

/-- Every region and every handle is of the generation before: `PM.RESET` with no claim in progress keeps the invariant
(10_state.md R43, 20_memory.md R95). -/
theorem AllocatorGood.reset {left : Nat → List Part} {s : State} (h : AllocatorGood left s)
    (hno : ∀ t a r, .own (.enter a r) ∉ left t) : AllocatorGood left (pmReset s) := by
  have hown : ∀ c d r, ¬ ownsRegion left (pmReset s) c d r := by
    rintro c d r (⟨x, ⟨e1, e2⟩, _⟩ | ⟨t, a, hm, _⟩)
    · have := (h.named c d x (by cases d <;> exact e1)).2.2
      simp only [pmReset] at e2
      omega
    · exact hno t a r hm
  refine ⟨h.params, Nat.le_refl _, Nat.le_trans h.low h.high, ?_, fun c d x e => ?_,
    fun c d r o => absurd o (hown _ _ _), fun c d r o => absurd o (hown _ _ _), fun c d r _ _ _ o => absurd o (hown _ _ _)⟩
  · show 64 % granBytes s.params.gran = 0
    cases s.params.gran <;> rfl
  · have := h.named c d x (by cases d <;> exact e)
    exact ⟨this.1, this.2.1, Nat.le_succ_of_le this.2.2⟩

/-- A handle that is taken out, or entered for a region its claim owns, keeps the invariant. -/
theorem AllocatorGood.setHandle {left : Nat → List Part} {s : State} (h : AllocatorGood left s) (c : Chan) (d : Dir)
    (x : Option Handle) (hx : ∀ y, x = some y → y.index = c ∧ y.dir = d ∧ y.gen = s.alloc.gen ∧
      ownsRegion left s c d y.region) : AllocatorGood left (setHandle s c d x) := by
  refine h.of_owners (by simp) (by simp) (by simp) (by simpa using h.high) (by simpa using h.aligned)
    (fun _ _ _ _ hu => by simpa using hu) (fun c' d' y e => ?_) fun c' d' r o => ?_
  · rw [handleAt_setHandle] at e
    split at e
    · rename_i hc
      obtain ⟨h1, h2, h3, _⟩ := hx y e
      exact .inr ⟨h1.trans hc.1.symm, h2.trans hc.2.symm, h3⟩
    · exact .inl e
  · rcases o with ⟨y, ⟨e1, e2⟩, e3⟩ | o
    · rw [handleAt_setHandle] at e1
      rw [setHandle_alloc] at e2
      split at e1
      · rename_i hc
        obtain ⟨rfl, rfl⟩ := hc
        rw [← e3]
        exact (hx y e1).2.2.2
      · exact .inl ⟨y, ⟨e1, e2⟩, e3⟩
    · exact .inr o

/-- The parts a claim adds enter its own region only (47_lifecycle.md R260). -/
theorem bindParts_enters {p : Params} {a b : Claim} {r r' : Region} (h : .own (.enter b r') ∈ bindParts p a r) :
    b = a ∧ r' = r := by
  simp only [bindParts, List.mem_append] at h
  rcases h with h | h
  · have := plainPart_of_storesOrFaults (storesOrFaults_progHalf _ _ _ _ _) h
    cases this
  · simp only [changeReg, List.mem_cons, reduceCtorEq, Part.own.injEq, Own.enter.injEq, List.not_mem_nil, or_false,
      false_or] at h
    exact h

/-- A claim that allocates its region owns it, apart from every region owned before (10_state.md R44). -/
theorem AllocatorGood.claim {left : Nat → List Part} {t : Nat} {s : State} (h : AllocatorGood left s) {a : Claim}
    {size : Nat} (hu : inUse s.alloc a.ch a.dir = false) (hg : size % granBytes s.params.gran = 0)
    (hfit : s.alloc.free + size ≤ s.params.pmaBytes) :
    Adds AllocatorGood left t (.ok (bindParts s.params a ⟨s.alloc.free, size⟩) (claimed a.ch a.dir size s)) := by
  have h1 := h.mark a.ch a.dir true (.inl rfl)
  have h2 : AllocatorGood left (claimed a.ch a.dir size s) := by
    have := h1.grow (n := size) (by simpa using hg) (by simpa using hfit)
    rwa [setInUse_free] at this
  have hnone : ∀ r, ¬ ownsRegion left s a.ch a.dir r := fun r o => by rw [h.marked _ _ _ o] at hu; cases hu
  have back : ∀ c d r, ownsRegion left (claimed a.ch a.dir size s) c d r → ownsRegion left s c d r := by
    intro c d r o
    rcases o with ⟨x, ⟨e1, e2⟩, e3⟩ | o
    · refine .inl ⟨x, ⟨?_, ?_⟩, e3⟩
      · rw [← handleAt_setInUse s a.ch a.dir true c d]
        cases d <;> exact e1
      · simpa [claimed] using e2
    · exact .inr o
  refine ⟨h2, fun _ _ e => ?_⟩
  cases e
  have own : ∀ c d r, ownsRegion (Function.update left t (bindParts s.params a ⟨s.alloc.free, size⟩ ++ left t))
      (claimed a.ch a.dir size s) c d r →
      ownsRegion left (claimed a.ch a.dir size s) c d r ∨ (c = a.ch ∧ d = a.dir ∧ r = ⟨s.alloc.free, size⟩) := by
    intro c d r o
    rcases o with o | ⟨u, b, hm, e1, e2⟩
    · exact .inl (.inl o)
    · rw [Function.update_apply] at hm
      split at hm
      · subst_vars
        rcases List.mem_append.mp hm with hm | hm
        · obtain ⟨rfl, rfl⟩ := bindParts_enters hm
          exact .inr ⟨rfl, rfl, rfl⟩
        · exact .inl (.inr ⟨_, b, hm, rfl, rfl⟩)
      · exact .inl (.inr ⟨u, b, hm, e1, e2⟩)
  have hmark : inUse (claimed a.ch a.dir size s).alloc a.ch a.dir = true := by
    have : inUse (claimed a.ch a.dir size s).alloc a.ch a.dir = inUse (setInUse a.ch a.dir true s).alloc a.ch a.dir := by
      cases a.dir <;> rfl
    rw [this, inUse_setInUse]
    simp
  have hfree : (claimed a.ch a.dir size s).alloc.free = s.alloc.free + size := rfl
  have hpar : (claimed a.ch a.dir size s).params = s.params := by simp [claimed]
  refine ⟨h2.params, h2.low, h2.high, h2.aligned, h2.named, fun c d r o => ?_, fun c d r o => ?_, ?_⟩
  · rcases own c d r o with o | ⟨rfl, rfl, rfl⟩
    · exact h2.marked c d r o
    · exact hmark
  · rcases own c d r o with o | ⟨rfl, rfl, rfl⟩
    · exact h2.inside c d r o
    · rw [hpar, hfree]
      exact ⟨h.low, Nat.le_refl _, h.aligned, hg⟩
  · intro c d r c' d' r' o o' hne
    rcases own c d r o with o | ⟨rfl, rfl, rfl⟩ <;> rcases own c' d' r' o' with o' | ⟨rfl, rfl, rfl⟩
    · exact h2.apart c d r c' d' r' o o' hne
    · exact .inl (h.inside c d r (back _ _ _ o)).2.1
    · exact .inr (h.inside c' d' r' (back _ _ _ o')).2.1
    · exact absurd rfl hne

/-- The commands that do not reset the allocator. -/
def keepsGeneration (i : Instr) : Prop := i ≠ .pmReset ∧ ∀ dev mps, i ≠ .chReconf0 dev mps

/-- Every step but the reset of a command keeps the allocator invariant. -/
theorem allocator_closed : GrowClosed keepsGeneration AllocatorGood where
  anti := fun _ _ _ hsub h => h.anti fun t _ _ hm => hsub t _ hm
  put := fun _ _ _ _ h => h.transfer rfl rfl fun _ _ => rfl
  slots := fun _ _ _ h => h.transfer rfl rfl fun _ _ => rfl
  report := fun _ _ _ _ h => h.transfer rfl rfl fun _ _ => rfl
  quiet := fun _ _ _ hr h => h.transfer hr.quiet.params hr.quiet.alloc hr.quiet.handle
  access := fun left s t a ha h => by
    by_cases hc : claimPart (.access a) = false
    · by_cases hr : recordAccess a = true
      · exact h.record (RecordRun.accessStep hr s)
      · have hm := (MildRun.accessStep (t := t) hc s).mild
        cases a with
        | store a n v =>
          rcases storeStep_cases a n v s with ⟨e, _⟩ | ⟨r, e⟩ <;> rw [accessStep, e] at hm ⊢
          · exact AllocatorGood.of_ok (h.mild hm) (by simp)
          · exact (h.mild hm).halt
        | readReg c change =>
          refine ⟨h, fun _ _ e => ?_⟩
          cases e
          refine h.anti fun u b r hx => ?_
          rw [Function.update_apply] at hx
          split at hx
          · subst_vars; simpa using hx
          · exact hx
        | writeReg c change cur => exact AllocatorGood.of_ok (h.mild hm) (by simp)
        | claim a => cases hc
        | _ => exact absurd rfl hr
    · cases a with
      | claim a =>
        rcases claimStep_cases t a s with e | ⟨_, e⟩ | ⟨hu, e⟩ | ⟨size, hu, hg, hfit, e⟩ <;> rw [accessStep, e]
        · exact h.raise _
        · exact AllocatorGood.of_ok (h.transfer rfl rfl fun _ _ => rfl) (by simp)
        · have hnone : ∀ r, ¬ ownsRegion left s a.ch a.dir r := fun r o => by rw [h.marked _ _ _ o] at hu; cases hu
          have h1 := (h.mark a.ch a.dir true (.inl rfl)).mark a.ch a.dir
            (Config.inUseDraw (setInUse a.ch a.dir true s).draws) (.inr fun r o => hnone r (by
              simpa only [ownsRegion, liveHandle, handleAt_setInUse, setInUse_gen] using o))
          exact AllocatorGood.of_ok (h1.transfer rfl rfl fun _ _ => rfl) (by simp)
        · exact h.claim hu hg hfit
      | _ => exact absurd rfl hc
  own := fun left s t o ho h => by
    by_cases hc : claimPart (.own o) = false
    · exact h.record (RecordRun.ownStep hc s)
    · cases o with
      | enter a r =>
        obtain ⟨more, s', e, hs, hm⟩ := enterHandle_cases t a r s
        rw [ownStep, e]
        have h1 := h.setHandle a.ch a.dir (some ⟨a.ch, a.dir, a.mps, a.etype, a.devaddr, r, s.alloc.gen⟩) fun y hy => by
          cases hy
          exact ⟨rfl, rfl, rfl, .inr ⟨t, a, ho, rfl, rfl⟩⟩
        refine AllocatorGood.of_ok ?_ fun x hx => ?_
        · rcases hs with rfl | ⟨res, rfl⟩
          · exact h1
          · exact h1.transfer rfl rfl fun _ _ => rfl
        · rcases hm with rfl | ⟨hi, _, rfl⟩
          · cases hx
          · rw [List.mem_singleton.mp hx]; rfl
      | _ => exact absurd rfl hc
  begin := fun left s i o hi h => by
    by_cases hm : mildBegin i = true
    · exact h.record (RecordRun.begin hm o s)
    · cases i <;> try exact absurd rfl hm
      case pmAlloc n =>
        simp only [begin, beginPmAlloc]
        rcases pmAlloc_cases n s with ⟨r, e⟩ | e | ⟨e, hg, hfit⟩ <;> rw [e]
        · exact h.raise _
        · exact AllocatorGood.of_ok (h.transfer rfl rfl fun _ _ => rfl) (by simp)
        · exact AllocatorGood.of_ok ((h.grow hg hfit).transfer rfl rfl fun _ _ => rfl) (by simp)
      case pmReset => exact absurd rfl hi.1
      case chReconf0 dev mps => exact absurd rfl (hi.2 dev mps)
      case chDrop ch d =>
        simp only [begin, beginChDrop]
        split
        · exact h.raise _
        · split
          · exact h.raise _
          · exact AllocatorGood.of_ok ((h.setHandle ch d none fun _ e => by cases e).transfer rfl rfl fun _ _ => rfl)
              (by simp)

/-- A command that resets the allocator, begun while no claim is in progress. -/
theorem allocator_begin_reset {left : Nat → List Part} {s : State} {i : Instr} {o : Side}
    (hi : ¬ keepsGeneration i) (hno : ∀ t a r, .own (.enter a r) ∉ left t) (h : AllocatorGood left s) :
    Adds AllocatorGood left o.task (begin i o s) := by
  have hr := h.reset hno
  cases i <;> try (exfalso; apply hi; constructor <;> simp; done)
  case pmReset => exact AllocatorGood.of_ok (hr.transfer rfl rfl fun _ _ => rfl) (by simp)
  case chReconf0 => exact AllocatorGood.of_ok hr (plain_all rfl)

end Sys2Proof.Machine
end

