-- ==== Sys2Proof/Laws/Engine.lean ====
section
/-! SUPPORT. What each step makes of the engine's invariant (10_state.md R52, R60–R63, 46_engine.md R241), under every
interleaving of the agents. -/

namespace Sys2Proof.Machine

/-- The engine's invariant but for the record and the wake of task `t`. -/
structure EngineBut (left : Nat → List Part) (t : Nat) (s : State) : Prop where
  named : ∀ c d h, handleAt s c d = some h → h.index = c ∧ h.dir = d
  records : ∀ u op, u ≠ t → (taskRec s u).op = some op → polling (left u) = false → opWf op
  polled : ∀ u, u ≠ t → polling (left u) = true → ∃ op, (taskRec s u).op = some op ∧ pollFits op (left u)
  exclusive : ∀ t u op op' c d, (taskRec s t).op = some op → (taskRec s u).op = some op' →
    opChannel op = some (c, d) → opChannel op' = some (c, d) → t = u
  wakes : ∀ u op c d, u ≠ t → (taskRec s u).op = some op → opChannel op = some (c, d) →
    .access (.register (.chan c d)) ∈ left u ∨ slotOf s (.chan c d) = some u ∨ (taskRec s u).woken = true

/-- What the record of task `t` holds, with `ps` left of its command. -/
structure EngineOf (ps : List Part) (t : Nat) (s : State) : Prop where
  record : ∀ op, (taskRec s t).op = some op → polling ps = false → opWf op
  polled : polling ps = true → ∃ op, (taskRec s t).op = some op ∧ pollFits op ps
  wake : ∀ op c d, (taskRec s t).op = some op → opChannel op = some (c, d) →
    .access (.register (.chan c d)) ∈ ps ∨ slotOf s (.chan c d) = some t ∨ (taskRec s t).woken = true

theorem EngineGood.but {left : Nat → List Part} {t : Nat} {ps : List Part} {s : State}
    (h : EngineGood (Function.update left t ps) s) : EngineBut left t s where
  named := h.named
  records := fun u op hu e hp => h.records u op e (by rwa [Function.update_of_ne hu])
  polled := fun u hu hp => by
    have := h.polled u
    rw [Function.update_of_ne hu] at this
    exact this hp
  exclusive := h.exclusive
  wakes := fun u op c d hu e1 e2 => by
    have := h.wakes u op c d e1 e2
    rwa [Function.update_of_ne hu] at this

theorem EngineGood.of {left : Nat → List Part} {t : Nat} {ps : List Part} {s : State}
    (h : EngineGood (Function.update left t ps) s) : EngineOf ps t s where
  record := fun op e hp => h.records t op e (by rwa [Function.update_self])
  polled := fun hp => by
    have := h.polled t
    rw [Function.update_self] at this
    exact this hp
  wake := fun op c d e1 e2 => by
    have := h.wakes t op c d e1 e2
    rwa [Function.update_self] at this

theorem EngineBut.join {left : Nat → List Part} {t : Nat} {ps : List Part} {s : State} (h : EngineBut left t s)
    (ho : EngineOf ps t s) : EngineGood (Function.update left t ps) s where
  named := h.named
  records := fun u op e hp => by
    by_cases hu : u = t
    · subst hu; rw [Function.update_self] at hp; exact ho.record op e hp
    · rw [Function.update_of_ne hu] at hp; exact h.records u op hu e hp
  polled := fun u hp => by
    by_cases hu : u = t
    · subst hu; rw [Function.update_self] at hp ⊢; exact ho.polled hp
    · rw [Function.update_of_ne hu] at hp ⊢; exact h.polled u hu hp
  exclusive := h.exclusive
  wakes := fun u op c d e1 e2 => by
    by_cases hu : u = t
    · subst hu; rw [Function.update_self]; exact ho.wake op c d e1 e2
    · rw [Function.update_of_ne hu]; exact h.wakes u op c d hu e1 e2

/-- A change of `t`'s record to one on the same channel half, of nobody else's, that leaves the wakers of others. -/
theorem EngineBut.transfer {left : Nat → List Part} {t : Nat} {s s' : State} (h : EngineBut left t s)
    (named : ∀ c d x, handleAt s' c d = some x → x.index = c ∧ x.dir = d)
    (others : ∀ u, u ≠ t → taskRec s' u = taskRec s u)
    (mine : ∀ op', (taskRec s' t).op = some op' → ∃ op, (taskRec s t).op = some op ∧ opChannel op' = opChannel op)
    (slots : ∀ u op c d, u ≠ t → (taskRec s u).op = some op → opChannel op = some (c, d) →
      slotOf s (.chan c d) = some u → slotOf s' (.chan c d) = some u) : EngineBut left t s' where
  named := named
  records := fun u op hu e hp => h.records u op hu (by rw [← others u hu]; exact e) hp
  polled := fun u hu hp => by rw [others u hu]; exact h.polled u hu hp
  exclusive := fun u v op op' c d e1 e2 c1 c2 => by
    have back : ∀ w x, (taskRec s' w).op = some x → ∃ y, (taskRec s w).op = some y ∧ opChannel x = opChannel y := by
      intro w x e
      by_cases hw : w = t
      · subst hw; exact mine x e
      · exact ⟨x, by rw [← others w hw]; exact e, rfl⟩
    obtain ⟨y1, f1, g1⟩ := back u op e1
    obtain ⟨y2, f2, g2⟩ := back v op' e2
    exact h.exclusive u v y1 y2 c d f1 f2 (by rw [← g1]; exact c1) (by rw [← g2]; exact c2)
  wakes := fun u op c d hu e1 e2 => by
    rw [others u hu] at e1 ⊢
    rcases h.wakes u op c d hu e1 e2 with w | w | w
    · exact .inl w
    · exact .inr (.inl (slots u op c d hu e1 e2 w))
    · exact .inr (.inr w)

/-- The state reads the same to the engine. -/
structure SameEngine (s s' : State) : Prop where
  handle : ∀ c d, handleAt s' c d = handleAt s c d
  record : ∀ u, taskRec s' u = taskRec s u
  slot : ∀ sl, slotOf s' sl = slotOf s sl

theorem EngineBut.same {left : Nat → List Part} {t : Nat} {s s' : State} (h : EngineBut left t s) (e : SameEngine s s') :
    EngineBut left t s' :=
  h.transfer (fun c d x hx => h.named c d x (by rw [← e.handle]; exact hx)) (fun u _ => e.record u)
    (fun op' ho => ⟨op', by rw [← e.record]; exact ho, rfl⟩) fun _ _ _ _ _ _ _ w => by rw [e.slot]; exact w

theorem EngineOf.same {ps : List Part} {t : Nat} {s s' : State} (h : EngineOf ps t s) (e : SameEngine s s') :
    EngineOf ps t s' where
  record := fun op ho => h.record op (by rw [← e.record]; exact ho)
  polled := fun hp => by rw [e.record]; exact h.polled hp
  wake := fun op c d e1 e2 => by
    rw [e.record] at e1 ⊢
    rw [e.slot]
    exact h.wake op c d e1 e2

theorem SameEngine.refl (s : State) : SameEngine s s := ⟨fun _ _ => rfl, fun _ => rfl, fun _ => rfl⟩

theorem SameEngine.handOut (a : Agent) (r : Result) (s : State) : SameEngine s (handOut a r s) :=
  ⟨fun _ d => by cases d <;> rfl, fun _ => rfl, fun sl => by rcases sl with ⟨_, _ | _⟩ | _ <;> rfl⟩

theorem SameEngine.pokePma (s : State) (a : Nat) (bs : List Byte) : SameEngine s (pokePma s a bs) :=
  ⟨fun _ d => by cases d <;> rfl, fun _ => rfl, fun sl => by rcases sl with ⟨_, _ | _⟩ | _ <;> rfl⟩

theorem SameEngine.writeChep (a : Agent) (c : Chan) (w : Word32) (s : State) : SameEngine s (writeChep a c w s) :=
  ⟨fun _ d => by cases d <;> rfl, fun _ => rfl, fun sl => by rcases sl with ⟨_, _ | _⟩ | _ <;> rfl⟩

theorem SameEngine.nextDraw (s : State) : SameEngine s (nextDraw s) :=
  ⟨fun _ d => by cases d <;> rfl, fun _ => rfl, fun sl => by rcases sl with ⟨_, _ | _⟩ | _ <;> rfl⟩

theorem SameEngine.setAlloc (s : State) (a : Alloc) : SameEngine s { s with alloc := a } :=
  ⟨fun _ d => by cases d <;> rfl, fun _ => rfl, fun sl => by rcases sl with ⟨_, _ | _⟩ | _ <;> rfl⟩

theorem SameEngine.setInUse (s : State) (c : Chan) (d : Dir) (b : Bool) : SameEngine s (setInUse c d b s) := by
  cases d <;> exact SameEngine.setAlloc s _

theorem SameEngine.trans {a b c : State} (h1 : SameEngine a b) (h2 : SameEngine b c) : SameEngine a c :=
  ⟨fun x d => (h2.handle x d).trans (h1.handle x d), fun u => (h2.record u).trans (h1.record u),
    fun sl => (h2.slot sl).trans (h1.slot sl)⟩

/-! Steps of commands that are no polls. -/

theorem polling_append (ps qs : List Part) : polling (ps ++ qs) = (polling ps || polling qs) := by
  simp [polling, List.any_append]

theorem polling_cons (p : Part) (ps : List Part) : polling (p :: ps) = (pollPart p || polling ps) := by
  simp [polling]

/-- Parts of which none is a poll's. -/
theorem polling_storesOrFaults {ps : List Part} (h : storesOrFaults ps = true) : polling ps = false := by
  simp only [storesOrFaults, List.all_eq_true] at h
  refine List.any_eq_false.mpr fun x hx => ?_
  have := h x hx
  split at this
  · exact fun h => Bool.noConfusion h
  · exact fun h => Bool.noConfusion h
  · cases this

theorem polling_loadParts (off k todo n : Nat) (got : List Byte) : polling (loadParts off k todo n got .caller) = false := by
  cases todo <;> rfl

theorem polling_pmReadParts (p : Params) (r : Region) (n : Nat) : polling (pmReadParts p r n .caller) = false := by
  rcases pmReadParts_parts p r n .caller with ⟨f, e⟩ | e <;> rw [e]
  · rfl
  · exact polling_loadParts _ _ _ _ _

theorem polling_bindParts (p : Params) (a : Claim) (r : Region) : polling (bindParts p a r) = false := by
  rw [bindParts, polling_append, polling_storesOrFaults (storesOrFaults_progHalf _ _ _ _ _)]
  rfl

/-- With no poll in progress before or after, only the record as it stands matters. -/
theorem EngineOf.idle {ps ps' : List Part} {t : Nat} {s : State} (h : EngineOf ps t s) (hp : polling ps = false)
    (hp' : polling ps' = false) : EngineOf ps' t s where
  record := fun op e _ => h.record op e hp
  polled := fun e => by rw [hp'] at e; cases e
  wake := fun op c d e1 e2 => by
    rcases h.wake op c d e1 e2 with w | w
    · have : polling ps = true := List.any_eq_true.mpr ⟨_, w, rfl⟩
      rw [hp] at this
      cases this
    · exact .inr w

/-- A step of a command that is no poll, which changes nothing the engine reads. -/
theorem EngineGood.idle {left : Nat → List Part} {t : Nat} {ps ps' : List Part} {s s' : State}
    (h : EngineGood (Function.update left t ps) s) (hp : polling ps = false) (hp' : polling ps' = false)
    (e : SameEngine s s') : EngineGood (Function.update left t ps') s' :=
  (h.but.same e).join ((h.of.idle hp hp').same e)

/-- An access of a command that is no poll. -/
theorem EngineGood.idleAccess {left : Nat → List Part} {t : Nat} {a : Access} {rest more : List Part} {s s' : State}
    (h : EngineGood (Function.update left t (.access a :: rest)) s) (hp : polling (.access a :: rest) = false)
    (e : accessStep t a s = .ok more s') : EngineGood (Function.update left t (more ++ rest)) s' := by
  have hr : pollPart (.access a) = false ∧ polling rest = false := by simpa [polling_cons] using hp
  have ok : ∀ {qs : List Part} {s1 : State}, polling qs = false → SameEngine s s1 → Run.ok qs s1 = Run.ok more s' →
      EngineGood (Function.update left t (more ++ rest)) s' := fun hq hs e => by
    cases e
    exact h.idle hp (by rw [polling_append, hq, hr.2]; rfl) hs
  cases a with
  | store a n v =>
    rcases storeStep_cases a n v s with ⟨e', _⟩ | ⟨r, e'⟩ <;> rw [accessStep, e'] at e
    · exact ok rfl (SameEngine.pokePma _ _ _) e
    · cases e
  | readReg c change => exact ok (qs := [.access (.writeReg c change (readChep s c))]) rfl (SameEngine.refl s) e
  | writeReg c change cur => exact ok rfl (SameEngine.writeChep _ _ _ _) e
  | load off k todo n got purpose =>
    rcases loadStep_cases off k todo n got purpose s with ⟨w, e'⟩ | ⟨r, e'⟩ <;> rw [accessStep, e'] at e
    · cases purpose with
      | caller => exact ok (polling_loadParts _ _ _ _ _) (SameEngine.refl s) e
      | poll => cases hr.1
    · cases e
  | claim a =>
    rcases claimStep_cases t a s with e' | ⟨_, e'⟩ | ⟨_, e'⟩ | ⟨size, _, _, _, e'⟩ <;> rw [accessStep, e'] at e
    · cases e
    · exact ok rfl (SameEngine.handOut _ _ _) e
    · exact ok rfl ((SameEngine.setInUse s a.ch a.dir true).trans ((SameEngine.setInUse _ a.ch a.dir _).trans
        ((SameEngine.nextDraw _).trans (SameEngine.handOut _ _ _)))) e
    · exact ok (polling_bindParts _ _ _) ((SameEngine.setInUse s a.ch a.dir true).trans (SameEngine.setAlloc _ _)) e
  | prologue | register | readIstr | clock | inspect | readCount => cases hr.1

/-- What a task does on its own in a command that is no poll. -/
theorem EngineGood.idleOwn {left : Nat → List Part} {t : Nat} {o : Own} {rest more : List Part} {s s' : State}
    (h : EngineGood (Function.update left t (.own o :: rest)) s) (hp : polling (.own o :: rest) = false)
    (e : ownStep t o s = .ok more s') : EngineGood (Function.update left t (more ++ rest)) s' := by
  have hr : pollPart (.own o) = false ∧ polling rest = false := by simpa [polling_cons] using hp
  cases o with
  | raise r => cases e
  | reply r => cases e; exact h.idle hp hr.2 (SameEngine.handOut _ _ _)
  | enter a r =>
    obtain ⟨more', s1, e', hs, hm⟩ := enterHandle_cases t a r s
    rw [ownStep, e'] at e
    cases e
    have hq : polling (more ++ rest) = false := by
      rcases hm with rfl | ⟨hi, _, rfl⟩
      · exact hr.2
      · rw [List.singleton_append, polling_cons, hr.2]; rfl
    have hrec : ∀ u, taskRec s' u = taskRec s u := by
      rcases hs with rfl | ⟨res, rfl⟩ <;> intro u <;> refine taskRec_congr ?_ u <;> simp
    have hslot : ∀ sl, slotOf s' sl = slotOf s sl := by
      rcases hs with rfl | ⟨res, rfl⟩ <;> intro sl <;> refine slotOf_congr ?_ ?_ ?_ sl <;> simp
    have hhandle : ∀ c d, handleAt s' c d = handleAt (setHandle s a.ch a.dir
        (some ⟨a.ch, a.dir, a.mps, a.etype, a.devaddr, r, s.alloc.gen⟩)) c d := by
      rcases hs with rfl | ⟨res, rfl⟩
      · exact fun _ _ => rfl
      · exact (SameEngine.handOut _ _ _).handle
    refine EngineBut.join (h.but.transfer (fun c d x hx => ?_) (fun u _ => hrec u)
      (fun op' ho => ⟨op', by rw [← hrec]; exact ho, rfl⟩) fun _ _ _ _ _ _ _ w => by rw [hslot]; exact w) ?_
    · rw [hhandle, handleAt_setHandle] at hx
      split at hx
      · rename_i hc
        cases hx
        exact ⟨hc.1.symm, hc.2.symm⟩
      · exact h.named c d x hx
    · have ho := h.of.idle hp hq
      refine ⟨fun op e => ho.record op (by rw [← hrec]; exact e), fun e => ?_, fun op c d e1 e2 => ?_⟩
      · rw [hq] at e; cases e
      · rw [hrec] at e1 ⊢
        rw [hslot]
        exact ho.wake op c d e1 e2
  | unpacked bytes purpose =>
    cases purpose with
    | caller => cases e; exact h.idle hp hr.2 (SameEngine.handOut _ _ _)
    | poll => cases hr.1
  | armed | fail | rearmed => cases hr.1

end Sys2Proof.Machine
end

