-- ==== Sys2Proof/Laws/PerInstr.lean ====
section
/-! SUPPORT. Per-instruction facts about the syntax: the encoding of a well-formed instruction fits the fields of the
command word (30_encoding.md R111), and the fields are read back as they were put in. -/

namespace Sys2Proof.Laws

open Sys2Proof.Machine

/-- Every field is inside its bits of the command word (30_encoding.md R111). -/
def FieldsInRange (f : Fields) : Prop :=
  f.op < 256 ∧ f.ch < 8 ∧ f.dir < 2 ∧ f.etype < 4 ∧ f.devaddr < 128 ∧ f.len < 2048 ∧ f.arg < 2 ^ 32

theorem dirCode_lt (d : Dir) : dirCode d < 2 := by cases d <;> decide

theorem etypeCode_lt (e : EType) : etypeCode e < 4 := by cases e <;> decide

theorem statusCode_lt (t : Status) : statusCode t < 4 := by cases t <;> decide

theorem busCode_lt (b : BusState) : busCode b < 2 := by cases b <;> decide

theorem flagsCode_lt (f : FlagSet) : flagsCode f < 4 := by
  obtain ⟨r, t⟩ := f
  cases r <;> cases t <;> decide

theorem regionCode_lt {r : Region} (h : r.wf = true) : regionCode r < 2 ^ 32 := by
  simp only [Region.wf, Bool.and_eq_true, decide_eq_true_eq] at h
  simp only [regionCode]
  omega

/-- Fields in range are read back from their word as they were put in. -/
theorem fieldsOf_wordOfFields {f : Fields} (h : FieldsInRange f) : fieldsOf (wordOfFields f) = f := by
  obtain ⟨op, ch, dir, etype, devaddr, len, arg⟩ := f
  simp only [FieldsInRange] at h
  simp only [fieldsOf, wordOfFields, BitVec.toNat_ofNat, Fields.mk.injEq]
  omega

/-- A well-formed instruction's fields fit the command word. -/
def FieldsFit.Statement (i : Instr) : Prop := i.wf = true → FieldsInRange (encodeFields i)

theorem FieldsFit.pmAlloc (length : Nat) : FieldsFit.Statement (.pmAlloc length) := by
  intro h
  simp only [Instr.wf, decide_eq_true_eq] at h
  simp only [FieldsInRange, encodeFields]
  omega

theorem FieldsFit.pmReset : FieldsFit.Statement .pmReset := by
  intro _
  simp only [FieldsInRange, encodeFields]
  omega

theorem FieldsFit.bdEnc (len : Nat) : FieldsFit.Statement (.bdEnc len) := by
  intro h
  simp only [Instr.wf, decide_eq_true_eq] at h
  simp only [FieldsInRange, encodeFields]
  omega

theorem FieldsFit.bdDec (code : Half16) : FieldsFit.Statement (.bdDec code) := by
  intro _
  have := code.isLt
  simp only [FieldsInRange, encodeFields]
  omega

theorem FieldsFit.bdProgrx (ch : Chan) (mps : Nat) (region : Region) : FieldsFit.Statement (.bdProgrx ch mps region) := by
  intro h
  have := ch.isLt
  simp only [Instr.wf, Bool.and_eq_true, decide_eq_true_eq] at h
  have := regionCode_lt h.2
  simp only [FieldsInRange, encodeFields]
  omega

theorem FieldsFit.bdProgtx (ch : Chan) (count : Nat) (region : Region) : FieldsFit.Statement (.bdProgtx ch count region) := by
  intro h
  have := ch.isLt
  simp only [Instr.wf, Bool.and_eq_true, decide_eq_true_eq] at h
  have := regionCode_lt h.2
  simp only [FieldsInRange, encodeFields]
  omega

theorem FieldsFit.bdRxlen (ch : Chan) : FieldsFit.Statement (.bdRxlen ch) := by
  intro _
  have := ch.isLt
  simp only [FieldsInRange, encodeFields]
  omega

theorem FieldsFit.pmWrite (region : Region) : FieldsFit.Statement (.pmWrite region) := by
  intro h
  have := regionCode_lt h
  simp only [FieldsInRange, encodeFields]
  omega

theorem FieldsFit.pmRead (n : Nat) (region : Region) : FieldsFit.Statement (.pmRead n region) := by
  intro h
  simp only [Instr.wf, Bool.and_eq_true, decide_eq_true_eq] at h
  have := regionCode_lt h.2
  simp only [FieldsInRange, encodeFields]
  omega

theorem FieldsFit.crRead (ch : Chan) : FieldsFit.Statement (.crRead ch) := by
  intro _
  have := ch.isLt
  simp only [FieldsInRange, encodeFields]
  omega

theorem FieldsFit.crCanon (value : Word32) : FieldsFit.Statement (.crCanon value) := by
  intro _
  have := value.isLt
  simp only [FieldsInRange, encodeFields]
  omega

theorem FieldsFit.crSetstat (ch : Chan) (dir : Dir) (target : Status) : FieldsFit.Statement (.crSetstat ch dir target) := by
  intro _
  have := ch.isLt
  have := dirCode_lt dir
  have := statusCode_lt target
  simp only [FieldsInRange, encodeFields]
  omega

theorem FieldsFit.crClrctr (ch : Chan) (flags : FlagSet) : FieldsFit.Statement (.crClrctr ch flags) := by
  intro _
  have := ch.isLt
  have := flagsCode_lt flags
  simp only [FieldsInRange, encodeFields]
  omega

theorem FieldsFit.crClrerr (ch : Chan) (flags : FlagSet) : FieldsFit.Statement (.crClrerr ch flags) := by
  intro _
  have := ch.isLt
  have := flagsCode_lt flags
  simp only [FieldsInRange, encodeFields]
  omega

theorem FieldsFit.crInit (ch : Chan) (etype : EType) (devaddr : Nat) : FieldsFit.Statement (.crInit ch etype devaddr) := by
  intro h
  have := ch.isLt
  have := etypeCode_lt etype
  simp only [Instr.wf, decide_eq_true_eq] at h
  simp only [FieldsInRange, encodeFields]
  omega

theorem FieldsFit.crTouch (ch : Chan) : FieldsFit.Statement (.crTouch ch) := by
  intro _
  have := ch.isLt
  simp only [FieldsInRange, encodeFields]
  omega

theorem FieldsFit.irqDispatch : FieldsFit.Statement .irqDispatch := by
  intro _
  simp only [FieldsInRange, encodeFields]
  omega

theorem FieldsFit.epRead (ch : Chan) (n : Nat) : FieldsFit.Statement (.epRead ch n) := by
  intro h
  have := ch.isLt
  simp only [Instr.wf, decide_eq_true_eq] at h
  simp only [FieldsInRange, encodeFields]
  omega

theorem FieldsFit.epWrite (ch : Chan) : FieldsFit.Statement (.epWrite ch) := by
  intro _
  have := ch.isLt
  simp only [FieldsInRange, encodeFields]
  omega

theorem FieldsFit.epPoll : FieldsFit.Statement .epPoll := by
  intro _
  simp only [FieldsInRange, encodeFields]
  omega

theorem FieldsFit.busWait (target : BusState) : FieldsFit.Statement (.busWait target) := by
  intro _
  have := busCode_lt target
  simp only [FieldsInRange, encodeFields]
  omega

theorem FieldsFit.chClaim (ch : Chan) (dir : Dir) (etype : EType) (devaddr mps : Nat) : FieldsFit.Statement (.chClaim ch dir etype devaddr mps) := by
  intro h
  have := ch.isLt
  have := dirCode_lt dir
  have := etypeCode_lt etype
  simp only [Instr.wf, Bool.and_eq_true, decide_eq_true_eq] at h
  simp only [FieldsInRange, encodeFields]
  omega

theorem FieldsFit.chReconf0 (devaddr mps : Nat) : FieldsFit.Statement (.chReconf0 devaddr mps) := by
  intro h
  simp only [Instr.wf, Bool.and_eq_true, decide_eq_true_eq] at h
  simp only [FieldsInRange, encodeFields]
  omega

theorem FieldsFit.chDrop (ch : Chan) (dir : Dir) : FieldsFit.Statement (.chDrop ch dir) := by
  intro _
  have := ch.isLt
  have := dirCode_lt dir
  simp only [FieldsInRange, encodeFields]
  omega

end Sys2Proof.Laws
end

