-- ==== Sys2Proof/Laws/Polls.lean ====
section
/-! SUPPORT. What each step of a poll makes of the engine's invariant (46_engine.md R236–R248), and with it every step of
every agent. -/

namespace Sys2Proof.Machine

/-! Operation records. -/

@[simp] theorem opSlot_withPhase (op : Op) (p : Phase) : opSlot (withPhase op p) = opSlot op := by cases op <;> rfl

@[simp] theorem opChannel_withPhase (op : Op) (p : Phase) : opChannel (withPhase op p) = opChannel op := by
  cases op <;> rfl

@[simp] theorem checkParts_withPhase (op : Op) (p : Phase) : checkParts (withPhase op p) = checkParts op := by
  simp [checkParts]

theorem opIn_withPhase {op : Op} {p q : Phase} (h : opIn op p) : opIn (withPhase op q) q := by
  cases op with
  | read r => obtain ⟨h1, h2, h3, h4, h5⟩ := h; exact ⟨h1, h2, h3, rfl, h5⟩
  | write w => obtain ⟨h1, h2, h3, h4, h5⟩ := h; exact ⟨h1, h2, h3, rfl, h5⟩
  | busWait b => exact rfl

theorem isTransfer_withPhase {op : Op} {p : Phase} (h : isTransfer op) : isTransfer (withPhase op p) := by
  simpa [isTransfer] using h

/-- A record that awaits completion is a record between two polls (10_state.md R60). -/
theorem opWf_of_awaiting {op : Op} (h : opIn op .awaitingCompletion) : opWf op := by
  cases op with
  | read r => obtain ⟨h1, h2, h3, h4, h5⟩ := h; exact ⟨h1, h2, h3, .inr ⟨h4, h5⟩⟩
  | write w => obtain ⟨h1, h2, h3, h4, h5⟩ := h; exact ⟨h1, h2, h3, .inr ⟨h4, h5⟩⟩
  | busWait b => exact h

/-- The slot a poll registers in is the one of the operation's channel half. -/
theorem opSlot_of_channel {op : Op} {p : Phase} (h : opIn op p) {c : Chan} {d : Dir} (hc : opChannel op = some (c, d)) :
    opSlot op = .chan c d := by
  cases op with
  | read r =>
    simp only [opChannel, Option.some.injEq, Prod.mk.injEq] at hc
    obtain ⟨rfl, rfl⟩ := hc
    rw [h.1]
    rfl
  | write w =>
    simp only [opChannel, Option.some.injEq, Prod.mk.injEq] at hc
    obtain ⟨rfl, rfl⟩ := hc
    rw [h.1]
    rfl
  | busWait b => cases hc

theorem accumulates_mono {op : Op} {m n : Nat} (h : accumulates op n) (hm : m ≤ n) : accumulates op m := by
  obtain ⟨h1, h2⟩ := h
  refine ⟨h1, ?_⟩
  cases op with
  | read r => exact Nat.le_trans hm h2
  | write w => exact h2
  | busWait b => exact h2

/-- Stores and faults come before what a poll has left. -/
theorem pollFits_stores {op : Op} {ps qs : List Part} (h : storesOrFaults ps = true) (hq : pollFits op qs) :
    pollFits op (ps ++ qs) := by
  induction ps with
  | nil => exact hq
  | cons p rest ih =>
    simp only [storesOrFaults, List.all_cons, Bool.and_eq_true] at h
    have hr := ih h.2
    have hp := h.1
    split at hp
    · exact hr
    · trivial
    · cases hp

/-! What the record of the polled task holds after a step. -/

/-- The polled task has `op`, and its wake. -/
structure Polls (op : Op) (ps : List Part) (t : Nat) (s : State) : Prop where
  mine : (taskRec s t).op = some op
  fits : pollFits op ps
  wake : ∀ c d, opChannel op = some (c, d) →
    .access (.register (.chan c d)) ∈ ps ∨ slotOf s (.chan c d) = some t ∨ (taskRec s t).woken = true

theorem Polls.engineOf {op : Op} {ps : List Part} {t : Nat} {s : State} (h : Polls op ps t s) (hp : polling ps = true) :
    EngineOf ps t s where
  record := fun _ _ e => by rw [hp] at e; cases e
  polled := fun _ => ⟨op, h.mine, h.fits⟩
  wake := fun op' c d e1 e2 => by
    rw [h.mine] at e1
    cases e1
    exact h.wake c d e2

/-- A poll that is over leaves its record between polls. -/
theorem EngineOf.over {op : Op} {t : Nat} {s : State} (h1 : (taskRec s t).op = some op) (h2 : opWf op)
    (h3 : ∀ c d, opChannel op = some (c, d) → slotOf s (.chan c d) = some t ∨ (taskRec s t).woken = true) :
    EngineOf [] t s where
  record := fun op' e _ => by rw [h1] at e; cases e; exact h2
  polled := fun e => by cases e
  wake := fun op' c d e1 e2 => by rw [h1] at e1; cases e1; exact .inr (h3 c d e2)

/-- A task with no operation. -/
theorem EngineOf.none {t : Nat} {s : State} (h : (taskRec s t).op = none) : EngineOf [] t s where
  record := fun op e _ => by rw [h] at e; cases e
  polled := fun e => by cases e
  wake := fun op c d e _ => by rw [h] at e; cases e

theorem EngineGood.polls {left : Nat → List Part} {t : Nat} {ps : List Part} {s : State}
    (h : EngineGood (Function.update left t ps) s) (hp : polling ps = true) : ∃ op, Polls op ps t s := by
  obtain ⟨op, e, hf⟩ := h.of.polled hp
  exact ⟨op, e, hf, fun c d hc => h.of.wake op c d e hc⟩

/-- The polled task's record is replaced by one on the same channel half. -/
theorem EngineBut.setOp {left : Nat → List Part} {t : Nat} {s : State} (h : EngineBut left t s) {op : Op}
    (hop : (taskRec s t).op = some op) {op' : Op} (hc : opChannel op' = opChannel op) :
    EngineBut left t (setOp t (some op') s) :=
  h.transfer (fun c d x hx => h.named c d x (by cases d <;> exact hx))
    (fun u hu => by rw [taskRec_setOp, if_neg hu])
    (fun x hx => by
      rw [taskRec_setOp_op, if_pos rfl] at hx
      cases hx
      exact ⟨op, hop, hc⟩)
    fun u op c d _ _ _ w => by simpa using w

/-- The polled task's operation ends. -/
theorem EngineBut.endOp {left : Nat → List Part} {t : Nat} {s : State} (h : EngineBut left t s) :
    EngineBut left t (Machine.setOp t .none s) :=
  h.transfer (fun c d x hx => h.named c d x (by cases d <;> exact hx))
    (fun u hu => by rw [taskRec_setOp, if_neg hu])
    (fun x hx => by rw [taskRec_setOp_op, if_pos rfl] at hx; cases hx)
    fun u op c d _ _ _ w => by simpa using w

theorem Polls.setOp {op op' : Op} {ps ps' : List Part} {t : Nat} {s : State} (h : Polls op ps t s)
    (hc : opChannel op' = opChannel op) (hf : pollFits op' ps')
    (hw : ∀ x, .access (.register x) ∈ ps → .access (.register x) ∈ ps') : Polls op' ps' t (Machine.setOp t (some op') s) where
  mine := by rw [taskRec_setOp_op, if_pos rfl]
  fits := hf
  wake := fun c d e => by
    rw [hc] at e
    rcases h.wake c d e with w | w
    · exact .inl (hw _ w)
    · exact .inr (by simpa using w)

theorem Polls.same {op : Op} {ps ps' : List Part} {t : Nat} {s s' : State} (h : Polls op ps t s) (e : SameEngine s s')
    (hf : pollFits op ps') (hw : ∀ x, .access (.register x) ∈ ps → .access (.register x) ∈ ps') : Polls op ps' t s' where
  mine := by rw [e.record]; exact h.mine
  fits := hf
  wake := fun c d hc => by
    rw [e.record, e.slot]
    exact (h.wake c d hc).imp (hw _) id

/-- What is left begins with a fault: the step that gets there stops. -/
def dead (ps : List Part) : Prop := ∃ f rest, ps = .own (.raise f) :: rest

/-- What a step of a poll leads to: the invariant, or a fault in the same step. -/
def PollGood (left : Nat → List Part) (t : Nat) (rest : List Part) (r : Run (List Part)) : Prop :=
  ∀ more s', r = .ok more s' → dead (more ++ rest) ∨ EngineGood (Function.update left t (more ++ rest)) s'

theorem PollGood.raise (left : Nat → List Part) (t : Nat) (rest : List Part) (f : Fault) (s : State) :
    PollGood left t rest (raise f s) := fun _ _ e => by cases e

theorem PollGood.of_ok {left : Nat → List Part} {t : Nat} {rest more : List Part} {s : State}
    (h : EngineGood (Function.update left t (more ++ rest)) s) : PollGood left t rest (.ok more s) :=
  fun _ _ e => by cases e; exact .inr h

theorem PollGood.withOp {left : Nat → List Part} {t : Nat} {rest : List Part} {s0 s : State} {op : Op}
    (hm : (taskRec s0 t).op = some op) (hs : ∀ u, taskRec s u = taskRec s0 u) {f : Op → Run (List Part)}
    (h : PollGood left t rest (f op)) : PollGood left t rest (withOp t s f) := by
  simp only [Machine.withOp, hs, hm]
  exact h

/-- The operation ends and its result is handed over (46_engine.md R233, R249). -/
theorem PollGood.finish {left : Nat → List Part} {t : Nat} {s : State} {op : Op} (h : EngineBut left t s)
    (hm : (taskRec s t).op = some op) (p : Phase) (res : Result) : PollGood left t [] (finishPoll t op p res s) :=
  PollGood.of_ok (EngineBut.join
    (((h.setOp hm (opChannel_withPhase op p)).endOp).same (SameEngine.handOut _ _ _))
    ((EngineOf.none (by rw [taskRec_setOp_op, if_pos rfl])).same (SameEngine.handOut _ _ _)))

/-- The poll ends pending with its record between polls. -/
theorem PollGood.pending {left : Nat → List Part} {t : Nat} {s : State} {op : Op} (h : EngineBut left t s)
    (hm : (taskRec s t).op = some op) (hw : opWf op)
    (hk : ∀ c d, opChannel op = some (c, d) → slotOf s (.chan c d) = some t ∨ (taskRec s t).woken = true) (res : Result) :
    PollGood left t [] (reply t res s) :=
  PollGood.of_ok ((h.same (SameEngine.handOut _ _ _)).join ((EngineOf.over hm hw hk).same (SameEngine.handOut _ _ _)))

/-- The half is disabled before the poll ends with an error (46_engine.md R238, R239). -/
theorem disable_good {left : Nat → List Part} {t : Nat} {s : State} {op : Op} {ps : List Part} (h : EngineBut left t s)
    (hp : Polls op ps t s) (hn : ∀ x, .access (.register x) ∉ ps) (h1 : opIn op .awaitingCompletion) (h2 : isTransfer op)
    (c : Chan) (hf : Half) (e : Err) : PollGood left t [] (.ok (disableParts c hf e) s) :=
  PollGood.of_ok (h.join ((hp.same (SameEngine.refl s) (ps' := disableParts c hf e ++ [])
    (by simpa [disableParts, changeReg, pollFits] using And.intro h1 h2)
    fun x hx => absurd hx (hn x)).engineOf rfl))

/-- A polled task that has only one part left has no register to make, but for that part. -/
theorem not_register {a : Part} (h : ∀ x, a ≠ .access (.register x)) (x : Slot) : .access (.register x) ∉ [a] := by
  intro hx
  exact h x (List.mem_singleton.mp hx).symm

theorem Polls.awake {op : Op} {ps : List Part} {t : Nat} {s : State} (h : Polls op ps t s)
    (hn : ∀ x, .access (.register x) ∉ ps) (c : Chan) (d : Dir) (hc : opChannel op = some (c, d)) :
    slotOf s (.chan c d) = some t ∨ (taskRec s t).woken = true :=
  (h.wake c d hc).resolve_left (hn _)

/-- What the checks of a poll fit (46_engine.md R237, R245, R248). -/
theorem pollFits_checkParts {op : Op} (h : opIn op .awaitingCompletion) : pollFits op (checkParts op) := ⟨h, rfl, rfl⟩

theorem register_mem_checkParts {op : Op} {p : Phase} (h : opIn op p) {c : Chan} {d : Dir}
    (hc : opChannel op = some (c, d)) : .access (.register (.chan c d)) ∈ checkParts op := by
  rw [← opSlot_of_channel h hc]
  simp [checkParts]

/-! The accesses of a poll. -/

/-- The prologue and the arming (46_engine.md R236, R237, R245). -/
theorem prologue_good {left : Nat → List Part} {t : Nat} {s : State} {op : Op} (h : EngineBut left t s)
    (hm : (taskRec s t).op = some op) (hw : opWf op) : PollGood left t [] (pollPrologue t s) := by
  refine PollGood.withOp hm (fun _ => rfl) ?_
  simp only
  split
  · exact PollGood.raise _ _ _ _ _
  · have h1 : EngineBut left t (setWoken t false s) :=
      h.transfer (fun c d x hx => h.named c d x (by cases d <;> exact hx))
        (fun u hu => by rw [taskRec_setWoken, if_neg hu])
        (fun x hx => ⟨x, by simpa using hx, rfl⟩) fun u op c d _ _ _ w => by simpa using w
    have hm1 : (taskRec (setWoken t false s) t).op = some op := by simpa using hm
    have check : ∀ {op' : Op}, opIn op' .awaitingCompletion → (taskRec (setWoken t false s) t).op = some op' →
        PollGood left t [] (.ok (checkParts op') (setWoken t false s)) := fun hi ho =>
      PollGood.of_ok (h1.join (Polls.engineOf ⟨ho, by rw [List.append_nil]; exact pollFits_checkParts hi,
        fun c d hc => .inl (by rw [List.append_nil]; exact register_mem_checkParts hi hc)⟩ rfl))
    cases op with
    | read r =>
      obtain ⟨hd, hb, hn, hph⟩ := hw
      simp only [pollParts]
      rcases hph with ⟨p1, _⟩ | ⟨p1, p2⟩
      · rw [p1]
        simp only
        refine PollGood.of_ok ((h1.setOp hm1 (op' := .read { r with start := some (setWoken t false s).now, phase := .arming }) rfl).join
          (Polls.engineOf (op := .read { r with start := some (setWoken t false s).now, phase := .arming }) ⟨?_, ?_, ?_⟩ ?_))
        · rw [taskRec_setOp_op, if_pos rfl]
        · rw [List.append_nil]
          exact ⟨⟨hd, hb, hn, rfl, rfl⟩, by simp [isTransfer, opChannel], rfl⟩
        · intro c d hc
          left
          rw [List.append_nil]
          have hi : opIn (.read { r with start := some (setWoken t false s).now, phase := .arming }) .arming :=
            ⟨hd, hb, hn, rfl, rfl⟩
          exact List.mem_append.mpr (.inr (register_mem_checkParts hi hc))
        · rw [List.append_nil, polling_append]; rfl
      · have hi : opIn (.read r) .awaitingCompletion := ⟨hd, hb, hn, p1, p2⟩
        rw [p1]
        exact check hi hm1
    | write w =>
      obtain ⟨hd, hb, hn, hph⟩ := hw
      simp only [pollParts]
      rcases hph with ⟨p1, _⟩ | ⟨p1, p2⟩
      · rw [p1]
        simp only
        have hi : opIn (.write { w with start := some (setWoken t false s).now, phase := .arming }) .arming :=
            ⟨hd, hb, hn, rfl, rfl⟩
        refine PollGood.of_ok ((h1.setOp hm1 (op' := .write { w with start := some (setWoken t false s).now, phase := .arming }) rfl).join
          (Polls.engineOf (op := .write { w with start := some (setWoken t false s).now, phase := .arming }) ⟨?_, ?_, ?_⟩ ?_))
        · rw [taskRec_setOp_op, if_pos rfl]
        · rw [List.append_nil]
          simp only [armWriteParts, List.append_assoc]
          refine pollFits_stores (storesOrFaults_progTx _ _ _ _) (pollFits_stores (storesOrFaults_pmWrite _ _ _) ?_)
          exact ⟨hi, by simp [isTransfer, opChannel], rfl⟩
        · intro c d hc
          left
          rw [List.append_nil]
          exact List.mem_append.mpr (.inr (register_mem_checkParts hi hc))
        · rw [List.append_nil, polling_append]
          have : ∀ op, polling (checkParts op) = true := fun _ => rfl
          rw [this, Bool.or_true]
      · have hi : opIn (.write w) .awaitingCompletion := ⟨hd, hb, hn, p1, p2⟩
        rw [p1]
        exact check hi hm1
    | busWait b => exact check hw hm1

/-- Registering gives the polled task its wake and takes nobody else's (10_state.md R52, R55). -/
theorem register_good {left : Nat → List Part} {t : Nat} {s : State} {op : Op} {rest : List Part} (h : EngineBut left t s)
    (hm : (taskRec s t).op = some op) (hi : opIn op .awaitingCompletion) (hr : rest = [.access .readIstr]) :
    PollGood left t rest (pollRegister t (opSlot op) s) := by
  subst hr
  refine PollGood.of_ok (EngineBut.join (h.transfer (fun c d x hx => h.named c d x ?_) (fun u _ => taskRec_register _ _ _ u)
    (fun x hx => ⟨x, by simpa using hx, rfl⟩) fun u op' c d hu e1 e2 w => ?_) (Polls.engineOf (op := op) ⟨?_, ?_, ?_⟩ rfl))
  · have : handleAt (register (opSlot op) t s) c d = handleAt s c d := by cases d <;> simp [handleAt]
    rwa [this] at hx
  · rw [slotOf_register]
    split
    · rename_i es
      cases op with
      | busWait b => cases es
      | read r =>
        have hc : opChannel (.read r) = some (c, d) := by
          simp only [opSlot, Slot.chan.injEq] at es
          simp [opChannel, es.1, es.2, hi.1]
        exact absurd (h.exclusive u t op' _ c d e1 hm e2 hc) hu
      | write v =>
        have hc : opChannel (.write v) = some (c, d) := by
          simp only [opSlot, Slot.chan.injEq] at es
          simp [opChannel, es.1, es.2, hi.1]
        exact absurd (h.exclusive u t op' _ c d e1 hm e2 hc) hu
    · exact w
  · simpa using hm
  · exact ⟨hi, rfl⟩
  · intro c d hc
    right
    left
    rw [← opSlot_of_channel hi hc, slotOf_register, if_pos rfl]

/-- The disconnect check (46_engine.md R238, R248). -/
theorem readIstr_good {left : Nat → List Part} {t : Nat} {s : State} {op : Op} (h : EngineBut left t s)
    (hp : Polls op [.access .readIstr] t s) : PollGood left t [] (pollIstr t s) := by
  obtain ⟨hi, _⟩ := hp.fits
  have hn := not_register (a := .access .readIstr) (by simp)
  have h1 := h.same (SameEngine.nextDraw s)
  have hp1 := hp.same (SameEngine.nextDraw s) hp.fits fun _ hx => hx
  have conn : isTransfer op → ∀ c hf b, PollGood left t [] (checkConnected c hf b (nextDraw s)) := fun ht c hf b => by
    simp only [checkConnected]
    split
    · exact PollGood.of_ok (h1.join ((hp1.same (SameEngine.refl _) (ps' := [.access .clock]) ⟨hi, ht, rfl⟩
        fun x hx => absurd hx (hn x)).engineOf rfl))
    · exact disable_good h1 hp1 hn hi ht _ _ _
  refine PollGood.withOp (s := nextDraw s) hp.mine (fun _ => rfl) ?_
  cases op with
  | read r => exact conn (by simp [isTransfer, opChannel]) _ _ _
  | write w => exact conn (by simp [isTransfer, opChannel]) _ _ _
  | busWait b =>
    simp only
    split
    · exact PollGood.finish h1 hp1.mine _ _
    · exact PollGood.pending h1 hp1.mine hi (fun c d hc => by cases hc) _

/-- The timeout check (46_engine.md R239). -/
theorem clock_good {left : Nat → List Part} {t : Nat} {s : State} {op : Op} (h : EngineBut left t s)
    (hp : Polls op [.access .clock] t s) : PollGood left t [] (pollClock t s) := by
  obtain ⟨hi, ht, _⟩ := hp.fits
  have hn := not_register (a := .access .clock) (by simp)
  have time : ∀ c hf timeout start, PollGood left t [] (checkTimeout c hf timeout start s) := fun c hf timeout start => by
    simp only [checkTimeout]
    split
    · exact disable_good h hp hn hi ht _ _ _
    · exact PollGood.of_ok (h.join ((hp.same (SameEngine.refl _) (ps' := [.access .inspect]) ⟨hi, ht, rfl⟩
        fun x hx => absurd hx (hn x)).engineOf rfl))
  refine PollGood.withOp hp.mine (fun _ => rfl) ?_
  cases op with
  | read r => exact time _ _ _ _
  | write w => exact time _ _ _ _
  | busWait b => exact PollGood.raise _ _ _ _ _

/-- The inspection of the status (46_engine.md R240, R247). -/
theorem inspect_good {left : Nat → List Part} {t : Nat} {s : State} {op : Op} (h : EngineBut left t s)
    (hp : Polls op [.access .inspect] t s) : PollGood left t [] (pollInspect t s) := by
  obtain ⟨hi, ht, _⟩ := hp.fits
  have hn := not_register (a := .access .inspect) (by simp)
  have wait : ∀ res, PollGood left t [] (reply t res s) := fun res =>
    PollGood.pending h hp.mine (opWf_of_awaiting hi) (hp.awake hn) res
  refine PollGood.withOp hp.mine (fun _ => rfl) ?_
  cases op with
  | read r =>
    simp only
    split
    · refine PollGood.of_ok ((h.setOp hp.mine (opChannel_withPhase _ .accumulating)).join
        ((hp.setOp (ps' := [.access .readCount]) (opChannel_withPhase _ .accumulating) ?_
          fun x hx => absurd hx (hn x)).engineOf rfl))
      exact ⟨⟨opIn_withPhase hi, Nat.zero_le _⟩, rfl⟩
    · exact PollGood.finish h hp.mine _ _
    · exact wait _
    · exact wait _
  | write w =>
    simp only
    split
    · exact PollGood.finish h hp.mine _ _
    · exact PollGood.finish h hp.mine _ _
    · exact wait _
    · exact wait _
  | busWait b => exact PollGood.raise _ _ _ _ _

/-- What is left of a copy into a read's buffer. -/
theorem loadParts_good {left : Nat → List Part} {t : Nat} {s : State} {op : Op} {a : Access} (h : EngineBut left t s)
    (hp : Polls op [.access a] t s) (hn : ∀ x, a ≠ .register x) {n : Nat} (hacc : accumulates op n)
    (off k todo : Nat) (got : List Byte) : PollGood left t [] (.ok (loadParts off k todo n got .poll) s) := by
  have hn' := not_register (a := .access a) (fun x e => hn x (by simpa using e))
  refine PollGood.of_ok (h.join ((hp.same (SameEngine.refl s) ?_ fun x hx => absurd hx (hn' x)).engineOf ?_))
  · rw [List.append_nil]
    cases todo with
    | zero => exact ⟨accumulates_mono hacc (by simp), rfl⟩
    | succ todo => exact ⟨hacc, rfl⟩
  · cases todo <;> rfl

/-- The received count (46_engine.md R240 row 3). -/
theorem readCount_good {left : Nat → List Part} {t : Nat} {s : State} {op : Op} (h : EngineBut left t s)
    (hp : Polls op [.access .readCount] t s) : PollGood left t [] (pollCount t s) := by
  obtain ⟨hacc, _⟩ := hp.fits
  refine PollGood.withOp hp.mine (fun _ => rfl) ?_
  cases op with
  | read r =>
    simp only
    rcases rxLen_cases r.h.index s with ⟨n, e, _⟩ | ⟨f, e⟩ <;> rw [e]
    · rw [Run.bind_ok]
      split
      · exact PollGood.finish h hp.mine _ _
      · rename_i hn
        rcases pmReadParts_parts s.params r.h.region n .poll with ⟨f, e⟩ | e <;> rw [e]
        · exact fun _ _ e => by cases e; exact .inl ⟨f, [], rfl⟩
        · refine loadParts_good h hp (by simp) ⟨hacc.1, ?_⟩ _ _ _ _
          exact Nat.le_of_not_lt hn
    · exact PollGood.raise _ _ _ _ _
  | write w => exact PollGood.raise _ _ _ _ _
  | busWait b => exact PollGood.raise _ _ _ _ _

/-- Every access of a poll in progress. -/
theorem EngineGood.pollAccess {left : Nat → List Part} {t : Nat} {a : Access} {rest : List Part} {s : State}
    (h : EngineGood (Function.update left t (.access a :: rest)) s) (hp : polling (.access a :: rest) = true) :
    PollGood left t rest (accessStep t a s) := by
  obtain ⟨op, hop⟩ := h.polls hp
  have hb := h.but
  have keep : ∀ {qs : List Part} {s' : State}, SameEngine s s' → pollFits op (qs ++ rest) → polling (qs ++ rest) = true →
      (∀ x, .access (.register x) ∈ .access a :: rest → .access (.register x) ∈ qs ++ rest) →
      PollGood left t rest (.ok qs s') := fun he hf hpl hw =>
    PollGood.of_ok ((hb.same he).join ((hop.same he hf hw).engineOf hpl))
  cases a with
  | store a n v =>
    rcases storeStep_cases a n v s with ⟨e, _⟩ | ⟨r, e⟩ <;> rw [accessStep, e]
    · exact keep (SameEngine.pokePma _ _ _) hop.fits (by simpa [polling_cons, pollPart] using hp) fun x hx => by
        simpa using hx
    · exact PollGood.raise _ _ _ _ _
  | readReg c change =>
    exact keep (qs := [.access (.writeReg c change (readChep s c))]) (SameEngine.refl s) hop.fits
      (by simpa [polling_cons, pollPart] using hp) fun x hx => by simpa using hx
  | writeReg c change cur =>
    exact keep (SameEngine.writeChep _ _ _ _) hop.fits (by simpa [polling_cons, pollPart] using hp) fun x hx => by
      simpa using hx
  | load off k todo n got purpose =>
    cases purpose with
    | caller => exact absurd hop.fits (by simp [pollFits])
    | poll =>
      obtain ⟨hacc, rfl⟩ := hop.fits
      rcases loadStep_cases off k todo n got .poll s with ⟨w, e⟩ | ⟨r, e⟩ <;> rw [accessStep, e]
      · exact loadParts_good hb hop (by simp) hacc _ _ _ _
      · exact PollGood.raise _ _ _ _ _
  | claim a => exact absurd hop.fits (by simp [pollFits])
  | prologue =>
    obtain ⟨hw, rfl⟩ := hop.fits
    exact prologue_good hb hop.mine hw
  | register sl =>
    obtain ⟨hi, rfl, hr⟩ := hop.fits
    exact register_good hb hop.mine hi hr
  | readIstr =>
    obtain ⟨_, rfl⟩ := hop.fits
    exact readIstr_good hb hop
  | clock =>
    obtain ⟨_, _, rfl⟩ := hop.fits
    exact clock_good hb hop
  | inspect =>
    obtain ⟨_, _, rfl⟩ := hop.fits
    exact inspect_good hb hop
  | readCount =>
    obtain ⟨_, rfl⟩ := hop.fits
    exact readCount_good hb hop

/-- What a task does on its own in a poll. -/
theorem EngineGood.pollOwn {left : Nat → List Part} {t : Nat} {o : Own} {rest : List Part} {s : State}
    (h : EngineGood (Function.update left t (.own o :: rest)) s) (hp : polling (.own o :: rest) = true) :
    PollGood left t rest (ownStep t o s) := by
  obtain ⟨op, hop⟩ := h.polls hp
  have hb := h.but
  cases o with
  | raise r => exact PollGood.raise _ _ _ _ _
  | reply r => exact absurd hop.fits (by simp [pollFits])
  | enter a r => exact absurd hop.fits (by simp [pollFits])
  | unpacked bytes purpose =>
    cases purpose with
    | caller => exact absurd hop.fits (by simp [pollFits])
    | poll =>
      obtain ⟨hacc, rfl⟩ := hop.fits
      have hn := not_register (a := .own (.unpacked bytes .poll)) (by simp)
      refine PollGood.withOp hop.mine (fun _ => rfl) ?_
      cases op with
      | read r =>
        obtain ⟨⟨h1, h2, h3, h4, h5⟩, h6⟩ := hacc
        simp only
        have hm1 := hop.mine
        split
        · refine PollGood.of_ok (EngineBut.join
            (((hb.setOp hm1 (op' := withPhase (.read { r with buf := r.buf ++ bytes, off := r.off + bytes.length }) _)
              (opChannel_withPhase _ _)).endOp).same (SameEngine.handOut _ _ _))
            ((EngineOf.none (by rw [taskRec_setOp_op, if_pos rfl])).same (SameEngine.handOut _ _ _)))
        · have hacc' : accumulates (.read { r with buf := r.buf ++ bytes, off := r.off + bytes.length }) 0 := by
            refine ⟨⟨h1, ?_, ?_, h4, h5⟩, Nat.zero_le _⟩
            · simp [h2]
            · show r.off + bytes.length ≤ r.n
              omega
          exact PollGood.of_ok ((hb.setOp hm1
            (op' := .read { r with buf := r.buf ++ bytes, off := r.off + bytes.length }) rfl).join ((hop.setOp
            (op' := .read { r with buf := r.buf ++ bytes, off := r.off + bytes.length })
            (ps' := [changeReg r.h.index (.setStatus .rx .valid), .own .rearmed] ++ []) rfl
            (by simpa [changeReg, pollFits] using hacc')
            fun x hx => absurd hx (hn x)).engineOf rfl))
      | write w => exact PollGood.raise _ _ _ _ _
      | busWait b => exact PollGood.raise _ _ _ _ _
  | armed =>
    obtain ⟨hi, ht, rfl⟩ := hop.fits
    refine PollGood.withOp hop.mine (fun _ => rfl) ?_
    refine PollGood.of_ok ((hb.setOp hop.mine (opChannel_withPhase _ _)).join
      ((hop.setOp (ps' := checkParts op) (opChannel_withPhase _ _) ?_ fun x hx => ?_).engineOf rfl))
    · have := pollFits_checkParts (opIn_withPhase (q := .awaitingCompletion) hi)
      rwa [checkParts_withPhase] at this
    · simpa using hx
  | fail e =>
    obtain ⟨_, _, rfl⟩ := hop.fits
    exact PollGood.withOp hop.mine (fun _ => rfl) (PollGood.finish hb hop.mine _ _)
  | rearmed =>
    obtain ⟨⟨hi, _⟩, rfl⟩ := hop.fits
    have hn := not_register (a := .own .rearmed) (by simp)
    refine PollGood.withOp hop.mine (fun _ => rfl) ?_
    refine PollGood.pending (hb.setOp hop.mine (opChannel_withPhase _ _)) (by rw [taskRec_setOp_op, if_pos rfl])
      (opWf_of_awaiting (opIn_withPhase hi)) (fun c d hc => ?_) _
    rw [opChannel_withPhase] at hc
    simpa using hop.awake hn c d hc

/-! Every step. -/

theorem dead_settle {ps : List Part} (h : dead ps) (t : Nat) (s : State) {ps' : List Part} {s' : State} :
    settle t ps s ≠ .ok ps' s' := by
  obtain ⟨f, rest, rfl⟩ := h
  intro e
  cases e

/-- No task's own doing leads to a fault still to be raised. -/
theorem ownStep_not_dead {t : Nat} {o : Own} {s s' : State} {m : Part} {ms : List Part} {f : Fault}
    (e : ownStep t o s = .ok (m :: ms) s') : m ≠ .own (.raise f) := by
  have op : ∀ {g : Op → Run (List Part)}, withOp t s g = .ok (m :: ms) s' →
      (∀ x, g x = .ok (m :: ms) s' → m ≠ .own (.raise f)) → m ≠ .own (.raise f) := fun {g} h hg => by
    rcases withOp_cases t s g with ⟨x, _, e'⟩ | ⟨_, e'⟩ <;> rw [e'] at h
    · exact hg x h
    · cases h
  cases o with
  | raise r => cases e
  | reply r => cases e
  | enter a r =>
    obtain ⟨more, s1, e', _, hm⟩ := enterHandle_cases t a r s
    rw [ownStep, e'] at e
    cases e
    rcases hm with h | ⟨hi, _, h⟩
    · cases h
    · cases h; simp
  | unpacked bytes purpose =>
    cases purpose with
    | caller => cases e
    | poll =>
      refine op e fun x hx => ?_
      cases x with
      | read r =>
        simp only at hx
        split at hx
        · cases hx
        · cases hx; simp [changeReg]
      | write w => cases hx
      | busWait b => cases hx
  | armed => exact op e fun x hx => by cases hx
  | fail e' => exact op e fun x hx => by cases hx
  | rearmed => exact op e fun x hx => by cases hx

theorem settle_engine {left : Nat → List Part} {t : Nat} {ps : List Part} {s : State}
    (h : dead ps ∨ EngineGood (Function.update left t ps) s) {ps' : List Part} {s' : State}
    (e : settle t ps s = .ok ps' s') : EngineGood (Function.update left t ps') s' := by
  induction ps generalizing s with
  | nil =>
    have h1 := h.resolve_left fun hd => dead_settle hd t s e
    cases e
    exact h1
  | cons p rest ih =>
    have h1 := h.resolve_left fun hd => dead_settle hd t s e
    cases p with
    | access a => cases e; exact h1
    | own o =>
      simp only [settle] at e
      obtain ⟨more, s1, e1, e⟩ := Run.bind_eq_ok e
      have h2 : dead (more ++ rest) ∨ EngineGood (Function.update left t (more ++ rest)) s1 := by
        cases hp : polling (.own o :: rest)
        · exact .inr (h1.idleOwn hp e1)
        · exact h1.pollOwn hp more s1 e1
      cases more with
      | nil => exact ih h2 e
      | cons m ms =>
        cases e
        refine h2.resolve_left ?_
        rintro ⟨f, qs, hd⟩
        simp only [List.cons_append, List.cons.injEq] at hd
        exact ownStep_not_dead e1 hd.1

/-- One step of any command. -/
theorem advance_engine {left : Nat → List Part} {t : Nat} {ps : List Part} {s : State}
    (h : EngineGood (Function.update left t ps) s) {ps' : List Part} {s' : State} (e : advance t ps s = .ok ps' s') :
    EngineGood (Function.update left t ps') s' := by
  cases ps with
  | nil => exact settle_engine (.inr h) e
  | cons p rest =>
    cases p with
    | own o => exact settle_engine (.inr h) e
    | access a =>
      simp only [advance] at e
      obtain ⟨more, s1, e1, e⟩ := Run.bind_eq_ok e
      refine settle_engine ?_ e
      cases hp : polling (.access a :: rest)
      · exact .inr (h.idleAccess hp e1)
      · exact h.pollAccess hp more s1 e1

/-- An operation that is started, its channel half free and its task without one (46_engine.md R230–R232). -/
theorem startOp_engine {left : Nat → List Part} {t : Nat} {s : State} {op : Op} (h : EngineGood (Function.update left t []) s)
    (hnone : (taskRec s t).op = none) (hw : opWf op)
    (hfree : ∀ u op' c d, (taskRec s u).op = some op' → opChannel op = some (c, d) → opChannel op' ≠ some (c, d))
    (res : Result) : EngineGood (Function.update left t []) (handOut (.task t) res (startOp t op s)) := by
  have hop : ∀ u, (taskRec (startOp t op s) u).op = if u = t then some op else (taskRec s u).op := fun u => by
    simp only [startOp, taskRec_setWoken_op, taskRec_setOp_op]
  have hother : ∀ u, u ≠ t → taskRec (startOp t op s) u = taskRec s u := fun u hu => by
    rw [startOp, taskRec_setWoken, if_neg hu, taskRec_setOp, if_neg hu]
  have hslot : ∀ sl, slotOf (startOp t op s) sl = slotOf s sl := fun sl => by simp [startOp]
  have hb := h.but
  have hbut : EngineBut left t (startOp t op s) := by
    refine ⟨fun c d x hx => hb.named c d x (by cases d <;> exact hx), fun u x hu e => hb.records u x hu (by rwa [hother u hu] at e),
      fun u hu => by rw [hother u hu]; exact hb.polled u hu, fun u v x y c d e1 e2 c1 c2 => ?_, fun u x c d hu e1 e2 => ?_⟩
    · rw [hop] at e1 e2
      split at e1 <;> split at e2
      · subst_vars; rfl
      · cases e1; exact absurd c2 (hfree v y c d e2 c1)
      · cases e2; exact absurd c1 (hfree u x c d e1 c2)
      · exact hb.exclusive u v x y c d e1 e2 c1 c2
    · rw [hother u hu] at e1 ⊢
      rw [hslot]
      exact hb.wakes u x c d hu e1 e2
  refine (hbut.same (SameEngine.handOut _ _ _)).join (EngineOf.same ?_ (SameEngine.handOut _ _ _))
  exact EngineOf.over (op := op) (by rw [hop, if_pos rfl]) hw fun c d _ => .inr (by
    rw [startOp, taskRec_setWoken_woken, if_pos rfl])

/-- A command begun by a task that has none in progress; a poll is begun where there is an operation. -/
theorem begin_engine {left : Nat → List Part} {s s' : State} {i : Instr} {o : Side} {ps : List Part}
    (h : EngineGood (Function.update left o.task []) s)
    (hpoll : i = .epPoll → (taskRec s o.task).op ≠ none) (e : begin i o s = .ok ps s') :
    EngineGood (Function.update left o.task ps) s' := by
  have idle : ∀ {qs : List Part} {s1 : State}, polling qs = false → SameEngine s s1 → Run.ok qs s1 = Run.ok ps s' →
      EngineGood (Function.update left o.task ps) s' := fun hq hs e => by
    cases e
    exact h.idle rfl hq hs
  have rep : ∀ {r : Result} {s1 : State}, SameEngine s s1 → reply o.task r s1 = .ok ps s' →
      EngineGood (Function.update left o.task ps) s' := fun hs e => idle rfl (hs.trans (SameEngine.handOut _ _ _)) e
  have stores : ∀ {qs : List Part}, storesOrFaults qs = true → polling (qs ++ [replyUnit]) = false := fun hq => by
    rw [polling_append, polling_storesOrFaults hq]; rfl
  cases i with
  | pmAlloc n =>
    simp only [begin, beginPmAlloc] at e
    rcases pmAlloc_cases n s with ⟨r, e'⟩ | e' | ⟨e', _, _⟩ <;> rw [e'] at e
    · cases e
    · exact rep (SameEngine.refl s) e
    · exact rep (SameEngine.setAlloc s _) e
  | pmReset => exact rep (SameEngine.setAlloc s _) e
  | bdEnc len =>
    simp only [begin, beginBdEnc, encOrFault] at e
    split at e
    · exact rep (SameEngine.refl s) e
    · cases e
  | bdDec | crRead | crCanon => exact rep (SameEngine.refl s) e
  | bdProgrx => exact idle (stores (storesOrFaults_progRx _ _ _ _)) (SameEngine.refl s) e
  | bdProgtx => exact idle (stores (storesOrFaults_progTx _ _ _ _)) (SameEngine.refl s) e
  | bdRxlen ch =>
    simp only [begin, beginBdRxlen] at e
    rcases rxLen_cases ch s with ⟨n, e', _⟩ | ⟨f, e'⟩ <;> rw [e'] at e
    · exact rep (SameEngine.refl s) e
    · cases e
  | pmWrite => exact idle (stores (storesOrFaults_pmWrite _ _ _)) (SameEngine.refl s) e
  | pmRead => exact idle (polling_pmReadParts _ _ _) (SameEngine.refl s) e
  | crSetstat ch d target => exact idle (qs := [changeReg ch (.setStatus (dirHalf d) target), replyUnit]) rfl (SameEngine.refl s) e
  | crClrctr ch fs => exact idle (qs := [changeReg ch (.clearComplete fs), replyUnit]) rfl (SameEngine.refl s) e
  | crClrerr ch fs => exact idle (qs := [changeReg ch (.clearError fs), replyUnit]) rfl (SameEngine.refl s) e
  | crInit ch etype dev => exact idle (qs := [changeReg ch (.init etype dev), replyUnit]) rfl (SameEngine.refl s) e
  | crTouch ch => exact idle (qs := [changeReg ch .touch, replyUnit]) rfl (SameEngine.refl s) e
  | irqDispatch => exact idle rfl (SameEngine.refl s) e
  | epRead ch n =>
    simp only [begin, beginEpRead] at e
    rcases takeHandle_cases o.task ch .dirIn s with ⟨x, e', hh, _, hf, hn⟩ | ⟨f, e'⟩ <;> rw [e'] at e
    · cases e
      obtain ⟨h1, h2⟩ := h.named _ _ _ hh
      refine startOp_engine (op := .read ⟨x, n, [], 0, o.timeout, none, .arming⟩) h hn
        ⟨h2, rfl, Nat.zero_le _, .inl ⟨rfl, rfl⟩⟩ (fun u op' c d hu hc => ?_) _
      simp only [opChannel, h1, h2, Option.some.injEq, Prod.mk.injEq] at hc
      obtain ⟨rfl, rfl⟩ := hc
      exact not_busy hf hu
    · cases e
  | epWrite ch =>
    simp only [begin, beginEpWrite] at e
    rcases takeHandle_cases o.task ch .dirOut s with ⟨x, e', hh, _, hf, hn⟩ | ⟨f, e'⟩ <;> rw [e'] at e
    · rw [Run.bind_ok] at e
      split at e
      · cases e
      · split at e
        · cases e
        · rename_i hl ht
          cases e
          obtain ⟨h1, h2⟩ := h.named _ _ _ hh
          refine startOp_engine (op := .write ⟨x, o.data, o.timeout, none, .arming⟩) h hn
            ⟨h2, Nat.le_of_not_lt hl, Nat.le_of_not_lt ht, .inl ⟨rfl, rfl⟩⟩ (fun u op' c d hu hc => ?_) _
          simp only [opChannel, h1, h2, Option.some.injEq, Prod.mk.injEq] at hc
          obtain ⟨rfl, rfl⟩ := hc
          exact not_busy hf hu
    · cases e
  | epPoll =>
    cases e
    cases hop : (taskRec s o.task).op with
    | none => exact absurd hop (hpoll rfl)
    | some op =>
      exact h.but.join (Polls.engineOf ⟨hop, ⟨h.of.record op hop rfl, rfl⟩,
        fun c d hc => .inr ((h.of.wake op c d hop hc).resolve_left (by simp))⟩ rfl)
  | busWait target =>
    simp only [begin, beginBusWait] at e
    split at e
    · cases e
    · rename_i hn
      cases e
      exact startOp_engine (op := .busWait ⟨target, .awaitingCompletion⟩) h (by simpa using hn) rfl (fun u op' c d _ hc => by cases hc) _
  | chClaim ch d etype dev mps =>
    exact idle (qs := [.access (.claim ⟨ch, d, etype, dev, mps, .caller⟩)]) rfl (SameEngine.refl s) e
  | chReconf0 dev mps =>
    exact idle (qs := [.access (.claim ⟨0, .dirIn, .control, dev, mps, .reconfIn⟩)]) rfl (SameEngine.setAlloc s _) e
  | chDrop ch d =>
    simp only [begin, beginChDrop] at e
    split at e
    · cases e
    · split at e
      · cases e
      · cases e
        have hrec : ∀ u, taskRec (setHandle s ch d none) u = taskRec s u := fun u => taskRec_congr (by simp) u
        have hslot : ∀ sl, slotOf (setHandle s ch d none) sl = slotOf s sl := fun sl =>
          slotOf_congr (by simp) (by simp) (by simp) sl
        refine EngineGood.idle (ps := []) ?_ rfl rfl (SameEngine.handOut _ _ _)
        refine (h.but.transfer (fun c d' x hx => ?_) (fun u _ => hrec u)
          (fun x hx => ⟨x, by rw [← hrec]; exact hx, rfl⟩) fun _ _ _ _ _ _ _ w => by rw [hslot]; exact w).join ?_
        · rw [handleAt_setHandle] at hx
          split at hx
          · cases hx
          · exact h.named c d' x hx
        · refine ⟨fun op e => h.of.record op (by rw [← hrec]; exact e), fun e => ?_, fun op c d' e1 e2 => ?_⟩
          · cases e
          rw [hrec] at e1 ⊢
          rw [hslot]
          exact h.of.wake op c d' e1 e2

/-- Every step of every agent keeps the engine's invariant, until a fault is set (60_exceptions.md R310). -/
theorem engine_closed : StepClosed (fun _ => True) fun left s => s.fault = none → EngineGood left s where
  put := fun _ _ _ _ h hf => by
    have := h hf
    exact ⟨this.named, this.records, this.polled, this.exclusive, this.wakes⟩
  report := fun _ _ _ _ h hf => by
    have := h hf
    exact ⟨this.named, this.records, this.polled, this.exclusive, this.wakes⟩
  slots := fun _ _ _ h hf => by
    have := h hf
    exact ⟨this.named, this.records, this.polled, this.exclusive, this.wakes⟩
  quiet := fun left s r hr h hf => by
    have q := hr.quiet
    cases r with
    | halt s1 => exact absurd hf (hr.halt s1 rfl)
    | ok u s1 =>
      have hg := h (by rw [← hr.ok u s1 rfl]; exact hf)
      refine ⟨fun c d x e => hg.named c d x (by rw [← q.handle]; exact e),
        fun t op e => hg.records t op (by rw [← q.ops]; exact e), fun t hp => ?_,
        fun t u op op' c d e1 e2 => hg.exclusive t u op op' c d (by rw [← q.ops]; exact e1) (by rw [← q.ops]; exact e2),
        fun t op c d e1 e2 => ?_⟩
      · obtain ⟨op, e, hfit⟩ := hg.polled t hp
        exact ⟨op, by rw [q.ops]; exact e, hfit⟩
      · rcases hg.wakes t op c d (by rw [← q.ops]; exact e1) e2 with w | w | w
        · exact .inl w
        · exact .inr (q.slot _ _ w)
        · exact .inr (.inr (q.woken _ w))
  next := fun left s t _ h => by
    have hr := TaskRun.advance t (left t) s
    refine ⟨fun ps s' e hf => ?_, fun s' e hf => absurd hf (hr.halt s' e)⟩
    have hg := h (by rw [← hr.ok ps s' e]; exact hf)
    rw [← Function.update_eq_self t left] at hg
    exact advance_engine hg e
  first := fun left s i o _ hidle h => by
    have hr := TaskRun.firstStep i o s
    refine ⟨fun ps s' e hf => ?_, fun s' e hf => absurd hf (hr.halt s' e)⟩
    have hg := h (by rw [← hr.ok ps s' e]; exact hf)
    have hu : Function.update left o.task [] = left := by
      rw [← hidle]
      exact Function.update_eq_self o.task left
    rw [← hu] at hg
    simp only [firstStep] at e
    obtain ⟨qs, s1, e1, e2⟩ := Run.bind_eq_ok e
    refine advance_engine (begin_engine hg (fun hi hn => ?_) e1) e2
    subst hi
    cases e1
    simp only [advance, accessStep, pollPrologue, withOp, hn] at e2
    cases e2

end Sys2Proof.Machine
end

