-- ==== Sys2Proof/Laws/Undisturbed.lean ====
section
/-! SUPPORT. What commands do when no other agent steps at the points within them: one equation for each shared operation. -/

namespace Sys2Proof.Machine

/-! Running what is left. -/

theorem begun_tail {p : Part} {ps : List Part} (h : begun (p :: ps)) : begun ps := fun hm => h (List.mem_cons_of_mem _ hm)

/-- One step and the rest. -/
theorem finishAll_advance {ps : List Part} {s : State} (hs : s.slots = []) (hb : begun ps) :
    finishAll ps s = (advance s.task ps s).bind finishAll := by
  cases ps with
  | nil => rfl
  | cons p rest => rw [finishAll_cons hb, taskPoint_nil hs, Run.bind_ok]

/-- Settling before the rest is part of it. -/
theorem settle_finishAll {ps : List Part} {s : State} (hs : s.slots = []) (hb : begun ps) :
    (settle s.task ps s).bind finishAll = finishAll ps s := by
  cases ps with
  | nil => rfl
  | cons p rest =>
    cases p with
    | access a => rfl
    | own o => rw [finishAll_advance hs hb]; rfl

/-- One access and the rest. -/
theorem finishAll_access {a : Access} {rest : List Part} {s : State} (hs : s.slots = [])
    (hb : begun (.access a :: rest)) :
    finishAll (.access a :: rest) s = (accessStep s.task a s).bind fun more s => finishAll (more ++ rest) s := by
  have hr := TaskRun.accessStep s.task a s
  have hf := Falls.accessStep (a := a) (fun h => hb (by simp [h])) s.task s
  rw [finishAll_advance hs hb]
  simp only [advance, Run.bind_assoc]
  cases e : accessStep s.task a s with
  | halt s1 => rfl
  | ok more s1 =>
    rw [e] at hr
    have hst := hr.steady
    rw [Run.state_ok] at hst
    simp only [Run.bind_ok]
    rw [← hst.task]
    exact settle_finishAll (hst.slots.trans hs) (begun_append (hf more s1 e).2 (begun_tail hb))

/-- What the task does on its own, and the rest. -/
theorem finishAll_own {o : Own} {rest : List Part} {s : State} (hs : s.slots = []) (hb : begun (.own o :: rest)) :
    finishAll (.own o :: rest) s = (ownStep s.task o s).bind fun more s => finishAll (more ++ rest) s := by
  have hr := TaskRun.ownStep s.task o s
  have hf := Falls.ownStep o s.task s
  rw [finishAll_advance hs hb]
  simp only [advance, settle, Run.bind_assoc]
  cases e : ownStep s.task o s with
  | halt s1 => rfl
  | ok more s1 =>
    rw [e] at hr
    have hst := hr.steady
    rw [Run.state_ok] at hst
    simp only [Run.bind_ok]
    cases more with
    | nil =>
      simp only [List.nil_append]
      rw [← hst.task]
      exact settle_finishAll (hst.slots.trans hs) (begun_tail hb)
    | cons m ms => rfl

/-- A command that is no poll, undisturbed: what it has to do, one thing after the other. -/
theorem exec_undisturbed {i : Instr} (h1 : i ≠ .irqDispatch) (h2 : i ≠ .epPoll) {s : State} (hs : s.slots = []) :
    exec i s = .next ((begin i (sideOf s) s).bind finishAll).state := by
  rw [exec_eq_runCommand h1, runCommand_finishAll]
  simp only [firstStep, Run.bind_assoc]
  have hr := TaskRun.begin i (sideOf s) s
  cases e : begin i (sideOf s) s with
  | halt s1 => rfl
  | ok ps s1 =>
    rw [e] at hr
    have hst := hr.steady
    rw [Run.state_ok] at hst
    simp only [Run.bind_ok]
    have hb : begun ps := (begin_begun e).resolve_left fun hp => h2 hp.1
    rw [finishAll_advance (hst.slots.trans hs) hb]
    rw [show s1.task = s.task from hst.task]

/-- A poll, undisturbed (46_engine.md R236). -/
theorem exec_epPoll_undisturbed {s : State} (hs : s.slots = []) :
    exec .epPoll s = .next ((pollPrologue s.task s).bind finishAll).state := by
  rw [exec_eq_runCommand (by simp), runCommand_finishAll]
  simp only [firstStep, begin, beginEpPoll, Run.bind_ok, advance, accessStep, List.append_nil, Run.bind_assoc]
  have hr := TaskRun.accessStep s.task .prologue s
  simp only [accessStep] at hr
  cases e : pollPrologue s.task s with
  | halt s1 => rfl
  | ok ps s1 =>
    rw [e] at hr
    have hst := hr.steady
    rw [Run.state_ok] at hst
    simp only [Run.bind_ok]
    rw [← hst.task]
    exact congrArg (fun r => Host.Outcome.next r.state) (settle_finishAll (hst.slots.trans hs) (pollPrologue_begun e))

/-! Registers. -/

/-- A read-modify-write, undisturbed (44_channel_register.md R192–R197). -/
theorem finishAll_changeReg {c : Chan} {change : RegChange} {rest : List Part} {s : State} (hs : s.slots = [])
    (hb : begun rest) : finishAll (changeReg c change :: rest) s =
      finishAll rest (writeChep (.task s.task) c (changeWord s.params c (readChep s c) change) s) := by
  have hb1 : begun (changeReg c change :: rest) := begun_append (ps := [changeReg c change]) (by simp [begun, changeReg]) hb
  have hb2 : begun (.access (.writeReg c change (readChep s c)) :: rest) :=
    begun_append (ps := [.access (.writeReg c change (readChep s c))]) (by simp [begun]) hb
  rw [changeReg, finishAll_access hs hb1]
  simp only [accessStep, readForChange, Run.bind_ok, List.singleton_append]
  rw [finishAll_access hs hb2]
  rfl

/-- A status write from the register as it stands gives the target (44_channel_register.md R192). -/
theorem hwWriteChep_setstat_same {p : Params} (h : chepLayoutWf p.chep = true) (v : Word32) (hf : Half)
    (target : Status) : hwWriteChep p v (setstatWord p hf v target) = putStat p hf v target := by
  rw [hwWriteChep_setstatWord h hf target (agreeKept_refl p v), ← BitVec.xor_assoc, BitVec.xor_self, BitVec.zero_xor]
  rfl

/-- The end of a command that returns `Ok(())`. -/
theorem finishAll_reply {r : Result} {s : State} (hs : s.slots = []) :
    finishAll [.own (.reply r)] s = .ok [] (handOut (.task s.task) r s) := by
  rw [finishAll_own hs (by simp [begun])]
  rfl

/-- A fault that is still to be raised. -/
theorem finishAll_fault {f : Fault} {rest : List Part} {s : State} (hs : s.slots = []) (hb : begun rest) :
    finishAll (faultParts f ++ rest) s = raise f s := by
  have : begun (.own (.raise f) :: rest) := begun_append (ps := [.own (.raise f)]) (by simp [begun]) hb
  exact finishAll_own hs this

/-! Packet memory. -/

/-- A store, undisturbed. -/
theorem finishAll_store {a n v : Nat} {rest : List Part} {s : State} (hs : s.slots = []) (hb : begun rest)
    (ha : a % n = 0) (hbnd : a + n ≤ s.params.pmaBytes) :
    finishAll (storePart a n v :: rest) s = finishAll rest (pokePma s a (leBytes n v)) := by
  have hb1 : begun (storePart a n v :: rest) := begun_append (ps := [storePart a n v]) (by simp [begun, storePart]) hb
  rw [storePart, finishAll_access hs hb1]
  simp only [accessStep, storeStep, memWrite_ok ha hbnd, Run.bind_ok, List.nil_append]

theorem leBytes_four {lo hi : Nat} (h : lo < 65536) : leBytes 4 (hi <<< 16 ||| lo) = leBytes 2 lo ++ leBytes 2 hi := by
  have h1 : hi <<< 16 ||| lo = hi * 65536 + lo := by
    rw [Nat.shiftLeft_eq, Nat.mul_comm, ← Nat.two_pow_add_eq_or_of_lt (by simpa using h)]
  rw [h1, show (4 : Nat) = 2 + 2 by rfl, leBytes_add]
  congr 1
  · simp only [leBytes, List.map_inj_left, List.mem_range]
    intro j hj
    apply BitVec.eq_of_toNat_eq
    simp only [BitVec.toNat_ofNat]
    rcases (by omega : j = 0 ∨ j = 1) with rfl | rfl <;> omega
  · congr 1
    omega

/-- One descriptor half programmed, undisturbed, at both granularities (30_encoding.md R124, R125). -/
theorem finishAll_descriptor {a lo hi : Nat} {rest : List Part} {s : State} (hs : s.slots = []) (hb : begun rest)
    (ha : a % 4 = 0) (hbnd : a + 4 ≤ s.params.pmaBytes) (hlo : lo < 65536) :
    finishAll (descriptorParts s.params a lo hi ++ rest) s =
      finishAll rest (pokePma s a (leBytes 2 lo ++ leBytes 2 hi)) := by
  simp only [descriptorParts]
  cases hg : s.params.gran with
  | four =>
    simp only [List.singleton_append]
    rw [finishAll_store hs hb ha hbnd, leBytes_four hlo]
  | two =>
    simp only [List.cons_append, List.nil_append]
    have hb2 : begun (storePart (a + 2) 2 hi :: rest) :=
      begun_append (ps := [storePart (a + 2) 2 hi]) (by simp [begun, storePart]) hb
    rw [finishAll_store hs hb2 (by omega) (by omega), finishAll_store (s := pokePma s a (leBytes 2 lo)) hs hb (by omega) (by simp only [pokePma_params]; omega)]
    have := pokePma_pokePma s a (leBytes 2 lo) (leBytes 2 hi)
    rw [leBytes_length] at this
    rw [this]

/-- `BD.PROGRX`, undisturbed (42_descriptor.md R162). -/
theorem finishAll_progRx {c : Chan} {r : Region} {mps : Nat} {code : Half16} {rest : List Part} {s : State}
    (hs : s.slots = []) (hb : begun rest) (he : encLength s.params mps = some code)
    (ha : r.off % granBytes s.params.gran = 0) (hl : decCode code ≤ r.len) (ho : r.off < 65536)
    (hp : 64 ≤ s.params.pmaBytes) : finishAll (progRxParts s.params c r mps ++ rest) s =
      finishAll rest (pokePma s (8 * c.val + 4) (leBytes 2 r.off ++ leBytes 2 code.toNat)) := by
  have := c.isLt
  simp only [progRxParts, he]
  rw [if_neg (by omega), if_neg (by omega), finishAll_descriptor hs hb (by omega) (by omega) ho]

/-- `BD.PROGTX`, undisturbed (42_descriptor.md R163). -/
theorem finishAll_progTx {c : Chan} {r : Region} {n : Nat} {rest : List Part} {s : State} (hs : s.slots = [])
    (hb : begun rest) (ha : r.off % granBytes s.params.gran = 0) (hl : n ≤ r.len) (hn : n ≤ 1023) (ho : r.off < 65536)
    (hp : 64 ≤ s.params.pmaBytes) : finishAll (progTxParts s.params c r n ++ rest) s =
      finishAll rest (pokePma s (8 * c.val) (leBytes 2 r.off ++ leBytes 2 n)) := by
  have := c.isLt
  have hm : txCountMax = 1023 := rfl
  simp only [progTxParts]
  rw [if_neg (by omega), if_neg (by omega), if_neg (by omega), finishAll_descriptor hs hb (by omega) (by omega) ho]

/-- `BD.RXLEN` (42_descriptor.md R164): the count bits of the code's half-word, at both granularities. -/
theorem rxLen_ok {c : Chan} {s : State} (hp : 64 ≤ s.params.pmaBytes) :
    rxLen c s = .ok ((codeRx s c).toNat % 1024) s := by
  have hc := c.isLt
  have h2 : leNat (pmaBytesAt s (8 * c.val + 6) 2) < 65536 := by
    have := leNat_lt (pmaBytesAt s (8 * c.val + 6) 2)
    simpa using this
  have hcode : (codeRx s c).toNat = leNat (pmaBytesAt s (8 * c.val + 6) 2) := by
    simp only [codeRx, BitVec.toNat_ofNat]
    omega
  simp only [rxLen]
  cases hg : s.params.gran with
  | two =>
    simp only
    rw [memRead_ok (by omega) (by omega), Run.bind_ok, hcode]
    rfl
  | four =>
    simp only
    rw [memRead_ok (by omega) (by omega), Run.bind_ok, hcode]
    have hsplit : leNat (pmaBytesAt s (8 * c.val + 4) 4) >>> 16 = leNat (pmaBytesAt s (8 * c.val + 6) 2) := by
      simp only [pmaBytesAt, leNat, Nat.shiftRight_eq_div_pow]
      simp only [List.range_succ, List.range_zero, List.nil_append, List.cons_append, List.map_cons, List.map_nil,
        List.foldr_cons, List.foldr_nil]
      have h1 := (pmaByte s (8 * c.val + 4 + 0)).isLt
      have h2 := (pmaByte s (8 * c.val + 4 + 1)).isLt
      have e1 : pmaByte s (8 * c.val + 4 + 2) = pmaByte s (8 * c.val + 6 + 0) := congrArg _ (by omega)
      have e2 : pmaByte s (8 * c.val + 4 + 3) = pmaByte s (8 * c.val + 6 + 1) := congrArg _ (by omega)
      rw [e1, e2]
      omega
    rw [hsplit]
    rfl

/-! The codec. -/

theorem wordBytes_length (bs : List Byte) (a g : Nat) : (wordBytes bs a g).length = g := by simp [wordBytes]

theorem wordBytes_add (bs : List Byte) (a m n : Nat) :
    wordBytes bs a (m + n) = wordBytes bs a m ++ wordBytes bs (a + m) n := by
  simp only [wordBytes, List.range_add, List.map_append, List.map_map]
  congr 1
  apply List.map_congr_left
  intro j _
  simp [Nat.add_assoc]

/-- The bytes of the whole words that hold a byte list: the list and zeros past it (43_codec.md R180). -/
theorem wordBytes_pad (bs : List Byte) (n : Nat) (h : bs.length ≤ n) :
    wordBytes bs 0 n = bs ++ List.replicate (n - bs.length) 0 := by
  apply List.ext_getElem
  · simp [wordBytes]; omega
  · intro j h1 h2
    simp only [wordBytes, List.getElem_map, List.getElem_range, Nat.zero_add]
    by_cases hj : j < bs.length
    · rw [List.getElem_append_left hj]
      simp [List.getD, hj]
    · rw [List.getElem_append_right (by omega)]
      simp [List.getD, List.getElem?_eq_none (by omega : bs.length ≤ j)]

theorem leBytes_wordBytes (bs : List Byte) (a g : Nat) : leBytes g (leNat (wordBytes bs a g)) = wordBytes bs a g := by
  have := leBytes_leNat (wordBytes bs a g)
  rwa [wordBytes_length] at this

theorem begun_packParts (off g : Nat) (data : List Byte) (todo k : Nat) : begun (packParts off g data todo k) :=
  begun_of_storesOrFaults (storesOrFaults_of_stores fun _ h => packParts_stores _ _ _ _ _ h)

/-- The words of a copy in, undisturbed, are one store (43_codec.md R180). -/
theorem finishAll_packParts {off g : Nat} (data : List Byte) (todo k : Nat) {rest : List Part} {s : State}
    (hs : s.slots = []) (hb : begun rest) (ha : off % g = 0) (hbnd : todo = 0 ∨ off + (k + todo) * g ≤ s.params.pmaBytes) :
    finishAll (packParts off g data todo k ++ rest) s =
      finishAll rest (pokePma s (off + k * g) (wordBytes data (k * g) (todo * g))) := by
  induction todo generalizing k s with
  | zero => simp [packParts, wordBytes]
  | succ n ih =>
    have hb' : off + (k + (n + 1)) * g ≤ s.params.pmaBytes := by omega
    have hk : (k + (n + 1)) * g = k * g + g + n * g := by ring
    simp only [packParts, List.cons_append]
    rw [finishAll_store hs (begun_append (begun_packParts _ _ _ _ _) hb)
      (by rw [Nat.add_mul_mod_self_right]; exact ha) (by omega), leBytes_wordBytes,
      ih (k + 1) (s := pokePma s (off + k * g) (wordBytes data (k * g) g)) hs (.inr (by
        simp only [pokePma_params]
        have : (k + 1 + n) * g = k * g + g + n * g := by ring
        omega))]
    have h2 := pokePma_pokePma s (off + k * g) (wordBytes data (k * g) g) (wordBytes data ((k + 1) * g) (n * g))
    rw [wordBytes_length] at h2
    rw [show off + (k + 1) * g = off + k * g + g by ring, h2, show (n + 1) * g = g + n * g by ring, wordBytes_add,
      show k * g + g = (k + 1) * g by ring]

/-- `PM.WRITE`, undisturbed (43_codec.md R180). -/
theorem finishAll_pmWrite {r : Region} {data : List Byte} {rest : List Part} {s : State} (hs : s.slots = [])
    (hb : begun rest) (hlen : data.length ≤ r.len) (ha : r.off % granBytes s.params.gran = 0)
    (hbnd : data = [] ∨ r.off + roundup data.length (granBytes s.params.gran) ≤ s.params.pmaBytes) :
    finishAll (pmWriteParts s.params r data ++ rest) s = finishAll rest (pokePma s r.off (data ++
      List.replicate (roundup data.length (granBytes s.params.gran) - data.length) 0)) := by
  simp only [pmWriteParts]
  rw [if_neg (by omega), if_neg (by omega)]
  have hz : ceilDiv 0 (granBytes s.params.gran) = 0 := by cases s.params.gran <;> rfl
  rw [finishAll_packParts data _ 0 hs hb ha (by
    rcases hbnd with rfl | hbnd
    · exact .inl hz
    · exact .inr (by rw [Nat.zero_add]; exact hbnd))]
  simp only [Nat.zero_mul, Nat.add_zero]
  rw [wordBytes_pad _ _ (ceilDiv_mul_ge _ _ (granBytes_pos _))]
  rfl

theorem leBytes_pmaBytesAt (s : State) (a g : Nat) : leBytes g (leNat (pmaBytesAt s a g)) = pmaBytesAt s a g := by
  have := leBytes_leNat (pmaBytesAt s a g)
  rwa [pmaBytesAt_length] at this

/-- The words of a copy out, undisturbed (43_codec.md R181). -/
theorem finishAll_loadParts {off n : Nat} (todo k : Nat) {got : List Byte} {purpose : ReadFor} {s : State}
    (hs : s.slots = []) (ha : off % granBytes s.params.gran = 0)
    (hbnd : todo = 0 ∨ off + (k + todo) * granBytes s.params.gran ≤ s.params.pmaBytes) :
    finishAll (loadParts off k todo n got purpose) s =
      finishAll [.own (.unpacked ((got ++ pmaBytesAt s (off + k * granBytes s.params.gran)
        (todo * granBytes s.params.gran)).take n) purpose)] s := by
  induction todo generalizing k got with
  | zero => simp [loadParts, pmaBytesAt]
  | succ m ih =>
    have hb' : off + (k + (m + 1)) * granBytes s.params.gran ≤ s.params.pmaBytes := by omega
    have hk : (k + (m + 1)) * granBytes s.params.gran =
      k * granBytes s.params.gran + granBytes s.params.gran + m * granBytes s.params.gran := by ring
    have hw := memRead_ok (s := s) (a := off + k * granBytes s.params.gran) (n := granBytes s.params.gran)
      (by rw [Nat.add_mul_mod_self_right]; exact ha) (by omega)
    rw [loadParts, finishAll_access hs (by simp [begun])]
    simp only [accessStep, loadStep, hw, Run.bind_ok, leBytes_pmaBytesAt, List.append_nil, Nat.add_sub_cancel]
    rw [ih (k + 1) (.inr (by
      have : (k + 1 + m) * granBytes s.params.gran =
        k * granBytes s.params.gran + granBytes s.params.gran + m * granBytes s.params.gran := by ring
      omega)), List.append_assoc]
    congr 6
    rw [show off + (k + 1) * granBytes s.params.gran = off + k * granBytes s.params.gran + granBytes s.params.gran by ring,
      show (m + 1) * granBytes s.params.gran = granBytes s.params.gran + m * granBytes s.params.gran by ring, pmaBytesAt_add]

/-- `PM.READ`, undisturbed (43_codec.md R181). -/
theorem finishAll_pmRead {r : Region} {n : Nat} {purpose : ReadFor} {s : State} (hs : s.slots = []) (hlen : n ≤ r.len)
    (ha : r.off % granBytes s.params.gran = 0)
    (hbnd : n = 0 ∨ r.off + roundup n (granBytes s.params.gran) ≤ s.params.pmaBytes) :
    finishAll (pmReadParts s.params r n purpose) s = finishAll [.own (.unpacked (pmaBytesAt s r.off n) purpose)] s := by
  simp only [pmReadParts]
  rw [if_neg (by omega), if_neg (by omega)]
  have hz : ceilDiv 0 (granBytes s.params.gran) = 0 := by cases s.params.gran <;> rfl
  rw [finishAll_loadParts _ 0 hs ha (by
    rcases hbnd with rfl | hbnd
    · exact .inl hz
    · exact .inr (by rw [Nat.zero_add]; exact hbnd))]
  have hge := ceilDiv_mul_ge n _ (granBytes_pos s.params.gran)
  simp only [Nat.zero_mul, Nat.add_zero, List.nil_append]
  obtain ⟨m, hm⟩ := Nat.exists_eq_add_of_le hge
  rw [hm, pmaBytesAt_add, List.take_left' (pmaBytesAt_length _ _ _)]

/-! The allocator and the lifecycle. -/

/-- `PM.ALLOC` of a length that fits (41_allocator.md R150). -/
theorem pmAlloc_ok {n : Nat} {s : State} (h1 : n % granBytes s.params.gran = 0)
    (h2 : s.alloc.free + n ≤ s.params.pmaBytes) : pmAlloc n s = .ok (some ⟨s.alloc.free, n⟩)
      { s with alloc := { s.alloc with free := s.alloc.free + n } } := by
  simp only [pmAlloc]
  rw [if_neg (by omega), if_neg (by omega)]

/-- A claim, undisturbed: its checks, and then its accesses (47_lifecycle.md R260). -/
theorem finishAll_claim {a : Claim} {s : State} (hs : s.slots = []) :
    finishAll [.access (.claim a)] s = (claimStep s.task a s).bind finishAll := by
  rw [finishAll_access hs (by simp [begun])]
  simp only [accessStep, List.append_nil]

/-- The end of a claim, undisturbed: its register and its handle (47_lifecycle.md R260). -/
theorem finishAll_bind {a : Claim} {r : Region} {s : State} (hs : s.slots = []) :
    finishAll [changeReg a.ch (.init a.etype a.devaddr), .own (.enter a r)] s =
      (enterHandle s.task a r (writeChep (.task s.task) a.ch
        (changeWord s.params a.ch (readChep s a.ch) (.init a.etype a.devaddr)) s)).bind finishAll := by
  rw [finishAll_changeReg hs (by simp [begun])]
  refine (finishAll_own (s := writeChep (.task s.task) a.ch _ s) hs (by simp [begun])).trans ?_
  simp only [ownStep, List.append_nil]
  rfl

end Sys2Proof.Machine
end

