-- ==== Sys2Proof/Machine/Assembler.lean ====
section
/-! DEFINITION. The assembler syntax (30_encoding.md R129) and the pseudo-instructions' spelling (R130): one line of
text to the command word or pseudo-instruction it names and its side operands. A line with an operand the mnemonic does
not take, or out of its range, has no meaning. The lexical conventions are DESIGN CHOICE, notes/assumptions/19.md. -/

namespace Sys2Proof.Machine

/-- The lexical elements of a line. -/
inductive AsmToken where
  | word (cs : List Char)
  | comma
  | lbracket
  | rbracket
deriving DecidableEq, Repr

/-- End the word being read, if any. -/
def closeWord (acc : List Char) (rest : List AsmToken) : List AsmToken :=
  match acc with
  | [] => rest
  | c :: cs => .word (c :: cs).reverse :: rest

/-- Split a line into tokens; spaces separate words. -/
def lexLine (cs acc : List Char) : List AsmToken :=
  match cs with
  | [] => closeWord acc []
  | c :: rest =>
    if c = ' ' then closeWord acc (lexLine rest [])
    else if c = ',' then closeWord acc (.comma :: lexLine rest [])
    else if c = '[' then closeWord acc (.lbracket :: lexLine rest [])
    else if c = ']' then closeWord acc (.rbracket :: lexLine rest [])
    else lexLine rest (c :: acc)

/-- The value of a digit in a base up to 16, letters in either case. -/
def digitValue (base : Nat) (c : Char) : Option Nat :=
  let n := c.toNat
  let v := if 48 ≤ n ∧ n ≤ 57 then n - 48 else if 97 ≤ n ∧ n ≤ 102 then n - 87
    else if 65 ≤ n ∧ n ≤ 70 then n - 55 else base
  if v < base then some v else none

/-- A number from its digits, most significant first. -/
def digitsValue (base : Nat) (cs : List Char) (acc : Nat) : Option Nat :=
  match cs with
  | [] => some acc
  | c :: rest =>
    match digitValue base c with
    | some v => digitsValue base rest (acc * base + v)
    | none => none

/-- A decimal number. -/
def decValue (cs : List Char) : Option Nat := if cs = [] then none else digitsValue 10 cs 0

/-- The digits of a hexadecimal number. -/
def hexDigits (cs : List Char) : Option Nat := if cs = [] then none else digitsValue 16 cs 0

/-- The text after a key, when the text begins with it. -/
def afterKey (key : String) (cs : List Char) : Option (List Char) :=
  if key.toList.isPrefixOf cs then some (cs.drop key.toList.length) else none

/-- `<hex>`: a hexadecimal number after `0x`. -/
def hexValue (cs : List Char) : Option Nat := (afterKey "0x" cs).bind hexDigits

/-- A number below a bound. -/
def below (bound : Nat) (v : Option Nat) : Option Nat := v.bind fun n => if n < bound then some n else none

/-- The operands of a line with the defaults of R129: an omitted operand is zero, an omitted timeout `none`. -/
structure AsmArgs where
  ch : Chan := 0
  dir : Dir := .dirOut
  etype : EType := .control
  dev : Nat := 0
  mps : Nat := 0
  len : Nat := 0
  n : Nat := 0
  region : Region := ⟨0, 0⟩
  code : Nat := 0
  value : Nat := 0
  target : Status := .disabled
  flags : FlagSet := ⟨false, false⟩
  bus : BusState := .disconnected
  data : List Byte := []
  timeout : Option Nat := none
  addr : Nat := 0
deriving DecidableEq, Repr

/-- The kinds of operand (30_encoding.md R129, R130). -/
inductive AsmKind where
  | ch | dir | etype | dev | mps | len | n | region | code | value | target | flags | bus | data | timeout | desc
deriving DecidableEq, Repr

/-- `type=` names. -/
def etypeName (cs : List Char) : Option EType :=
  if cs = "control".toList then some .control else if cs = "iso".toList then some .isochronous
  else if cs = "bulk".toList then some .bulk else if cs = "interrupt".toList then some .interrupt else none

/-- `target=` names. -/
def statusName (cs : List Char) : Option Status :=
  if cs = "disabled".toList then some .disabled else if cs = "stall".toList then some .stall
  else if cs = "nak".toList then some .nak else if cs = "valid".toList then some .valid else none

/-- `flags=` names. -/
def flagsName (cs : List Char) : Option FlagSet :=
  if cs = "rx".toList then some ⟨true, false⟩ else if cs = "tx".toList then some ⟨false, true⟩
  else if cs = "rx+tx".toList then some ⟨true, true⟩ else none

/-- `bus=` names. -/
def busName (cs : List Char) : Option BusState :=
  if cs = "connected".toList then some .connected else if cs = "disconnected".toList then some .disconnected else none

/-- The text before and after the first colon. -/
def splitColon (cs : List Char) : Option (List Char × List Char) :=
  match cs with
  | [] => none
  | c :: rest => if c = ':' then some ([], rest) else (splitColon rest).map fun p => (c :: p.1, p.2)

/-- `<off>:<len>`, each below 65536 (30_encoding.md R126). -/
def regionText (cs : List Char) : Option Region :=
  (splitColon cs).bind fun p => (below 65536 (decValue p.1)).bind fun o => (below 65536 (decValue p.2)).map fun l => ⟨o, l⟩

/-- `<ticks>|none`. -/
def timeoutText (cs : List Char) : Option (Option Nat) :=
  if cs = "none".toList then some none else (decValue cs).map some

/-- An operand that is one word. -/
def wordOperand (cs : List Char) (a : AsmArgs) : Option (AsmKind × AsmArgs) :=
  if cs = "in".toList then some (.dir, { a with dir := .dirIn })
  else if cs = "out".toList then some (.dir, { a with dir := .dirOut })
  else
    ((afterKey "ch=" cs).bind fun v => (below 8 (decValue v)).map fun n => (AsmKind.ch, { a with ch := chanOf n })) <|>
    ((afterKey "type=" cs).bind fun v => (etypeName v).map fun t => (AsmKind.etype, { a with etype := t })) <|>
    ((afterKey "dev=" cs).bind fun v => (below 128 (decValue v)).map fun n => (AsmKind.dev, { a with dev := n })) <|>
    ((afterKey "mps=" cs).bind fun v => (decValue v).map fun n => (AsmKind.mps, { a with mps := n })) <|>
    ((afterKey "len=" cs).bind fun v => (decValue v).map fun n => (AsmKind.len, { a with len := n })) <|>
    ((afterKey "n=" cs).bind fun v => (decValue v).map fun n => (AsmKind.n, { a with n := n })) <|>
    ((afterKey "region=" cs).bind fun v => (regionText v).map fun r => (AsmKind.region, { a with region := r })) <|>
    ((afterKey "code=" cs).bind fun v => (below 65536 (hexValue v)).map fun n => (AsmKind.code, { a with code := n })) <|>
    ((afterKey "value=" cs).bind fun v =>
      (below 4294967296 (hexValue v)).map fun n => (AsmKind.value, { a with value := n })) <|>
    ((afterKey "target=" cs).bind fun v => (statusName v).map fun t => (AsmKind.target, { a with target := t })) <|>
    ((afterKey "flags=" cs).bind fun v => (flagsName v).map fun f => (AsmKind.flags, { a with flags := f })) <|>
    ((afterKey "bus=" cs).bind fun v => (busName v).map fun b => (AsmKind.bus, { a with bus := b })) <|>
    ((afterKey "timeout=" cs).bind fun v => (timeoutText v).map fun t => (AsmKind.timeout, { a with timeout := t }))

/-- The bytes of `data=[b0 b1 ...]` up to the closing bracket, and what follows it. -/
def dataBytes (ts : List AsmToken) : Option (List Byte × List AsmToken) :=
  match ts with
  | .rbracket :: rest => some ([], rest)
  | .word cs :: rest =>
    (below 256 (hexDigits cs)).bind fun b => (dataBytes rest).map fun p => (BitVec.ofNat 8 b :: p.1, p.2)
  | _ => none

/-- The first operand of a token list: its kind, the operands with it, and the tokens after it. `desc` is the
endpoint descriptor of R130, an address, a packet size and a type. -/
def firstOperand (ts : List AsmToken) (a : AsmArgs) : Option (AsmKind × AsmArgs × List AsmToken) :=
  match ts with
  | .word cs :: rest =>
    if cs = "data=".toList then
      match rest with
      | .lbracket :: rest => (dataBytes rest).map fun p => (.data, { a with data := p.1 }, p.2)
      | _ => none
    else
      match afterKey "desc=" cs with
      | some v =>
        match rest with
        | .comma :: .word m :: .comma :: .word t :: rest =>
          (below 256 (hexValue v <|> decValue v)).bind fun addr => (decValue m).bind fun mps =>
          (etypeName t).map fun ty => (.desc, { a with addr := addr, mps := mps, etype := ty }, rest)
        | _ => none
      | none => (wordOperand cs a).map fun p => (p.1, p.2, rest)
  | _ => none

/-- The operands of a line: comma-separated (after a descriptor the comma may be left out, as R130 writes it), no kind
twice. `fuel` bounds the number of operands. -/
def readOperands (fuel : Nat) (ts : List AsmToken) (seen : List AsmKind) (a : AsmArgs) :
    Option (List AsmKind × AsmArgs) :=
  match fuel with
  | 0 => none
  | fuel + 1 =>
    (firstOperand ts a).bind fun p =>
    if p.1 ∈ seen then none
    else
      match p.2.2 with
      | [] => some (p.1 :: seen, p.2.1)
      | .comma :: rest => readOperands fuel rest (p.1 :: seen) p.2.1
      | t :: rest => if p.1 = .desc then readOperands fuel (t :: rest) (p.1 :: seen) p.2.1 else none

/-- The command word of an instruction whose operands fit their fields. -/
def wordCode (i : Instr) : Option Code := if i.wf then some (.word (encode i)) else none

/-- An endpoint descriptor's claim (30_encoding.md R130), its size and address within their fields. -/
def allocCode (d : Dir) (a : AsmArgs) : Option Code :=
  if hm : a.mps < 2048 then
    if hd : a.dev < 128 then
      some (.pseudo (match d with
        | .dirIn => .allocIn (BitVec.ofNat 8 a.addr) ⟨a.mps, hm⟩ a.etype ⟨a.dev, hd⟩
        | .dirOut => .allocOut (BitVec.ofNat 8 a.addr) ⟨a.mps, hm⟩ a.etype ⟨a.dev, hd⟩))
    else none
  else none

/-- A mnemonic: its spelling, the kinds of operand it takes, and what it stands for. -/
structure AsmEntry where
  name : String
  takes : List AsmKind
  code : AsmArgs → Option Code

/-- The mnemonics (30_encoding.md R127, R130). -/
def asmTable : List AsmEntry := [
  ⟨"pm.alloc", [.len], fun a => wordCode (.pmAlloc a.len)⟩,
  ⟨"pm.reset", [], fun _ => wordCode .pmReset⟩,
  ⟨"bd.enc", [.len], fun a => wordCode (.bdEnc a.len)⟩,
  ⟨"bd.dec", [.code], fun a => wordCode (.bdDec (BitVec.ofNat 16 a.code))⟩,
  ⟨"bd.progrx", [.ch, .mps, .region], fun a => wordCode (.bdProgrx a.ch a.mps a.region)⟩,
  ⟨"bd.progtx", [.ch, .len, .region], fun a => wordCode (.bdProgtx a.ch a.len a.region)⟩,
  ⟨"bd.rxlen", [.ch], fun a => wordCode (.bdRxlen a.ch)⟩,
  ⟨"pm.write", [.region, .data], fun a => wordCode (.pmWrite a.region)⟩,
  ⟨"pm.read", [.n, .region], fun a => wordCode (.pmRead a.n a.region)⟩,
  ⟨"cr.read", [.ch], fun a => wordCode (.crRead a.ch)⟩,
  ⟨"cr.canon", [.value], fun a => wordCode (.crCanon (BitVec.ofNat 32 a.value))⟩,
  ⟨"cr.setstat", [.ch, .dir, .target], fun a => wordCode (.crSetstat a.ch a.dir a.target)⟩,
  ⟨"cr.clrctr", [.ch, .flags], fun a => wordCode (.crClrctr a.ch a.flags)⟩,
  ⟨"cr.clrerr", [.ch, .flags], fun a => wordCode (.crClrerr a.ch a.flags)⟩,
  ⟨"cr.init", [.ch, .etype, .dev], fun a => wordCode (.crInit a.ch a.etype a.dev)⟩,
  ⟨"cr.touch", [.ch], fun a => wordCode (.crTouch a.ch)⟩] ++ [
  ⟨"irq.dispatch", [], fun _ => wordCode .irqDispatch⟩,
  ⟨"ep.read", [.ch, .n, .timeout], fun a => wordCode (.epRead a.ch a.n)⟩,
  ⟨"ep.write", [.ch, .data, .timeout], fun a => wordCode (.epWrite a.ch)⟩,
  ⟨"ep.poll", [], fun _ => wordCode .epPoll⟩,
  ⟨"bus.wait", [.bus], fun a => wordCode (.busWait a.bus)⟩,
  ⟨"ch.claim", [.ch, .dir, .etype, .dev, .mps], fun a => wordCode (.chClaim a.ch a.dir a.etype a.dev a.mps)⟩,
  ⟨"ch.reconf0", [.dev, .mps], fun a => wordCode (.chReconf0 a.dev a.mps)⟩,
  ⟨"ch.drop", [.ch, .dir], fun a => wordCode (.chDrop a.ch a.dir)⟩,
  ⟨"cr.arm", [.ch, .dir], fun a => some (.pseudo (.arm a.ch a.dir))⟩,
  ⟨"cr.disable", [.ch, .dir], fun a => some (.pseudo (.disable a.ch a.dir))⟩,
  ⟨"ch.alloc_in", [.desc, .dev], allocCode .dirIn⟩,
  ⟨"ch.alloc_out", [.desc, .dev], allocCode .dirOut⟩,
  ⟨"bus.wait_connect", [], fun _ => some (.pseudo .waitConnect)⟩,
  ⟨"bus.wait_disconnect", [], fun _ => some (.pseudo .waitDisconnect)⟩]

/-- What a line stands for: what is issued, and its side operands (30_encoding.md R113). -/
structure AsmLine where
  code : Code
  data : List Byte
  timeout : Option Nat
deriving DecidableEq, Repr

/-- An upper-case letter's lower case. -/
def lowerChar (c : Char) : Char := if 65 ≤ c.toNat ∧ c.toNat ≤ 90 then Char.ofNat (c.toNat + 32) else c

/-- A lower-case letter's upper case. -/
def upperChar (c : Char) : Char := if 97 ≤ c.toNat ∧ c.toNat ≤ 122 then Char.ofNat (c.toNat - 32) else c

/-- The entry of a mnemonic, in lower or upper case (30_encoding.md R129). -/
def findEntry (cs : List Char) : Option AsmEntry :=
  asmTable.find? fun e => decide (cs = e.name.toList) || decide (cs = e.name.toList.map upperChar)

/-- Assemble one line (30_encoding.md R129, R130). -/
def assemble (line : String) : Option AsmLine :=
  match lexLine line.toList [] with
  | .word m :: ts =>
    (findEntry m).bind fun e =>
    (if ts = [] then some ([], {}) else readOperands (ts.length + 1) ts [] {}).bind fun p =>
    if p.1.all fun k => decide (k ∈ e.takes) then (e.code p.2).map fun c => ⟨c, p.2.data, p.2.timeout⟩ else none
  | _ => none

/-- The command a task issues with an assembled line, other agents stepping as given. -/
def issueLine (l : AsmLine) (task : Nat) (slots : List (List Event)) : Command where
  code := l.code
  task := task
  data := l.data
  timeout := l.timeout
  slots := slots
  irqSlots := []

end Sys2Proof.Machine
end

