-- ==== Sys2Proof/Tests/Slice0.lean ====
section
/-! SUPPORT. Tests of the model against the spec's own vectors (95_test_vectors.md), the refusals of `Instr.wf`, and for
every statement with hypotheses a concrete case that meets them. -/

namespace Sys2Proof.Tests

open Sys2Proof Sys2Proof.Machine

/-! ## Well-formedness -/

theorem test_wf_alloc_length : (Instr.pmAlloc 65536).wf = false ∧ (Instr.pmAlloc 65535).wf = true := by decide
theorem test_wf_enc_length : (Instr.bdEnc 2048).wf = false ∧ (Instr.bdEnc 2047).wf = true := by decide
theorem test_wf_progrx : (Instr.bdProgrx 0 2048 ⟨0, 0⟩).wf = false ∧ (Instr.bdProgrx 0 8 ⟨65536, 0⟩).wf = false ∧
    (Instr.bdProgrx 0 8 ⟨0, 65536⟩).wf = false ∧ (Instr.bdProgrx 7 2047 ⟨65535, 65535⟩).wf = true := by decide
theorem test_wf_progtx : (Instr.bdProgtx 0 2048 ⟨0, 0⟩).wf = false ∧ (Instr.bdProgtx 0 8 ⟨65536, 0⟩).wf = false ∧
    (Instr.bdProgtx 7 2047 ⟨65535, 65535⟩).wf = true := by decide
theorem test_wf_pack : (Instr.pmWrite ⟨65536, 0⟩).wf = false ∧ (Instr.pmWrite ⟨65535, 65535⟩).wf = true := by decide
theorem test_wf_unpack : (Instr.pmRead 2048 ⟨0, 0⟩).wf = false ∧ (Instr.pmRead 0 ⟨0, 65536⟩).wf = false ∧
    (Instr.pmRead 2047 ⟨65535, 65535⟩).wf = true := by decide
theorem test_wf_init : (Instr.crInit 0 .bulk 128).wf = false ∧ (Instr.crInit 7 .interrupt 127).wf = true := by decide
theorem test_wf_read : (Instr.epRead 0 4294967296).wf = false ∧ (Instr.epRead 7 4294967295).wf = true := by decide
theorem test_wf_claim : (Instr.chClaim 0 .dirIn .bulk 128 8).wf = false ∧ (Instr.chClaim 0 .dirIn .bulk 0 2048).wf = false ∧
    (Instr.chClaim 7 .dirIn .interrupt 127 2047).wf = true := by decide
theorem test_wf_reconf : (Instr.chReconf0 128 8).wf = false ∧ (Instr.chReconf0 0 2048).wf = false ∧
    (Instr.chReconf0 127 2047).wf = true := by decide

/-! ## Decoding: the words of 95_test_vectors.md section 2.1 -/

/-- The word decodes to the instruction, and the instruction's word is this one. -/
def bothWays (w : Nat) (i : Instr) : Bool :=
  decide (decodeTableWord 64 w = some i) && decide ((encode i).toNat = w)

theorem test_word_pm_alloc : bothWays 0x0100000000000040 (.pmAlloc 64) = true := by decide
theorem test_word_pm_reset : bothWays 0x0200000000000000 .pmReset = true := by decide
theorem test_word_bd_enc : bothWays 0x1000000800000000 (.bdEnc 8) = true := by decide
theorem test_word_bd_dec : bothWays 0x1100000000008400 (.bdDec 0x8400) = true := by decide
theorem test_word_bd_progrx : bothWays 0x1220004000500040 (.bdProgrx 1 64 ⟨80, 64⟩) = true := by decide
theorem test_word_bd_progtx : bothWays 0x1320001E00900040 (.bdProgtx 1 30 ⟨144, 64⟩) = true := by decide
theorem test_word_bd_rxlen : bothWays 0x1420000000000000 (.bdRxlen 1) = true := by decide
theorem test_word_pm_write : bothWays 0x2000000000900040 (.pmWrite ⟨144, 64⟩) = true := by decide
theorem test_word_pm_read : bothWays 0x2100000300500040 (.pmRead 3 ⟨80, 64⟩) = true := by decide
theorem test_word_cr_read : bothWays 0x3020000000000000 (.crRead 1) = true := by decide
theorem test_word_cr_canon : bothWays 0x3100000000053001 (.crCanon 0x00053001) = true := by decide
theorem test_word_cr_setstat : bothWays 0x3230000000000003 (.crSetstat 1 .dirIn .valid) = true ∧
    bothWays 0x3220000000000000 (.crSetstat 1 .dirOut .disabled) = true := by decide
theorem test_word_cr_clrctr : bothWays 0x3320000000000003 (.crClrctr 1 ⟨true, true⟩) = true := by decide
theorem test_word_cr_clrerr : bothWays 0x3440000000000001 (.crClrerr 2 ⟨true, false⟩) = true := by decide
theorem test_word_cr_init : bothWays 0x3528280000000000 (.crInit 1 .bulk 5) = true := by decide
theorem test_word_cr_touch : bothWays 0x3660000000000000 (.crTouch 3) = true := by decide
theorem test_word_irq_dispatch : bothWays 0x4000000000000000 .irqDispatch = true := by decide
theorem test_word_ep_read : bothWays 0x50300000000000C8 (.epRead 1 200) = true ∧
    bothWays 0x5010000000000012 (.epRead 0 18) = true := by decide
theorem test_word_ep_write : bothWays 0x5120000000000000 (.epWrite 1) = true := by decide
theorem test_word_ep_poll : bothWays 0x5200000000000000 .epPoll = true := by decide
theorem test_word_bus_wait : bothWays 0x5300000000000001 (.busWait .connected) = true ∧
    bothWays 0x5300000000000000 (.busWait .disconnected) = true := by decide
theorem test_word_ch_claim : bothWays 0x605C180600000000 (.chClaim 2 .dirIn .interrupt 3 6) = true ∧
    bothWays 0x6064381E00000000 (.chClaim 3 .dirOut .isochronous 7 30) = true := by decide
theorem test_word_ch_reconf0 : bothWays 0x6100284000000000 (.chReconf0 5 64) = true := by decide
theorem test_word_ch_drop : bothWays 0x6230000000000000 (.chDrop 1 .dirIn) = true := by decide

/-- The invalid words of section 2.1, and one with a field bit outside `ARG[15:0]` (R114). -/
theorem test_invalid_words : [0x0000000000000000, 0x5000000000000000, 0x5130000000000000, 0x0200000000000001,
    0x3200000000000004, 0xFF00000000000000, 0x0100000000010000].all
      (fun w => decide (decodeTableWord 64 w = none)) = true := by decide

/-- No word matches two rows (R114). -/
theorem test_rows_disjoint : opcodeTable.Pairwise (fun a b => rowsDisjoint a b = true) := by decide

/-! ## One step on a small state -/

/-- The outcome is a next state with the property. -/
def leads (o : Host.Outcome State Fault Refusal) (p : State → Bool) : Bool :=
  match o with
  | .next s => p s
  | .fault _ => false
  | .refused _ => false

/-- The outcome is this next state. -/
def gives (o : Host.Outcome State Fault Refusal) (t : State) : Bool := leads o fun s => decide (s = t)

theorem eq_next_of_gives {o : Host.Outcome State Fault Refusal} {t : State} (h : gives o t = true) : o = .next t := by
  cases o with
  | next s => simp only [gives, leads, decide_eq_true_eq] at h; rw [h]
  | fault r => simp [gives, leads] at h
  | refused r => simp [gives, leads] at h

/-- A device is attached; everything else as after reset. -/
def attached : State := State.resetWith referenceParams true

/-- Little-endian bytes from an offset, as packet memory holds them. -/
def cells (a : Nat) (bs : List Nat) : List Host.Cell := storeBytes [] a (bs.map (BitVec.ofNat 8))

/-- The handles of channel 1 that program P1 claims. -/
def handleIn : Handle := ⟨1, .dirIn, 64, .bulk, 5, ⟨80, 64⟩, 1⟩
def handleOut : Handle := ⟨1, .dirOut, 64, .bulk, 5, ⟨144, 64⟩, 1⟩

/-- The end state of program P1 (95_test_vectors.md section 3) for channel 1, with channel 0 left out. -/
def p1 : State := { attached with
  alloc := ⟨208, 3, 3, 1⟩
  htIn := attached.htIn.set 1 (some handleIn)
  htOut := attached.htOut.set 1 (some handleOut)
  chep := attached.chep.set 1 0x00050001
  pma := cells 8 [0x90, 0, 0, 0, 0x50, 0, 0, 0x84]
  wakerBus := some 1
  task := 1 }

/-- The same instance at the other granularity. -/
def narrow (s : State) : State := { s with params := { s.params with gran := .two } }

/-- A register given a value. -/
def withChep (s : State) (c : Chan) (v : Word32) : State := { s with chep := s.chep.set c v }

/-- The one result that was handed out, and to the current task. -/
def handed (s : State) (r : Result) : Bool := decide (s.out = [(.task s.task, r)])

/-- `p1` with the allocator's bump pointer elsewhere. -/
def freeAt (n : Nat) : State := { p1 with alloc := { p1.alloc with free := n } }

/-! Section 2.2, the allocator. -/

theorem test_alloc_fills : leads (exec (.pmAlloc 8) (freeAt 2040)) (fun t =>
    handed t (.ok (.region ⟨2040, 8⟩)) && decide (t.alloc.free = 2048)) = true := by decide
theorem test_alloc_out_of_memory : leads (exec (.pmAlloc 8) (freeAt 2044)) (fun t =>
    handed t (.err .outOfMemory []) && decide (t.alloc.free = 2044)) = true := by decide
theorem test_reset_allocator : leads (exec .pmReset p1) (fun t => decide (t.alloc = ⟨64, 0, 0, 2⟩)) = true := by decide

/-! Section 2.3, descriptors. -/

theorem test_enc : [(2, 0x0400), (3, 0x0800), (59, 0x7800), (60, 0x7800), (61, 0x8400), (65, 0x8800), (127, 0x8C00),
    (512, 0xBC00), (1023, 0xFC00), (1024, 0xFC00)].all
      (fun e => leads (exec (.bdEnc e.1) p1) fun t => handed t (.ok (.code (BitVec.ofNat 16 e.2)))) = true := by decide
theorem test_enc_out_of_range : [0, 1, 1025].all
    (fun n => leads (exec (.bdEnc n) p1) fun t => decide (t.fault = some .invalidLength)) = true := by decide
theorem test_dec : [(0x0000, 0), (0x7C00, 62), (0x8000, 32), (0x1234, 8), (0x8400, 64), (0xFC00, 1024)].all
    (fun e => leads (exec (.bdDec (BitVec.ofNat 16 e.1)) p1) fun t => handed t (.ok (.length e.2))) = true := by decide
theorem test_progrx : leads (exec (.bdProgrx 2 6 ⟨80, 8⟩) p1) (fun t =>
    decide (pmaBytesAt t 20 4 = [0x50, 0, 0, 0x0C])) = true := by decide
theorem test_progrx_narrow : leads (exec (.bdProgrx 1 64 ⟨80, 64⟩) (narrow { p1 with pma := [] })) (fun t =>
    decide (t.pma = cells 12 [0x50, 0, 0, 0x84])) = true := by decide
theorem test_progtx : leads (exec (.bdProgtx 1 30 ⟨144, 64⟩) p1) (fun t =>
    decide (pmaBytesAt t 8 4 = [0x90, 0, 0x1E, 0])) = true := by decide
theorem test_progtx_overflow : leads (exec (.bdProgtx 1 65 ⟨144, 64⟩) p1) (fun t =>
    decide (t.fault = some .regionOverflow ∧ t.pma = p1.pma)) = true := by decide
theorem test_rxlen : leads (exec (.bdRxlen 1) { p1 with pma := cells 12 [0x50, 0, 0x14, 0x84] }) (fun t =>
    handed t (.ok (.length 20))) = true := by decide
theorem test_rxlen_narrow : leads (exec (.bdRxlen 1) (narrow { p1 with pma := cells 14 [0x14, 0x84] })) (fun t =>
    handed t (.ok (.length 20))) = true := by decide

/-! Section 2.4, the codec. -/

theorem test_pack : leads (exec (.pmWrite ⟨144, 64⟩) { p1 with data := [1, 2, 3, 4, 5], pma := [] }) (fun t =>
    decide (t.pma = cells 144 [1, 2, 3, 4, 5, 0, 0, 0])) = true := by decide
theorem test_pack_overflow : leads (exec (.pmWrite ⟨144, 4⟩) { p1 with data := [1, 2, 3, 4, 5] }) (fun t =>
    decide (t.fault = some .regionOverflow ∧ t.pma = p1.pma)) = true := by decide
theorem test_unpack : leads (exec (.pmRead 3 ⟨80, 64⟩) (narrow { p1 with pma := cells 80 [0x41, 0x42, 0x43, 0] })) (fun t =>
    handed t (.ok (.bytes [0x41, 0x42, 0x43]))) = true := by decide
theorem test_unpack_nothing : leads (exec (.pmRead 0 ⟨80, 64⟩) p1) (fun t => handed t (.ok (.bytes []))) = true := by
  decide

/-! Sections 2.5 and 2.6, the channel register. -/

/-- The register of a channel and the last word written to it. -/
def regIs (t : State) (c : Chan) (w v : Word32) : Bool :=
  decide (readChep t c = v) && decide (t.log = [.writeChep (.task t.task) c w])

theorem test_read_register : leads (exec (.crRead 1) p1) (fun t => handed t (.ok (.register 0x00050001))) = true := by
  decide
theorem test_canon : [(0x00053001, 0x06058081), (0xFFFFFFFF, 0xFFFF8F8F), (0, 0x06008080)].all (fun (e : Nat × Nat) =>
    leads (exec (.crCanon (BitVec.ofNat 32 e.1)) p1) fun t =>
      handed t (.ok (.register (BitVec.ofNat 32 e.2)))) = true := by decide
theorem test_setstat : leads (exec (.crSetstat 1 .dirIn .valid) (withChep p1 1 0x00052001)) (fun t =>
    regIs t 1 0x06059081 0x00053001) = true := by decide
/-- Row 2 of section 2.6: the peripheral answers NAK between the read and the write. -/
theorem test_setstat_race : leads (exec (.crSetstat 1 .dirIn .disabled)
    { withChep p1 1 0x00053001 with slots := [[.env (.rxNak 1 false)]] }) (fun t =>
      decide (readChep t 1 = 0x00051001)) = true := by decide
theorem test_clrctr : leads (exec (.crClrctr 1 ⟨true, false⟩) (withChep p1 1 0x00058081)) (fun t =>
    regIs t 1 0x06050081 0x00050081) = true := by decide
theorem test_clrctr_w1c : leads (exec (.crClrctr 1 ⟨true, true⟩)
    { withChep p1 1 0x00058081 with params := { p1.params with chepPolarity := .w1c } }) (fun t =>
      regIs t 1 0x00058081 0x00050001) = true := by decide
theorem test_clrerr : leads (exec (.crClrerr 2 ⟨true, false⟩) (withChep p1 2 0x04003002)) (fun t =>
    regIs t 2 0x02008082 0x00003002) = true := by decide
theorem test_init : leads (exec (.crInit 2 .interrupt 3) p1) (fun t => regIs t 2 0x06038682 0x00030602) = true := by
  decide
theorem test_touch : leads (exec (.crTouch 3) (withChep p1 3 0x00102013)) (fun t =>
    regIs t 3 0x06108083 0x00102013) = true := by decide

/-! Section 2.7, the dispatcher: vectors D5 and D9. -/

/-- `p1` with a receive waiter on channel 1. -/
def waiting (v istr : Word32) : State := { withChep p1 1 v with istr := istr, wakerIn := p1.wakerIn.set 1 (some 1) }

theorem test_dispatch_error_flag : leads (exec .irqDispatch (waiting 0x0405C001 0)) (fun t =>
    decide (t.log = [.errFlags 1 ⟨true, false⟩, .writeChep .dispatcher 1 0x02058081, .writeChep .dispatcher 1 0x06050081]) &&
    decide (readChep t 1 = 0x00054001 ∧ (taskRec t 1).woken = true)) = true := by decide
theorem test_dispatch_bus_and_complete : leads (exec .irqDispatch (waiting 0x0005C001 0x00000400)) (fun t =>
    decide (t.log = [.writeIstr .dispatcher 0x00000400, .writeChep .dispatcher 1 0x06050081]) &&
    decide (readChep t 1 = 0x00054001 ∧ t.istr = 0 ∧ t.wakerBus = none ∧ slotOf t (.chan 1 .dirIn) = none)) = true := by
  decide

/-! Section 2.8 and the programs, the engine. -/

/-- A read of channel 1 in flight since tick 0, and a write. -/
def reading (n : Nat) (buf : List Byte) (timeout : Option Nat) : ReadOp :=
  ⟨handleIn, n, buf, buf.length, timeout, some 0, .awaitingCompletion⟩
def writing (data : List Byte) (timeout : Option Nat) : WriteOp :=
  ⟨handleOut, data, timeout, some 0, .awaitingCompletion⟩

/-- `p1` while task 1 has this operation and was woken, channel 1's register holding `v`. -/
def inFlight (op : Op) (v : Word32) : State := { withChep p1 1 v with tasks := [(1, ⟨some op, true⟩)] }

theorem test_start_read : leads (exec (.epRead 1 200) p1) (fun t =>
    handed t .pending && decide (taskRec t 1 = ⟨some (.read ⟨handleIn, 200, [], 0, none, none, .arming⟩), true⟩)) = true := by
  decide
theorem test_start_read_no_handle : leads (exec (.epRead 2 8) p1) (fun t => decide (t.fault = some .noHandle)) = true := by
  decide
theorem test_start_write : leads (exec (.epWrite 1) { p1 with data := [1, 2], timeout := some 30 }) (fun t =>
    handed t .pending &&
    decide (taskRec t 1 = ⟨some (.write ⟨handleOut, [1, 2], some 30, none, .arming⟩), true⟩)) = true := by decide
theorem test_start_write_too_large : leads (exec (.epWrite 1) { p1 with data := List.replicate 65 0 }) (fun t =>
    decide (t.fault = some .writeTooLarge ∧ t.log = [])) = true := by decide
theorem test_poll_short_packet : leads (exec .epPoll { inFlight (.read (reading 200 [9] none)) 0x00054001 with
    pma := cells 12 [0x50, 0, 2, 0x84] ++ cells 80 [1, 2, 0, 0] }) (fun t =>
      handed t (.ok (.received 3 [9, 1, 2])) && decide (taskRec t 1 = idleTask ∧ t.log = [])) = true := by decide
/-- Program P3, its last step. -/
theorem test_poll_timeout : leads (exec .epPoll { inFlight (.write (writing [7] (some 30))) 0x00050021 with now := 31 })
    (fun t => handed t (.err .timeout []) && regIs t 1 0x060580A1 0x00050001) = true := by decide
theorem test_bus_wait : leads (exec (.busWait .connected) p1) (fun t =>
    handed t .pending && decide (taskRec t 1 = ⟨some (.busWait ⟨.connected, .awaitingCompletion⟩), true⟩)) = true := by decide
theorem test_bus_wait_busy : leads (exec (.busWait .connected) (inFlight (.read (reading 8 [] none)) 0)) (fun t =>
    decide (t.fault = some .taskBusy)) = true := by decide

/-! Section 2.9, the lifecycle. -/

theorem test_claim : leads (exec (.chClaim 2 .dirIn .interrupt 3 6) (freeAt 80)) (fun t =>
    handed t (.ok (.handle ⟨2, .dirIn, 6, .interrupt, 3, ⟨80, 8⟩, 1⟩)) && regIs t 2 0x06038682 0x00030602 &&
    decide (pmaBytesAt t 20 4 = [0x50, 0, 0, 0x0C] ∧ t.alloc = ⟨88, 7, 3, 1⟩)) = true := by decide
theorem test_claim_in_use : leads (exec (.chClaim 1 .dirIn .bulk 3 6) p1) (fun t =>
    handed t (.err .alreadyInUse []) && decide (t.alloc = p1.alloc)) = true := by decide
/-- Program P1, step 3. -/
theorem test_reconf0 : leads (exec (.chReconf0 0 8) attached) (fun t =>
    handed t (.ok (.handles ⟨0, .dirIn, 8, .control, 0, ⟨64, 8⟩, 1⟩ ⟨0, .dirOut, 8, .control, 0, ⟨72, 8⟩, 1⟩)) &&
    decide (t.pma = cells 0 [0x48, 0, 0, 0, 0x40, 0, 0, 0x10] ∧ readChep t 0 = 0x00000200 ∧ t.alloc = ⟨80, 1, 1, 1⟩)) =
      true := by decide
theorem test_drop : leads (exec (.chDrop 1 .dirIn) p1) (fun t =>
    handed t (.ok .unit) && decide (handleAt t 1 .dirIn = none ∧ t.alloc = p1.alloc)) = true := by decide
theorem test_drop_busy : leads (exec (.chDrop 1 .dirIn) (inFlight (.read (reading 8 [] none)) 0)) (fun t =>
    decide (t.fault = some .channelBusy)) = true := by decide

/-! Section 2.10, the environment, and the clock of program P3. -/

/-- The environment's step leaves a state with the property. -/
def becomes (e : EnvStep) (s : State) (p : State → Bool) : Bool :=
  match envStep e s with
  | .ok _ t => p t
  | .halt _ => false

theorem test_receive : becomes (.rxData 1 [1, 2, 3] [0] true) (withChep p1 1 0x00053001) (fun t =>
    decide (readChep t 1 = 0x0005C001 ∧ pmaBytesAt t 12 4 = [0x50, 0, 3, 0x84] ∧ pmaBytesAt t 80 4 = [1, 2, 3, 0] ∧
      t.log = [.rxData 1 [1, 2, 3]])) = true := by decide
theorem test_transmit : becomes (.txData 1 false)
    { withChep p1 1 0x00050031 with pma := cells 8 [0x90, 0, 2, 0] ++ cells 144 [0xA0, 0xA1] } (fun t =>
      decide (readChep t 1 = 0x00050081 ∧ t.log = [.txData 1 [0xA0, 0xA1]])) = true := by decide
theorem test_receive_error : becomes (.error 1 .rx (List.replicate 64 0)) (withChep p1 1 0x00053001) (fun t =>
    decide (readChep t 1 = 0x04053001 ∧ t.istr = 0x00002000 ∧ t.errChan = some 1)) = true := by decide
theorem test_connect_change : becomes .connectChange p1 (fun t => decide (t.connected = false ∧ t.istr = 0x00000400)) = true := by
  decide
theorem test_stalled_half_is_idle : becomes (.rxNak 1 true) (withChep p1 1 0x00051001) (fun t =>
    decide (t = withChep p1 1 0x00051001)) = true := by decide

/-- Program P3's write, not woken, at an instant. -/
def sleeping (now : Nat) : State := { p1 with tasks := [(1, ⟨some (.write (writing [7] (some 30))), false⟩)], now := now }

theorem test_clock_at_limit : becomes .tick (sleeping 29) (fun t => decide ((taskRec t 1).woken = false)) = true := by decide
theorem test_clock_past_limit : becomes .tick (sleeping 30) (fun t => decide ((taskRec t 1).woken = true)) = true := by
  decide

/-! Interleaving (20_memory.md R88): a command in progress, and a point at which another task steps. -/

/-- What a task issues, with no side operands. -/
def issue (task : Nat) (w : Word64) : Issue := { code := .word w, task, data := [], timeout := none }

/-- The agent's step leaves a state with the property. -/
def becomesBy (e : Event) (s : State) (p : State → Bool) : Bool :=
  match eventStep none e s with
  | .ok _ t => p t
  | .halt _ => false

/-- `p1` after the first access of task 1's `cr.setstat ch=1, in, target=valid`. -/
def halfway : State :=
  { p1 with inProgress := [(1, [.access (.writeReg 1 (.setStatus .rx .valid) 0x00050001), replyUnit])] }

/-- The narrow `p1` after the first access of task 2's `bd.progrx ch=1, mps=64, region=80:64`. -/
def halfDescriptor : State := { narrow p1 with inProgress := [(2, [.access (.store 14 2 0x8400), replyUnit])] }

theorem test_start_reads : becomesBy (.start (issue 1 0x3230000000000003)) p1 (fun t => decide (t = halfway)) = true := by
  decide
/-- Task 2 arms the transmit half between task 1's read and its write; neither change is lost. -/
theorem test_resume_writes : becomesBy (.resume 1) (withChep halfway 1 0x00050031) (fun t =>
    regIs t 1 0x0605B081 0x00053031 && handed t (.ok .unit) && decide (t.inProgress = [])) = true := by decide
theorem test_busy_task_starts_nothing : becomesBy (.start (issue 1 0x0200000000000000)) halfway (fun t =>
    decide (t = halfway)) = true := by decide
/-- A word that is no command is refused and reported at a point too, also where its task may start none (R313). -/
theorem test_point_refuses_word : leads (exec (.crSetstat 1 .dirIn .valid)
    { p1 with slots := [[.start (issue 2 0xFF00000000000000), .start (issue 1 0)]] }) (fun t =>
      regIs t 1 0x0605B081 0x00053001 && decide (t.out = [(.task 2, .invalid 0xFF00000000000000), (.task 1, .invalid 0),
        (.task 1, .ok .unit)])) = true := by decide
/-- At a point within task 1's command, task 2 reads and writes the same register. -/
theorem test_point_admits_tasks : leads (exec (.crSetstat 1 .dirIn .valid)
    { p1 with slots := [[.start (issue 2 0x3220000000000003), .resume 2]] }) (fun t =>
      decide (readChep t 1 = 0x00053031 ∧ t.out = [(.task 2, .ok .unit), (.task 1, .ok .unit)])) = true := by decide

/-! Steps, the interrupt-status word and the assembler. -/

theorem test_step_runs_word : leads (step (p1.withFetchWord 64 0x6230000000000000)) (fun t =>
    decide (handleAt t 1 .dirIn = none ∧ t.inputs = [])) = true := by decide
/-- Word D6 of section 2.7 as far as no drawn bit is in it: `ERR`, `DCON_STAT` and the error channel. -/
theorem test_istr_word : istrWord p1.params { istrFields { waiting 0x04053001 0x00002000 with errChan := some 1 } with
    dir := false } = 0x20002001 := by decide
theorem test_pseudo_claim : expandPseudo (.allocIn 0x81 64 .bulk 5) = .ok (.chClaim 1 .dirIn .bulk 5 64) ∧
    expandPseudo (.allocOut 0x08 64 .bulk 5) = .error .badIndex := by decide
/-- The codes of 60_exceptions.md R300. -/
theorem test_error_codes : [Err.disconnected, .timeout, .stall, .bufferOverflow, .alreadyInUse, .outOfMemory].map errCode =
    [1, 2, 3, 4, 5, 6] := by decide
theorem test_assemble : assemble "ch.claim ch=1, in, type=bulk, dev=5, mps=64" = some ⟨.word 0x6038284000000000, [], none⟩ := by
  decide
theorem test_assemble_side_operands : assemble "ep.write ch=1, data=[01 A0], timeout=30" =
    some ⟨.word 0x5120000000000000, [0x01, 0xA0], some 30⟩ := by decide

/-! ## Cases that meet the statements' hypotheses -/

theorem witness_decode_of_encode : (Instr.chClaim 7 .dirIn .interrupt 127 2047).wf = true := by decide
theorem witness_encode_of_decode : decode 0x60FFFFFF00000000 = .ok (.chClaim 7 .dirIn .interrupt 127 2047) := by decide
theorem witness_table_row : ∃ row ∈ opcodeTable, (0x605C180600000000 : Word64) &&& row.mask = row.matchBits := by decide
theorem witness_table_no_row : ∀ row ∈ opcodeTable, (0x0200000000000001 : Word64) &&& row.mask ≠ row.matchBits := by decide

/-- A state whose next choice is this command, and the state in which it runs. -/
def issuing (code : Code) : State :=
  { p1 with inputs := [.command { code, task := 1, data := [1], timeout := some 5, slots := [], irqSlots := [] }] }

theorem witness_issued_word : (issuing (.word 0x6230000000000000)).fault = none ∧
    decode 0x6230000000000000 = .ok (.chDrop 1 .dirIn) ∧
    partsOf (issuing (.word 0x6230000000000000)) 1 = [] ∧ partsOf halfway 1 ≠ [] := by decide
theorem witness_placed_word : p1.fault = none ∧ decodeTableWord 64 0x6230000000000000 = some (.chDrop 1 .dirIn) := by decide
theorem witness_event_choice : ({ p1 with inputs := [.event (.env .tick)] } : State).fault = none ∧
    ({ p1 with inputs := [.event (.env .tick)] } : State).inputs = [.event (.env .tick)] := by decide
/-- A step of a command in progress that writes a register, and one that stores a half-word. -/
theorem witness_resumed : partsOf halfway 1 = [.access (.writeReg 1 (.setStatus .rx .valid) 0x00050001), replyUnit] ∧
    becomesBy (.resume 1) halfway (fun _ => true) = true ∧
    partsOf halfDescriptor 2 = [.access (.store 14 2 0x8400), replyUnit] ∧
    becomesBy (.resume 2) halfDescriptor (fun _ => true) = true := by decide
theorem witness_no_choice : p1.fault = none ∧ p1.inputs = [] := by decide
theorem witness_issued_pseudo : (issuing (.pseudo (.allocIn 0x87 64 .bulk 5))).fault = none ∧ (0x87 : Byte).toNat % 16 < 8 ∧
    ¬ (0x88 : Byte).toNat % 16 < 8 := by decide
theorem witness_faulted : (raiseFault .noHandle p1).fault = some .noHandle := by decide

/-- Words with the fields the statements about each command's operands name (section 2.1). -/
theorem witness_fields : fieldsOf 0x0100000000000040 = ⟨0x01, 0, 0, 0, 0, 0, 64⟩ ∧
    fieldsOf 0x0200000000000000 = ⟨0x02, 0, 0, 0, 0, 0, 0⟩ ∧ fieldsOf 0x1000000800000000 = ⟨0x10, 0, 0, 0, 0, 8, 0⟩ ∧
    fieldsOf 0x1100000000008400 = ⟨0x11, 0, 0, 0, 0, 0, 0x8400⟩ ∧
    fieldsOf 0x1220004000500040 = ⟨0x12, 1, 0, 0, 0, 64, 80 * 65536 + 64⟩ ∧
    fieldsOf 0x1320001E00900040 = ⟨0x13, 1, 0, 0, 0, 30, 144 * 65536 + 64⟩ ∧
    fieldsOf 0x1420000000000000 = ⟨0x14, 1, 0, 0, 0, 0, 0⟩ := by decide
theorem witness_register_fields : fieldsOf 0x3020000000000000 = ⟨0x30, 1, 0, 0, 0, 0, 0⟩ ∧
    fieldsOf 0x3100000000053001 = ⟨0x31, 0, 0, 0, 0, 0, 0x00053001⟩ ∧
    fieldsOf 0x3230000000000003 = ⟨0x32, 1, 1, 0, 0, 0, 3⟩ ∧ fieldsOf 0x3320000000000003 = ⟨0x33, 1, 0, 0, 0, 0, 3⟩ ∧
    fieldsOf 0x3440000000000001 = ⟨0x34, 2, 0, 0, 0, 0, 1⟩ ∧ fieldsOf 0x3528280000000000 = ⟨0x35, 1, 0, 2, 5, 0, 0⟩ ∧
    fieldsOf 0x3660000000000000 = ⟨0x36, 3, 0, 0, 0, 0, 0⟩ := by decide
theorem witness_engine_fields : fieldsOf 0x50300000000000C8 = ⟨0x50, 1, 1, 0, 0, 0, 200⟩ ∧
    fieldsOf 0x5120000000000000 = ⟨0x51, 1, 0, 0, 0, 0, 0⟩ ∧ fieldsOf 0x6230000000000000 = ⟨0x62, 1, 1, 0, 0, 0, 0⟩ := by
  decide

/-! Memory and the allocator: an access at the last word, just past it, and misaligned. -/

theorem witness_memory_access : 2044 % 4 = 0 ∧ 2044 + 4 ≤ p1.params.pmaBytes ∧ 2048 % 4 = 0 ∧
    p1.params.pmaBytes < 2048 + 4 ∧ 2046 % 4 ≠ 0 := by decide
theorem witness_alloc : 6 % granBytes p1.params.gran ≠ 0 ∧ 8 % granBytes p1.params.gran = 0 ∧
    (freeAt 2044).params.pmaBytes < (freeAt 2044).alloc.free + 8 ∧
    (freeAt 2040).alloc.free + 8 ≤ (freeAt 2040).params.pmaBytes := by decide

/-! Descriptors and the codec. -/

theorem witness_length_code : encLength p1.params 1 = none ∧ encLength p1.params 1025 = none ∧
    (encLength p1.params 2).isSome = true ∧ (encLength p1.params 60).isSome = true ∧
    (encLength p1.params 61).isSome = true ∧ (encLength p1.params 1024).isSome = true := by decide
theorem witness_program_receive : encLength p1.params 64 = some 0x8400 ∧ decCode 0x8400 = 64 ∧
    82 % granBytes p1.params.gran ≠ 0 ∧ 80 % granBytes p1.params.gran = 0 ∧ (⟨80, 64⟩ : Region).wf = true ∧
    63 < decCode 0x8400 ∧ 64 ≤ p1.params.pmaBytes ∧ p1.params.gran = .four ∧ (narrow p1).params.gran = .two := by decide
theorem witness_program_receive_narrow : taskPoint (pokePma (narrow p1) 12 (leBytes 2 80)) =
    .ok () (pokePma (narrow p1) 12 (leBytes 2 80)) := by decide
theorem witness_program_transmit : 144 % granBytes p1.params.gran = 0 ∧ 146 % granBytes p1.params.gran ≠ 0 ∧
    (⟨144, 1024⟩ : Region).wf = true ∧ 1023 ≤ 1024 ∧ 1023 < 1024 ∧
    taskPoint (pokePma (narrow p1) 8 (leBytes 2 144)) = .ok () (pokePma (narrow p1) 8 (leBytes 2 144)) := by decide
theorem witness_descriptor_read_back : (⟨80, 64⟩ : Region).wf = true ∧ 80 % granBytes p1.params.gran = 0 ∧
    64 ≤ p1.params.pmaBytes ∧ p1.slots = [] ∧ encLength p1.params 64 = some 0x8400 ∧ decCode 0x8400 ≤ 64 := by decide

/-- `p1` with bytes to pack. -/
def packing : State := { p1 with data := [1, 2, 3, 4, 5] }

/-- `packing` once `PM.WRITE` has run. -/
def packed : State := handOut (.task 1) (.ok .unit) (pokePma packing 144 [1, 2, 3, 4, 5, 0, 0, 0])

theorem witness_pack : packing.data.length = 5 ∧ 2040 % granBytes packing.params.gran = 0 ∧
    2040 + roundup 5 (granBytes packing.params.gran) = packing.params.pmaBytes ∧ packing.slots = [] ∧
    2042 % granBytes packing.params.gran ≠ 0 := by decide
/-- The words run past `PMA_BYTES`: the first is the last that fits, or none does. -/
theorem witness_past_end : packing.data ≠ [] ∧ packing.params.pmaBytes < 2044 + roundup 5 (granBytes packing.params.gran) ∧
    2044 % granBytes packing.params.gran = 0 ∧ packing.params.pmaBytes < 2048 + roundup 1 (granBytes packing.params.gran) ∧
    2048 % granBytes packing.params.gran = 0 := by decide
theorem witness_unpack : 2040 % granBytes p1.params.gran = 0 ∧
    2040 + roundup 8 (granBytes p1.params.gran) = p1.params.pmaBytes ∧ p1.slots = [] ∧
    2042 % granBytes p1.params.gran ≠ 0 := by decide
theorem witness_round_trip : exec (.pmWrite ⟨144, 64⟩) packing = .next packed ∧ packed.fault = none ∧ packing.fault = none ∧
    packed.slots = [] ∧ 8 ≤ roundup packing.data.length (granBytes packing.params.gran) :=
  ⟨eq_next_of_gives (by decide), by decide⟩

/-! The channel register and the dispatcher. -/

theorem witness_layouts : chepLayoutWf p1.params.chep = true ∧ istrLayoutWf p1.params.istr = true ∧
    paramsWf p1.params = true ∧ paramsWf (narrow p1).params = true := by decide
theorem witness_register_bits : (tMask p1.params.chep).getLsbD 14 = true ∧ (cMask p1.params.chep).getLsbD 26 = true ∧
    (rwMask p1.params.chep).getLsbD 0 = true ∧ (pMask p1.params.chep).getLsbD 31 = true := by decide
theorem witness_canonical_value : ((0x00053001 ^^^ 0x00058081 : Word32) &&&
    (rwMask p1.params.chep ||| pMask p1.params.chep)) = 0 := by decide

/-- `p1` with channel 1 armed, and a peripheral that answers NAK at the next point. -/
def racing : State := { withChep p1 1 0x00053001 with slots := [[.env (.rxNak 1 false)]] }

/-- `racing` after that point. -/
def raced : State := { withChep p1 1 0x00052001 with log := [.rxNak 1] }

theorem witness_task_point : taskPoint racing = .ok () raced ∧ taskPoint p1 = .ok () p1 ∧
    (readChep raced 1 &&& (rwMask p1.params.chep ||| pMask p1.params.chep)) =
      (readChep racing 1 &&& (rwMask p1.params.chep ||| pMask p1.params.chep)) := by decide
theorem witness_status_race : ((0x00053001 ^^^ 0x00052001 : Word32) &&&
      (rwMask p1.params.chep ||| pMask p1.params.chep)) = 0 ∧
    getStat p1.params .rx 0x00053001 = .valid ∧ getStat p1.params .rx 0x00052001 = .nak ∧
    getStat p1.params .rx 0x00050001 = .disabled ∧ getStat p1.params .rx 0x00051001 = .stall := by decide
theorem witness_status_change : envStep (.rxNak 1 false) (withChep p1 1 0x00053001) = .ok () raced ∧
    getStat p1.params .rx (readChep raced 1) ≠ getStat p1.params .rx (readChep (withChep p1 1 0x00053001) 1) := by decide
theorem witness_init : 127 < 128 ∧ taskPoint p1 = .ok () p1 := by decide
theorem witness_dispatch : (waiting 0x0405C001 0x00006400).irqSlots = [] ∧
    (istrFields (waiting 0x0405C001 0x00006400)).dcon = true ∧ (istrFields (waiting 0x0405C001 0x00006400)).ctr = true ∧
    (istrFields (waiting 0x0405C001 0x00006400)).err = true ∧
    (istrFields (waiting 0x0405C001 0x00006400)).pmaovr = true := by decide
theorem witness_spurious : p1.irqSlots = [] ∧ linePending p1 = false := by decide
theorem witness_istr_bits : p1.params.istr.clearable.getLsbD 10 = true ∧ p1.params.istr.clearable.getLsbD 31 = true ∧
    p1.params.istr.clearable.getLsbD 30 = false ∧ (0x00006400 : Word32) &&& ~~~ p1.params.istr.clearable = 0 ∧
    p1.params.istr = defaultIstrLayout := by decide
theorem witness_complete_read : (istrFields (waiting 0x0405C001 0)).ctr = true := by decide

/-- Two channels with complete flags. -/
def twoComplete : State := withChep (withChep p1 1 0x0005C001) 3 0x000300C3

/-- Whichever of the two the draw names, the other one is left. -/
theorem witness_one_channel : ∃ c t, c ≠ (istrFields twoComplete).idn ∧ chanComplete twoComplete c = true ∧
    exec .irqDispatch twoComplete = .next t := by
  have next : ∃ t, exec .irqDispatch twoComplete = .next t := by
    simp only [exec, execIrqDispatch]
    split <;> exact ⟨_, rfl⟩
  obtain ⟨t, ht⟩ := next
  by_cases h : (istrFields twoComplete).idn = 1
  · exact ⟨3, t, by rw [h]; decide, by decide, ht⟩
  · exact ⟨1, t, fun e => h e.symm, by decide, ht⟩

/-! The engine. -/

/-- No operation is on a channel half when no task has one. -/
theorem no_operations {s : State} (h : s.tasks = []) (u : Nat) : (taskRec s u).op = none := by
  simp [taskRec, h, mapLookup, idleTask]

theorem witness_start : tasksWf p1.tasks = true ∧ handleAt p1 2 .dirIn = none ∧ handleAt p1 1 .dirIn = some handleIn ∧
    handleIn.gen = p1.alloc.gen ∧ handleAt p1 1 .dirOut = some handleOut ∧ handleOut.gen = p1.alloc.gen ∧
    (∀ u op d, (taskRec p1 u).op = some op → opChannel op ≠ some (1, d)) :=
  ⟨by decide, by decide, by decide, by decide, by decide, by decide, fun u op d h => by
    rw [no_operations rfl] at h; cases h⟩
/-- `p1` one generation later. -/
def stale : State := { p1 with alloc := { p1.alloc with gen := 2 } }

theorem witness_start_stale : handleAt stale 1 .dirIn = some handleIn ∧ handleAt stale 1 .dirOut = some handleOut ∧
    handleIn.gen ≠ stale.alloc.gen ∧ handleOut.gen ≠ stale.alloc.gen := by decide

/-- Task 1 reads on channel 1. -/
def reader : State := inFlight (.read (reading 8 [] none)) 0x00053001

theorem reader_operations {u : Nat} {op : Op} (h : (taskRec reader u).op = some op) : u = 1 ∧ opChannel op = some (1, .dirIn) := by
  by_cases e : u = 1
  · subst e
    have hr : (taskRec reader 1).op = some (.read (reading 8 [] none)) := by decide
    rw [hr] at h
    cases h
    decide
  · simp [taskRec, reader, inFlight, mapLookup, idleTask, e] at h

theorem witness_start_busy : tasksWf reader.tasks = true ∧ handleAt reader 1 .dirIn = some handleIn ∧
    handleIn.gen = reader.alloc.gen ∧
    (∃ u op, (taskRec reader u).op = some op ∧ opChannel op = some (1, .dirIn)) ∧
    (∀ u op, (taskRec reader u).op = some op → opChannel op ≠ some (1, .dirOut)) ∧ (taskRec reader reader.task).op ≠ none :=
  ⟨by decide, by decide, by decide, ⟨1, .read (reading 8 [] none), by decide⟩,
    fun u op h => by rw [(reader_operations h).2]; decide, by decide⟩

/-- `p1` with a transmit region of 1024 bytes and that many bytes to write, or another number. -/
def wide (n : Nat) : State := { p1 with
  htOut := p1.htOut.set 1 (some { handleOut with region := ⟨144, 1024⟩ }), data := List.replicate n 0 }

theorem witness_start_sizes : handleOut.region.len < 65 ∧ (wide 1024).data.length ≤ 1024 ∧ 1023 < (wide 1024).data.length ∧
    (wide 1023).data.length ≤ 1023 ∧ handleAt (wide 1023) 1 .dirOut = some { handleOut with region := ⟨144, 1024⟩ } :=
  have length_wide : ∀ n, (wide n).data.length = n := fun n => List.length_replicate
  ⟨by decide, (length_wide 1024).le, by rw [length_wide]; omega, (length_wide 1023).le, by decide⟩

/-- Task 1 waits for a bus state. -/
def waiter (b : BusState) : State := inFlight (.busWait ⟨b, .awaitingCompletion⟩) 0

theorem witness_bus_wait : (taskRec p1 p1.task).op = none ∧ (taskRec reader reader.task).op ≠ none ∧
    (waiter .disconnected).slots = [] ∧
    (taskRec (waiter .disconnected) 1).op = some (.busWait ⟨.disconnected, .awaitingCompletion⟩) := by decide
theorem witness_poll_faults : (taskRec p1 p1.task).op = none ∧
    (taskRec { stale with tasks := reader.tasks } 1).op = some (.read (reading 8 [] none)) ∧
    (taskRec { stale with tasks := (sleeping 0).tasks } 1).op = some (.write (writing [7] (some 30))) := by decide

/-- `reader`, its half as the peripheral left it after a packet of 64 bytes. -/
def readerWith (v : Word32) (count : Nat) : State :=
  { withChep reader 1 v with pma := cells 12 [0x50, 0, count, 0x84] }

theorem witness_read_transitions : paramsWf reader.params = true ∧ reader.slots = [] ∧
    (taskRec reader reader.task).op = some (.read (reading 8 [] none)) ∧
    (reading 8 [] none).h.gen = reader.alloc.gen ∧ (reading 8 [] none).phase = .awaitingCompletion ∧
    getStat reader.params .rx (readChep (readerWith 0x00050001 64) 1) = .disabled ∧
    (codeRx (readerWith 0x00050001 64) 1).toNat % 1024 = handleIn.region.len ∧
    handleIn.region.off % granBytes reader.params.gran = 0 ∧
    handleIn.region.off + roundup 64 (granBytes reader.params.gran) ≤ reader.params.pmaBytes := by decide
/-- A packet that fills the buffer, whose row copies it, and one that overflows it, whose row has no use for the region. -/
theorem witness_read_overflow : reader.connected = true ∧ expired none (reading 8 [] none).start reader.now = false ∧
    (codeRx (readerWith 0x00050001 8) 1).toNat % 1024 = 8 ∧ 8 ≤ (reading 8 [] none).n - (reading 8 [] none).off ∧
    handleIn.region.off + roundup 8 (granBytes reader.params.gran) ≤ reader.params.pmaBytes ∧
    (codeRx (readerWith 0x00050001 9) 1).toNat % 1024 = 9 ∧
    ¬ 9 ≤ (reading 8 [] none).n - (reading 8 [] none).off := by decide
theorem witness_read_rows : getStat reader.params .rx 0x00051001 = .stall ∧ getStat reader.params .rx 0x00052001 = .nak ∧
    expired (some 5) (some 0) 5 = false ∧ expired (some 5) (some 0) 6 = true := by decide

/-- Task 1 has started a read, or a write, and has not polled it. -/
def fresh (op : Op) (connected : Bool) : State := { inFlight op 0x00050001 with connected := connected }
def freshRead : ReadOp := ⟨handleIn, 64, [], 0, none, none, .arming⟩
def freshWrite : WriteOp := ⟨handleOut, [1, 2, 3, 4, 5], none, none, .arming⟩

theorem witness_arming : (taskRec (fresh (.read freshRead) true) 1).op = some (.read freshRead) ∧
    freshRead.h.gen = p1.alloc.gen ∧ freshRead.phase = .arming ∧
    (taskRec (fresh (.write freshWrite) false) 1).op = some (.write freshWrite) ∧
    freshWrite.h.region.off % granBytes p1.params.gran = 0 ∧ freshWrite.h.region.off < 65536 ∧
    freshWrite.data.length ≤ freshWrite.h.region.len ∧ freshWrite.data.length ≤ 1023 ∧
    freshWrite.h.region.off + roundup 5 (granBytes p1.params.gran) ≤ p1.params.pmaBytes := by decide
theorem witness_write_transitions : (taskRec (sleeping 31) 1).op = some (.write (writing [7] (some 30))) ∧
    (writing [7] (some 30)).h.gen = (sleeping 31).alloc.gen ∧
    (writing [7] (some 30)).phase = .awaitingCompletion ∧ (sleeping 31).slots = [] := by decide

/-! The lifecycle. -/

theorem witness_claim : inUse (freeAt 2040).alloc 2 .dirIn = false ∧ inUse p1.alloc 1 .dirIn = true ∧
    regionSize .dirIn 6 (freeAt 2040) = .ok 8 (freeAt 2040) ∧ (freeAt 2040).alloc.free % granBytes p1.params.gran = 0 ∧
    (freeAt 2040).alloc.free + 8 ≤ p1.params.pmaBytes ∧ regionSize .dirOut 9 (freeAt 2040) = .ok 12 (freeAt 2040) ∧
    p1.params.pmaBytes < (freeAt 2040).alloc.free + 12 := by decide
theorem witness_claim_domain : ¬ (2 ≤ 1 ∧ 1 ≤ 1024) ∧ ¬ (1 ≤ 1024 ∧ 1024 ≤ 1023) := by decide
theorem witness_claim_twice : leads (exec (.chClaim 2 .dirIn .interrupt 3 6) (freeAt 80)) (fun t =>
    decide (t.out = [(.task 1, .ok (.handle ⟨2, .dirIn, 6, .interrupt, 3, ⟨80, 8⟩, 1⟩))] ∧
      t.alloc.gen = (freeAt 80).alloc.gen ∧ inUse t.alloc 2 .dirIn = true)) = true ∧ (freeAt 80).out = [] := by decide
theorem witness_reconf0 : regionSize .dirIn 8 p1 = .ok 8 p1 ∧ regionSize .dirOut 8 p1 = .ok 8 p1 ∧
    64 + 8 + 8 ≤ p1.params.pmaBytes ∧ 1088 ≤ p1.params.pmaBytes ∧ p1.slots = [] := by decide

/-- `p1` with a smaller packet memory. -/
def small (n : Nat) : State := { p1 with params := { p1.params with pmaBytes := n } }

/-- The receive region of `CH.RECONF0` does not fit; it fits and the transmit region does not. -/
theorem witness_reconf0_no_memory : paramsWf (small 68).params = true ∧ regionSize .dirIn 8 (small 68) = .ok 8 (small 68) ∧
    (small 68).params.pmaBytes < 64 + 8 ∧ paramsWf (small 76).params = true ∧
    regionSize .dirIn 8 (small 76) = .ok 8 (small 76) ∧ regionSize .dirOut 8 (small 76) = .ok 8 (small 76) ∧
    64 + 8 ≤ (small 76).params.pmaBytes ∧ (small 76).params.pmaBytes < 64 + 8 + 8 := by decide
theorem witness_drop : handleAt p1 2 .dirIn = none ∧ handleAt reader 1 .dirIn ≠ none ∧ handleAt reader 1 .dirOut ≠ none := by
  decide

/-! The peripheral. -/

theorem witness_receives : (withChep p1 1 0x00053001).connected = true ∧
    getStat p1.params .rx (readChep (withChep p1 1 0x00053001) 1) = .valid ∧ decCode (codeRx p1 1) = 64 ∧
    64 + 0 = roundup 64 (granBytes p1.params.gran) ∧ 64 ≤ addrRx p1 1 ∧ addrRx p1 1 + 64 + 0 ≤ p1.params.pmaBytes := by
  decide
/-- The packet's last byte is the first at `PMA_BYTES`. -/
theorem witness_receives_past_end : decCode (codeRx { withChep p1 1 0x00053001 with pma := cells 12 [0xFD, 7, 0, 0x84] } 1) = 64 ∧
    (withChep p1 1 0x00053001).params.pmaBytes <
      addrRx { withChep p1 1 0x00053001 with pma := cells 12 [0xFD, 7, 0, 0x84] } 1 + 4 + 0 := by decide
theorem witness_transmits : getStat p1.params .tx (readChep (withChep p1 1 0x00050021) 1) = .nak ∧ countTx p1 1 = 0 ∧
    p1.params.pmaBytes < addrTx { p1 with pma := cells 8 [0xFF, 7, 2, 0] } 1 + 2 ∧
    countTx { p1 with pma := cells 8 [0xFF, 7, 2, 0] } 1 = 2 := by decide
theorem witness_answers : halfEnabled (withChep p1 1 0x00052031) 1 .rx = true ∧
    halfEnabled (withChep p1 1 0x00052031) 1 .tx = true := by decide
theorem witness_errors : halfEnabled (withChep p1 1 0x00053001) 1 .rx = true ∧
    becomes (.error 1 .rx (List.replicate (decCode (codeRx p1 1)) 0)) (withChep p1 1 0x00053001) (fun _ => true) = true ∧
    becomes (.overrun 1 (List.replicate (decCode (codeRx p1 1)) 0)) (withChep p1 1 0x00053001) (fun _ => true) = true := by
  decide
theorem witness_idle : (narrow State.reset).connected = false ∧
    getStat p1.params .rx (readChep (withChep p1 1 0x00051001) 1) = .stall ∧
    getStat p1.params .tx (readChep p1 1) = .disabled := by decide
theorem witness_reset_params : paramsWf referenceParams = true ∧ paramsWf (narrow p1).params = true := by decide

/-! The invariants, at `reader`: a state with live handles, an operation in flight and a waiter, and a step from it. -/

theorem witness_step : ∃ t, step (reader.withFetchWord 64 0x5200000000000000) = .next t := by
  have h : leads (step (reader.withFetchWord 64 0x5200000000000000)) (fun _ => true) = true := by decide
  cases e : step (reader.withFetchWord 64 0x5200000000000000) with
  | next t => exact ⟨t, rfl⟩
  | fault r => rw [e] at h; cases h
  | refused r => rw [e] at h; cases h

theorem witness_canonical : Canonical (reader.withFetchWord 64 0x5200000000000000) :=
  ⟨by decide, by decide, by decide, by decide⟩

theorem reader_handle {c : Chan} {d : Dir} {h : Handle} (e : handleAt reader c d = some h) :
    (c, d, h) = (1, .dirIn, handleIn) ∨ (c, d, h) = (1, .dirOut, handleOut) := by
  cases d <;> fin_cases c <;> first | (cases e; decide) | cases e

/-- Nothing is in progress at `reader`. -/
theorem reader_parts (t : Nat) : partsOf (reader.withFetchWord 64 0x5200000000000000) t = [] := rfl

theorem reader_owns {c : Chan} {d : Dir} {r : Region}
    (e : ownsRegion (partsOf (reader.withFetchWord 64 0x5200000000000000)) (reader.withFetchWord 64 0x5200000000000000) c d r) :
    (c, d, r) = (1, .dirIn, ⟨80, 64⟩) ∨ (c, d, r) = (1, .dirOut, ⟨144, 64⟩) := by
  rcases e with ⟨h, e, rfl⟩ | ⟨t, a, e, -⟩
  · rcases reader_handle e.1 with e | e <;> cases e <;> decide
  · rw [reader_parts] at e
    cases e

theorem witness_allocator : AllocatorInv (reader.withFetchWord 64 0x5200000000000000) where
  params := by decide
  low := by decide
  high := by decide
  aligned := by decide
  named := fun c d h e => by
    rcases reader_handle e with e | e <;> cases e <;> decide
  marked := fun c d r e => by
    rcases reader_owns e with e | e <;> cases e <;> decide
  inside := fun c d r e => by
    rcases reader_owns e with e | e <;> cases e <;> decide
  apart := fun c d r c' d' r' e e' ne => by
    rcases reader_owns e with e | e <;> rcases reader_owns e' with e' | e' <;> cases e <;> cases e' <;>
      first | exact absurd rfl ne | simp [regionsApart]

theorem witness_resets_apart : resetsApart (reader.withFetchWord 64 0x5200000000000000) :=
  ⟨fun h => absurd h (by decide), fun _ h => by cases h⟩

theorem witness_engine : engineSafe (reader.withFetchWord 64 0x5200000000000000) := fun _ => {
  named := fun c d h e => by
    rcases reader_handle e with e | e <;> cases e <;> decide
  records := fun t op e _ => by
    obtain ⟨rfl, -⟩ := reader_operations e
    have hr : (taskRec reader 1).op = some (.read (reading 8 [] none)) := by decide
    rw [show (taskRec (reader.withFetchWord 64 0x5200000000000000) 1).op = (taskRec reader 1).op from rfl, hr] at e
    cases e
    exact ⟨rfl, rfl, by decide, .inr ⟨rfl, rfl⟩⟩
  polled := fun t h => by
    rw [reader_parts] at h
    cases h
  exclusive := fun t u op op' c d e e' _ _ => (reader_operations e).1.trans (reader_operations e').1.symm
  wakes := fun t op c d e _ => by
    obtain ⟨rfl, -⟩ := reader_operations e
    exact .inr (.inr (by decide)) }

theorem witness_reserved_bits : istrOthersZero (waiting 0x0405C001 0x00006400) ∧
    chepLayoutWf (waiting 0x0405C001 0x00006400).params.chep = true ∧ chepLayoutWf halfway.params.chep = true := by
  unfold istrOthersZero
  decide

theorem witness_reads_agree : readsAgree halfway := fun t c change cur h => by
  by_cases e : t = 1
  · subst e
    have hp : partsOf halfway 1 = [.access (.writeReg 1 (.setStatus .rx .valid) 0x00050001), replyUnit] := by decide
    rw [hp] at h
    simp only [List.mem_cons, Part.access.injEq, Access.writeReg.injEq, replyUnit, List.not_mem_nil, or_false,
      reduceCtorEq] at h
    obtain ⟨rfl, rfl, rfl⟩ := h
    decide
  · simp [partsOf, halfway, mapLookup, e] at h

theorem witness_no_task_steps : noTaskSteps racing := fun es h e he => by
  have : racing.slots = [[.env (.rxNak 1 false)]] := rfl
  rw [this] at h
  simp only [List.mem_cons, List.not_mem_nil, or_false] at h
  subst h
  simp only [List.mem_cons, List.not_mem_nil, or_false] at he
  subst he
  exact trivial

end Sys2Proof.Tests
end

