-- ==== Sys2Proof/Proofs/Step.lean ====
section
/-! PROOFS. One whole step: what a step that gives a next state did, and that a property every single step keeps is kept by
`step`, whether the choice is a single step of an agent or a command to its end. -/

namespace Sys2Proof.Machine

/-- What a step that gives the next state `s'` did (10_state.md R69). -/
inductive Chosen (s : State) : State → Prop where
  /-- Nobody was chosen. -/
  | idle : Chosen s s
  /-- An agent took one step of its own. -/
  | event (e : Event) (rest : List Input) (hin : s.inputs = .event e :: rest) :
      Chosen s (eventStep none e (takeInput rest s)).state
  /-- A command ran to its end; a task's command only where the task had none in progress. -/
  | command (c : Command) (rest : List Input) (i : Instr) (s' : State) (hin : s.inputs = .command c :: rest)
      (hi : issued c.code = .instr i) (free : i ≠ .irqDispatch → partsOf s c.task = [])
      (he : exec i (loadCommand c (takeInput rest s)) = .next s') : Chosen s s'
  /-- The expansion of a pseudo-instruction raised a fault. -/
  | fault (c : Command) (rest : List Input) (r : Fault) (hin : s.inputs = .command c :: rest) :
      Chosen s (raiseFault r (loadCommand c (takeInput rest s)))
  /-- The choice was passed over. -/
  | busy (c : Command) (rest : List Input) (hin : s.inputs = .command c :: rest) : Chosen s (takeInput rest s)

/-- With no fault set, the chosen agent's event is the step, but for the refusal of an `Invalid(w)` word. -/
theorem step_event {s : State} {e : Event} {rest : List Input} (hf : s.fault = none) (hin : s.inputs = .event e :: rest) :
    step s = .next (eventStep none e (takeInput rest s)).state ∨ ∃ w, step s = .refused (.invalid w) := by
  simp only [step, hf, fetch, hin]
  cases e with
  | start c => cases hi : issued c.code <;> simp [fetchEvent, hi]
  | env | irq | resume => exact .inl (by simp [fetchEvent])

/-- A step that gives a next state was taken with no fault set, and it did one of these things. -/
theorem step_chosen {s s' : State} (e : step s = .next s') : s.fault = none ∧ Chosen s s' := by
  cases hf : s.fault with
  | some r => simp [step, hf] at e
  | none =>
    refine ⟨rfl, ?_⟩
    cases hin : s.inputs with
    | nil =>
      simp only [step, hf, fetch, hin] at e
      cases e
      exact .idle
    | cons x rest =>
      cases x with
      | event ev =>
        rcases step_event hf hin with h | ⟨w, h⟩
        · rw [h] at e
          cases e
          exact .event ev rest hin
        · rw [h] at e
          cases e
      | command c =>
        simp only [step, hf, fetch, hin, fetchCommand, fetchInstr] at e
        cases hi : issued c.code with
        | instr i =>
          simp only [hi] at e
          by_cases hb : i ≠ .irqDispatch ∧ hasCommand (takeInput rest s) c.task
          · rw [if_pos hb] at e
            cases e
            exact .busy c rest hin
          · rw [if_neg hb] at e
            refine .command c rest i s' hin hi (fun hne => ?_) e
            have hfree : ¬ hasCommand (takeInput rest s) c.task = true := fun h => hb ⟨hne, h⟩
            rw [hasCommand, decide_eq_true_eq, not_not] at hfree
            exact hfree
        | fault r =>
          simp only [hi] at e
          by_cases hb : hasCommand (takeInput rest s) c.task
          · rw [if_pos hb] at e
            cases e
            exact .busy c rest hin
          · rw [if_neg hb] at e
            cases e
            exact .fault c rest r hin
        | invalid w => simp [hi] at e

/-- The code of the command that the next choice starts. -/
def chosenCode (s : State) : Option Code :=
  match s.inputs with
  | .event (.start c) :: _ => some c.code
  | .command c :: _ => some c.code
  | _ => none

theorem chosenCode_start {s : State} {c : Issue} {rest : List Input} (hin : s.inputs = .event (.start c) :: rest) :
    chosenCode s = some c.code := by simp [chosenCode, hin]

theorem chosenCode_command {s : State} {c : Command} {rest : List Input} (hin : s.inputs = .command c :: rest) :
    chosenCode s = some c.code := by simp [chosenCode, hin]

/-- Kept by every single step, by the taking of a choice, by its results, and by leaving out what a command that ended in a
fault still had to do. -/
structure ChoiceClosed (adm : Instr → Prop) (P : LeftProp) : Prop extends StepClosed adm P where
  take : ∀ left s rest, P left s → P left (takeInput rest s)
  load : ∀ left s c, P left s → P left (loadCommand c s)
  answer : ∀ left s a r, P left s → P left (handOut a r s)
  stopped : ∀ s t qs, s.fault ≠ none → partsOf s t = [] → P (leftWith (some (t, qs)) s) s → P (partsOf s) s

variable {adm : Instr → Prop} {P : LeftProp}

/-- What is left of a command only adds to what the tasks have in progress. -/
theorem mem_leftWith {s : State} {t : Nat} (ht : partsOf s t = []) (qs : List Part) (u : Nat) (p : Part)
    (h : p ∈ partsOf s u) : p ∈ leftWith (some (t, qs)) s u := by
  simp only [leftWith]
  split
  · rename_i e
    rw [e, ht] at h
    cases h
  · exact h

/-- Properties of single parts need only the bookkeeping of a choice besides. -/
theorem GrowClosed.choiceClosed (H : GrowClosed adm P) (take : ∀ left s rest, P left s → P left (takeInput rest s))
    (load : ∀ left s c, P left s → P left (loadCommand c s))
    (answer : ∀ left s a r, P left s → P left (handOut a r s)) : ChoiceClosed adm P where
  toStepClosed := H.stepClosed
  take := take
  load := load
  answer := answer
  stopped := fun s _ qs _ ht h => H.anti _ (partsOf s) s (mem_leftWith ht qs) h

/-- The first step of the command `i` from `s` keeps the property. -/
def BeginKept (P : LeftProp) (i : Instr) (s : State) : Prop :=
  ∀ o : Side, partsOf s o.task = [] → P (partsOf s) s → Keeps P (partsOf s) o.task (firstStep o.task (begin i o s))

theorem StepClosed.beginKept (H : StepClosed adm P) {i : Instr} (hi : adm i) (s : State) : BeginKept P i s :=
  fun o ho h => H.first _ s i o hi ho h

/-- A step of any agent on its own, whose command, if it starts one, begins as the property allows. -/
theorem StepClosed.eventStep (H : StepClosed adm P) {e : Event} {s : State}
    (hb : ∀ c i, e = .start c → issued c.code = .instr i → BeginKept P i s) (h : P (partsOf s) s) :
    P (partsOf (eventStep none e s).state) (eventStep none e s).state := by
  by_cases ha : Admitted adm e
  · exact eventStep_closed H none ha h
  · obtain ⟨c, i, rfl, hi⟩ : ∃ c i, e = .start c ∧ issued c.code = .instr i := by
      simp only [Admitted, not_forall] at ha
      obtain ⟨c, i, he, hi, _⟩ := ha
      exact ⟨c, i, he, hi⟩
    simp only [Machine.eventStep, startStep, hi]
    split
    · exact h
    · rename_i hn
      have hfree := (free_of_not_occupied hn).2
      exact keepParts_closed (b := none) H (by simp) (TaskRun.firstStep i c.toSide s) (hb c i rfl hi c.toSide hfree h)

/-- A dispatcher invocation run as a command (45_dispatcher.md R211). -/
theorem ChoiceClosed.irqDispatch (H : ChoiceClosed adm P) {s s' : State} (h : P (partsOf s) s)
    (e : exec .irqDispatch s = .next s') : P (partsOf s') s' := by
  have hr := QuietRun.dispatch s
  have hq : P (partsOf (dispatch s).state) (dispatch s).state := by
    rw [show partsOf (dispatch s).state = partsOf s from funext (partsOf_congr hr.quiet.inProgress)]
    exact H.quiet _ _ _ hr h
  simp only [exec, execIrqDispatch] at e
  cases hd : dispatch s with
  | ok _ s1 =>
    rw [hd] at e hq
    cases e
    exact H.answer _ s1 _ _ hq
  | halt s1 =>
    rw [hd] at e hq
    cases e
    exact hq

/-- A command of any agent, run to its end. -/
theorem ChoiceClosed.exec (H : ChoiceClosed adm P) {i : Instr} {s s' : State} (ha : slotsAdmitted adm s)
    (free : i ≠ .irqDispatch → partsOf s s.task = []) (hb : BeginKept P i s) (h : P (partsOf s) s)
    (e : exec i s = .next s') : P (partsOf s') s' := by
  by_cases hi : i = .irqDispatch
  · subst hi
    exact H.irqDispatch h e
  · rw [exec_eq_runCommand hi] at e
    obtain ⟨⟨ht, hidle⟩, hP⟩ := runCommand_closed H.toStepClosed ha (free hi) (hb (sideOf s) (free hi) h) e
    rcases hP with hP | ⟨hf, qs, hP⟩
    · exact hP
    · exact H.stopped s' s'.task qs hf (by rw [ht]; exact hidle) hP

/-- The next choice begins and interleaves only what the property allows. -/
structure ChoiceKept (adm : Instr → Prop) (P : LeftProp) (s : State) : Prop where
  first : ∀ code i s1, chosenCode s = some code → issued code = .instr i → s1.inProgress = s.inProgress → BeginKept P i s1
  slots : ∀ c rest, s.inputs = .command c :: rest → ∀ es ∈ c.slots, ∀ e ∈ es, Admitted adm e

/-- One step (00_scope.md R23), whatever the choice is. -/
theorem ChoiceClosed.step (H : ChoiceClosed adm P) {s s' : State} (hc : ChoiceKept adm P s) (h : P (partsOf s) s)
    (e : step s = .next s') : P (partsOf s') s' := by
  have htake : ∀ rest, P (partsOf (takeInput rest s)) (takeInput rest s) := fun rest => H.take _ s rest h
  have hload : ∀ c rest, P (partsOf (loadCommand c (takeInput rest s))) (loadCommand c (takeInput rest s)) :=
    fun c rest => H.load _ _ c (htake rest)
  cases (step_chosen e).2 with
  | idle => exact h
  | event ev rest hin =>
    refine H.eventStep (fun c i he hi => hc.first c.code i _ ?_ hi rfl) (htake rest)
    exact chosenCode_start (by rw [hin, he])
  | command c rest i _ hin hi free he =>
    exact H.exec (s := loadCommand c (takeInput rest s)) (hc.slots c rest hin) free
      (hc.first c.code i _ (chosenCode_command hin) hi rfl) (hload c rest) he
  | fault c rest r hin => exact H.quiet _ _ _ (QuietRun.raise (α := Unit) r _) (hload c rest)
  | busy c rest hin => exact htake rest

/-- One step, for a property that every command keeps. -/
theorem ChoiceClosed.step_of_all (H : ChoiceClosed (fun _ => True) P) {s s' : State} (h : P (partsOf s) s)
    (e : Machine.step s = .next s') : P (partsOf s') s' :=
  H.step ⟨fun _ _ s1 _ _ _ => H.beginKept trivial s1, fun _ _ _ _ _ _ _ _ _ _ _ => trivial⟩ h e

/-- Settles O7 (10_state.md R65). -/
theorem faultIsSticky : Obligations.FaultIsSticky := by
  intro s r h
  simp only [step, h]

end Sys2Proof.Machine
end

