-- ==== Sys2Proof/Proofs/Forward.lean ====
section
/-! PROOFS. What no step undoes, and the canonical form: every step only goes forward. -/

namespace Sys2Proof.Machine

theorem Forward.takeInput (rest : List Input) (s : State) : Forward s (takeInput rest s) :=
  { Forward.refl s with canonical := fun h => ⟨h.params, h.pma, h.tasks, h.progress⟩ }

theorem Forward.loadCommand (c : Command) (s : State) : Forward s (loadCommand c s) :=
  { Forward.refl s with canonical := fun h => ⟨h.params, h.pma, h.tasks, h.progress⟩ }

theorem forward_choiceClosed (s0 : State) : ChoiceClosed (fun _ => True) fun _ s => Forward s0 s where
  toStepClosed := forward_closed s0
  take := fun _ s rest h => h.trans (Forward.takeInput rest s)
  load := fun _ s c h => h.trans (Forward.loadCommand c s)
  answer := fun _ s a r h => h.trans (Forward.of_steady (Mild.handOut 0 a r s).steady)
  stopped := fun _ _ _ _ _ h => h

/-- Every step goes forward, for every command, every event and every interleaving. -/
theorem step_forward {s s' : State} (e : step s = .next s') : Forward s s' :=
  (forward_choiceClosed s).step_of_all (Forward.refl s) e

/-- Settles O60: each clause is a field of `Forward`. -/
theorem stepOnlyForward : Obligations.StepOnlyForward := fun _ _ e => (step_forward e).toOnlyForward

/-- Settles O56: going forward keeps the canonical form. -/
theorem stepKeepsCanonical : Obligations.StepKeepsCanonical := fun _ _ h e => (step_forward e).canonical h

end Sys2Proof.Machine
end

