-- ==== Sys2Proof/Proofs/Allocator.lean ====
section
/-! PROOFS. The allocator invariant (10_state.md R40, R42, R44) under every interleaving in which resets and claims do not
overlap (20_memory.md R95, 70_reset_and_hazards.md R354). -/

namespace Sys2Proof.Machine

/-- The commands that reset the allocator are the two that do not keep its generation. -/
theorem codeResets_eq_false_iff {c : Code} {i : Instr} (hi : issued c = .instr i) :
    codeResets c = false ↔ keepsGeneration i := by
  cases i <;> simp [codeResets, hi, keepsGeneration]

theorem admitted_of_not_resets {e : Event} (h : eventResets e = false) : Admitted keepsGeneration e := by
  rintro c i rfl hi
  exact (codeResets_eq_false_iff hi).mp h

theorem allocator_choiceClosed : ChoiceClosed keepsGeneration AllocatorGood :=
  allocator_closed.choiceClosed (fun _ _ _ h => h.transfer rfl rfl fun _ d => by cases d <;> rfl)
    (fun _ _ _ h => h.transfer rfl rfl fun _ d => by cases d <;> rfl)
    fun _ _ _ _ h => h.transfer rfl rfl fun _ d => by cases d <;> rfl

/-- A code that resets the allocator is chosen only while no claim is in progress. -/
theorem resetsApart_code {s : State} (h : resetsApart s) {code : Code} (hc : chosenCode s = some code)
    (hr : codeResets code = true) : ¬ claimPending s := by
  simp only [chosenCode] at hc
  simp only [resetsApart] at h
  split at hc <;> rename_i hin
  · cases hc
    rw [hin] at h
    exact h hr
  · cases hc
    rw [hin] at h
    exact h.1 hr
  · cases hc

/-- No reset is issued at a point within the chosen command. -/
theorem resetsApart_slots {s : State} (h : resetsApart s) {c : Command} {rest : List Input}
    (hin : s.inputs = .command c :: rest) : ∀ es ∈ c.slots, ∀ e ∈ es, Admitted keepsGeneration e := by
  simp only [resetsApart, hin] at h
  exact fun es hes e he => admitted_of_not_resets (h.2 es hes e he)

/-- With resets and claims apart, the first step of any command keeps the invariant: it resets nothing, or it resets while
no claim owns a region. -/
theorem resetsApart_begin {s s1 : State} (h : resetsApart s) {code : Code} {i : Instr} (hc : chosenCode s = some code)
    (hi : issued code = .instr i) (hp : s1.inProgress = s.inProgress) : BeginKept AllocatorGood i s1 := by
  by_cases hk : keepsGeneration i
  · exact allocator_choiceClosed.beginKept hk s1
  · intro o ho hg
    have hreset : codeResets code = true := by
      cases hcr : codeResets code
      · exact absurd ((codeResets_eq_false_iff hi).mp hcr) hk
      · rfl
    have hno : ∀ t a r, .own (.enter a r) ∉ partsOf s1 t := fun t a r hm =>
      resetsApart_code h hc hreset ⟨t, a, r, by rw [← partsOf_congr hp]; exact hm⟩
    exact firstStep_grow allocator_closed ho (allocator_begin_reset hk hno hg)

/-- Settles O57: every single step but a reset keeps the invariant, and a reset finds no claim in progress. -/
theorem stepKeepsAllocator : Obligations.StepKeepsAllocator := fun s _ h hr e =>
  allocator_choiceClosed.step (s := s) ⟨fun _ _ _ hc hi hp => resetsApart_begin hr hc hi hp,
    fun _ _ hin => resetsApart_slots hr hin⟩ h e

end Sys2Proof.Machine
end

