-- ==== Sys2Proof/Proofs/ConfigParts.lean ====
section
/-! PROOFS. The parts of a command that change no configuration field of a channel register (10_state.md R38): a command that
is none of `CR.INIT`, `CH.CLAIM` and `CH.RECONF0` has only such parts, and they lead only to such parts. -/

namespace Sys2Proof.Machine

/-- The read-modify-write sets the configuration fields (44_channel_register.md R196). -/
def changesConfig : RegChange → Bool
  | .init _ _ => true
  | .setStatus _ _ | .clearComplete _ | .clearError _ | .touch => false

/-- A part that changes no bit of kinds RW and P of `s0`'s registers: neither a claim nor the claim-time write, and a
register value read and not yet written back has the bits of `s0`. -/
def PartKept (s0 : State) : Part → Prop
  | .access (.readReg _ change) => changesConfig change = false
  | .access (.writeReg c change cur) => changesConfig change = false ∧ agreeKept s0.params (readChep s0 c) cur
  | .access (.claim _) | .own (.enter _ _) => False
  | _ => True

/-- Every part of the list is such a part. -/
def PartsKept (s0 : State) (ps : List Part) : Prop := ∀ p ∈ ps, PartKept s0 p

variable {s0 : State}

@[simp] theorem partsKept_nil : PartsKept s0 [] := fun _ h => by cases h

@[simp] theorem partsKept_cons {p : Part} {ps : List Part} : PartsKept s0 (p :: ps) ↔ PartKept s0 p ∧ PartsKept s0 ps := by
  simp [PartsKept]

@[simp] theorem partsKept_append {ps qs : List Part} : PartsKept s0 (ps ++ qs) ↔ PartsKept s0 ps ∧ PartsKept s0 qs := by
  simp only [PartsKept, List.forall_mem_append]

theorem partsKept_storesOrFaults {ps : List Part} (h : storesOrFaults ps = true) : PartsKept s0 ps := by
  intro p hp
  have hq := List.all_eq_true.mp h p hp
  split at hq
  · trivial
  · trivial
  · cases hq

theorem partsKept_loadParts (off k todo n : Nat) (got : List Byte) (purpose : ReadFor) :
    PartsKept s0 (loadParts off k todo n got purpose) := by
  cases todo <;> simp [loadParts, PartKept]

theorem partsKept_pmReadParts (p : Params) (r : Region) (n : Nat) (purpose : ReadFor) :
    PartsKept s0 (pmReadParts p r n purpose) := by
  rcases pmReadParts_parts p r n purpose with ⟨f, e⟩ | e <;> rw [e]
  · exact partsKept_storesOrFaults (storesOrFaults_faultParts f)
  · exact partsKept_loadParts _ _ _ _ _ _

theorem partsKept_checkParts (op : Op) : PartsKept s0 (checkParts op) := by simp [checkParts, PartKept]

theorem partsKept_armReadParts (r : ReadOp) : PartsKept s0 (armReadParts r) := by
  simp [armReadParts, changeReg, PartKept, changesConfig]

theorem partsKept_armWriteParts (p : Params) (w : WriteOp) : PartsKept s0 (armWriteParts p w) := by
  simp only [armWriteParts, partsKept_append]
  exact ⟨partsKept_storesOrFaults (storesOrFaults_progTx _ _ _ _),
    partsKept_storesOrFaults (storesOrFaults_pmWrite _ _ _), by simp [changeReg, PartKept, changesConfig]⟩

theorem partsKept_disableParts (c : Chan) (h : Half) (e : Err) : PartsKept s0 (disableParts c h e) := by
  simp [disableParts, changeReg, PartKept, changesConfig]

/-- What a run leads to are such parts. -/
def LeadsKept (s0 : State) (r : Run (List Part)) : Prop := ∀ more s', r = .ok more s' → PartsKept s0 more

theorem LeadsKept.of_ok {ps : List Part} {s : State} (h : PartsKept s0 ps) : LeadsKept s0 (.ok ps s) :=
  fun _ _ e => by cases e; exact h

theorem LeadsKept.raise (r : Fault) (s : State) : LeadsKept s0 (raise r s) := fun _ _ e => by cases e

theorem LeadsKept.reply (t : Nat) (r : Result) (s : State) : LeadsKept s0 (reply t r s) := LeadsKept.of_ok partsKept_nil

theorem LeadsKept.bind {α : Type} {r : Run α} {f : α → State → Run (List Part)} (h : ∀ a s, LeadsKept s0 (f a s)) :
    LeadsKept s0 (r.bind f) := fun more s' e => by
  obtain ⟨a, s, _, e⟩ := Run.bind_eq_ok e
  exact h a s more s' e

theorem LeadsKept.withOp {t : Nat} {s : State} {f : Op → Run (List Part)} (h : ∀ op, LeadsKept s0 (f op)) :
    LeadsKept s0 (withOp t s f) := by
  rcases withOp_cases t s f with ⟨op, _, e⟩ | ⟨_, e⟩ <;> rw [e]
  · exact h op
  · exact LeadsKept.raise _ _

theorem LeadsKept.finishPoll (t : Nat) (op : Op) (p : Phase) (res : Result) (s : State) :
    LeadsKept s0 (finishPoll t op p res s) := LeadsKept.reply t res _

/-! The steps of a poll. -/

theorem LeadsKept.pollParts (t : Nat) (op : Op) (s : State) : LeadsKept s0 (pollParts t op s) := by
  cases op with
  | read r =>
    simp only [Machine.pollParts]
    split <;> refine LeadsKept.of_ok ?_ <;> simp [partsKept_armReadParts, partsKept_checkParts]
  | write w =>
    simp only [Machine.pollParts]
    split <;> refine LeadsKept.of_ok ?_ <;> simp [partsKept_armWriteParts, partsKept_checkParts]
  | busWait b => exact LeadsKept.of_ok (partsKept_checkParts _)

theorem LeadsKept.pollPrologue (t : Nat) (s : State) : LeadsKept s0 (pollPrologue t s) :=
  LeadsKept.withOp fun op => by
    simp only
    split
    · exact LeadsKept.raise _ _
    · exact LeadsKept.pollParts t op _

theorem LeadsKept.checkConnected (c : Chan) (h : Half) (b : Bool) (s : State) : LeadsKept s0 (checkConnected c h b s) := by
  simp only [Machine.checkConnected]
  split
  · exact LeadsKept.of_ok (by simp [PartKept])
  · exact LeadsKept.of_ok (partsKept_disableParts _ _ _)

theorem LeadsKept.pollIstr (t : Nat) (s : State) : LeadsKept s0 (pollIstr t s) :=
  LeadsKept.withOp fun op => by
    cases op with
    | read r => exact LeadsKept.checkConnected _ _ _ _
    | write w => exact LeadsKept.checkConnected _ _ _ _
    | busWait b =>
      simp only
      split
      · exact LeadsKept.finishPoll _ _ _ _ _
      · exact LeadsKept.reply _ _ _

theorem LeadsKept.checkTimeout (c : Chan) (h : Half) (timeout start : Option Nat) (s : State) :
    LeadsKept s0 (checkTimeout c h timeout start s) := by
  simp only [Machine.checkTimeout]
  split
  · exact LeadsKept.of_ok (partsKept_disableParts _ _ _)
  · exact LeadsKept.of_ok (by simp [PartKept])

theorem LeadsKept.pollClock (t : Nat) (s : State) : LeadsKept s0 (pollClock t s) :=
  LeadsKept.withOp fun op => by
    cases op with
    | read r => exact LeadsKept.checkTimeout _ _ _ _ _
    | write w => exact LeadsKept.checkTimeout _ _ _ _ _
    | busWait b => exact LeadsKept.raise _ _

theorem LeadsKept.pollInspect (t : Nat) (s : State) : LeadsKept s0 (pollInspect t s) :=
  LeadsKept.withOp fun op => by
    cases op with
    | read r =>
      simp only
      split
      · exact LeadsKept.of_ok (by simp [PartKept])
      · exact LeadsKept.finishPoll _ _ _ _ _
      · exact LeadsKept.reply _ _ _
      · exact LeadsKept.reply _ _ _
    | write w =>
      simp only
      split
      · exact LeadsKept.finishPoll _ _ _ _ _
      · exact LeadsKept.finishPoll _ _ _ _ _
      · exact LeadsKept.reply _ _ _
      · exact LeadsKept.reply _ _ _
    | busWait b => exact LeadsKept.raise _ _

theorem LeadsKept.pollCount (t : Nat) (s : State) : LeadsKept s0 (pollCount t s) :=
  LeadsKept.withOp fun op => by
    cases op with
    | read r =>
      refine LeadsKept.bind fun n s1 => ?_
      split
      · exact LeadsKept.finishPoll _ _ _ _ _
      · exact LeadsKept.of_ok (partsKept_pmReadParts _ _ _ _)
    | write w => exact LeadsKept.raise _ _
    | busWait b => exact LeadsKept.raise _ _

theorem LeadsKept.pollUnpacked (t : Nat) (bytes : List Byte) (s : State) : LeadsKept s0 (pollUnpacked t bytes s) :=
  LeadsKept.withOp fun op => by
    cases op with
    | read r =>
      simp only
      split
      · exact LeadsKept.finishPoll _ _ _ _ _
      · exact LeadsKept.of_ok (by simp [changeReg, PartKept, changesConfig])
    | write w => exact LeadsKept.raise _ _
    | busWait b => exact LeadsKept.raise _ _

/-! The steps of a command. -/

/-- The registers of `s` have the bits of kinds RW and P of those of `s0`. -/
structure RegsKept (s0 s : State) : Prop where
  params : s.params = s0.params
  regs : ∀ c, agreeKept s0.params (readChep s0 c) (readChep s c)

/-- An access that changes no configuration field leads to none that does. -/
theorem LeadsKept.accessStep {t : Nat} {a : Access} {s : State} (ha : PartKept s0 (.access a)) (h : RegsKept s0 s) :
    LeadsKept s0 (accessStep t a s) := by
  cases a with
  | store a n v => exact LeadsKept.bind fun _ _ => LeadsKept.of_ok partsKept_nil
  | readReg c change => exact LeadsKept.of_ok (by simpa [PartKept] using And.intro ha (h.regs c))
  | writeReg c change cur => exact LeadsKept.of_ok partsKept_nil
  | load off k todo n got purpose => exact LeadsKept.bind fun _ _ => LeadsKept.of_ok (partsKept_loadParts _ _ _ _ _ _)
  | claim a => exact ha.elim
  | prologue => exact LeadsKept.pollPrologue t s
  | register sl => exact LeadsKept.of_ok partsKept_nil
  | readIstr => exact LeadsKept.pollIstr t s
  | clock => exact LeadsKept.pollClock t s
  | inspect => exact LeadsKept.pollInspect t s
  | readCount => exact LeadsKept.pollCount t s

/-- Nor does what a task does on its own, but for entering a handle. -/
theorem LeadsKept.ownStep {t : Nat} {o : Own} {s : State} (ho : PartKept s0 (.own o)) : LeadsKept s0 (ownStep t o s) := by
  cases o with
  | raise r => exact LeadsKept.raise _ _
  | reply r => exact LeadsKept.reply _ _ _
  | enter a r => exact ho.elim
  | unpacked bytes purpose =>
    cases purpose with
    | caller => exact LeadsKept.reply _ _ _
    | poll => exact LeadsKept.pollUnpacked t bytes s
  | armed => exact LeadsKept.withOp fun _ => LeadsKept.of_ok partsKept_nil
  | fail e => exact LeadsKept.withOp fun _ => LeadsKept.finishPoll _ _ _ _ _
  | rearmed => exact LeadsKept.withOp fun _ => LeadsKept.reply _ _ _

/-- The commands that set no configuration field. -/
def keepsConfig (i : Instr) : Prop :=
  (∀ ch etype dev, i ≠ .crInit ch etype dev) ∧ (∀ ch d etype dev mps, i ≠ .chClaim ch d etype dev mps) ∧
  ∀ dev mps, i ≠ .chReconf0 dev mps

/-- What such a command has to do as it is begun. -/
theorem LeadsKept.begin {i : Instr} (hi : keepsConfig i) (o : Side) (s : State) : LeadsKept s0 (begin i o s) := by
  have stores : ∀ {ps : List Part} {s : State}, storesOrFaults ps = true → LeadsKept s0 (.ok (ps ++ [replyUnit]) s) :=
    fun h => LeadsKept.of_ok (by simp [partsKept_storesOrFaults h, replyUnit, PartKept])
  have change : ∀ {c : Chan} {ch : RegChange} {s : State}, changesConfig ch = false →
      LeadsKept s0 (.ok [changeReg c ch, replyUnit] s) :=
    fun h => LeadsKept.of_ok (by simp [changeReg, h, replyUnit, PartKept])
  cases i with
  | pmAlloc => exact LeadsKept.bind fun r _ => by cases r <;> exact LeadsKept.reply _ _ _
  | bdEnc | bdRxlen | epRead => exact LeadsKept.bind fun _ _ => LeadsKept.reply _ _ _
  | pmReset | bdDec | crRead | crCanon => exact LeadsKept.reply _ _ _
  | bdProgrx => exact stores (storesOrFaults_progRx _ _ _ _)
  | bdProgtx => exact stores (storesOrFaults_progTx _ _ _ _)
  | pmWrite => exact stores (storesOrFaults_pmWrite _ _ _)
  | pmRead => exact LeadsKept.of_ok (partsKept_pmReadParts _ _ _ _)
  | crSetstat | crClrctr | crClrerr | crTouch => exact change rfl
  | irqDispatch => exact LeadsKept.of_ok partsKept_nil
  | epPoll => exact LeadsKept.of_ok (by simp [PartKept])
  | epWrite =>
    refine LeadsKept.bind fun _ _ => ?_
    split
    · exact LeadsKept.raise _ _
    · split
      · exact LeadsKept.raise _ _
      · exact LeadsKept.reply _ _ _
  | busWait =>
    simp only [Machine.begin, beginBusWait]
    split
    · exact LeadsKept.raise _ _
    · exact LeadsKept.reply _ _ _
  | chDrop =>
    simp only [Machine.begin, beginChDrop]
    split
    · exact LeadsKept.raise _ _
    · split
      · exact LeadsKept.raise _ _
      · exact LeadsKept.reply _ _ _
  | crInit ch etype dev => exact absurd rfl (hi.1 ch etype dev)
  | chClaim ch d etype dev mps => exact absurd rfl (hi.2.1 ch d etype dev mps)
  | chReconf0 dev mps => exact absurd rfl (hi.2.2 dev mps)

end Sys2Proof.Machine
end

