-- ==== Sys2Proof/Proofs/ReservedBits.lean ====
section
/-! PROOFS. The bits of the registers that steps leave alone: the `OTHER` bits of `ISTR` (10_state.md R48) and of the channel
registers (R39), and the configuration fields (R38). -/

namespace Sys2Proof.Machine

/-! The `OTHER` bits. -/

/-- The clause of R48 bit by bit. -/
theorem istrOthersZero_iff (s : State) :
    istrOthersZero s ↔ ∀ i, s.istr.getLsbD i = true → (latchMask s.params).getLsbD i = true := by
  constructor
  · intro h i hi
    have hlt : i < 32 := BitVec.lt_of_getLsbD hi
    have hz := congrArg (BitVec.getLsbD · i) h
    simpa [BitVec.getLsbD_and, BitVec.getLsbD_not, hi, hlt] using hz
  · intro h
    apply BitVec.eq_of_getLsbD_eq
    intro i hlt
    have hz : BitVec.getLsbD (0 : Word32) i = false := BitVec.getLsbD_zero
    rw [BitVec.getLsbD_and, BitVec.getLsbD_not, hz]
    cases hi : s.istr.getLsbD i
    · rfl
    · simp [h i hi]

/-- No step sets a bit of `ISTR` that is no named latch (10_state.md R48). -/
theorem Forward.istrOthersZero {s s' : State} (h : Forward s s') (hz : istrOthersZero s) : istrOthersZero s' := by
  rw [istrOthersZero_iff] at hz ⊢
  intro i hi
  rw [h.params]
  exact (h.istr i hi).elim (hz i) id

theorem othersKept_choiceClosed {s0 : State} (hl : chepLayoutWf s0.params.chep = true) :
    ChoiceClosed (fun _ => True) (OthersKept s0) :=
  (others_closed hl).choiceClosed (fun _ _ _ h => h.transfer rfl rfl) (fun _ _ _ h => h.transfer rfl rfl)
    fun _ _ _ _ h => h.transfer rfl rfl

/-- The `OTHER` bits of the registers, and of what the tasks have read of them, are kept together by every step. -/
theorem step_othersKept {s s' : State} (hl : chepLayoutWf s.params.chep = true) (hr : readsAgree s)
    (e : step s = .next s') : OthersKept s (partsOf s') s' :=
  (othersKept_choiceClosed hl).step_of_all ⟨rfl, fun _ => rfl, hr⟩ e

theorem OthersKept.readsAgree {s0 s : State} (h : OthersKept s0 (partsOf s) s) : readsAgree s :=
  fun t c change cur hm => by rw [h.params, h.reads t c change cur hm, h.regs c]

/-! Values that agree on every bit of kinds RW and P. -/

/-- They have the same bits of both kinds. -/
theorem kept_eq_of_agree {p : Params} (h : chepLayoutWf p.chep = true) {a b : Word32} (ha : agreeKept p a b) :
    a &&& (rwMask p.chep ||| pMask p.chep) = b &&& (rwMask p.chep ||| pMask p.chep) := by
  apply BitVec.eq_of_getLsbD_eq
  intro i hi
  rw [BitVec.getLsbD_and, BitVec.getLsbD_and, getLsbD_keptMask h hi]
  cases ht : isToggle p.chep i
  · cases hc : isClear p.chep i
    · rw [ha i hi ht hc]
    · simp
  · simp

/-- They have the same configuration fields. -/
theorem config_eq_of_agree {p : Params} (h : chepLayoutWf p.chep = true) {a b : Word32} (ha : agreeKept p a b) :
    a &&& rwMask p.chep = b &&& rwMask p.chep := by
  have hsub : (rwMask p.chep ||| pMask p.chep) &&& rwMask p.chep = rwMask p.chep := by
    apply BitVec.eq_of_getLsbD_eq
    intro i _
    rw [BitVec.getLsbD_and, BitVec.getLsbD_or]
    cases (rwMask p.chep).getLsbD i <;> simp
  rw [← hsub, ← BitVec.and_assoc, ← BitVec.and_assoc, kept_eq_of_agree h ha]

/-- A read-modify-write that sets no configuration field gives the register the bits of kinds RW and P that were read
(44_channel_register.md R190, R199). -/
theorem agreeKept_changeWord {p : Params} (h : chepLayoutWf p.chep = true) (c : Chan) (old cur : Word32)
    {change : RegChange} (hc : changesConfig change = false) :
    agreeKept p cur (hwWriteChep p old (changeWord p c cur change)) := by
  have hold := hwWriteChep_kept h old (changeWord p c cur change)
  have hcur := hwWriteChep_kept h cur (changeWord p c cur change)
  refine agreeKept_trans ?_ (agreeKept_trans hcur (agreeKept_symm hold))
  have ha := agreeKept_refl p cur
  cases change with
  | setStatus hf target =>
    rw [changeWord, hwWriteChep_setstatWord h hf target ha]
    exact agreeKept_fieldPut _ _ _ fun _ hi => .inl (inField_statField hf hi)
  | clearComplete fs =>
    rw [changeWord, hwWriteChep_clrctrWord h fs ha]
    exact agreeKept_clear _ _ (fun hf i => inField_ctrField hf) _ _
  | clearError fs =>
    rw [changeWord, hwWriteChep_clrerrWord h fs ha]
    exact agreeKept_clear _ _ (fun hf i => inField_errField hf) _ _
  | touch =>
    rw [changeWord, hwWriteChep_canon h ha]
    exact ha
  | init etype dev => cases hc

/-! Commands that set no configuration field. -/

variable {s0 : State}

theorem RegsKept.refl (s : State) : RegsKept s s := ⟨rfl, fun _ => agreeKept_refl _ _⟩

/-- A change of nothing but what the property does not read. -/
theorem RegsKept.transfer {s s' : State} (h : RegsKept s0 s) (hp : s'.params = s.params) (hc : s'.chep = s.chep) :
    RegsKept s0 s' := ⟨hp.trans h.params, fun c => by
  rw [show readChep s' c = readChep s c by simp [readChep, hc]]
  exact h.regs c⟩

/-- The environment and the dispatcher change no bit of kinds RW and P (48_peripheral.md R275). -/
theorem RegsKept.quiet {s s' : State} (hl : chepLayoutWf s0.params.chep = true) (h : RegsKept s0 s) (q : Quiet s s') :
    RegsKept s0 s' := ⟨q.params.trans h.params, fun c => by
  have hk := q.kept (by rw [h.params]; exact hl) c
  rw [h.params] at hk
  exact agreeKept_trans (h.regs c) hk⟩

/-- A run on a task's own record changes no register. -/
theorem RegsKept.record {t : Nat} {s : State} {r : Run (List Part)} (h : RegsKept s0 s) (hr : RecordRun t s r) :
    RegsKept s0 r.state := by
  cases r with
  | ok ps s1 =>
    have hrec := (hr.ok ps s1 rfl).1
    exact h.transfer hrec.params hrec.chep
  | halt s1 =>
    obtain ⟨f, s2, hrec, rfl⟩ := hr.halt s1 rfl
    exact h.transfer hrec.params hrec.chep

theorem RegsKept.accessStep {t : Nat} {a : Access} {s : State} (hl : chepLayoutWf s0.params.chep = true)
    (ha : PartKept s0 (.access a)) (h : RegsKept s0 s) : RegsKept s0 (accessStep t a s).state := by
  by_cases hr : recordAccess a = true
  · exact h.record (RecordRun.accessStep (t := t) hr s)
  · cases a with
    | store a n v =>
      rcases storeStep_cases a n v s with ⟨e, _⟩ | ⟨r, e⟩ <;> rw [Machine.accessStep, e] <;> exact h.transfer rfl rfl
    | readReg c change => exact h
    | writeReg c change cur =>
      obtain ⟨hc, hcur⟩ := ha
      refine ⟨h.params, fun c' => ?_⟩
      change agreeKept _ _ (readChep (setChep s c _) c')
      rw [readChep_setChep]
      split
      · rename_i e
        rw [e, h.params]
        exact agreeKept_trans hcur (agreeKept_changeWord hl c _ cur hc)
      · exact h.regs c'
    | claim a => exact ha.elim
    | _ => exact absurd rfl hr

theorem RegsKept.ownStep {t : Nat} {o : Own} {s : State} (ho : PartKept s0 (.own o)) (h : RegsKept s0 s) :
    RegsKept s0 (ownStep t o s).state := by
  have hc : claimPart (.own o) = false := by
    cases o with
    | enter a r => exact ho.elim
    | _ => rfl
  exact h.record (RecordRun.ownStep (t := t) hc s)

theorem RegsKept.begin {i : Instr} (hi : keepsConfig i) (o : Side) {s : State} (h : RegsKept s0 s) :
    RegsKept s0 (begin i o s).state := by
  by_cases hm : mildBegin i = true
  · exact h.record (RecordRun.begin hm o s)
  · cases i <;> try exact absurd rfl hm
    case pmAlloc n =>
      simp only [Machine.begin, beginPmAlloc]
      rcases pmAlloc_cases n s with ⟨r, e⟩ | e | ⟨e, _, _⟩ <;> rw [e] <;> exact h.transfer rfl rfl
    case pmReset => exact h.transfer rfl rfl
    case chReconf0 dev mps => exact absurd rfl (hi.2.2 dev mps)
    case chDrop ch d =>
      simp only [Machine.begin, beginChDrop]
      split
      · exact h.transfer rfl rfl
      · split
        · exact h.transfer rfl rfl
        · exact h.transfer (by simp [reply]) (by simp [reply])

/-- The registers keep the bits of kinds RW and P of `s0`, and nothing that is left to do changes them. -/
def ConfigKept (s0 : State) : LeftProp := fun left s => RegsKept s0 s ∧ ∀ u, PartsKept s0 (left u)

theorem ConfigKept.adds {left : Nat → List Part} {t : Nat} {s : State} {r : Run (List Part)} (h : ConfigKept s0 left s)
    (hs : RegsKept s0 r.state) (hm : LeadsKept s0 r) : Adds (ConfigKept s0) left t r := by
  refine ⟨⟨hs, h.2⟩, fun more s' e => ⟨by rw [e] at hs; exact hs, fun u => ?_⟩⟩
  rw [Function.update_apply]
  split
  · exact partsKept_append.mpr ⟨hm more s' e, h.2 t⟩
  · exact h.2 u

/-- Every single step of commands that set no configuration field, and every step of the other agents. -/
theorem configKept_closed (hl : chepLayoutWf s0.params.chep = true) : GrowClosed keepsConfig (ConfigKept s0) where
  anti := fun _ _ _ hsub h => ⟨h.1, fun u p hp => h.2 u p (hsub u p hp)⟩
  quiet := fun _ _ _ hr h => ⟨h.1.quiet hl hr.quiet, h.2⟩
  put := fun _ _ _ _ h => ⟨h.1.transfer rfl rfl, h.2⟩
  slots := fun _ _ _ h => ⟨h.1.transfer rfl rfl, h.2⟩
  report := fun _ _ _ _ h => ⟨h.1.transfer rfl rfl, h.2⟩
  access := fun _ _ t _ ha h => h.adds (h.1.accessStep hl (h.2 t _ ha)) (LeadsKept.accessStep (h.2 t _ ha) h.1)
  own := fun _ _ t _ ho h => h.adds (h.1.ownStep (h.2 t _ ho)) (LeadsKept.ownStep (h.2 t _ ho))
  begin := fun _ s _ o hi h => h.adds (h.1.begin hi o) (LeadsKept.begin hi o s)

/-- Where no task steps at the points, only the dispatcher and the environment do (20_memory.md R89). -/
theorem noTaskSteps_agent {s : State} (h : noTaskSteps s) {es : List Event} (hes : es ∈ s.slots) {e : Event} (he : e ∈ es) :
    (∃ x, e = .env x) ∨ ∃ between, e = .irq between := by
  have hk := h es hes e he
  cases e with
  | env x => exact .inl ⟨x, rfl⟩
  | irq between => exact .inr ⟨between, rfl⟩
  | start c => exact hk.elim
  | resume t => exact hk.elim

theorem QuietRun.eventSteps (b : Option Nat) {es : List Event}
    (h : ∀ e ∈ es, (∃ x, e = .env x) ∨ ∃ between, e = .irq between) (s : State) : QuietRun s (eventSteps b es s) := by
  induction es generalizing s with
  | nil => exact QuietRun.of_ok () (Quiet.refl s) rfl
  | cons e rest ih =>
    refine QuietRun.bind ?_ fun _ s1 _ => ih (fun e he => h e (by simp [he])) s1
    rcases h e (by simp) with ⟨x, rfl⟩ | ⟨between, rfl⟩
    · exact QuietRun.envEvent b x s
    · exact QuietRun.irqEvent b between s

/-- A point at which no task steps. -/
theorem RegsKept.taskPoint {s : State} (hl : chepLayoutWf s0.params.chep = true) (hn : noTaskSteps s)
    (h : RegsKept s0 s) : RegsKept s0 (taskPoint s).state ∧ noTaskSteps (taskPoint s).state := by
  simp only [Machine.taskPoint]
  cases hs : s.slots with
  | nil => exact ⟨h, hn⟩
  | cons es rest =>
    have hq := QuietRun.eventSteps (some s.task) (es := es) (fun e he => noTaskSteps_agent hn (by simp [hs]) he)
      { s with slots := rest }
    refine ⟨RegsKept.quiet hl (h.transfer rfl rfl : RegsKept s0 { s with slots := rest }) hq.quiet, ?_⟩
    simp only [noTaskSteps, hq.quiet.slots]
    exact fun fs hfs => hn fs (by simp [hs, hfs])

/-- The next step of a command of which only such parts are left. -/
theorem RegsKept.advance {t : Nat} {ps : List Part} {s : State} (hl : chepLayoutWf s0.params.chep = true)
    (h : RegsKept s0 s) (hp : PartsKept s0 ps) :
    RegsKept s0 (advance t ps s).state ∧ LeadsKept s0 (advance t ps s) := by
  have ha := advance_grow (configKept_closed hl) (t := t) (ps := ps) (left := fun _ => ps) (fun _ h => h) ⟨h, fun _ => hp⟩
  refine ⟨ha.1.1, fun qs s' e => ?_⟩
  have hq := (ha.2 qs s' e).2 t
  rwa [Function.update_self] at hq

/-- The first step of a command that sets no configuration field. -/
theorem RegsKept.firstStep {i : Instr} {s : State} (hl : chepLayoutWf s0.params.chep = true) (hi : keepsConfig i)
    (o : Side) (h : RegsKept s0 s) :
    RegsKept s0 (firstStep o.task (Machine.begin i o s)).state ∧
      LeadsKept s0 (firstStep o.task (Machine.begin i o s)) := by
  have hb := h.begin hi o
  have hlead := LeadsKept.begin (s0 := s0) hi o s
  simp only [Machine.firstStep]
  cases e : Machine.begin i o s with
  | halt s1 => rw [e] at hb; exact ⟨hb, fun _ _ e => by cases e⟩
  | ok ps s1 => rw [e] at hb hlead; exact hb.advance hl (hlead ps s1 rfl)

/-- The rest of such a command, while no other task steps within it. -/
theorem RegsKept.finish {fuel : Nat} {ps : List Part} {s : State} (hl : chepLayoutWf s0.params.chep = true)
    (hn : noTaskSteps s) (h : RegsKept s0 s) (hp : PartsKept s0 ps) : RegsKept s0 (finish fuel ps s).state := by
  induction fuel generalizing ps s with
  | zero => exact h
  | succ n ih =>
    cases ps with
    | nil => exact h
    | cons p rest =>
      obtain ⟨h1, hn1⟩ := h.taskPoint hl hn
      refine Run.state_bind (fun s1 e1 => ?_) fun _ s1 e1 => ?_ <;> rw [e1] at h1 hn1
      · exact h1
      · rw [Run.state_ok] at h1 hn1
        obtain ⟨h2, hq⟩ := RegsKept.advance (t := s1.task) hl h1 hp
        have hslots := (TaskRun.advance s1.task (p :: rest) s1).steady.slots
        refine Run.state_bind (fun s2 e2 => ?_) fun qs s2 e2 => ?_ <;> rw [e2] at h2 hslots
        · exact h2
        · exact ih (fun es hes => hn1 es (hslots ▸ hes)) h2 (hq qs s2 e2)

/-- A command that sets no configuration field, while no other task steps within it (10_state.md R38). -/
theorem exec_regsKept {i : Instr} {s s' : State} (hl : chepLayoutWf s.params.chep = true) (hn : noTaskSteps s)
    (hi : keepsConfig i) (e : exec i s = .next s') : RegsKept s s' := by
  by_cases hirq : i = .irqDispatch
  · subst hirq
    have hq := (RegsKept.refl s).quiet hl (QuietRun.dispatch s).quiet
    simp only [exec, execIrqDispatch] at e
    cases hd : dispatch s <;> rw [hd] at e hq <;> cases e
    · exact hq.transfer rfl rfl
    · exact hq
  · rw [exec_eq_runCommand hirq, runCommand_eq] at e
    cases e
    have hsteady := (TaskRun.firstStep i (sideOf s) s).steady
    have hfirst := (RegsKept.refl s).firstStep hl hi (sideOf s)
    simp only [show (sideOf s).task = s.task from rfl] at hsteady hfirst
    refine Run.state_bind (fun s1 e1 => ?_) fun ps s1 e1 => ?_
    · rw [e1] at hfirst
      exact hfirst.1
    · rw [e1] at hfirst hsteady
      have hslots : s1.slots = s.slots := hsteady.slots
      exact hfirst.1.finish hl (fun es hes => hn es (hslots ▸ hes)) (hfirst.2 ps s1 rfl)

/-- A step of the environment on its own changes no bit of kinds RW and P (48_peripheral.md R275). -/
theorem step_env_regsKept {s : State} {x : EnvStep} {rest : List Input} (hl : chepLayoutWf s.params.chep = true)
    (hf : s.fault = none) (hin : s.inputs = .event (.env x) :: rest) : ∃ s', step s = .next s' ∧ RegsKept s s' := by
  refine ⟨(envStep x (takeInput rest s)).state, by simp [step, hf, fetch, hin, fetchEvent, eventStep], ?_⟩
  have htake : RegsKept s (takeInput rest s) := (RegsKept.refl s).transfer rfl rfl
  exact htake.quiet hl (QuietRun.envStep x (takeInput rest s)).quiet

/-- Settles O59: the `OTHER` bits under every interleaving, the configuration fields where only the dispatcher and the
environment step within the command, and the environment's own steps. -/
theorem stepKeepsReservedBits : Obligations.StepKeepsReservedBits := by
  refine ⟨fun s s' hz e => (step_forward e).istrOthersZero hz, fun s s' hl hr e => ?_,
    fun i s s' hl hn e hinit hclaim hreconf c => ?_, fun s x rest hl hf hin => ?_⟩
  · have h := step_othersKept hl hr e
    exact ⟨h.readsAgree, h.regs⟩
  · exact (config_eq_of_agree hl ((exec_regsKept hl hn ⟨hinit, hclaim, hreconf⟩ e).regs c)).symm
  · obtain ⟨s', e, h⟩ := step_env_regsKept hl hf hin
    exact ⟨s', e, fun c => (kept_eq_of_agree hl (h.regs c)).symm⟩

end Sys2Proof.Machine
end

