-- ==== Sys2Proof/Proofs/Memory.lean ====
section
/-! PROOFS. The single accesses of packet memory (20_memory.md R83, R86, R90): which fault an access raises, the bytes of
the number a read returns, and that a number stored is read back. -/

namespace Sys2Proof.Machine

/-! The faults, in the model's order (notes/assumptions/14.md). -/

theorem accessFault_misaligned {s : State} {a n : Nat} (h : a % n ≠ 0) : accessFault s a n = some .misaligned :=
  if_pos h

theorem accessFault_pmaBounds {s : State} {a n : Nat} (h1 : a % n = 0) (h2 : s.params.pmaBytes < a + n) :
    accessFault s a n = some .pmaBounds := by
  simp [accessFault, h1, h2]

theorem memRead_fault {s : State} {a n : Nat} {r : Fault} (h : accessFault s a n = some r) :
    memRead a n s = raise r s := by
  simp [memRead, h]

theorem memWrite_fault {s : State} {a n v : Nat} {r : Fault} (h : accessFault s a n = some r) :
    memWrite a n v s = raise r s := by
  simp [memWrite, h]

/-! The bytes. -/

theorem leNat_pmaBytesAt_lt (s : State) (a n : Nat) : leNat (pmaBytesAt s a n) < 256 ^ n := by
  simpa using leNat_lt (pmaBytesAt s a n)

/-- The bytes of the number a read returns are those of packet memory, least significant first. -/
theorem byte_leNat_pmaBytesAt {s : State} {a n j : Nat} (hj : j < n) :
    BitVec.ofNat 8 (leNat (pmaBytesAt s a n) / 256 ^ j) = pmaByte s (a + j) := by
  have hlen : j < (pmaBytesAt s a n).length := by simpa using hj
  rw [← leBytes_getElem n _ j (by simpa using hj), ← pmaBytesAt_getElem s a n j hlen]
  simp only [leBytes_pmaBytesAt]

/-- Every byte of a number stored. -/
theorem pmaByte_pokePma_leBytes {s : State} {a n v j : Nat} (hj : j < n) :
    pmaByte (pokePma s a (leBytes n v)) (a + j) = BitVec.ofNat 8 (v / 256 ^ j) := by
  have hlen : j < (leBytes n v).length := by simpa using hj
  rw [pmaByte_pokePma_inside s a _ j hlen, leBytes_getElem]

/-- A read after a store of the same width at the same offset returns the number stored, at that width (R83). -/
theorem memRead_pokePma_leBytes {s : State} {a n v : Nat} (h1 : a % n = 0) (h2 : a + n ≤ s.params.pmaBytes) :
    memRead a n (pokePma s a (leBytes n v)) = .ok (v % 256 ^ n) (pokePma s a (leBytes n v)) := by
  have hbytes : pmaBytesAt (pokePma s a (leBytes n v)) a n = leBytes n v := by
    simpa using pmaBytesAt_pokePma s a (leBytes n v)
  rw [memRead_ok h1 (by simpa using h2), hbytes, leNat_leBytes]

/-- Settles O8: the two faults, then the read and the store of an access that raises neither. -/
theorem memoryAccess : Obligations.MemoryAccess := by
  refine fun s a n v => ⟨fun hmis => ?_, fun hal hpast => ?_, fun hal hin => ⟨?_, ?_⟩⟩
  · have hf := accessFault_misaligned (s := s) hmis
    exact ⟨memRead_fault hf, memWrite_fault hf⟩
  · have hf := accessFault_pmaBounds hal hpast
    exact ⟨memRead_fault hf, memWrite_fault hf⟩
  · exact ⟨_, memRead_ok hal hin, leNat_pmaBytesAt_lt s a n, fun _ => byte_leNat_pmaBytesAt⟩
  · exact ⟨_, memWrite_ok hal hin, rfl, fun _ => pmaByte_pokePma_leBytes,
      fun k hk => pmaByte_pokePma_outside s a _ k (by simpa using hk), memRead_pokePma_leBytes hal hin⟩

end Sys2Proof.Machine
end

