-- ==== Sys2Proof/Proofs/Encoding.lean ====
section
/-! PROOFS. The encoder and the decoder are inverse to each other (30_encoding.md R111, R112, R127): on operands, on the fields
of a word, and on words. -/

namespace Sys2Proof.Laws

open Sys2Proof.Machine

/-! The operand forms (30_encoding.md R112, R119, R120): the number of an operand and the operand of a number are inverse. -/

@[simp] theorem dirOf_dirCode (d : Dir) : dirOf (dirCode d) = d := by cases d <;> rfl

@[simp] theorem statusOf_statusCode (st : Status) : statusOf (statusCode st) = st := by cases st <;> rfl

@[simp] theorem etypeOf_etypeCode (e : EType) : etypeOf (etypeCode e) = e := by cases e <;> rfl

@[simp] theorem busOf_busCode (b : BusState) : busOf (busCode b) = b := by cases b <;> rfl

@[simp] theorem chanOf_val (c : Chan) : chanOf c.val = c := Fin.ext (Nat.mod_eq_of_lt c.isLt)

@[simp] theorem flagsOf_flagsCode (fs : FlagSet) : flagsOf (flagsCode fs) = fs := by
  obtain ⟨r, t⟩ := fs
  cases r <;> cases t <;> rfl

theorem regionOf_regionCode {r : Region} (h : r.wf = true) : regionOf (regionCode r) = r := by
  obtain ⟨off, len⟩ := r
  simp only [Region.wf, Bool.and_eq_true, decide_eq_true_eq] at h
  simp only [regionOf, regionCode, Region.mk.injEq]
  omega

theorem dirCode_dirOf : ∀ n < 2, dirCode (dirOf n) = n := by decide

theorem statusCode_statusOf : ∀ n < 4, statusCode (statusOf n) = n := by decide

theorem etypeCode_etypeOf : ∀ n < 4, etypeCode (etypeOf n) = n := by decide

theorem busCode_busOf : ∀ n < 2, busCode (busOf n) = n := by decide

theorem flagsCode_flagsOf : ∀ n < 4, flagsCode (flagsOf n) = n := by decide

theorem val_chanOf {n : Nat} (h : n < 8) : (chanOf n).val = n := Nat.mod_eq_of_lt h

theorem regionCode_regionOf {n : Nat} (h : n < 2 ^ 32) : regionCode (regionOf n) = n := by
  simp only [regionCode, regionOf]
  omega

@[simp] theorem regionOf_wf (n : Nat) : (regionOf n).wf = true := by
  simp [Region.wf, regionOf, Nat.mod_lt]

/-! The fields of a word. -/

theorem fieldsOf_inRange (w : Word64) : FieldsInRange (fieldsOf w) := by
  simp only [FieldsInRange, fieldsOf]
  omega

/-- The seven fields are all the bits of the word (30_encoding.md R111). -/
theorem wordOfFields_fieldsOf (w : Word64) : wordOfFields (fieldsOf w) = w := by
  have hw := w.isLt
  apply BitVec.eq_of_toNat_eq
  simp only [wordOfFields, fieldsOf, BitVec.toNat_ofNat]
  omega

theorem fieldsFit (i : Instr) : FieldsFit.Statement i := by
  cases i with
  | pmAlloc length => exact FieldsFit.pmAlloc length
  | pmReset => exact FieldsFit.pmReset
  | bdEnc len => exact FieldsFit.bdEnc len
  | bdDec code => exact FieldsFit.bdDec code
  | bdProgrx ch mps region => exact FieldsFit.bdProgrx ch mps region
  | bdProgtx ch count region => exact FieldsFit.bdProgtx ch count region
  | bdRxlen ch => exact FieldsFit.bdRxlen ch
  | pmWrite region => exact FieldsFit.pmWrite region
  | pmRead n region => exact FieldsFit.pmRead n region
  | crRead ch => exact FieldsFit.crRead ch
  | crCanon value => exact FieldsFit.crCanon value
  | crSetstat ch dir target => exact FieldsFit.crSetstat ch dir target
  | crClrctr ch flags => exact FieldsFit.crClrctr ch flags
  | crClrerr ch flags => exact FieldsFit.crClrerr ch flags
  | crInit ch etype devaddr => exact FieldsFit.crInit ch etype devaddr
  | crTouch ch => exact FieldsFit.crTouch ch
  | irqDispatch => exact FieldsFit.irqDispatch
  | epRead ch n => exact FieldsFit.epRead ch n
  | epWrite ch => exact FieldsFit.epWrite ch
  | epPoll => exact FieldsFit.epPoll
  | busWait target => exact FieldsFit.busWait target
  | chClaim ch dir etype devaddr mps => exact FieldsFit.chClaim ch dir etype devaddr mps
  | chReconf0 devaddr mps => exact FieldsFit.chReconf0 devaddr mps
  | chDrop ch dir => exact FieldsFit.chDrop ch dir

/-- The fields of a well-formed instruction's word are the instruction's. -/
theorem fieldsOf_encode {i : Instr} (h : i.wf = true) : fieldsOf (encode i) = encodeFields i :=
  fieldsOf_wordOfFields (fieldsFit i h)

/-! The decoder and the encoder, on the fields. -/

theorem acceptWhen_eq_ok_iff {b : Bool} {op : Nat} {i j : Instr} : acceptWhen b op i = .ok j ↔ b = true ∧ i = j := by
  cases b <;> simp [acceptWhen]

/-- The same of a row that asks for a direction as well (30_encoding.md R114). -/
theorem guarded_acceptWhen_eq_ok_iff {p : Prop} [Decidable p] {b : Bool} {op : Nat} {i j : Instr} {e : DecodeError} :
    (if p then acceptWhen b op i else .error e) = .ok j ↔ (p ∧ b = true) ∧ i = j := by
  by_cases h : p <;> simp [h, acceptWhen_eq_ok_iff]

/-- An operand that shares its field with reserved bits fits the bits its row leaves it; every other operand is read back as
it was put in. -/
theorem decodeFields_encodeFields {i : Instr} (h : i.wf = true) : decodeFields (encodeFields i) = .ok i := by
  cases i with
  | pmAlloc | bdProgrx | bdProgtx | pmWrite | pmRead =>
    simp_all [Instr.wf, decodeFields, encodeFields, acceptWhen_eq_ok_iff, regionOf_regionCode]
  | bdDec code => simp [decodeFields, encodeFields, acceptWhen_eq_ok_iff, code.isLt]
  | crSetstat ch dir target => simp [decodeFields, encodeFields, acceptWhen_eq_ok_iff, statusCode_lt target]
  | crClrctr ch flags => simp [decodeFields, encodeFields, acceptWhen_eq_ok_iff, flagsCode_lt flags]
  | crClrerr ch flags => simp [decodeFields, encodeFields, acceptWhen_eq_ok_iff, flagsCode_lt flags]
  | busWait target => simp [decodeFields, encodeFields, acceptWhen_eq_ok_iff, busCode_lt target]
  | _ => simp [decodeFields, encodeFields, acceptWhen_eq_ok_iff]

/-- In each row the fields that are not used are zero, and the others are the codes of the operands read from them. -/
theorem encodeFields_of_decodeFields {f : Fields} {i : Instr} (hf : FieldsInRange f) (h : decodeFields f = .ok i) :
    encodeFields i = f ∧ i.wf = true := by
  obtain ⟨op, ch, dir, etype, devaddr, len, arg⟩ := f
  obtain ⟨-, hch, hdir, hetype, hdev, hlen, harg⟩ := hf
  simp only at hch hdir hetype hdev hlen harg
  simp only [decodeFields] at h
  split at h
  case h_25 => cases h -- an `OP` value of no row
  all_goals
    simp only [guarded_acceptWhen_eq_ok_iff, acceptWhen_eq_ok_iff, Bool.and_eq_true, beq_iff_eq, decide_eq_true_eq] at h
    obtain ⟨hzero, rfl⟩ := h
    simp_all [encodeFields, Instr.wf, val_chanOf, dirCode_dirOf, statusCode_statusOf, etypeCode_etypeOf, busCode_busOf,
      flagsCode_flagsOf, regionCode_regionOf]

/-! On words. -/

theorem decode_encode {i : Instr} (h : i.wf = true) : decode (encode i) = .ok i := by
  rw [decode, fieldsOf_encode h, decodeFields_encodeFields h]

theorem wf_of_decode {w : Word64} {i : Instr} (h : decode w = .ok i) : i.wf = true :=
  (encodeFields_of_decodeFields (fieldsOf_inRange w) h).2

theorem fieldsOf_of_decode {w : Word64} {i : Instr} (h : decode w = .ok i) : fieldsOf w = encodeFields i :=
  (encodeFields_of_decodeFields (fieldsOf_inRange w) h).1.symm

theorem encode_of_decode {w : Word64} {i : Instr} (h : decode w = .ok i) : encode i = w := by
  rw [encode, ← fieldsOf_of_decode h, wordOfFields_fieldsOf]

/-- Settles O1: the fields of the word are the instruction's, and they decode to it. -/
theorem decodeOfEncode : Obligations.DecodeOfEncode := fun _ h => decode_encode h

/-- Settles O2: the word's fields are those of the instruction they decode to, and a word is its fields. -/
theorem encodeOfDecode : Obligations.EncodeOfDecode := fun _ _ h => ⟨encode_of_decode h, wf_of_decode h⟩

end Sys2Proof.Laws
end

