-- ==== Sys2Proof/Proofs/Choice.lean ====
section
/-! PROOFS. What `step` makes of the next choice, one rule per kind of choice (10_state.md R69, 30_encoding.md R114, R130). -/

namespace Sys2Proof.Machine

/-! What an issued code asks for. -/

theorem issued_word_ok {w : Word64} {i : Instr} (h : decode w = .ok i) : issued (.word w) = .instr i := by
  simp only [issued, h]

theorem issued_word_error {w : Word64} {e : DecodeError} (h : decode w = .error e) : issued (.word w) = .invalid w := by
  simp only [issued, h]

theorem issued_pseudo_ok {p : Pseudo} {i : Instr} (h : expandPseudo p = .ok i) : issued (.pseudo p) = .instr i := by
  simp only [issued, h]

theorem issued_pseudo_error {p : Pseudo} {r : Fault} (h : expandPseudo p = .error r) : issued (.pseudo p) = .fault r := by
  simp only [issued, h]

/-- Only a word is refused; a pseudo-instruction never is. -/
theorem issued_ne_invalid {code : Code} (h : ∀ w, code = .word w → ∃ i, decode w = .ok i) (v : Word64) :
    issued code ≠ .invalid v := by
  cases code with
  | word w =>
    obtain ⟨i, hi⟩ := h w rfl
    simp [issued_word_ok hi]
  | pseudo p => cases hp : expandPseudo p <;> simp [issued, hp]

theorem expandAlloc_ok {addr : Byte} (h : addr.toNat % 16 < 8) (d : Dir) (etype : EType) (devaddr mps : Nat) :
    expandAlloc addr d etype devaddr mps = .ok (.chClaim ⟨addr.toNat % 16, h⟩ d etype devaddr mps) := dif_pos h

theorem expandAlloc_badIndex {addr : Byte} (h : ¬ addr.toNat % 16 < 8) (d : Dir) (etype : EType) (devaddr mps : Nat) :
    expandAlloc addr d etype devaddr mps = .error .badIndex := dif_neg h

/-! A step whose choice is a command. -/

section
variable {s : State} {c : Command} {rest : List Input}

theorem hasCommand_eq_false_iff {t : Nat} : hasCommand s t = false ↔ partsOf s t = [] := by simp [hasCommand]

theorem step_instr {i : Instr} (hf : s.fault = none) (hin : s.inputs = .command c :: rest) (hi : issued c.code = .instr i)
    (free : i = .irqDispatch ∨ partsOf s c.task = []) : step s = exec i (loadCommand c (takeInput rest s)) := by
  have hbusy : ¬ (i ≠ .irqDispatch ∧ hasCommand (takeInput rest s) c.task = true) := by
    rintro ⟨hne, hb⟩
    exact of_decide_eq_true hb (free.resolve_left hne)
  simp only [step, hf, fetch, hin, fetchCommand, hi, fetchInstr, if_neg hbusy]

theorem step_busy {i : Instr} (hf : s.fault = none) (hin : s.inputs = .command c :: rest) (hi : issued c.code = .instr i)
    (hne : i ≠ .irqDispatch) (busy : partsOf s c.task ≠ []) : step s = .next (takeInput rest s) := by
  have hbusy : i ≠ .irqDispatch ∧ hasCommand (takeInput rest s) c.task = true := ⟨hne, decide_eq_true busy⟩
  simp only [step, hf, fetch, hin, fetchCommand, hi, fetchInstr, if_pos hbusy]

theorem step_expansionFault {r : Fault} (hf : s.fault = none) (hin : s.inputs = .command c :: rest)
    (hi : issued c.code = .fault r) (free : partsOf s c.task = []) :
    step s = .next (raiseFault r (loadCommand c (takeInput rest s))) := by
  have hbusy : hasCommand (takeInput rest s) c.task = false := hasCommand_eq_false_iff.mpr free
  simp [step, hf, fetch, hin, fetchCommand, hi, hbusy]

theorem step_invalidCommand {w : Word64} (hf : s.fault = none) (hin : s.inputs = .command c :: rest)
    (hi : issued c.code = .invalid w) : step s = .refused (.invalid w) := by
  simp only [step, hf, fetch, hin, fetchCommand, hi]

end

/-! A step whose choice is a single step of an agent, or nobody's. -/

section
variable {s : State} {rest : List Input}

theorem step_invalidStart {c : Issue} {w : Word64} (hf : s.fault = none) (hin : s.inputs = .event (.start c) :: rest)
    (hi : issued c.code = .invalid w) : step s = .refused (.invalid w) := by
  simp only [step, hf, fetch, hin, fetchEvent, hi]

theorem startStep_invalid {c : Issue} {w : Word64} (busy : Option Nat) (hi : issued c.code = .invalid w) :
    startStep busy c s = .ok () (handOut (.task c.task) (.invalid w) s) := by
  simp only [startStep, hi]

theorem step_of_event {e : Event} (hf : s.fault = none) (hin : s.inputs = .event e :: rest)
    (valid : ∀ c, e = .start c → ∀ w, issued c.code ≠ .invalid w) :
    step s = .next (stateAfter (eventStep none e (takeInput rest s))) := by
  simp only [step, hf, fetch, hin]
  cases e with
  | start c =>
    cases hi : issued c.code with
    | invalid w => exact absurd hi (valid c rfl w)
    | instr i => simp only [fetchEvent, hi]
    | fault r => simp only [fetchEvent, hi]
  | env | irq | resume => simp only [fetchEvent]

theorem step_idle (hf : s.fault = none) (hin : s.inputs = []) : step s = .next s := by
  simp only [step, hf, fetch, hin]

end

/-- Settles O6: the expansion is what the pseudo-instruction's code asks for, so the rule of its command is the rule of a
word. -/
theorem pseudoInstructionsExpand : Obligations.PseudoInstructionsExpand := by
  intro s c rest p hf hin hc free
  have run : ∀ i, expandPseudo p = .ok i → step s = exec i (loadCommand c (takeInput rest s)) := fun i h =>
    step_instr hf hin (by rw [hc, issued_pseudo_ok h]) (.inr free)
  have fault : ∀ r, expandPseudo p = .error r → step s = .next (raiseFault r (loadCommand c (takeInput rest s))) :=
    fun r h => step_expansionFault hf hin (by rw [hc, issued_pseudo_error h]) free
  cases p with
  | arm | disable | waitConnect | waitDisconnect => exact run _ rfl
  | allocIn addr mps etype dev | allocOut addr mps etype dev =>
    dsimp only
    split
    · next h => exact run _ (expandAlloc_ok h _ _ _ _)
    · next h => exact fault _ (expandAlloc_badIndex h _ _ _ _)

end Sys2Proof.Machine
end

