-- ==== Sys2Proof/Proofs/OpcodeTable.lean ====
section
/-! PROOFS. The decoder and the opcode map accept the same words (30_encoding.md R114, R127): a row's match and mask are read
field by field, and a word no row matches is refused (60_exceptions.md R313). -/

namespace Sys2Proof.Laws

open Sys2Proof.Machine

/-! A row, field by field. -/

/-- The bitwise AND of two words, field by field. -/
def andFields (f g : Fields) : Fields :=
  ⟨f.op &&& g.op, f.ch &&& g.ch, f.dir &&& g.dir, f.etype &&& g.etype, f.devaddr &&& g.devaddr, f.len &&& g.len,
    f.arg &&& g.arg⟩

theorem bits_and (a b k n : Nat) : (a &&& b) / 2 ^ k % 2 ^ n = (a / 2 ^ k % 2 ^ n) &&& (b / 2 ^ k % 2 ^ n) := by
  rw [Nat.and_div_two_pow, Nat.and_mod_two_pow]

theorem fieldsOf_and (w m : Word64) : fieldsOf (w &&& m) = andFields (fieldsOf w) (fieldsOf m) := by
  have bits := bits_and w.toNat m.toNat
  simp only [fieldsOf, andFields, BitVec.toNat_and, Fields.mk.injEq]
  exact ⟨bits 56 8, bits 53 3, bits 52 1, bits 50 2, bits 43 7, bits 32 11, by simpa using bits 0 32⟩

theorem fieldsOf_inj {w v : Word64} : fieldsOf w = fieldsOf v ↔ w = v := by
  refine ⟨fun h => ?_, congrArg _⟩
  rw [← wordOfFields_fieldsOf w, h, wordOfFields_fieldsOf]

/-- A row matches a word with these fields. -/
def rowTakes (row : OpcodeRow) (f : Fields) : Prop := andFields f (fieldsOf row.mask) = fieldsOf row.matchBits

theorem rowTakes_fieldsOf_iff (row : OpcodeRow) (w : Word64) :
    rowTakes row (fieldsOf w) ↔ w &&& row.mask = row.matchBits := by
  rw [rowTakes, ← fieldsOf_and, fieldsOf_inj]

/-- No bit under a mask of the `n` bits from bit `k` up. -/
theorem and_highMask_eq_zero_iff {x k n : Nat} (hx : x < 2 ^ (k + n)) : x &&& (2 ^ n - 1) * 2 ^ k = 0 ↔ x < 2 ^ k := by
  have hdiv : (x &&& (2 ^ n - 1) * 2 ^ k) / 2 ^ k = x / 2 ^ k := by
    have hq : x / 2 ^ k < 2 ^ n := Nat.div_lt_of_lt_mul (by rwa [← Nat.pow_add])
    rw [Nat.and_div_two_pow, Nat.mul_div_cancel _ (Nat.two_pow_pos k), Nat.and_two_pow_sub_one_of_lt_two_pow hq]
  have hmod : (x &&& (2 ^ n - 1) * 2 ^ k) % 2 ^ k = 0 := by
    rw [Nat.and_mod_two_pow, Nat.mul_mod_left, Nat.and_zero]
  rw [← Nat.div_eq_zero_iff_lt (Nat.two_pow_pos k), ← hdiv]
  have hsum := Nat.div_add_mod (x &&& (2 ^ n - 1) * 2 ^ k) (2 ^ k)
  constructor <;> intro h
  · rw [h, Nat.zero_div]
  · rw [← hsum, h, hmod, Nat.mul_zero]

/-- The masks of the opcode map that cover a whole field. -/
theorem and_fieldMask {f : Fields} (h : FieldsInRange f) :
    f.op &&& 0xFF = f.op ∧ f.ch &&& 7 = f.ch ∧ f.dir &&& 1 = f.dir ∧ f.etype &&& 3 = f.etype ∧
    f.devaddr &&& 0x7F = f.devaddr ∧ f.len &&& 0x7FF = f.len ∧ f.arg &&& 0xFFFFFFFF = f.arg := by
  obtain ⟨hop, hch, hdir, hetype, hdev, hlen, harg⟩ := h
  exact ⟨Nat.and_two_pow_sub_one_of_lt_two_pow (n := 8) hop, Nat.and_two_pow_sub_one_of_lt_two_pow (n := 3) hch,
    Nat.and_two_pow_sub_one_of_lt_two_pow (n := 1) hdir, Nat.and_two_pow_sub_one_of_lt_two_pow (n := 2) hetype,
    Nat.and_two_pow_sub_one_of_lt_two_pow (n := 7) hdev, Nat.and_two_pow_sub_one_of_lt_two_pow (n := 11) hlen,
    Nat.and_two_pow_sub_one_of_lt_two_pow (n := 32) harg⟩

/-- The masks of the opcode map that cover the unused upper bits of `ARG`. -/
theorem and_argMask {arg : Nat} (h : arg < 2 ^ 32) :
    (arg &&& 0xFFFF0000 = 0 ↔ arg < 65536) ∧ (arg &&& 0xFFFFFFFC = 0 ↔ arg < 4) ∧ (arg &&& 0xFFFFFFFE = 0 ↔ arg < 2) :=
  ⟨and_highMask_eq_zero_iff (k := 16) (n := 16) h, and_highMask_eq_zero_iff (k := 2) (n := 30) h,
    and_highMask_eq_zero_iff (k := 1) (n := 31) h⟩

/-! The rows and the decoder. -/

/-- What a row fixes of the fields is what the decoder asks of them, row by row of the opcode map. -/
theorem decodeFields_of_rowTakes {row : OpcodeRow} (hrow : row ∈ opcodeTable) {f : Fields} (hf : FieldsInRange f)
    (h : rowTakes row f) : ∃ i, decodeFields f = .ok i ∧ mnemonicOf i = row.mnemonic := by
  obtain ⟨op, ch, dir, etype, devaddr, len, arg⟩ := f
  obtain ⟨mop, mch, mdir, metype, mdev, mlen, marg⟩ := and_fieldMask hf
  obtain ⟨-, -, -, -, -, -, harg⟩ := hf
  obtain ⟨marg16, marg2, marg1⟩ := and_argMask harg
  simp only at mop mch mdir metype mdev mlen marg marg16 marg2 marg1
  simp only [opcodeTable, List.cons_append, List.nil_append, List.mem_cons, List.not_mem_nil, or_false] at hrow
  rcases hrow with rfl | rfl | rfl | rfl | rfl | rfl | rfl | rfl | rfl | rfl | rfl | rfl | rfl | rfl | rfl | rfl |
    rfl | rfl | rfl | rfl | rfl | rfl | rfl | rfl
  all_goals
    simp only [rowTakes, andFields, fieldsOf, BitVec.reduceToNat, Nat.reducePow, Nat.reduceDiv, Nat.reduceMod,
      Nat.and_zero, mop, mch, mdir, metype, mdev, mlen, marg, marg16, marg2, marg1, Fields.mk.injEq, true_and] at h
    simp [decodeFields, acceptWhen, mnemonicOf, h]

/-- The place of an instruction's row in the opcode map (30_encoding.md R127). -/
def rowIndex : Instr → Fin 24
  | .pmAlloc _ => 0
  | .pmReset => 1
  | .bdEnc _ => 2
  | .bdDec _ => 3
  | .bdProgrx _ _ _ => 4
  | .bdProgtx _ _ _ => 5
  | .bdRxlen _ => 6
  | .pmWrite _ => 7
  | .pmRead _ _ => 8
  | .crRead _ => 9
  | .crCanon _ => 10
  | .crSetstat _ _ _ => 11
  | .crClrctr _ _ => 12
  | .crClrerr _ _ => 13
  | .crInit _ _ _ => 14
  | .crTouch _ => 15
  | .irqDispatch => 16
  | .epRead _ _ => 17
  | .epWrite _ => 18
  | .epPoll => 19
  | .busWait _ => 20
  | .chClaim _ _ _ _ _ => 21
  | .chReconf0 _ _ => 22
  | .chDrop _ _ => 23

/-- The row of an instruction. -/
def rowOf (i : Instr) : OpcodeRow := opcodeTable.get (rowIndex i)

theorem rowOf_mem (i : Instr) : rowOf i ∈ opcodeTable := List.get_mem _ _

theorem rowOf_mnemonic (i : Instr) : (rowOf i).mnemonic = mnemonicOf i := by cases i <;> rfl

/-- The row of a well-formed instruction matches the instruction's fields. -/
theorem rowTakes_encodeFields {i : Instr} (h : i.wf = true) : rowTakes (rowOf i) (encodeFields i) := by
  obtain ⟨-, -, -, -, -, -, harg⟩ := fieldsFit i h
  obtain ⟨marg16, marg2, marg1⟩ := and_argMask harg
  cases i with
  | bdDec code => simp_all [rowOf, rowIndex, opcodeTable, rowTakes, fieldsOf, andFields, encodeFields, code.isLt]
  | busWait target =>
    have hcode : busCode target ≤ 1 := Nat.le_of_lt_succ (busCode_lt target)
    simp_all [rowOf, rowIndex, opcodeTable, rowTakes, fieldsOf, andFields, encodeFields]
  | _ =>
    simp_all [rowOf, rowIndex, opcodeTable, rowTakes, fieldsOf, andFields, encodeFields, Instr.wf, statusCode_lt, flagsCode_lt]

/-- A word that decodes matches the row of its instruction. -/
theorem rowOf_matches {w : Word64} {i : Instr} (h : decode w = .ok i) : w &&& (rowOf i).mask = (rowOf i).matchBits := by
  rw [← rowTakes_fieldsOf_iff, fieldsOf_of_decode h]
  exact rowTakes_encodeFields (wf_of_decode h)

/-- A word that a row matches decodes to an instruction of that row. -/
theorem decode_of_matches {w : Word64} {row : OpcodeRow} (hrow : row ∈ opcodeTable) (h : w &&& row.mask = row.matchBits) :
    ∃ i, decode w = .ok i ∧ mnemonicOf i = row.mnemonic :=
  decodeFields_of_rowTakes hrow (fieldsOf_inRange w) ((rowTakes_fieldsOf_iff row w).mpr h)

/-- No two rows have the same mnemonic. -/
theorem row_eq_of_mnemonic_eq {a b : OpcodeRow} (ha : a ∈ opcodeTable) (hb : b ∈ opcodeTable)
    (h : a.mnemonic = b.mnemonic) : a = b :=
  have hall : ∀ a ∈ opcodeTable, ∀ b ∈ opcodeTable, a.mnemonic = b.mnemonic → a = b := by decide
  hall a ha b hb h

/-- A word that matches no row does not decode. -/
theorem decode_error_of_no_match {w : Word64} (h : ∀ row ∈ opcodeTable, w &&& row.mask ≠ row.matchBits) :
    ∃ e, decode w = .error e := by
  cases hd : decode w with
  | error e => exact ⟨e, rfl⟩
  | ok i => exact absurd (rowOf_matches hd) (h _ (rowOf_mem i))

/-- Settles O3: a row matches exactly the words of its mnemonic, so two rows that match one word have the mnemonic of the one
instruction it decodes to; a word with no row is refused by the rules of the choice. -/
theorem decodeFollowsTable : Obligations.DecodeFollowsTable := by
  refine ⟨fun w i h => ?_, fun w row => decode_of_matches, fun w row row' hrow hrow' h h' => ?_, fun w hno => ?_⟩
  · exact ⟨rowOf i, rowOf_mem i, rowOf_mnemonic i, rowOf_matches h⟩
  · obtain ⟨i, hi, hm⟩ := decode_of_matches hrow h
    obtain ⟨j, hj, hm'⟩ := decode_of_matches hrow' h'
    have hij : i = j := Except.ok.inj (hi.symm.trans hj)
    exact row_eq_of_mnemonic_eq hrow hrow' (by rw [← hm, ← hm', hij])
  · obtain ⟨e, he⟩ := decode_error_of_no_match hno
    have hi : ∀ {code : Code}, code = .word w → issued code = .invalid w := fun hc => hc ▸ issued_word_error he
    exact ⟨⟨e, he⟩, fun s c rest hf hin hc => step_invalidCommand hf hin (hi hc),
      fun s c rest hf hin hc => step_invalidStart hf hin (hi hc), fun busy s c hc => startStep_invalid busy (hi hc)⟩

end Sys2Proof.Laws
end

