-- ==== Sys2Proof/Proofs/RegisterKinds.lean ====
section
/-! PROOFS. The four kinds of bits of a channel register partition it (30_encoding.md R117). -/

namespace Sys2Proof.Machine

theorem and_eq_zero_of_bits {a b : Word32} (h : ∀ i, a.getLsbD i = true → b.getLsbD i = false) : a &&& b = 0 := by
  apply BitVec.eq_of_getLsbD_eq
  intro i _
  cases ha : a.getLsbD i
  · simp [ha]
  · simp [h i ha]

section
variable {l : ChepLayout} (h : chepLayoutWf l = true)
include h

theorem tMask_and_cMask : tMask l &&& cMask l = 0 := and_eq_zero_of_bits fun i hi => by
  rw [getLsbD_tMask, Bool.and_eq_true] at hi
  rw [getLsbD_cMask, isClear_of_isToggle h hi.1, Bool.false_and]

theorem tMask_and_rwMask : tMask l &&& rwMask l = 0 := and_eq_zero_of_bits fun i hi => by
  rw [getLsbD_tMask, Bool.and_eq_true] at hi
  rw [getLsbD_rwMask, isPlain_of_isToggle h hi.1, Bool.false_and]

theorem cMask_and_rwMask : cMask l &&& rwMask l = 0 := and_eq_zero_of_bits fun i hi => by
  rw [getLsbD_cMask, Bool.and_eq_true] at hi
  rw [getLsbD_rwMask, isPlain_of_isClear h hi.1, Bool.false_and]

end

/-- A part of a word shares no bit with what the whole leaves over. -/
theorem and_not_or_eq_zero (a b c : Word32) :
    a &&& ~~~ (a ||| b ||| c) = 0 ∧ b &&& ~~~ (a ||| b ||| c) = 0 ∧ c &&& ~~~ (a ||| b ||| c) = 0 := by
  refine ⟨and_eq_zero_of_bits fun i hi => ?_, and_eq_zero_of_bits fun i hi => ?_, and_eq_zero_of_bits fun i hi => ?_⟩ <;>
    simp [hi]

/-- Settles O20: the fields of different kinds are apart, and kind P is by definition what the other three leave over. -/
theorem registerKinds : Obligations.RegisterKinds := by
  refine ⟨by decide, fun l h => ?_⟩
  obtain ⟨htp, hcp, hrp⟩ := and_not_or_eq_zero (tMask l) (cMask l) (rwMask l)
  exact ⟨BitVec.or_not_self _, tMask_and_cMask h, tMask_and_rwMask h, htp, cMask_and_rwMask h, hcp, hrp⟩

end Sys2Proof.Machine
end

