-- ==== Sys2Proof/Proofs/SingleStep.lean ====
section
/-! PROOFS. One step of a command in progress makes at most one access (20_memory.md R88, R90), and a word that decodes is run
(30_encoding.md R113, R114). -/

namespace Sys2Proof.Machine

/-! What leaves packet memory, the channel registers and the log as they are. -/

/-- No access has written anything. -/
structure Unwritten (s s' : State) : Prop where
  pma : s'.pma = s.pma
  chep : s'.chep = s.chep
  log : s'.log = s.log

theorem Unwritten.refl (s : State) : Unwritten s s := ⟨rfl, rfl, rfl⟩

theorem Unwritten.trans {a b c : State} (h1 : Unwritten a b) (h2 : Unwritten b c) : Unwritten a c :=
  ⟨h2.pma.trans h1.pma, h2.chep.trans h1.chep, h2.log.trans h1.log⟩

theorem Record.unwritten {t : Nat} {s s' : State} (h : Record t s s') : Unwritten s s' := ⟨h.pma, h.chep, h.logged⟩

theorem Unwritten.setHandle (s : State) (c : Chan) (d : Dir) (h : Option Handle) : Unwritten s (setHandle s c d h) :=
  ⟨by simp, by simp, by simp⟩

theorem Unwritten.claimed (c : Chan) (d : Dir) (size : Nat) (s : State) : Unwritten s (claimed c d size s) :=
  ⟨by simp [Machine.claimed], by simp [Machine.claimed], by simp [Machine.claimed]⟩

/-- The checks, the mark and the allocation of a claim write nothing the peripheral can see (47_lifecycle.md R260). -/
theorem claimStep_unwritten {t : Nat} {a : Claim} {s s' : State} {more : List Part} (e : claimStep t a s = .ok more s') :
    Unwritten s s' := by
  rcases claimStep_cases t a s with h | ⟨_, h⟩ | ⟨_, h⟩ | ⟨size, _, _, _, h⟩ <;> rw [h] at e <;> cases e
  · exact (Record.handOut t _ _ s).unwritten
  · exact ⟨by simp, by simp, by simp⟩
  · exact Unwritten.claimed _ _ _ s

/-- The access writes packet memory or a register. -/
def writes : Access → Bool
  | .store _ _ _ | .writeReg _ _ _ => true
  | _ => false

theorem accessStep_unwritten {t : Nat} {a : Access} {s s' : State} {more : List Part} (ha : writes a = false)
    (e : accessStep t a s = .ok more s') : Unwritten s s' := by
  by_cases hr : recordAccess a = true
  · exact ((RecordRun.accessStep hr s).ok _ _ e).1.unwritten
  · cases a with
    | store | writeReg => cases ha
    | readReg c change => cases e; exact Unwritten.refl s
    | claim a => exact claimStep_unwritten e
    | _ => exact absurd rfl hr

/-- Nothing a task does on its own is an access. -/
theorem ownStep_unwritten {t : Nat} {o : Own} {s s' : State} {more : List Part} (e : ownStep t o s = .ok more s') :
    Unwritten s s' := by
  by_cases ho : claimPart (.own o) = false
  · exact ((RecordRun.ownStep ho s).ok _ _ e).1.unwritten
  · cases o with
    | enter a r =>
      obtain ⟨more', s1, h, hs, _⟩ := enterHandle_cases t a r s
      have hs1 : s1 = s' := (Run.ok.inj (h.symm.trans e)).2
      subst hs1
      have hset := Unwritten.setHandle s a.ch a.dir (some ⟨a.ch, a.dir, a.mps, a.etype, a.devaddr, r, s.alloc.gen⟩)
      rcases hs with rfl | ⟨res, rfl⟩
      · exact hset
      · exact hset.trans (Record.handOut t _ _ _).unwritten
    | _ => exact absurd rfl ho

/-- Nor is anything up to its command's next access. -/
theorem settle_unwritten {t : Nat} {ps left : List Part} {s s' : State} (e : settle t ps s = .ok left s') : Unwritten s s' := by
  induction ps generalizing s with
  | nil => cases e; exact Unwritten.refl _
  | cons p rest ih =>
    cases p with
    | access a => cases e; exact Unwritten.refl _
    | own o =>
      obtain ⟨more, s1, ho, hrest⟩ := Run.bind_eq_ok e
      refine (ownStep_unwritten ho).trans ?_
      cases more with
      | nil => exact ih hrest
      | cons m ms => cases hrest; exact Unwritten.refl _

/-! The next step of a command. -/

/-- What is left of a task's command changes no other field. -/
theorem Unwritten.putParts (s : State) (t : Nat) (ps : List Part) : Unwritten s (putParts s t ps) := ⟨rfl, rfl, rfl⟩

theorem resume_ok {s s' : State} {t : Nat} {p : Part} {ps : List Part} (hp : partsOf s t = p :: ps)
    (e : eventStep none (.resume t) s = .ok () s') :
    ∃ left s1, advance t (p :: ps) s = .ok left s1 ∧ s' = putParts s1 t left := by
  simp only [eventStep, reduceCtorEq, if_false, resumeStep, hp, keepParts] at e
  obtain ⟨left, s1, h, hs⟩ := Run.bind_eq_ok e
  exact ⟨left, s1, h, (Run.ok.inj hs).2.symm⟩

/-- A step at an access makes that access, and nothing it does besides writes. -/
theorem advance_access {t : Nat} {a : Access} {ps left : List Part} {s s' : State}
    (e : advance t (.access a :: ps) s = .ok left s') :
    ∃ more s1, accessStep t a s = .ok more s1 ∧ Unwritten s1 s' := by
  obtain ⟨more, s1, h, hs⟩ := Run.bind_eq_ok e
  exact ⟨more, s1, h, settle_unwritten hs⟩

/-- A step at a `MemWrite` stores its bytes and writes nothing else (20_memory.md R83, R90). -/
theorem advance_store {t a n v : Nat} {ps left : List Part} {s s' : State}
    (e : advance t (.access (.store a n v) :: ps) s = .ok left s') : Unwritten (pokePma s a (leBytes n v)) s' := by
  obtain ⟨more, s1, h, hs⟩ := advance_access e
  rcases storeStep_cases a n v s with ⟨hst, _, _⟩ | ⟨r, hst⟩ <;> rw [accessStep, hst] at h <;> cases h
  exact hs

/-- A step at a `RegWrite` writes its register and nothing else (44_channel_register.md R190). -/
theorem advance_writeReg {t : Nat} {c : Chan} {change : RegChange} {cur : Word32} {ps left : List Part} {s s' : State}
    (e : advance t (.access (.writeReg c change cur) :: ps) s = .ok left s') :
    Unwritten (writeChep (.task t) c (changeWord s.params c cur change) s) s' := by
  obtain ⟨more, s1, h, hs⟩ := advance_access e
  cases h
  exact hs

/-- A step at any other part writes nothing. -/
theorem advance_unwritten {t : Nat} {p : Part} {ps left : List Part} {s s' : State}
    (hp : ∀ a, p = .access a → writes a = false) (e : advance t (p :: ps) s = .ok left s') : Unwritten s s' := by
  cases p with
  | access a =>
    obtain ⟨more, s1, h, hs⟩ := advance_access e
    exact (accessStep_unwritten (hp a rfl) h).trans hs
  | own o => exact settle_unwritten e

/-- The step of a task leaves what belongs to the other agents (00_scope.md R23). -/
theorem advance_steady {s s1 : State} {t : Nat} {ps left : List Part} (e : advance t ps s = .ok left s1) : Steady t s s1 := by
  have h := (TaskRun.advance t ps s).steady
  rwa [e] at h

theorem partsOf_putParts_other {s s1 : State} {t u : Nat} (left : List Part) (h : Steady t s s1) (hu : u ≠ t) :
    partsOf (putParts s1 t left) u = partsOf s u := by
  rw [partsOf_putParts, if_neg hu, partsOf_congr h.inProgress]

theorem pmaByte_congr {s s' : State} (h : s'.pma = s.pma) (k : Nat) : pmaByte s' k = pmaByte s k := by
  simp only [pmaByte, h]

theorem readChep_congr {s s' : State} (h : s'.chep = s.chep) (c : Chan) : readChep s' c = readChep s c := by
  simp only [readChep, h]

/-- A register's content after a register write (44_channel_register.md R190). -/
theorem readChep_writeChep (a : Agent) (c : Chan) (w : Word32) (s : State) (c' : Chan) :
    readChep (writeChep a c w s) c' = if c' = c then hwWriteChep s.params (readChep s c) w else readChep s c' :=
  readChep_setChep s c _ c'

/-! The word that is placed as the next choice. -/

/-- An id above every listed one has no entry. -/
theorem mapLookup_above {α : Type} (m : List (Nat × α)) (b : Nat) :
    mapLookup m (m.foldr (fun e n => max (e.1 + 1) n) b) = none := by
  suffices h : ∀ k, m.foldr (fun e n => max (e.1 + 1) n) b ≤ k → mapLookup m k = none from h _ (Nat.le_refl _)
  induction m with
  | nil => exact fun _ _ => rfl
  | cons x rest ih =>
    intro k hk
    rw [List.foldr_cons] at hk
    rw [mapLookup, if_neg (by omega), ih k (by omega)]

/-- The task that issues a placed word has no command in progress. -/
theorem partsOf_freeTask (s : State) : partsOf s (freeTask s) = [] := by
  simp only [freeTask]
  split
  · rw [partsOf, mapLookup_above]
    rfl
  · next h => exact hasCommand_eq_false_iff.mp (Bool.eq_false_iff.mpr h)

theorem decode_of_decodeTableWord {nbits w : Nat} {i : Instr} (h : decodeTableWord nbits w = some i) :
    decode (BitVec.ofNat 64 (w % 2 ^ nbits)) = .ok i := by
  simp only [decodeTableWord] at h
  split at h <;> simp_all

/-- The word `withFetchWord` places is the next command, of a task that has none in progress. -/
theorem step_withFetchWord {s : State} {nbits w : Nat} {i : Instr} (hf : s.fault = none)
    (h : decodeTableWord nbits w = some i) :
    step (s.withFetchWord nbits w) = exec i { s with
      task := freeTask s, data := [], timeout := none, slots := [], irqSlots := [], out := [] } := by
  have hin : (s.withFetchWord nbits w).inputs =
      .command (plainCommand (BitVec.ofNat 64 (w % 2 ^ nbits)) (freeTask s)) :: s.inputs := rfl
  rw [step_instr (s := s.withFetchWord nbits w) hf hin (issued_word_ok (decode_of_decodeTableWord h)) (.inr (partsOf_freeTask s))]
  rfl

/-- Settles O5: the rules of the choice, and for a command in progress what its next part writes. -/
theorem stepRunsDecodedInstruction : Obligations.StepRunsDecodedInstruction := by
  refine ⟨fun s c rest w i hf hin hc hd => ?_, fun s w i hf h => ?_, fun s e rest hf hin hd => ?_,
    fun s => step_idle, fun s s' t p ps hp e => ?_⟩
  · have hi : issued c.code = .instr i := hc ▸ issued_word_ok hd
    exact ⟨step_instr hf hin hi, step_busy hf hin hi⟩
  · exact ⟨freeTask s, partsOf_freeTask s, step_withFetchWord hf h⟩
  · exact step_of_event hf hin fun c he => issued_ne_invalid (hd c he)
  · obtain ⟨left, s1, ha, rfl⟩ := resume_ok hp e
    have hst := advance_steady ha
    refine ⟨?_, ?_, fun hnostore hnoreg => ?_, fun u hu => ⟨partsOf_putParts_other left hst hu, hst.others u hu⟩, hst.istr,
      hst.errChan, hst.connected, hst.now, hst.params⟩
    · rintro a n v rfl
      have hw := advance_store ha
      refine ⟨fun k hk => ?_, hw.chep, hw.log⟩
      exact (pmaByte_congr hw.pma k).trans (pmaByte_pokePma_outside s a _ k (by simpa using hk))
    · rintro c change cur rfl
      have hw := advance_writeReg ha
      have hreg : ∀ c', readChep s1 c' = _ := fun c' => (readChep_congr hw.chep c').trans (readChep_writeChep _ _ _ _ c')
      refine ⟨hw.pma, fun c' hc => (hreg c').trans (if_neg hc), (hreg c).trans (if_pos rfl), hw.log⟩
    · have hw := advance_unwritten (fun a h => ?_) ha
      · exact ⟨hw.pma, hw.chep, hw.log⟩
      · cases a with
        | store a n v => exact absurd h (hnostore a n v)
        | writeReg c change cur => exact absurd h (hnoreg c change cur)
        | _ => rfl

end Sys2Proof.Machine
end

section
/-! PROOFS. The commands of the allocator (41_allocator.md R150, R151), whatever the other agents would do: neither makes an
access, so there is no point at which another agent steps. -/

namespace Sys2Proof.Laws

open Sys2Proof.Machine

/-! A word with the fields of an instruction, and a command that ends as it begins. -/

/-- Every word with the fields of a well-formed instruction decodes to it (30_encoding.md R111, R127). -/
theorem encodedAs_encodeFields {i : Instr} (h : i.wf = true) : EncodedAs (encodeFields i) i := fun w hw => by
  rw [decode, hw, decodeFields_encodeFields h]

/-- A command that has nothing left to do once it has begun. -/
theorem exec_of_begin_done {i : Instr} (hi : i ≠ .irqDispatch) {s s' : State} (h : begin i (sideOf s) s = .ok [] s') :
    exec i s = .next s' := by
  rw [exec_eq_runCommand hi, runCommand_finishAll, h]
  rfl

/-- A command that faults as it begins. -/
theorem exec_of_begin_raise {i : Instr} (hi : i ≠ .irqDispatch) {s : State} {r : Fault}
    (h : begin i (sideOf s) s = raise r s) : exec i s = .next (raiseFault r s) := by
  rw [exec_eq_runCommand hi, runCommand_finishAll, h]
  rfl

/-! `PM.ALLOC` (41_allocator.md R150); `pmAlloc_ok` is the length that fits. -/

theorem pmAlloc_unaligned {n : Nat} {s : State} (h : n % granBytes s.params.gran ≠ 0) :
    pmAlloc n s = raise .unalignedLength s := if_pos h

theorem pmAlloc_full {n : Nat} {s : State} (hg : n % granBytes s.params.gran = 0)
    (hfull : s.params.pmaBytes < s.alloc.free + n) : pmAlloc n s = .ok none s :=
  (if_neg (not_not_intro hg)).trans (if_pos hfull)

/-- Settles O9: the three outcomes of the allocation, each of which ends the command as it begins. -/
theorem allocResult : Obligations.AllocResult := by
  refine ⟨fun n hn => encodedAs_encodeFields (i := .pmAlloc n) (decide_eq_true hn),
    fun s n => ⟨fun hg => ?unaligned, fun hg hfull => ?full, fun hg hfit => ?fits⟩⟩
  case unaligned =>
    exact exec_of_begin_raise (by simp) (by rw [begin, beginPmAlloc, pmAlloc_unaligned hg, Run.raise_bind])
  case full => exact exec_of_begin_done (by simp) (by rw [begin, beginPmAlloc, pmAlloc_full hg hfull]; rfl)
  case fits => exact exec_of_begin_done (by simp) (by rw [begin, beginPmAlloc, pmAlloc_ok hg hfit]; rfl)

/-- Settles O10: the command replies from the rewound state as it begins (41_allocator.md R151). -/
theorem allocatorReset : Obligations.AllocatorReset :=
  ⟨encodedAs_encodeFields (i := .pmReset) rfl, fun _ => exec_of_begin_done (i := .pmReset) (by simp) rfl⟩

end Sys2Proof.Laws
end

section
/-! PROOFS. The length code as numbers (42_descriptor.md R160, R161, R165), and the commands `BD.ENC` and `BD.DEC`. -/

namespace Sys2Proof.Laws

open Sys2Proof.Machine

/-! A word whose fields are an instruction's. -/

/-- Only fields a word can have matter: an operand too wide for its field is in no word (30_encoding.md R111). -/
theorem encodedAs_of_inRange {i : Instr} (h : FieldsInRange (encodeFields i) → i.wf = true) :
    EncodedAs (encodeFields i) i := fun w hw =>
  encodedAs_encodeFields (h (hw ▸ fieldsOf_inRange w)) w hw

theorem bdEnc_wf_of_inRange {len : Nat} (h : FieldsInRange (encodeFields (.bdEnc len))) : (Instr.bdEnc len).wf = true := by
  obtain ⟨-, -, -, -, -, hlen, -⟩ := h
  exact decide_eq_true hlen

theorem bdProgrx_wf_of_inRange {ch : Chan} {mps : Nat} {r : Region} (hr : r.wf = true)
    (h : FieldsInRange (encodeFields (.bdProgrx ch mps r))) : (Instr.bdProgrx ch mps r).wf = true := by
  obtain ⟨-, -, -, -, -, hlen, -⟩ := h
  exact Bool.and_eq_true_iff.mpr ⟨decide_eq_true hlen, hr⟩

theorem bdProgtx_wf_of_inRange {ch : Chan} {n : Nat} {r : Region} (hr : r.wf = true)
    (h : FieldsInRange (encodeFields (.bdProgtx ch n r))) : (Instr.bdProgtx ch n r).wf = true := by
  obtain ⟨-, -, -, -, -, hlen, -⟩ := h
  exact Bool.and_eq_true_iff.mpr ⟨decide_eq_true hlen, hr⟩

/-! Rounding (00_scope.md R14). -/

theorem roundup_of_mod_eq_zero {a b : Nat} (hb : 0 < b) (h : a % b = 0) : roundup a b = a := by
  obtain ⟨q, rfl⟩ := Nat.dvd_of_mod_eq_zero h
  rw [roundup, ceilDiv, Nat.add_sub_assoc hb, Nat.mul_add_div hb, Nat.div_eq_of_lt (Nat.sub_lt hb Nat.one_pos),
    Nat.add_zero, Nat.mul_comm]

theorem smallAlignBytes_cases (p : Params) : smallAlignBytes p = 2 ∨ smallAlignBytes p = 4 := by
  simp only [smallAlignBytes]
  cases p.smallAlign with
  | two => exact .inl rfl
  | gran => cases p.gran <;> simp [granBytes]

/-- Both roundings of the small form are to an even length, and 60 is a multiple of both. -/
theorem roundup_smallAlign (p : Params) (len : Nat) : roundup len (smallAlignBytes p) % 2 = 0 ∧
    roundup len (smallAlignBytes p) ≤ len + 3 ∧ (len ≤ 60 → roundup len (smallAlignBytes p) ≤ 60) := by
  rcases smallAlignBytes_cases p with h | h <;> rw [h, roundup, ceilDiv] <;> omega

/-! The two forms of a code as numbers (30_encoding.md R123): the number of blocks from bit 10 up, the size bit at 15. -/

theorem ofNat_shiftLeft_ten (k : Nat) : BitVec.ofNat 16 k <<< 10 = BitVec.ofNat 16 (k * 1024) := by
  apply BitVec.eq_of_toNat_eq
  simp only [BitVec.toNat_shiftLeft, BitVec.toNat_ofNat, Nat.shiftLeft_eq]
  omega

theorem ofNat_or_sizeBit {k : Nat} (hk : k < 32) :
    BitVec.ofNat 16 (k * 1024) ||| 0x8000#16 = BitVec.ofNat 16 (k * 1024 + 0x8000) := by
  have hor : 0x8000 + k * 1024 = 0x8000 ||| k * 1024 := Nat.two_pow_add_eq_or_of_lt (i := 15) (by omega) 1
  rw [BitVec.or_comm, ← BitVec.ofNat_or, ← hor, Nat.add_comm]

theorem encLength_eq_small {p : Params} {len : Nat} (h1 : 2 ≤ len) (h2 : len ≤ 60) :
    encLength p len = some (BitVec.ofNat 16 (roundup len (smallAlignBytes p) / 2 * 1024)) := by
  rw [encLength_small p len h1 h2, ofNat_shiftLeft_ten]

theorem encLength_eq_large {p : Params} {len : Nat} (h1 : 61 ≤ len) (h2 : len ≤ 1024) :
    encLength p len = some (BitVec.ofNat 16 ((ceilDiv len 32 - 1) * 1024 + 0x8000)) := by
  rw [encLength_large p len h1 h2, ofNat_shiftLeft_ten, ofNat_or_sizeBit (by rw [ceilDiv]; omega)]

theorem encLength_eq_none {p : Params} {len : Nat} (h : len < 2 ∨ 1024 < len) : encLength p len = none := if_pos h

theorem decCode_small {k : Nat} (hk : k < 32) : decCode (BitVec.ofNat 16 (k * 1024)) = 2 * k := by
  have hbit : (BitVec.ofNat 16 (k * 1024)).getLsbD 15 = false := by
    rw [BitVec.getLsbD_ofNat, Nat.testBit_lt_two_pow (by omega), Bool.and_false]
  rw [decCode, hbit, numBlock, BitVec.toNat_ofNat]
  simp only [Bool.false_eq_true, if_false]
  omega

theorem decCode_large {k : Nat} (hk : k < 32) : decCode (BitVec.ofNat 16 (k * 1024 + 0x8000)) = 32 * (k + 1) := by
  have hbit : (BitVec.ofNat 16 (k * 1024 + 0x8000)).getLsbD 15 = true := by
    rw [← ofNat_or_sizeBit hk, BitVec.getLsbD_or]
    simp
  rw [decCode, hbit, numBlock, BitVec.toNat_ofNat]
  simp only [if_true]
  omega

/-- A code leaves the count bits of its half-word 0 (30_encoding.md R123). -/
theorem count_of_encLength {p : Params} {len : Nat} {code : Half16} (h : encLength p len = some code) :
    code.toNat % 1024 = 0 := by
  have key : ∀ n, n % 1024 = 0 → (BitVec.ofNat 16 n).toNat % 1024 = 0 := fun n hn => by
    rw [BitVec.toNat_ofNat]
    omega
  by_cases hout : len < 2 ∨ 1024 < len
  case pos =>
    rw [encLength_eq_none hout] at h
    cases h
  case neg =>
    by_cases hsmall : len ≤ 60
    · rw [encLength_eq_small (by omega) hsmall] at h
      exact Option.some.inj h ▸ key _ (by omega)
    · rw [encLength_eq_large (by omega) (by omega)] at h
      exact Option.some.inj h ▸ key _ (by omega)

/-- Settles O11: a small length is rounded up to an even length of at most 60 bytes, a large one to whole 32-byte blocks, and
the rounded length is its own rounding. -/
theorem lengthCodeProperties : Obligations.LengthCodeProperties := by
  intro p len h2 h1024
  by_cases hsmall : len ≤ 60
  case pos =>
    obtain ⟨heven, hup, h60⟩ := roundup_smallAlign p len
    have hpos : 0 < smallAlignBytes p := by rcases smallAlignBytes_cases p with h | h <;> omega
    have hge : len ≤ roundup len (smallAlignBytes p) := ceilDiv_mul_ge len _ hpos
    have hsame := roundup_of_mod_eq_zero hpos (roundup_mod len (smallAlignBytes p))
    generalize hr : roundup len (smallAlignBytes p) = r at *
    have hdec : decCode (BitVec.ofNat 16 (r / 2 * 1024)) = r := (decCode_small (by omega)).trans (by omega)
    refine ⟨_, hr ▸ encLength_eq_small h2 hsmall, ?_⟩
    rw [hdec, encLength_eq_small (by omega) (h60 hsmall), hsame]
    exact ⟨hge, by omega, rfl, fun _ => ⟨rfl, hup⟩, by omega⟩
  case neg =>
    have hblocks : len ≤ 32 * ceilDiv len 32 ∧ 32 * ceilDiv len 32 ≤ len + 31 ∧ 2 ≤ ceilDiv len 32 ∧
        ceilDiv len 32 ≤ 32 := by
      rw [ceilDiv]
      omega
    obtain ⟨hge, hup, hlow, hhigh⟩ := hblocks
    have hdec := decCode_large (k := ceilDiv len 32 - 1) (by omega)
    rw [Nat.sub_add_cancel (by omega : 1 ≤ ceilDiv len 32)] at hdec
    have hsame : ceilDiv (32 * ceilDiv len 32) 32 = ceilDiv len 32 := by
      generalize ceilDiv len 32 = b at *
      rw [ceilDiv]
      omega
    refine ⟨_, encLength_eq_large (by omega) h1024, ?_⟩
    rw [hdec, encLength_eq_large (by omega) (by omega), hsame]
    exact ⟨hge, hup, rfl, by omega, fun _ => ⟨rfl, by omega⟩⟩

/-! The commands. -/

theorem exec_bdEnc {s : State} {len : Nat} {code : Half16} (h : encLength s.params len = some code) :
    exec (.bdEnc len) s = .next (handOut (.task s.task) (.ok (.code code)) s) :=
  exec_of_begin_done (by simp) (by rw [begin, beginBdEnc, encOrFault, h]; rfl)

theorem exec_bdEnc_invalid {s : State} {len : Nat} (h : encLength s.params len = none) :
    exec (.bdEnc len) s = .next (raiseFault .invalidLength s) :=
  exec_of_begin_raise (by simp) (by rw [begin, beginBdEnc, encOrFault, h]; rfl)

/-- Settles O12: both commands end as they begin, `BD.ENC` with the code of its length if it has one. -/
theorem lengthCodeCommands : Obligations.LengthCodeCommands := by
  refine ⟨fun len => encodedAs_of_inRange (i := .bdEnc len) bdEnc_wf_of_inRange,
    fun code => encodedAs_encodeFields (i := .bdDec code) rfl, fun s len => ⟨?small, ?large, ?invalid⟩,
    fun s code => exec_of_begin_done (i := .bdDec code) (by simp) rfl⟩
  case small => exact fun h2 h60 => exec_bdEnc (encLength_eq_small h2 h60)
  case large => exact fun h61 h1024 => exec_bdEnc (encLength_eq_large h61 h1024)
  case invalid => exact fun h => exec_bdEnc_invalid (encLength_eq_none h)

end Sys2Proof.Laws
end

section
/-! PROOFS. Programming a descriptor half (42_descriptor.md R162, R163), with other agents free to step between its two
half-words (20_memory.md R87, R88). -/

namespace Sys2Proof.Laws

open Sys2Proof.Machine

/-! A command of plain parts: its first step and the rest. -/

theorem exec_of_begin_parts {i : Instr} (hi : i ≠ .irqDispatch) {s : State} {ps : List Part}
    (h : begin i (sideOf s) s = .ok ps s) : exec i s = .next ((advance s.task ps s).bind finishAll).state := by
  rw [exec_eq_runCommand hi, runCommand_finishAll, h]
  rfl

theorem exec_of_begin_faultParts {i : Instr} (hi : i ≠ .irqDispatch) {s : State} {f : Fault} {rest : List Part}
    (h : begin i (sideOf s) s = .ok (faultParts f ++ rest) s) : exec i s = .next (raiseFault f s) :=
  exec_of_begin_parts hi h

/-- A store and whatever stands after it, up to the next access. -/
theorem advance_storePart {t a n v : Nat} {rest : List Part} {s : State} (ha : a % n = 0)
    (hbnd : a + n ≤ s.params.pmaBytes) :
    advance t (storePart a n v :: rest) s = settle t rest (pokePma s a (leBytes n v)) := by
  simp only [storePart, advance, accessStep, storeStep, memWrite_ok ha hbnd, Run.bind_ok, List.nil_append]

theorem settle_replyUnit (t : Nat) (s : State) : settle t [replyUnit] s = .ok [] (handOut (.task t) (.ok .unit) s) := rfl

theorem settle_storePart (t a n v : Nat) (rest : List Part) (s : State) :
    settle t (storePart a n v :: rest) s = .ok (storePart a n v :: rest) s := rfl

/-! A descriptor half (30_encoding.md R124, R125). -/

section
variable {i : Instr} {s : State} {a lo hi : Nat}

/-- In one access at `GRAN = 4`: no other agent steps within the command. -/
theorem exec_descriptor_four (hne : i ≠ .irqDispatch)
    (h : begin i (sideOf s) s = .ok (descriptorParts s.params a lo hi ++ [replyUnit]) s) (hg : s.params.gran = .four)
    (ha : a % 4 = 0) (hbnd : a + 4 ≤ s.params.pmaBytes) (hlo : lo < 65536) :
    exec i s = .next (handOut (.task s.task) (.ok .unit) (pokePma s a (leBytes 2 lo ++ leBytes 2 hi))) := by
  have hparts : descriptorParts s.params a lo hi = [storePart a 4 (hi <<< 16 ||| lo)] := by rw [descriptorParts, hg]
  rw [exec_of_begin_parts hne h, hparts, List.singleton_append, advance_storePart ha hbnd, leBytes_four hlo,
    settle_replyUnit]
  rfl

/-- In two accesses at `GRAN = 2`: the high half-word is stored in the state the point between them leads to. -/
theorem exec_descriptor_two (hne : i ≠ .irqDispatch)
    (h : begin i (sideOf s) s = .ok (descriptorParts s.params a lo hi ++ [replyUnit]) s) (hg : s.params.gran = .two)
    (ha : a % 4 = 0) (hbnd : a + 4 ≤ s.params.pmaBytes) {s1 : State}
    (hpoint : taskPoint (pokePma s a (leBytes 2 lo)) = .ok () s1) :
    exec i s = .next (handOut (.task s1.task) (.ok .unit) (pokePma s1 (a + 2) (leBytes 2 hi))) := by
  have hparts : descriptorParts s.params a lo hi = [storePart a 2 lo, storePart (a + 2) 2 hi] := by rw [descriptorParts, hg]
  have hparams : s1.params = s.params := by
    have := taskPoint_params (pokePma s a (leBytes 2 lo))
    rwa [hpoint, pokePma_params] at this
  have hleft : finishAll [storePart (a + 2) 2 hi, replyUnit] (pokePma s a (leBytes 2 lo)) =
      .ok [] (handOut (.task s1.task) (.ok .unit) (pokePma s1 (a + 2) (leBytes 2 hi))) := by
    rw [finishAll_cons (by simp [begun, storePart, replyUnit]), hpoint, Run.bind_ok,
      advance_storePart (by omega) (by rw [hparams]; omega), settle_replyUnit, Run.bind_ok, finishAll_nil]
  rw [exec_of_begin_parts hne h, hparts, List.cons_append, List.singleton_append,
    advance_storePart (by omega) (by omega), settle_storePart, Run.bind_ok, hleft, Run.state_ok]

/-- Both granularities, and the bytes each leaves alone. -/
theorem exec_descriptor (hne : i ≠ .irqDispatch)
    (h : begin i (sideOf s) s = .ok (descriptorParts s.params a lo hi ++ [replyUnit]) s)
    (ha : a % 4 = 0) (hbnd : a + 4 ≤ s.params.pmaBytes) (hlo : lo < 65536) :
    (s.params.gran = .four → ∃ t, exec i s = .next t ∧
      t = handOut (.task s.task) (.ok .unit) (pokePma s a (leBytes 2 lo ++ leBytes 2 hi)) ∧
      ∀ k, k < a ∨ a + 4 ≤ k → pmaByte t k = pmaByte s k) ∧
    (s.params.gran = .two → ∀ s1, taskPoint (pokePma s a (leBytes 2 lo)) = .ok () s1 →
      ∃ t, exec i s = .next t ∧ t = handOut (.task s1.task) (.ok .unit) (pokePma s1 (a + 2) (leBytes 2 hi)) ∧
        ∀ k, k < a + 2 ∨ a + 4 ≤ k → pmaByte t k = pmaByte s1 k) :=
  ⟨fun hg => ⟨_, exec_descriptor_four hne h hg ha hbnd hlo, rfl, fun k hk => pmaByte_pokePma_outside s a _ k (by simpa using hk)⟩,
    fun hg s1 hpoint => ⟨_, exec_descriptor_two hne h hg ha hbnd hpoint, rfl,
      fun k hk => pmaByte_pokePma_outside s1 (a + 2) _ k (by simpa using hk)⟩⟩

end

/-! What the two commands have to do, check by check. -/

section
variable {p : Params} {c : Chan} {r : Region}

theorem progRxParts_invalid {mps : Nat} (h : encLength p mps = none) : progRxParts p c r mps = faultParts .invalidLength := by
  simp only [progRxParts, h]

theorem progRxParts_misaligned {mps : Nat} {code : Half16} (h : encLength p mps = some code)
    (ha : r.off % granBytes p.gran ≠ 0) : progRxParts p c r mps = faultParts .misaligned := by
  simp only [progRxParts, h, if_pos ha]

theorem progRxParts_overflow {mps : Nat} {code : Half16} (h : encLength p mps = some code)
    (ha : r.off % granBytes p.gran = 0) (hl : r.len < decCode code) : progRxParts p c r mps = faultParts .regionOverflow := by
  simp only [progRxParts, h, if_neg (not_not_intro ha), if_pos hl]

theorem progRxParts_fits {mps : Nat} {code : Half16} (h : encLength p mps = some code)
    (ha : r.off % granBytes p.gran = 0) (hl : decCode code ≤ r.len) :
    progRxParts p c r mps = descriptorParts p (8 * c.val + 4) r.off code.toNat := by
  simp only [progRxParts, h, if_neg (not_not_intro ha), if_neg (Nat.not_lt.mpr hl)]

theorem progTxParts_misaligned {n : Nat} (ha : r.off % granBytes p.gran ≠ 0) :
    progTxParts p c r n = faultParts .misaligned := if_pos ha

theorem progTxParts_overflow {n : Nat} (ha : r.off % granBytes p.gran = 0) (hl : r.len < n) :
    progTxParts p c r n = faultParts .regionOverflow := by
  simp only [progTxParts, if_neg (not_not_intro ha), if_pos hl]

theorem progTxParts_tooLarge {n : Nat} (ha : r.off % granBytes p.gran = 0) (hl : n ≤ r.len) (hn : 1023 < n) :
    progTxParts p c r n = faultParts .countTooLarge := by
  simp only [progTxParts, if_neg (not_not_intro ha), if_neg (Nat.not_lt.mpr hl)]
  exact if_pos hn

theorem progTxParts_fits {n : Nat} (ha : r.off % granBytes p.gran = 0) (hl : n ≤ r.len) (hn : n ≤ 1023) :
    progTxParts p c r n = descriptorParts p (8 * c.val) r.off n := by
  simp only [progTxParts, if_neg (not_not_intro ha), if_neg (Nat.not_lt.mpr hl)]
  exact if_neg (Nat.not_lt.mpr hn)

end

theorem begin_bdProgrx {s : State} {ch : Chan} {mps : Nat} {r : Region} {ps : List Part}
    (h : progRxParts s.params ch r mps = ps) :
    begin (.bdProgrx ch mps r) (sideOf s) s = .ok (ps ++ [replyUnit]) s := by
  rw [begin, beginBdProgrx, h]

theorem begin_bdProgtx {s : State} {ch : Chan} {n : Nat} {r : Region} {ps : List Part}
    (h : progTxParts s.params ch r n = ps) :
    begin (.bdProgtx ch n r) (sideOf s) s = .ok (ps ++ [replyUnit]) s := by
  rw [begin, beginBdProgtx, h]

theorem off_lt_of_wf {r : Region} (h : r.wf = true) : r.off < 65536 := by
  simp only [Region.wf, Bool.and_eq_true, decide_eq_true_eq] at h
  exact h.1

/-- Settles O13: the checks in order, then the descriptor's receive half. -/
theorem programReceive : Obligations.ProgramReceive := by
  refine ⟨fun ch mps r hr => encodedAs_of_inRange (i := .bdProgrx ch mps r) (bdProgrx_wf_of_inRange hr),
    fun s ch mps r => ⟨fun hnone => ?invalid, fun code hcode => ⟨fun ha => ?misaligned, fun ha hl => ?overflow,
      fun ha hl hr hp => ?fits⟩⟩⟩
  case invalid => exact exec_of_begin_faultParts (by simp) (begin_bdProgrx (progRxParts_invalid hnone))
  case misaligned => exact exec_of_begin_faultParts (by simp) (begin_bdProgrx (progRxParts_misaligned hcode ha))
  case overflow => exact exec_of_begin_faultParts (by simp) (begin_bdProgrx (progRxParts_overflow hcode ha hl))
  case fits =>
    have hch := ch.isLt
    exact exec_descriptor (by simp) (begin_bdProgrx (progRxParts_fits hcode ha hl)) (by omega) (by omega) (off_lt_of_wf hr)

/-- Settles O14: the checks in order, then the descriptor's transmit half. -/
theorem programTransmit : Obligations.ProgramTransmit := by
  refine ⟨fun ch n r hr => encodedAs_of_inRange (i := .bdProgtx ch n r) (bdProgtx_wf_of_inRange hr),
    fun s ch n r => ⟨fun ha => ?misaligned, fun ha hl => ?overflow, fun ha hl hn => ?tooLarge, fun ha hl hn hr hp => ?fits⟩⟩
  case misaligned => exact exec_of_begin_faultParts (by simp) (begin_bdProgtx (progTxParts_misaligned ha))
  case overflow => exact exec_of_begin_faultParts (by simp) (begin_bdProgtx (progTxParts_overflow ha hl))
  case tooLarge => exact exec_of_begin_faultParts (by simp) (begin_bdProgtx (progTxParts_tooLarge ha hl hn))
  case fits =>
    have hch := ch.isLt
    exact exec_descriptor (by simp) (begin_bdProgtx (progTxParts_fits ha hl hn)) (by omega) (by omega) (off_lt_of_wf hr)

end Sys2Proof.Laws
end

section
/-! PROOFS. Reading the descriptors: `BD.RXLEN` (42_descriptor.md R164), and what it and the peripheral read of a half that
has been programmed (30_encoding.md R123–R125). -/

namespace Sys2Proof.Laws

open Sys2Proof.Machine

/-! The half-words of a descriptor. -/

theorem leNat_pmaBytesAt_two (s : State) (a : Nat) :
    leNat (pmaBytesAt s a 2) = (pmaByte s a).toNat + 256 * (pmaByte s (a + 1)).toNat := rfl

theorem codeRx_toNat (s : State) (c : Chan) :
    (codeRx s c).toNat = (pmaByte s (8 * c.val + 6)).toNat + 256 * (pmaByte s (8 * c.val + 7)).toNat := by
  have hlt : leNat (pmaBytesAt s (8 * c.val + 6) 2) < 2 ^ 16 := leNat_pmaBytesAt_lt s _ 2
  rw [codeRx, BitVec.toNat_ofNat, Nat.mod_eq_of_lt hlt, leNat_pmaBytesAt_two]

theorem lowHalf_programmed (s : State) (a hi : Nat) {lo : Nat} (h : lo < 65536) :
    leNat (pmaBytesAt (pokePma s a (leBytes 2 lo ++ leBytes 2 hi)) a 2) = lo := by
  have hbytes := pmaBytesAt_pokePma s a (leBytes 2 lo)
  rw [leBytes_length] at hbytes
  rw [← pokePma_pokePma, pmaBytesAt_pokePma_outside _ _ _ _ _ (.inl (by simp)), hbytes, leNat_leBytes]
  exact Nat.mod_eq_of_lt h

theorem highHalf_programmed (s : State) (a lo : Nat) {hi : Nat} (h : hi < 65536) :
    leNat (pmaBytesAt (pokePma s a (leBytes 2 lo ++ leBytes 2 hi)) (a + 2) 2) = hi := by
  have hbytes := pmaBytesAt_pokePma (pokePma s a (leBytes 2 lo)) (a + 2) (leBytes 2 hi)
  have hjoin := pokePma_pokePma s a (leBytes 2 lo) (leBytes 2 hi)
  rw [leBytes_length] at hbytes hjoin
  rw [← hjoin, hbytes, leNat_leBytes]
  exact Nat.mod_eq_of_lt h

/-- Programming one half leaves every other half-word as it was. -/
theorem halfWord_programmed_outside (s : State) (a lo hi : Nat) {b : Nat} (h : b + 2 ≤ a ∨ a + 4 ≤ b) :
    pmaBytesAt (pokePma s a (leBytes 2 lo ++ leBytes 2 hi)) b 2 = pmaBytesAt s b 2 :=
  pmaBytesAt_pokePma_outside _ _ _ _ _ (by simpa using h)

/-! The commands. -/

theorem exec_bdRxlen {s : State} (ch : Chan) (hp : 64 ≤ s.params.pmaBytes) :
    exec (.bdRxlen ch) s = .next (handOut (.task s.task) (.ok (.length ((codeRx s ch).toNat % 1024))) s) :=
  exec_of_begin_done (by simp) (by rw [begin, beginBdRxlen, rxLen_ok hp]; rfl)

/-- A code as it was encoded stands for no byte received. -/
theorem exec_bdRxlen_of_code {s : State} {ch : Chan} {p : Params} {mps : Nat} {code : Half16} (hp : 64 ≤ s.params.pmaBytes)
    (hs : codeRx s ch = code) (hcode : encLength p mps = some code) :
    exec (.bdRxlen ch) s = .next (handOut (.task s.task) (.ok (.length 0)) s) := by
  rw [exec_bdRxlen ch hp, hs, count_of_encLength hcode]

/-- Settles O15: the count bits of the code's half-word, from its two bytes. -/
theorem receivedLength : Obligations.ReceivedLength :=
  ⟨fun ch => encodedAs_encodeFields (i := .bdRxlen ch) rfl, fun s ch hp => by rw [exec_bdRxlen ch hp, codeRx_toNat]⟩

theorem exec_bdProgrx_undisturbed {s : State} {ch : Chan} {mps : Nat} {r : Region} {code : Half16} (hs : s.slots = [])
    (he : encLength s.params mps = some code) (ha : r.off % granBytes s.params.gran = 0) (hl : decCode code ≤ r.len)
    (ho : r.off < 65536) (hp : 64 ≤ s.params.pmaBytes) :
    exec (.bdProgrx ch mps r) s = .next (handOut (.task s.task) (.ok .unit)
      (pokePma s (8 * ch.val + 4) (leBytes 2 r.off ++ leBytes 2 code.toNat))) := by
  rw [exec_undisturbed (by simp) (by simp) hs, begin_bdProgrx rfl, Run.bind_ok,
    finishAll_progRx hs (by simp [begun, replyUnit]) he ha hl ho hp, replyUnit,
    finishAll_reply (s := pokePma s _ _) hs]
  rfl

theorem exec_bdProgtx_undisturbed {s : State} {ch : Chan} {n : Nat} {r : Region} (hs : s.slots = [])
    (ha : r.off % granBytes s.params.gran = 0) (hl : n ≤ r.len) (hn : n ≤ 1023) (ho : r.off < 65536)
    (hp : 64 ≤ s.params.pmaBytes) :
    exec (.bdProgtx ch n r) s = .next (handOut (.task s.task) (.ok .unit)
      (pokePma s (8 * ch.val) (leBytes 2 r.off ++ leBytes 2 n))) := by
  rw [exec_undisturbed (by simp) (by simp) hs, begin_bdProgtx rfl, Run.bind_ok,
    finishAll_progTx hs (by simp [begun, replyUnit]) ha hl hn ho hp, replyUnit,
    finishAll_reply (s := pokePma s _ _) hs]
  rfl

/-! What is read of a channel's descriptor once a half of it is programmed. -/

section
variable (s : State) (c : Chan)

theorem addrRx_programmed {lo : Nat} (hi : Nat) (h : lo < 65536) :
    addrRx (pokePma s (8 * c.val + 4) (leBytes 2 lo ++ leBytes 2 hi)) c = lo := lowHalf_programmed s _ hi h

theorem codeRx_programmed (lo : Nat) (code : Half16) :
    codeRx (pokePma s (8 * c.val + 4) (leBytes 2 lo ++ leBytes 2 code.toNat)) c = code := by
  rw [codeRx, highHalf_programmed s (8 * c.val + 4) lo code.isLt, BitVec.ofNat_toNat, BitVec.setWidth_eq]

theorem addrTx_programmedRx (lo hi : Nat) :
    addrTx (pokePma s (8 * c.val + 4) (leBytes 2 lo ++ leBytes 2 hi)) c = addrTx s c := by
  rw [addrTx, halfWord_programmed_outside s _ lo hi (by omega), addrTx]

theorem countTx_programmedRx (lo hi : Nat) :
    countTx (pokePma s (8 * c.val + 4) (leBytes 2 lo ++ leBytes 2 hi)) c = countTx s c := by
  rw [countTx, halfWord_programmed_outside s _ lo hi (by omega), countTx]

theorem addrTx_programmed {lo : Nat} (hi : Nat) (h : lo < 65536) :
    addrTx (pokePma s (8 * c.val) (leBytes 2 lo ++ leBytes 2 hi)) c = lo := lowHalf_programmed s _ hi h

theorem countTx_programmed (lo : Nat) {n : Nat} (h : n ≤ 1023) :
    countTx (pokePma s (8 * c.val) (leBytes 2 lo ++ leBytes 2 n)) c = n := by
  rw [countTx, highHalf_programmed s (8 * c.val) lo (by omega)]
  exact Nat.mod_eq_of_lt (Nat.lt_succ_of_le h)

theorem addrRx_programmedTx (lo hi : Nat) :
    addrRx (pokePma s (8 * c.val) (leBytes 2 lo ++ leBytes 2 hi)) c = addrRx s c := by
  rw [addrRx, halfWord_programmed_outside s _ lo hi (by omega), addrRx]

theorem codeRx_programmedTx (lo hi : Nat) :
    codeRx (pokePma s (8 * c.val) (leBytes 2 lo ++ leBytes 2 hi)) c = codeRx s c := by
  rw [codeRx, halfWord_programmed_outside s _ lo hi (by omega), codeRx]

end

/-- Settles O16: the programmed half reads as it was stored, its code with count 0, and the other half as before. -/
theorem descriptorReadBack : Obligations.DescriptorReadBack := by
  refine fun s ch r hr ha hp hs => ⟨fun mps code hcode hl => ?receive, fun n hl hn => ?transmit⟩
  case receive =>
    have ho := off_lt_of_wf hr
    have hread := codeRx_programmed s ch r.off code
    exact ⟨_, exec_bdProgrx_undisturbed hs hcode ha hl ho hp, addrRx_programmed s ch _ ho, hread,
      exec_bdRxlen_of_code hp hread hcode, addrTx_programmedRx s ch _ _, countTx_programmedRx s ch _ _⟩
  case transmit =>
    have ho := off_lt_of_wf hr
    exact ⟨_, exec_bdProgtx_undisturbed hs ha hl hn ho hp, addrTx_programmed s ch _ ho, countTx_programmed s ch _ hn,
      addrRx_programmedTx s ch _ _, codeRx_programmedTx s ch _ _⟩

end Sys2Proof.Laws
end

section
/-! PROOFS. The codec, `PM.WRITE` and `PM.READ` (43_codec.md R180–R182), when no other agent steps between the words. The
words that lie in packet memory are one store (`finishAll_pmWrite`) and one stretch of bytes (`finishAll_pmRead`); what is
new here is where the words run past its end (20_memory.md R86), and the bytes that come back after a write. -/

namespace Sys2Proof.Laws

open Sys2Proof.Machine

/-! Whole words (00_scope.md R14), and the first bytes of them. -/

theorem le_roundup {n g : Nat} (hg : 0 < g) : n ≤ roundup n g := ceilDiv_mul_ge n g hg

theorem roundup_mono {m n : Nat} (g : Nat) (h : m ≤ n) : roundup m g ≤ roundup n g :=
  Nat.mul_le_mul_right g (Nat.div_le_div_right (Nat.sub_le_sub_right (Nat.add_le_add_right h g) 1))

/-- Bytes that lie in the words of others need no word more. -/
theorem roundup_le_of_le_roundup {m n g : Nat} (hg : 0 < g) (h : m ≤ roundup n g) : roundup m g ≤ roundup n g :=
  (roundup_mono g h).trans_eq (roundup_of_mod_eq_zero hg (roundup_mod n g))

theorem take_wordBytes (bs : List Byte) (a : Nat) {m n : Nat} (h : m ≤ n) :
    (wordBytes bs a n).take m = wordBytes bs a m := by
  obtain ⟨k, rfl⟩ := Nat.exists_eq_add_of_le h
  rw [wordBytes_add, List.take_left' (wordBytes_length bs a m)]

theorem take_pmaBytesAt (s : State) (a : Nat) {m n : Nat} (h : m ≤ n) :
    (pmaBytesAt s a n).take m = pmaBytesAt s a m := by
  obtain ⟨k, rfl⟩ := Nat.exists_eq_add_of_le h
  rw [pmaBytesAt_add, List.take_left' (pmaBytesAt_length s a m)]

/-- The bytes a `PM.WRITE` stores: the data, and zeros to the end of the last word (43_codec.md R180). -/
def padded (g : Nat) (data : List Byte) : List Byte := data ++ List.replicate (roundup data.length g - data.length) 0

theorem padded_eq_wordBytes {g : Nat} (hg : 0 < g) (data : List Byte) :
    padded g data = wordBytes data 0 (roundup data.length g) := (wordBytes_pad data _ (le_roundup hg)).symm

theorem padded_length {g : Nat} (hg : 0 < g) (data : List Byte) : (padded g data).length = roundup data.length g := by
  rw [padded_eq_wordBytes hg, wordBytes_length]

/-! Words that run past the end of packet memory (20_memory.md R86). -/

/-- The number of words from `off` on that lie below `bound`. -/
def wordsBelow (bound off g : Nat) : Nat := (bound - off) / g

theorem wordsBelow_fit (bound off g : Nat) :
    wordsBelow bound off g = 0 ∨ off + wordsBelow bound off g * g ≤ bound := by
  have hle : wordsBelow bound off g * g ≤ bound - off := Nat.div_mul_le_self _ _
  rcases Nat.le_total off bound with h | h
  · exact .inr (by omega)
  · exact .inl (by rw [wordsBelow, Nat.sub_eq_zero_of_le h, Nat.zero_div])

/-- The next word does not. -/
theorem bound_lt_next_word {g : Nat} (bound off : Nat) (hg : 0 < g) : bound < off + wordsBelow bound off g * g + g := by
  have hlt : bound - off < wordsBelow bound off g * g + g := Nat.lt_div_mul_add hg
  omega

theorem wordsBelow_lt {bound off g todo : Nat} (hg : 0 < g) (hpos : 0 < todo * g) (hpast : bound < off + todo * g) :
    wordsBelow bound off g < todo := (Nat.div_lt_iff_lt_mul hg).mpr (by omega)

theorem packParts_append (off g : Nat) (data : List Byte) (m n k : Nat) :
    packParts off g data (m + n) k = packParts off g data m k ++ packParts off g data n (k + m) := by
  induction m generalizing k with
  | zero => simp [packParts]
  | succ m ih => rw [Nat.succ_add, packParts, packParts, ih, List.cons_append, Nat.succ_add_eq_add_succ]

/-- A store past the end, undisturbed. -/
theorem finishAll_store_pastEnd {a n v : Nat} {rest : List Part} {s : State} (hs : s.slots = []) (hb : begun rest)
    (ha : a % n = 0) (hpast : s.params.pmaBytes < a + n) :
    finishAll (storePart a n v :: rest) s = raise .pmaBounds s := by
  have hb' : begun (storePart a n v :: rest) := begun_append (ps := [storePart a n v]) (by simp [begun, storePart]) hb
  rw [storePart, finishAll_access hs hb', accessStep, storeStep, memWrite_fault (accessFault_pmaBounds ha hpast)]
  rfl

/-- The words of a copy in that run past the end: those below it are one store, and the next one faults. -/
theorem finishAll_packParts_pastEnd {off g todo : Nat} (data : List Byte) {rest : List Part} {s : State}
    (hs : s.slots = []) (hb : begun rest) (hg : 0 < g) (ha : off % g = 0) (hpos : 0 < todo * g)
    (hpast : s.params.pmaBytes < off + todo * g) :
    finishAll (packParts off g data todo 0 ++ rest) s =
      raise .pmaBounds (pokePma s off (wordBytes data 0 (wordsBelow s.params.pmaBytes off g * g))) := by
  have hfit := wordsBelow_fit s.params.pmaBytes off g
  have hnext := bound_lt_next_word s.params.pmaBytes off hg
  have hlt := wordsBelow_lt hg hpos hpast
  generalize wordsBelow s.params.pmaBytes off g = m at *
  obtain ⟨n, rfl⟩ := Nat.exists_eq_add_of_lt hlt
  have hbn : begun (packParts off g data n (m + 1) ++ rest) := begun_append (begun_packParts _ _ _ _ _) hb
  rw [Nat.add_assoc m n 1, packParts_append, List.append_assoc,
    finishAll_packParts data m 0 hs (begun_append (begun_packParts _ _ _ _ _) hb) ha (by rwa [Nat.zero_add])]
  simp only [Nat.zero_mul, Nat.add_zero, Nat.zero_add, packParts, List.cons_append]
  exact finishAll_store_pastEnd hs hbn (by rwa [Nat.add_mul_mod_self_right]) hnext

/-- A copy out whose words run past the end faults at the first word there, and has changed nothing. -/
theorem finishAll_loadParts_pastEnd {off n : Nat} (todo k : Nat) {got : List Byte} {purpose : ReadFor} {s : State}
    (hs : s.slots = []) (ha : off % granBytes s.params.gran = 0) (hpos : 0 < todo)
    (hpast : s.params.pmaBytes < off + k * granBytes s.params.gran + todo * granBytes s.params.gran) :
    finishAll (loadParts off k todo n got purpose) s = raise .pmaBounds s := by
  induction todo generalizing k got with
  | zero => exact absurd hpos (Nat.lt_irrefl 0)
  | succ m ih =>
    have hword : (off + k * granBytes s.params.gran) % granBytes s.params.gran = 0 := by rwa [Nat.add_mul_mod_self_right]
    rw [Nat.succ_mul] at hpast
    rw [loadParts, finishAll_access hs (by simp [begun]), accessStep, loadStep]
    by_cases hin : off + k * granBytes s.params.gran + granBytes s.params.gran ≤ s.params.pmaBytes
    case pos =>
      have hm : 0 < m := Nat.pos_of_ne_zero (by rintro rfl; omega)
      simp only [memRead_ok hword hin, Run.bind_ok, List.append_nil, Nat.add_sub_cancel]
      exact ih (k + 1) hm (by rw [Nat.succ_mul]; omega)
    case neg =>
      rw [memRead_fault (accessFault_pmaBounds hword (by omega))]
      rfl

/-! `PM.WRITE` (43_codec.md R180): what it has to do, check by check, and how it ends. -/

section
variable {s : State} {r : Region}

theorem begin_pmWrite {ps : List Part} (h : pmWriteParts s.params r s.data = ps) :
    begin (.pmWrite r) (sideOf s) s = .ok (ps ++ [replyUnit]) s := by
  rw [begin, beginPmWrite, sideOf, h]

theorem begun_replyUnit : begun [replyUnit] := by simp [begun, replyUnit]

theorem exec_pmWrite_overflow (h : r.len < s.data.length) :
    exec (.pmWrite r) s = .next (raiseFault .regionOverflow s) :=
  exec_of_begin_faultParts (by simp) (begin_pmWrite (if_pos h))

theorem exec_pmWrite_misaligned (hlen : s.data.length ≤ r.len) (ha : r.off % granBytes s.params.gran ≠ 0) :
    exec (.pmWrite r) s = .next (raiseFault .misaligned s) :=
  exec_of_begin_faultParts (by simp) (begin_pmWrite ((if_neg (Nat.not_lt.mpr hlen)).trans (if_pos ha)))

theorem exec_pmWrite_fits (hs : s.slots = []) (hlen : s.data.length ≤ r.len) (ha : r.off % granBytes s.params.gran = 0)
    (hfit : s.data = [] ∨ r.off + roundup s.data.length (granBytes s.params.gran) ≤ s.params.pmaBytes) :
    exec (.pmWrite r) s = .next (handOut (.task s.task) (.ok .unit)
      (pokePma s r.off (padded (granBytes s.params.gran) s.data))) := by
  rw [exec_undisturbed (by simp) (by simp) hs, begin_pmWrite rfl, Run.bind_ok,
    finishAll_pmWrite hs begun_replyUnit hlen ha hfit, replyUnit, finishAll_reply (s := pokePma s _ _) hs]
  rfl

theorem exec_pmWrite_pastEnd (hs : s.slots = []) (hlen : s.data.length ≤ r.len)
    (ha : r.off % granBytes s.params.gran = 0) (hne : s.data ≠ [])
    (hpast : s.params.pmaBytes < r.off + roundup s.data.length (granBytes s.params.gran)) :
    exec (.pmWrite r) s = .next (raiseFault .pmaBounds (pokePma s r.off ((padded (granBytes s.params.gran) s.data).take
      (wordsBelow s.params.pmaBytes r.off (granBytes s.params.gran) * granBytes s.params.gran)))) := by
  have hg := granBytes_pos s.params.gran
  have hpos : 0 < roundup s.data.length (granBytes s.params.gran) :=
    (List.length_pos_iff.mpr hne).trans_le (le_roundup hg)
  have hparts : pmWriteParts s.params r s.data = packParts r.off (granBytes s.params.gran) s.data
      (ceilDiv s.data.length (granBytes s.params.gran)) 0 :=
    (if_neg (Nat.not_lt.mpr hlen)).trans (if_neg (not_not_intro ha))
  have hle : wordsBelow s.params.pmaBytes r.off (granBytes s.params.gran) * granBytes s.params.gran ≤
      roundup s.data.length (granBytes s.params.gran) :=
    Nat.mul_le_mul_right _ (wordsBelow_lt hg hpos hpast).le
  rw [exec_undisturbed (by simp) (by simp) hs, begin_pmWrite hparts, Run.bind_ok,
    finishAll_packParts_pastEnd s.data hs begun_replyUnit hg ha hpos hpast, padded_eq_wordBytes hg,
    take_wordBytes s.data 0 hle, Run.raise_state]

/-- A write changes no byte outside its words. -/
theorem pmaByte_pokePma_padded_outside (s : State) {off g a : Nat} (hg : 0 < g) (data : List Byte)
    (h : a < off ∨ off + roundup data.length g ≤ a) : pmaByte (pokePma s off (padded g data)) a = pmaByte s a :=
  pmaByte_pokePma_outside s off _ a (by rwa [padded_length hg])

/-- A write that has raised no fault has passed every check. -/
theorem exec_pmWrite_completed {t : State} (hs : s.slots = []) (ht : exec (.pmWrite r) s = .next t) (hf : t.fault = none) :
    r.off % granBytes s.params.gran = 0 ∧
    (s.data = [] ∨ r.off + roundup s.data.length (granBytes s.params.gran) ≤ s.params.pmaBytes) ∧
    t = handOut (.task s.task) (.ok .unit) (pokePma s r.off (padded (granBytes s.params.gran) s.data)) := by
  have not_faulted : ∀ (f : Fault) (s' : State), exec (.pmWrite r) s ≠ .next (raiseFault f s') := by
    intro f s' h
    cases ht.symm.trans h
    cases hf
  have hlen : s.data.length ≤ r.len := by
    by_contra h
    exact not_faulted _ _ (exec_pmWrite_overflow (Nat.lt_of_not_le h))
  have ha : r.off % granBytes s.params.gran = 0 := by
    by_contra h
    exact not_faulted _ _ (exec_pmWrite_misaligned hlen h)
  have hfit : s.data = [] ∨ r.off + roundup s.data.length (granBytes s.params.gran) ≤ s.params.pmaBytes := by
    by_contra h
    obtain ⟨hne, hpast⟩ := not_or.mp h
    exact not_faulted _ _ (exec_pmWrite_pastEnd hs hlen ha hne (Nat.lt_of_not_le hpast))
  exact ⟨ha, hfit, by cases ht.symm.trans (exec_pmWrite_fits hs hlen ha hfit); rfl⟩

end

/-- Settles O17: the two checks, then the words as one store, or those below the end of packet memory and the fault of the
next one. -/
theorem packResult : Obligations.PackResult := by
  refine fun s r => ⟨exec_pmWrite_overflow, exec_pmWrite_misaligned,
    fun hlen ha hs => ⟨fun hfit => ?fits, fun hne hpast => ?past⟩⟩
  case fits =>
    exact ⟨_, exec_pmWrite_fits hs hlen ha hfit, rfl,
      fun a hout => pmaByte_pokePma_padded_outside s (granBytes_pos s.params.gran) s.data hout⟩
  case past => exact exec_pmWrite_pastEnd hs hlen ha hne hpast

/-! `PM.READ` (43_codec.md R181), in the same order. -/

section
variable {s : State} {n : Nat} {r : Region}

theorem begin_pmRead {ps : List Part} (h : pmReadParts s.params r n .caller = ps) :
    begin (.pmRead n r) (sideOf s) s = .ok ps s := by
  rw [begin, beginPmRead, h]

theorem exec_pmRead_overflow (h : r.len < n) : exec (.pmRead n r) s = .next (raiseFault .regionOverflow s) :=
  exec_of_begin_faultParts (rest := []) (by simp) (begin_pmRead (if_pos h))

theorem exec_pmRead_misaligned (hlen : n ≤ r.len) (ha : r.off % granBytes s.params.gran ≠ 0) :
    exec (.pmRead n r) s = .next (raiseFault .misaligned s) :=
  exec_of_begin_faultParts (rest := []) (by simp) (begin_pmRead ((if_neg (Nat.not_lt.mpr hlen)).trans (if_pos ha)))

theorem exec_pmRead_fits (hs : s.slots = []) (hlen : n ≤ r.len) (ha : r.off % granBytes s.params.gran = 0)
    (hfit : n = 0 ∨ r.off + roundup n (granBytes s.params.gran) ≤ s.params.pmaBytes) :
    exec (.pmRead n r) s = .next (handOut (.task s.task) (.ok (.bytes (pmaBytesAt s r.off n))) s) := by
  rw [exec_undisturbed (by simp) (by simp) hs, begin_pmRead rfl, Run.bind_ok, finishAll_pmRead hs hlen ha hfit,
    finishAll_own hs (by simp [begun])]
  rfl

theorem exec_pmRead_pastEnd (hs : s.slots = []) (hlen : n ≤ r.len) (ha : r.off % granBytes s.params.gran = 0)
    (hpos : 0 < n) (hpast : s.params.pmaBytes < r.off + roundup n (granBytes s.params.gran)) :
    exec (.pmRead n r) s = .next (raiseFault .pmaBounds s) := by
  have hparts : pmReadParts s.params r n .caller =
      loadParts r.off 0 (ceilDiv n (granBytes s.params.gran)) n [] .caller :=
    (if_neg (Nat.not_lt.mpr hlen)).trans (if_neg (not_not_intro ha))
  have htodo : 0 < ceilDiv n (granBytes s.params.gran) :=
    Nat.pos_of_mul_pos_right (hpos.trans_le (le_roundup (granBytes_pos s.params.gran)))
  rw [exec_undisturbed (by simp) (by simp) hs, begin_pmRead hparts, Run.bind_ok,
    finishAll_loadParts_pastEnd _ 0 hs ha htodo (by rwa [Nat.zero_mul]), Run.raise_state]

end

/-- Settles O18: the two checks, then the bytes of the region, or the fault of the first word past the end. -/
theorem unpackResult : Obligations.UnpackResult := fun _ _ _ =>
  ⟨exec_pmRead_overflow, exec_pmRead_misaligned,
    fun hlen ha hs => ⟨exec_pmRead_fits hs hlen ha, exec_pmRead_pastEnd hs hlen ha⟩⟩

/-! The round trip (43_codec.md R182). -/

/-- Where the bytes a write stored are unchanged, the first of them are read back. -/
theorem pmaBytesAt_of_written {s u : State} {off g n : Nat} {data : List Byte} (hg : 0 < g) (hn : n ≤ roundup data.length g)
    (hsame : ∀ a, off ≤ a → a < off + roundup data.length g →
      pmaByte u a = pmaByte (pokePma s off (padded g data)) a) :
    pmaBytesAt u off n = (padded g data).take n := by
  have hwritten := pmaBytesAt_pokePma s off (padded g data)
  rw [padded_length hg] at hwritten
  rw [← take_pmaBytesAt u off hn, pmaBytesAt_congr u _ off _ hsame, hwritten]

/-- Settles O19: the write passed its checks, so the words of the read lie in packet memory as the write's do, and they hold
what it stored. -/
theorem codecRoundTrip : Obligations.CodecRoundTrip := by
  intro s t u n r hs ht hf _ hparams hu hlen hn hsame
  have hg := granBytes_pos s.params.gran
  obtain ⟨ha, hfit, rfl⟩ := exec_pmWrite_completed hs ht hf
  have hp : u.params = s.params := hparams
  have hwords := roundup_le_of_le_roundup hg hn
  have hread : n = 0 ∨ r.off + roundup n (granBytes s.params.gran) ≤ s.params.pmaBytes := by
    rcases hfit with hnil | hfit
    · have hzero : roundup s.data.length (granBytes s.params.gran) = 0 := by
        rw [hnil]
        exact roundup_of_mod_eq_zero hg (Nat.zero_mod _)
      exact .inl (Nat.le_zero.mp (hzero ▸ hn))
    · exact .inr (by omega)
  rw [exec_pmRead_fits hu hlen (by rwa [hp]) (by rwa [hp]), pmaBytesAt_of_written (s := s) hg hn hsame]
  rfl

end Sys2Proof.Laws
end

section
/-! PROOFS. What the hardware makes of a word written to a channel register, kind by kind and field by field
(44_channel_register.md R190, R191), whether or not the register changed after it was read (R198). -/

namespace Sys2Proof.Laws

open Sys2Proof.Machine

/-! Values that agree on every bit of kinds RW and P. -/

theorem agreeKept_iff_kept_eq {p : Params} (h : chepLayoutWf p.chep = true) {a b : Word32} :
    agreeKept p a b ↔ a &&& (rwMask p.chep ||| pMask p.chep) = b &&& (rwMask p.chep ||| pMask p.chep) := by
  refine ⟨kept_eq_of_agree h, fun he i hi ht hc => ?_⟩
  have hbit := congrArg (BitVec.getLsbD · i) he
  simpa only [BitVec.getLsbD_and, getLsbD_keptMask h hi, ht, hc, Bool.not_false, Bool.and_true] using hbit

theorem kept_eq_of_xor {v w k : Word32} (h : (v ^^^ w) &&& k = 0) : v &&& k = w &&& k := by
  rw [← BitVec.xor_eq_zero_iff]
  refine Eq.trans ?_ h
  ext i
  simp [Bool.and_xor_distrib_right]

/-! One bit of each kind (44_channel_register.md R190). -/

theorem getLsbD_clearC_zero (p : Params) : (clearC p).getLsbD 0 = !neutralC p := by
  simp only [clearC, neutralC]
  cases p.chepPolarity <;> rfl

section
variable {p : Params} {i : Nat} (h : chepLayoutWf p.chep = true) (hi : i < 32) (old w : Word32)
include h

theorem isToggle_of_isClear (hc : isClear p.chep i = true) : isToggle p.chep i = false := by
  cases ht : isToggle p.chep i
  · rfl
  · rw [isClear_of_isToggle h ht] at hc
    cases hc

include hi

theorem getLsbD_hwWriteChep_toggle (ht : isToggle p.chep i = true) :
    (hwWriteChep p old w).getLsbD i = (old.getLsbD i).xor (w.getLsbD i) := by
  rw [getLsbD_hwWriteChep h old w hi, if_pos ht]

theorem getLsbD_hwWriteChep_clear (hc : isClear p.chep i = true) :
    (hwWriteChep p old w).getLsbD i = (old.getLsbD i && (w.getLsbD i == neutralC p)) := by
  rw [getLsbD_hwWriteChep h old w hi, isToggle_of_isClear h hc, if_neg Bool.false_ne_true, if_pos hc]

end

/-- Settles O21: one clause for each kind of bit. -/
theorem hardwareWrite : Obligations.HardwareWrite := by
  refine ⟨fun p old w i h hi => ⟨fun ht => ?toggle, fun hc => ?clear, fun hk => ?kept⟩,
    fun s a c c' w => readChep_writeChep a c w s c'⟩
  case toggle =>
    rw [getLsbD_tMask, Bool.and_eq_true] at ht
    exact getLsbD_hwWriteChep_toggle h hi old w ht.1
  case clear =>
    rw [getLsbD_cMask, Bool.and_eq_true] at hc
    rw [getLsbD_hwWriteChep_clear h hi old w hc.1, getLsbD_clearC_zero]
    cases w.getLsbD i <;> cases neutralC p <;> simp
  case kept =>
    rw [getLsbD_keptMask h hi, Bool.and_eq_true, Bool.not_eq_true', Bool.not_eq_true'] at hk
    exact hwWriteChep_kept h old w i hi hk.1 hk.2

/-! One field. -/

theorem inField_lo_add {f : Field} {i : Nat} (h : i < f.width) : inField f (f.lo + i) = true := by
  simp [inField, h]

theorem fieldGet_toNat_lt (f : Field) (v : Word32) : (fieldGet f v).toNat < 2 ^ f.width := by
  apply Nat.lt_pow_two_of_testBit
  intro i hi
  rw [BitVec.testBit_toNat, getLsbD_fieldGet, decide_eq_false (Nat.not_lt.mpr hi), Bool.false_and]

/-- Masking to a width a value fits changes nothing. -/
theorem and_allOnes_of_lt {x : Word32} {n : Nat} (h : x.toNat < 2 ^ n) : x &&& (BitVec.allOnes n).setWidth 32 = x := by
  apply BitVec.eq_of_getLsbD_eq
  intro i hi
  simp only [BitVec.getLsbD_and, BitVec.getLsbD_setWidth, BitVec.getLsbD_allOnes, decide_eq_true hi, Bool.true_and]
  by_cases hn : i < n
  · simp [hn]
  · have hx : x.getLsbD i = false :=
      Nat.testBit_lt_two_pow (h.trans_le (Nat.pow_le_pow_right (by decide) (Nat.not_lt.mp hn)))
    rw [hx, Bool.false_and]

theorem fieldGet_fieldPut_of_lt {f : Field} {x : Word32} (v : Word32) (hfit : f.lo + f.width ≤ 32)
    (hx : x.toNat < 2 ^ f.width) : fieldGet f (fieldPut f v x) = x := by
  rw [fieldGet_fieldPut f v x hfit, and_allOnes_of_lt hx]

/-- A number that fits the field is what the field then holds. -/
theorem fieldGet_fieldPut_ofNat {f : Field} {x : Nat} (v : Word32) (hfit : f.lo + f.width ≤ 32) (hx : x < 2 ^ f.width) :
    fieldGet f (fieldPut f v (BitVec.ofNat 32 x)) = BitVec.ofNat 32 x :=
  fieldGet_fieldPut_of_lt v hfit ((BitVec.toNat_ofNat x 32 ▸ Nat.mod_le x (2 ^ 32)).trans_lt hx)

/-- A bit of kind RW is of no kind the hardware treats apart (30_encoding.md R117). -/
theorem isPlain_kinds {l : ChepLayout} (h : chepLayoutWf l = true) {i : Nat} (hp : isPlain l i = true) :
    isToggle l i = false ∧ isClear l i = false := by
  refine ⟨Bool.eq_false_iff.mpr fun ht => ?_, Bool.eq_false_iff.mpr fun hc => ?_⟩
  · rw [isPlain_of_isToggle h ht] at hp
    cases hp
  · rw [isPlain_of_isClear h hc] at hp
    cases hp

section
variable {p : Params} (h : chepLayoutWf p.chep = true) {f : Field} (hfit : f.lo + f.width ≤ 32) (old w : Word32)
include h hfit

theorem fieldGet_hwWriteChep_toggle (hf : ∀ i, inField f i = true → isToggle p.chep i = true) :
    fieldGet f (hwWriteChep p old w) = fieldGet f old ^^^ fieldGet f w := by
  apply BitVec.eq_of_getLsbD_eq
  intro i _
  simp only [BitVec.getLsbD_xor, getLsbD_fieldGet]
  by_cases hw : i < f.width
  · rw [getLsbD_hwWriteChep_toggle h (by omega) old w (hf _ (inField_lo_add hw))]
    simp [hw]
  · simp [hw]

theorem fieldGet_hwWriteChep_plain (hf : f ∈ plainFields p.chep) : fieldGet f (hwWriteChep p old w) = fieldGet f w := by
  apply BitVec.eq_of_getLsbD_eq
  intro i _
  simp only [getLsbD_fieldGet]
  by_cases hw : i < f.width
  · obtain ⟨ht, hc⟩ := isPlain_kinds h (inField_plain hf (inField_lo_add hw))
    rw [hwWriteChep_kept h old w _ (by omega) ht hc]
  · simp [hw]

end

/-! The status of a half (44_channel_register.md R192). -/

theorem statField_width (l : ChepLayout) (hf : Half) : (statField l hf).width = 2 := by cases hf <;> rfl

theorem statField_fits {l : ChepLayout} (h : chepLayoutWf l = true) (hf : Half) :
    (statField l hf).lo + (statField l hf).width ≤ 32 :=
  chepLayoutWf_fits h _ (by cases hf <;> simp [toggleFields])

/-- The code of a status is what the field holds. -/
theorem statusCode_getStat (p : Params) (hf : Half) (v : Word32) :
    statusCode (getStat p hf v) = (fieldGet (statField p.chep hf) v).toNat := by
  have hlt := fieldGet_toNat_lt (statField p.chep hf) v
  rw [statField_width] at hlt
  exact statusCode_statusOf _ hlt

theorem statusCode_inj {a b : Status} (h : statusCode a = statusCode b) : a = b := by
  rw [← statusOf_statusCode a, h, statusOf_statusCode]

theorem toNat_ofNat_statusCode (st : Status) : (BitVec.ofNat 32 (statusCode st)).toNat = statusCode st := by
  cases st <;> rfl

/-- A status write leaves the XOR of three statuses, whatever the register has become (44_channel_register.md R192). -/
theorem statusCode_getStat_setstatWord {p : Params} (h : chepLayoutWf p.chep = true) (hf : Half) (old cur : Word32)
    (target : Status) : statusCode (getStat p hf (hwWriteChep p old (setstatWord p hf cur target))) =
      statusCode (getStat p hf old) ^^^ statusCode (getStat p hf cur) ^^^ statusCode target := by
  have hfit := statField_fits h hf
  have hword : fieldGet (statField p.chep hf) (setstatWord p hf cur target) =
      fieldGet (statField p.chep hf) cur ^^^ BitVec.ofNat 32 (statusCode target) := by
    refine fieldGet_fieldPut_of_lt _ hfit ?_
    rw [BitVec.toNat_xor, toNat_ofNat_statusCode]
    exact Nat.xor_lt_two_pow (fieldGet_toNat_lt _ _) (by rw [statField_width]; exact statusCode_lt target)
  rw [statusCode_getStat, fieldGet_hwWriteChep_toggle h hfit _ _ fun _ => inField_statField hf, hword,
    statusCode_getStat, statusCode_getStat, BitVec.toNat_xor, BitVec.toNat_xor, toNat_ofNat_statusCode, Nat.xor_assoc]

/-- The status is the target where it is at the write what was read (44_channel_register.md R192). -/
theorem getStat_setstatWord_of_same {p : Params} (h : chepLayoutWf p.chep = true) {hf : Half} {old cur : Word32}
    (target : Status) (hsame : getStat p hf old = getStat p hf cur) :
    getStat p hf (hwWriteChep p old (setstatWord p hf cur target)) = target :=
  statusCode_inj (by rw [statusCode_getStat_setstatWord h, hsame, Nat.xor_self, Nat.zero_xor])

/-! The canonical value (44_channel_register.md R191). -/

theorem canon_canon {p : Params} (h : chepLayoutWf p.chep = true) (v : Word32) : canon p (canon p v) = canon p v := by
  apply BitVec.eq_of_getLsbD_eq
  intro i hi
  rw [getLsbD_canon h _ hi, getLsbD_canon h v hi]
  cases isToggle p.chep i <;> cases isClear p.chep i <;> rfl

/-- The canonical value ignores the bits of kinds T and C. -/
theorem canon_congr {p : Params} {v w : Word32}
    (h : v &&& (rwMask p.chep ||| pMask p.chep) = w &&& (rwMask p.chep ||| pMask p.chep)) : canon p v = canon p w := by
  rw [canon, canon, h]

/-! The configuration fields (44_channel_register.md R196). -/

theorem getLsbD_configFields_of_not_plain {p : Params} (v : Word32) (etype : EType) (dev : Nat) (c : Chan) {i : Nat}
    (hp : isPlain p.chep i = false) : (configFields p v etype dev c).getLsbD i = v.getLsbD i := by
  have hno : ∀ f ∈ plainFields p.chep, inField f i = false := fun f hf => Bool.eq_false_iff.mpr fun hi => by
    rw [inField_plain hf hi] at hp
    cases hp
  simp only [plainFields, List.mem_cons, List.not_mem_nil, or_false, forall_eq_or_imp, forall_eq] at hno
  obtain ⟨hea, het, hda⟩ := hno
  simp only [configFields, getLsbD_fieldPut, hea, het, hda, Bool.false_and, Bool.false_eq_true, if_false]

theorem plainFields_apart {l : ChepLayout} (h : chepLayoutWf l = true) :
    fieldsApart (epTypeField l) (eaField l) = true ∧ fieldsApart (devaddrField l) (eaField l) = true ∧
      fieldsApart (epTypeField l) (devaddrField l) = true := by
  have hp := (List.pairwise_append.mp (chepLayoutWf_pairwise h)).2.1
  simp only [plainFields, List.pairwise_cons, List.mem_cons, List.not_mem_nil, or_false, forall_eq_or_imp,
    forall_eq] at hp
  obtain ⟨⟨hea_et, hea_da⟩, het_da, -⟩ := hp
  exact ⟨fieldsApart_symm hea_et, fieldsApart_symm hea_da, het_da⟩

theorem plainFields_fit {l : ChepLayout} (h : chepLayoutWf l = true) {f : Field} (hf : f ∈ plainFields l) :
    f.lo + f.width ≤ 32 := chepLayoutWf_fits h f (List.mem_append_right _ hf)

theorem regType_lt (etype : EType) : regType etype < 4 := by cases etype <;> decide

section
variable {p : Params} (h : chepLayoutWf p.chep = true) (old cur : Word32) (etype : EType) (dev : Nat) (c : Chan)
include h

theorem epType_initWord : fieldGet (epTypeField p.chep) (hwWriteChep p old (initWord p cur etype dev c)) =
    BitVec.ofNat 32 (regType etype) := by
  obtain ⟨hea, -, hda⟩ := plainFields_apart h
  have hf : epTypeField p.chep ∈ plainFields p.chep := by simp [plainFields]
  have hfit := plainFields_fit h hf
  rw [fieldGet_hwWriteChep_plain h hfit _ _ hf, initWord, configFields, fieldGet_fieldPut_apart _ _ _ _ hea,
    fieldGet_fieldPut_apart _ _ _ _ hda, fieldGet_fieldPut_ofNat _ hfit (regType_lt etype)]

theorem devaddr_initWord (hdev : dev < 128) :
    fieldGet (devaddrField p.chep) (hwWriteChep p old (initWord p cur etype dev c)) = BitVec.ofNat 32 dev := by
  obtain ⟨-, hea, -⟩ := plainFields_apart h
  have hf : devaddrField p.chep ∈ plainFields p.chep := by simp [plainFields]
  have hfit := plainFields_fit h hf
  rw [fieldGet_hwWriteChep_plain h hfit _ _ hf, initWord, configFields, fieldGet_fieldPut_apart _ _ _ _ hea,
    fieldGet_fieldPut_ofNat _ hfit hdev]

theorem ea_initWord :
    fieldGet (eaField p.chep) (hwWriteChep p old (initWord p cur etype dev c)) = BitVec.ofNat 32 c.val := by
  have hf : eaField p.chep ∈ plainFields p.chep := by simp [plainFields]
  have hfit := plainFields_fit h hf
  rw [fieldGet_hwWriteChep_plain h hfit _ _ hf, initWord, configFields,
    fieldGet_fieldPut_ofNat _ hfit (show c.val < 2 ^ 4 by omega)]

/-- The claim-time write leaves the toggle bits and the flags as the register has them (44_channel_register.md R196). -/
theorem toggles_and_flags_initWord :
    hwWriteChep p old (initWord p cur etype dev c) &&& (tMask p.chep ||| cMask p.chep) =
      old &&& (tMask p.chep ||| cMask p.chep) := by
  apply BitVec.eq_of_getLsbD_eq
  intro i hi
  rw [BitVec.getLsbD_and, BitVec.getLsbD_and, BitVec.getLsbD_or, getLsbD_tMask, getLsbD_cMask]
  cases ht : isToggle p.chep i
  · cases hc : isClear p.chep i
    · simp
    · rw [getLsbD_hwWriteChep_clear h hi _ _ hc, initWord,
        getLsbD_configFields_of_not_plain _ _ _ _ (isPlain_of_isClear h hc), getLsbD_canon h _ hi]
      simp [ht, hc]
  · rw [getLsbD_hwWriteChep_toggle h hi _ _ ht, initWord,
      getLsbD_configFields_of_not_plain _ _ _ _ (isPlain_of_isToggle h ht), getLsbD_canon h _ hi]
    simp [ht]

end

/-- Whatever is of no kind RW is of kind T, C or P (30_encoding.md R117). -/
theorem not_rwMask {l : ChepLayout} (h : chepLayoutWf l = true) :
    ~~~ rwMask l = tMask l ||| cMask l ||| pMask l := by
  apply BitVec.eq_of_getLsbD_eq
  intro i hi
  simp only [pMask, BitVec.getLsbD_not, BitVec.getLsbD_or, getLsbD_rwMask, getLsbD_tMask, getLsbD_cMask,
    decide_eq_true hi, Bool.and_true, Bool.true_and]
  cases ht : isToggle l i
  · cases hc : isClear l i
    · simp
    · simp [isPlain_of_isClear h hc]
  · simp [isPlain_of_isToggle h ht]

/-- Where the preserved bits are as they were read, the claim-time write changes the configuration fields alone
(44_channel_register.md R196). -/
theorem nonConfig_initWord {p : Params} (h : chepLayoutWf p.chep = true) {old cur : Word32} (etype : EType) (dev : Nat)
    (c : Chan) (hP : old &&& pMask p.chep = cur &&& pMask p.chep) :
    hwWriteChep p old (initWord p cur etype dev c) &&& ~~~ rwMask p.chep = old &&& ~~~ rwMask p.chep := by
  have hpreserved : hwWriteChep p old (initWord p cur etype dev c) &&& pMask p.chep = old &&& pMask p.chep :=
    (others_changeWord h c old cur (.init etype dev)).trans hP.symm
  rw [not_rwMask h, BitVec.and_or_distrib_left, toggles_and_flags_initWord h, hpreserved, ← BitVec.and_or_distrib_left]

end Sys2Proof.Laws
end

section
/-! PROOFS. The commands of the channel register (44_channel_register.md R191–R197): `CR.READ` and `CR.CANON` end as they
begin; the others are one read-modify-write, whatever other agents do at the point within it. -/

namespace Sys2Proof.Laws

open Sys2Proof.Machine

/-! Words. -/

theorem crInit_wf_of_inRange {ch : Chan} {etype : EType} {dev : Nat} (h : FieldsInRange (encodeFields (.crInit ch etype dev))) :
    (Instr.crInit ch etype dev).wf = true := by
  obtain ⟨-, -, -, -, hdev, -⟩ := h
  exact decide_eq_true hdev

theorem encodedAs_crSetstat (ch : Chan) (d : Dir) (target : Status) :
    EncodedAs ⟨0x32, ch.val, if d = .dirIn then 1 else 0, 0, 0, 0, statusCode target⟩ (.crSetstat ch d target) := by
  cases d
  · exact encodedAs_encodeFields (i := .crSetstat ch .dirOut target) rfl
  · exact encodedAs_encodeFields (i := .crSetstat ch .dirIn target) rfl

/-! `CR.READ` (44_channel_register.md R195) and `CR.CANON` (R191). -/

theorem exec_crRead (s : State) (ch : Chan) :
    exec (.crRead ch) s = .next (handOut (.task s.task) (.ok (.register (readChep s ch))) s) :=
  exec_of_begin_done (by simp) rfl

theorem exec_crCanon (s : State) (v : Word32) :
    exec (.crCanon v) s = .next (handOut (.task s.task) (.ok (.register (canon s.params v))) s) :=
  exec_of_begin_done (by simp) rfl

/-- Settles O22: both commands reply as they begin, and the laws hold bit by bit. -/
theorem canonicalValue : Obligations.CanonicalValue :=
  ⟨fun ch => encodedAs_encodeFields (i := .crRead ch) rfl, fun v => encodedAs_encodeFields (i := .crCanon v) rfl,
    exec_crRead, exec_crCanon,
    fun p v _ h => ⟨canon_canon h v, hwWriteChep_canon h (agreeKept_refl p v), fun hx => canon_congr (kept_eq_of_xor hx)⟩⟩

/-! A command that is one read-modify-write. -/

theorem setChep_readChep (s : State) (c : Chan) : setChep s c (readChep s c) = s := by
  simp only [setChep, readChep]
  exact congrArg (fun regs => { s with chep := regs }) (Vector.set_getElem_self c.isLt)

theorem readChep_written (s : State) (c : Chan) (v : Word32) (a : Agent) (r : Result) (e : LogEntry) :
    readChep (handOut a r (appendLog (setChep s c v) e)) c = v := (readChep_setChep s c v c).trans (if_pos rfl)

section
variable {i : Instr} {s s1 : State} {c : Chan} {change : RegChange} (hi : i ≠ .irqDispatch)
  (hb : begin i (sideOf s) s = .ok [changeReg c change, replyUnit] s) (h : taskPoint s = .ok () s1)
include hi hb h

/-- The word computed from the register as it was read is written to the register as it stands after the point, and logged
(44_channel_register.md R199). -/
theorem exec_changeReg : exec i s = .next (handOut (.task s.task) (.ok .unit)
    (appendLog (setChep s1 c (hwWriteChep s.params (readChep s1 c) (changeWord s.params c (readChep s c) change)))
      (.writeChep (.task s.task) c (changeWord s.params c (readChep s c) change)))) := by
  have hp := taskPoint_params s
  rw [h, Run.state_ok] at hp
  rw [exec_eq_runCommand hi, hb, replyUnit, runCommand_changeReg c change h, writeChep, hp]

/-- The same, with the register named as it stands after the command. -/
theorem exec_changeReg_written : ∃ t, exec i s = .next t ∧
    t = handOut (.task s.task) (.ok .unit) (appendLog (setChep s1 c (readChep t c))
      (.writeChep (.task s.task) c (changeWord s.params c (readChep s c) change))) ∧
    readChep t c = hwWriteChep s.params (readChep s1 c) (changeWord s.params c (readChep s c) change) := by
  exact ⟨_, exec_changeReg hi hb h, by rw [readChep_written], readChep_written ..⟩

end

/-- The dispatcher and the environment leave the bits of kinds RW and P as they were (48_peripheral.md R275). -/
theorem kept_at_taskPoint {s s1 : State} (ch : Chan) (hl : chepLayoutWf s.params.chep = true) (hn : noTaskSteps s)
    (h : taskPoint s = .ok () s1) : readChep s1 ch &&& (rwMask s.params.chep ||| pMask s.params.chep) =
      readChep s ch &&& (rwMask s.params.chep ||| pMask s.params.chep) := by
  have hk := (RegsKept.taskPoint hl hn (RegsKept.refl s)).1.regs ch
  rw [h, Run.state_ok] at hk
  exact (kept_eq_of_agree hl hk).symm

/-- Settles O23: one read-modify-write, whose word toggles the status alone. -/
theorem setStatus : Obligations.SetStatus := by
  refine ⟨encodedAs_crSetstat, fun s s1 ch d target hl h => ?_⟩
  refine ⟨exec_changeReg (change := .setStatus (dirHalf d) target) (by simp) rfl h,
    statusCode_getStat_setstatWord hl (dirHalf d) (readChep s1 ch) (readChep s ch) target,
    getStat_setstatWord_of_same hl target, fun hkept => ?_, fun hn => kept_at_taskPoint ch hl hn h⟩
  rw [BitVec.xor_assoc]
  exact hwWriteChep_setstatWord hl (dirHalf d) target ((agreeKept_iff_kept_eq hl).mpr hkept.symm)

/-- Settles O25: both commands are one read-modify-write, whose word clears the named flags alone. -/
theorem clearFlags : Obligations.ClearFlags := by
  refine ⟨fun ch fs => ⟨encodedAs_encodeFields (i := .crClrctr ch fs) rfl, encodedAs_encodeFields (i := .crClrerr ch fs) rfl⟩,
    fun s s1 ch fs hl h => ⟨?complete, ?error⟩⟩
  case complete =>
    obtain ⟨t, he, ht, hr⟩ := exec_changeReg_written (i := .crClrctr ch fs) (change := .clearComplete fs) (by simp) rfl h
    exact ⟨t, he, ht, hr, fun hkept => hr.trans (hwWriteChep_clrctrWord hl fs ((agreeKept_iff_kept_eq hl).mpr hkept.symm))⟩
  case error =>
    obtain ⟨t, he, ht, hr⟩ := exec_changeReg_written (i := .crClrerr ch fs) (change := .clearError fs) (by simp) rfl h
    exact ⟨t, he, ht, hr, fun hkept => hr.trans (hwWriteChep_clrerrWord hl fs ((agreeKept_iff_kept_eq hl).mpr hkept.symm))⟩

/-- Settles O26: one read-modify-write, whose word sets the configuration fields alone. -/
theorem initialiseChannel : Obligations.InitialiseChannel := by
  refine ⟨fun ch etype dev => encodedAs_of_inRange (i := .crInit ch etype dev) crInit_wf_of_inRange,
    fun s s1 ch etype dev hl hdev h => ?_⟩
  obtain ⟨t, he, ht, hr⟩ :=
    exec_changeReg_written (i := .crInit ch etype dev) (change := .init etype dev) (by simp) rfl h
  refine ⟨t, he, ht, hr, ?_⟩
  rw [hr]
  exact ⟨epType_initWord hl _ _ etype dev ch, devaddr_initWord hl _ _ etype dev ch hdev, ea_initWord hl _ _ etype dev ch,
    toggles_and_flags_initWord hl _ _ etype dev ch, nonConfig_initWord hl etype dev ch⟩

/-- Settles O27: one read-modify-write of the canonical value, which the hardware takes as no change. -/
theorem touchChangesNothing : Obligations.TouchChangesNothing := by
  refine ⟨fun ch => encodedAs_encodeFields (i := .crTouch ch) rfl, fun s s1 ch hl h => ?_⟩
  have hexec := exec_changeReg (i := .crTouch ch) (change := .touch) (by simp) rfl h
  refine ⟨hexec, fun hkept => ?_⟩
  rw [hexec, changeWord, hwWriteChep_canon hl ((agreeKept_iff_kept_eq hl).mpr hkept.symm), setChep_readChep]

end Sys2Proof.Laws
end

section
/-! PROOFS. The interrupt status register (45_dispatcher.md R210, 10_state.md R45–R47, 30_encoding.md R121): its write function
and the word of a read, bit by bit. -/

namespace Sys2Proof.Laws

open Sys2Proof.Machine

/-! Single bits in place. -/

theorem getLsbD_bitAt (n i : Nat) : (bitAt n).getLsbD i = (decide (i = n) && decide (i < 32)) := by
  simp only [bitAt, BitVec.getLsbD_shiftLeft, BitVec.getLsbD_one]
  by_cases h : i = n
  · simp [h]
  · by_cases hlt : i < n
    · simp [hlt, h]
    · have hne : i - n ≠ 0 := by omega
      simp [hne, h]

theorem getLsbD_bitWord_shiftLeft (b : Bool) (n i : Nat) :
    (bitWord b <<< n).getLsbD i = (b && decide (i = n) && decide (i < 32)) := by
  cases b
  · simp [bitWord]
  · exact getLsbD_bitAt n i

/-- A channel index in the `IDN` field, which is one bit wider (10_state.md R45). -/
theorem getLsbD_idn_shiftLeft (c : Chan) (n : Nat) {i : Nat} (hi : i < 32) :
    (BitVec.ofNat 32 c.val <<< n).getLsbD i = (inField ⟨n, 4⟩ i && (BitVec.ofNat 32 c.val).getLsbD (i - n)) := by
  have hc : (BitVec.ofNat 32 c.val).toNat < 2 ^ 4 := by
    rw [BitVec.toNat_ofNat]
    omega
  rw [BitVec.getLsbD_shiftLeft, decide_eq_true hi, Bool.true_and, inField]
  by_cases hlo : i < n
  · simp [hlo]
  · by_cases hhi : i < n + 4
    · simp [hhi, Nat.not_lt.mp hlo]
    · have hz : (BitVec.ofNat 32 c.val).getLsbD (i - n) = false :=
        Nat.testBit_lt_two_pow (hc.trans_le (Nat.pow_le_pow_right (by decide) (by omega)))
      rw [hz, Bool.and_false, Bool.and_false]

/-- Clearing a bit that is not set changes nothing. -/
theorem and_not_bitAt_of_unset {v : Word32} {n : Nat} (h : v.getLsbD n = false) : v &&& ~~~ bitAt n = v := by
  apply BitVec.eq_of_getLsbD_eq
  intro i hi
  rw [BitVec.getLsbD_and, BitVec.getLsbD_not, getLsbD_bitAt, decide_eq_true hi]
  by_cases hin : i = n
  · rw [hin, h, Bool.false_and]
  · simp [hin]

theorem and_not_zero (v : Word32) : v &&& ~~~ (0 : Word32) = v :=
  (congrArg (v &&& ·) BitVec.not_zero).trans BitVec.and_allOnes

/-- Clearing a bit where it is set clears it. -/
theorem and_not_bitAt_if_set {v : Word32} {n : Nat} {b : Bool} (h : b = v.getLsbD n) :
    v &&& ~~~ (if b then bitAt n else 0) = v &&& ~~~ bitAt n := by
  cases b
  · exact (and_not_zero v).trans (and_not_bitAt_of_unset h.symm).symm
  · rfl

theorem and_not_or (v a b : Word32) : v &&& ~~~ (a ||| b) = v &&& ~~~ a &&& (v &&& ~~~ b) := by
  apply BitVec.eq_of_getLsbD_eq
  intro i hi
  simp only [BitVec.getLsbD_and, BitVec.getLsbD_not, BitVec.getLsbD_or]
  cases v.getLsbD i <;> cases a.getLsbD i <;> cases b.getLsbD i <;> simp

/-- The same for two bits at once. -/
theorem and_not_bitAts_if_set {v : Word32} {m n : Nat} {a b : Bool} (ha : a = v.getLsbD m) (hb : b = v.getLsbD n) :
    v &&& ~~~ ((if a then bitAt m else 0) ||| (if b then bitAt n else 0)) = v &&& ~~~ (bitAt m ||| bitAt n) := by
  rw [and_not_or, and_not_bitAt_if_set ha, and_not_bitAt_if_set hb, ← and_not_or]

theorem and_not_and_not (v a b : Word32) : v &&& ~~~ a &&& ~~~ b = v &&& ~~~ (a ||| b) := by
  rw [BitVec.not_or, BitVec.and_assoc]

/-! The layout (10_state.md R45). -/

/-- The bits of a read that hold a read-only field. -/
def istrFieldBits (l : IstrLayout) : Word32 := fieldMask ⟨l.idn, 4⟩ ||| bitAt l.dir ||| bitAt l.ctr ||| bitAt l.dconStat

theorem getLsbD_istrFieldBits (l : IstrLayout) {i : Nat} (hi : i < 32) : (istrFieldBits l).getLsbD i =
    (inField ⟨l.idn, 4⟩ i || decide (i = l.dir) || decide (i = l.ctr) || decide (i = l.dconStat)) := by
  simp only [istrFieldBits, BitVec.getLsbD_or, getLsbD_fieldMask, getLsbD_bitAt, decide_eq_true hi, Bool.and_true]

/-- What an admitted layout says, bit by bit. -/
structure IstrPlaces (p : Params) : Prop where
  fits : p.istr.idn + 4 ≤ 32 ∧ p.istr.dir < 32 ∧ p.istr.ctr < 32 ∧ p.istr.dconStat < 32
  latched : ∀ i, (latchMask p).getLsbD i = true → p.istr.clearable.getLsbD i = true
  idnApart : ∀ n, n = p.istr.dir ∨ n = p.istr.ctr ∨ n = p.istr.dconStat → inField ⟨p.istr.idn, 4⟩ n = false
  bitsApart : p.istr.dir ≠ p.istr.ctr ∧ p.istr.dir ≠ p.istr.dconStat ∧ p.istr.ctr ≠ p.istr.dconStat
  notStored : ∀ i, (istrFieldBits p.istr).getLsbD i = true → (p.istr.clearable ||| p.istr.otherRo).getLsbD i = false

theorem and_not_eq_zero_of_bits {a b : Word32} (h : ∀ i, a.getLsbD i = true → b.getLsbD i = true) : a &&& ~~~ b = 0 :=
  and_eq_zero_of_bits fun i hi => by rw [BitVec.getLsbD_not, h i hi, Bool.not_true, Bool.and_false]

theorem bit_of_and_not_eq_zero {a b : Word32} (h : a &&& ~~~ b = 0) {i : Nat} (ha : a.getLsbD i = true) :
    b.getLsbD i = true := by
  have hbit := congrArg (BitVec.getLsbD · i) h
  simpa [BitVec.getLsbD_and, BitVec.getLsbD_not, ha, BitVec.lt_of_getLsbD ha] using hbit

theorem bit_of_and_eq_zero {a b : Word32} (h : a &&& b = 0) {i : Nat} (ha : a.getLsbD i = true) :
    b.getLsbD i = false := by
  have hbit := congrArg (BitVec.getLsbD · i) h
  simpa [BitVec.getLsbD_and, ha] using hbit

theorem istrPlaces {p : Params} (h : istrLayoutWf p.istr = true) : IstrPlaces p := by
  simp only [istrLayoutWf, Bool.and_eq_true, decide_eq_true_eq] at h
  obtain ⟨⟨⟨⟨hfits, hapart⟩, hlatched⟩, hro⟩, -⟩ := h
  simp only [List.all_cons, List.all_nil, Bool.and_eq_true, decide_eq_true_eq, Bool.and_true] at hfits
  simp only [List.pairwise_cons, List.mem_cons, List.not_mem_nil, or_false, forall_eq_or_imp, forall_eq, fieldsApart,
    Bool.or_eq_true, decide_eq_true_eq] at hapart
  obtain ⟨hidn, hdir, -, -, -, hctr, hstat⟩ := hfits
  obtain ⟨⟨hid, -, -, -, hic, his⟩, ⟨-, -, -, hdc, hds⟩, -, -, -, hcs, -⟩ := hapart
  refine ⟨⟨hidn, hdir, hctr, hstat⟩, fun i => bit_of_and_not_eq_zero hlatched, fun n hn => ?_,
    ⟨by omega, by omega, by omega⟩, fun i => bit_of_and_eq_zero hro⟩
  simp only [inField, Bool.and_eq_false_iff, decide_eq_false_iff_not]
  omega

/-! The write function (45_dispatcher.md R210). -/

/-- A write clears the clearable bits that hold the clearing value, and no other bit. -/
theorem getLsbD_hwWriteIstr_eq (p : Params) (old w : Word32) {i : Nat} (hi : i < 32) :
    (hwWriteIstr p old w).getLsbD i = (old.getLsbD i &&
      !(p.istr.clearable.getLsbD i && (w.getLsbD i == decide (p.istrPolarity = .w1c)))) := by
  simp only [hwWriteIstr]
  cases p.istrPolarity <;>
    simp only [BitVec.getLsbD_or, BitVec.getLsbD_and, BitVec.getLsbD_not, decide_eq_true hi, reduceCtorEq, decide_true,
      decide_false] <;>
    cases old.getLsbD i <;> cases p.istr.clearable.getLsbD i <;> cases w.getLsbD i <;> rfl

/-- The clearing value of a set of clearable bits clears that set. -/
theorem hwWriteIstr_clearIstr {p : Params} {set : Word32} (h : set &&& ~~~ p.istr.clearable = 0) (old : Word32) :
    hwWriteIstr p old (clearIstr p set) = old &&& ~~~ set := by
  apply BitVec.eq_of_getLsbD_eq
  intro i hi
  have hset := fun hs => bit_of_and_not_eq_zero h (i := i) hs
  rw [getLsbD_hwWriteIstr_eq p old _ hi, BitVec.getLsbD_and, BitVec.getLsbD_not, decide_eq_true hi, clearIstr]
  cases p.istrPolarity <;>
    simp only [BitVec.getLsbD_and, BitVec.getLsbD_not, decide_eq_true hi, reduceCtorEq, decide_true, decide_false] <;>
    cases hs : set.getLsbD i <;> cases hc : p.istr.clearable.getLsbD i <;> simp_all

theorem hwWriteIstr_istrNeutral (p : Params) (old : Word32) : hwWriteIstr p old (istrNeutral p) = old := by
  rw [istrNeutral, hwWriteIstr_clearIstr (by simp), and_not_zero]

/-! The word of a read (30_encoding.md R121). -/

theorem getLsbD_istrWord (p : Params) (r : IstrRead) {i : Nat} (hi : i < 32) : (istrWord p r).getLsbD i =
    (r.other.getLsbD i && (p.istr.clearable ||| p.istr.otherRo).getLsbD i ||
      inField ⟨p.istr.idn, 4⟩ i && (BitVec.ofNat 32 r.idn.val).getLsbD (i - p.istr.idn) ||
      r.dir && decide (i = p.istr.dir) || r.ctr && decide (i = p.istr.ctr) || r.dconStat && decide (i = p.istr.dconStat)) := by
  simp only [istrWord, BitVec.getLsbD_or, BitVec.getLsbD_and, getLsbD_idn_shiftLeft _ _ hi, getLsbD_bitWord_shiftLeft,
    decide_eq_true hi, Bool.and_true]

section
variable {p : Params} (h : IstrPlaces p) (r : IstrRead)
include h

/-- A bit that holds a field is no stored bit. -/
theorem not_stored_of_field {i : Nat} (hi : i < 32) (hf : inField ⟨p.istr.idn, 4⟩ i = true ∨ i = p.istr.dir ∨
    i = p.istr.ctr ∨ i = p.istr.dconStat) : (p.istr.clearable ||| p.istr.otherRo).getLsbD i = false := by
  refine h.notStored i ((getLsbD_istrFieldBits p.istr hi).trans ?_)
  simpa only [Bool.or_eq_true, decide_eq_true_eq, or_assoc] using hf

theorem idn_istrWord : fieldGet ⟨p.istr.idn, 4⟩ (istrWord p r) = BitVec.ofNat 32 r.idn.val := by
  obtain ⟨hidn, -⟩ := h.fits
  refine Eq.trans ?_ (and_allOnes_of_lt (n := 4) (x := BitVec.ofNat 32 r.idn.val) ?_)
  · apply BitVec.eq_of_getLsbD_eq
    intro i hi
    rw [getLsbD_fieldGet, BitVec.getLsbD_and, BitVec.getLsbD_setWidth, BitVec.getLsbD_allOnes, decide_eq_true hi]
    by_cases hw : i < 4
    · have hin : inField ⟨p.istr.idn, 4⟩ (p.istr.idn + i) = true := inField_lo_add hw
      have hne : ∀ n, n = p.istr.dir ∨ n = p.istr.ctr ∨ n = p.istr.dconStat → p.istr.idn + i ≠ n := fun n hn e => by
        cases (h.idnApart n hn).symm.trans (e ▸ hin)
      have hlt : p.istr.idn + i < 32 := by omega
      rw [getLsbD_istrWord p r hlt, hin, not_stored_of_field h hlt (.inl hin)]
      simp [hw, hne _ (.inl rfl), hne _ (.inr (.inl rfl)), hne _ (.inr (.inr rfl))]
    · simp [hw]
  · rw [BitVec.toNat_ofNat]
    omega

theorem dir_istrWord : (istrWord p r).getLsbD p.istr.dir = r.dir := by
  obtain ⟨-, hlt, -, -⟩ := h.fits
  obtain ⟨hctr, hstat, -⟩ := h.bitsApart
  have hidn := h.idnApart p.istr.dir (.inl rfl)
  rw [getLsbD_istrWord p r hlt, not_stored_of_field h hlt (.inr (.inl rfl))]
  simp [hidn, hctr, hstat]

theorem ctr_istrWord : (istrWord p r).getLsbD p.istr.ctr = r.ctr := by
  obtain ⟨-, -, hlt, -⟩ := h.fits
  obtain ⟨hdir, -, hstat⟩ := h.bitsApart
  have hidn := h.idnApart p.istr.ctr (.inr (.inl rfl))
  rw [getLsbD_istrWord p r hlt, not_stored_of_field h hlt (.inr (.inr (.inl rfl)))]
  simp [hidn, hdir.symm, hstat]

theorem dconStat_istrWord : (istrWord p r).getLsbD p.istr.dconStat = r.dconStat := by
  obtain ⟨-, -, -, hlt⟩ := h.fits
  obtain ⟨-, hdir, hctr⟩ := h.bitsApart
  have hidn := h.idnApart p.istr.dconStat (.inr (.inr rfl))
  rw [getLsbD_istrWord p r hlt, not_stored_of_field h hlt (.inr (.inr (.inr rfl)))]
  simp [hidn, hdir.symm, hctr.symm]

/-- The stored bits read as they are (10_state.md R45). -/
theorem stored_istrWord : istrWord p r &&& (p.istr.clearable ||| p.istr.otherRo) =
    r.other &&& (p.istr.clearable ||| p.istr.otherRo) := by
  apply BitVec.eq_of_getLsbD_eq
  intro i hi
  rw [BitVec.getLsbD_and, BitVec.getLsbD_and]
  cases hk : (p.istr.clearable ||| p.istr.otherRo).getLsbD i
  · simp
  · have hno : ¬ (inField ⟨p.istr.idn, 4⟩ i = true ∨ i = p.istr.dir ∨ i = p.istr.ctr ∨ i = p.istr.dconStat) := fun hf => by
      simp [not_stored_of_field h hi hf] at hk
    simp only [not_or, Bool.not_eq_true] at hno
    obtain ⟨hidn, hdir, hctr, hstat⟩ := hno
    rw [getLsbD_istrWord p r hi, hk, hidn]
    simp [hdir, hctr, hstat]

end

/-- No other bit is set. -/
theorem rest_istrWord (p : Params) (r : IstrRead) :
    istrWord p r &&& ~~~ (p.istr.clearable ||| p.istr.otherRo ||| istrFieldBits p.istr) = 0 := by
  apply BitVec.eq_of_getLsbD_eq
  intro i hi
  have hz : BitVec.getLsbD (0 : Word32) i = false := BitVec.getLsbD_zero
  rw [hz, BitVec.getLsbD_and, BitVec.getLsbD_not, BitVec.getLsbD_or, getLsbD_istrWord p r hi, getLsbD_istrFieldBits _ hi,
    decide_eq_true hi]
  cases (p.istr.clearable ||| p.istr.otherRo).getLsbD i
  · cases inField ⟨p.istr.idn, 4⟩ i
    · by_cases hd : i = p.istr.dir <;> by_cases hc : i = p.istr.ctr <;> by_cases hs : i = p.istr.dconStat <;>
        simp [hd, hc, hs]
    · simp
  · simp

/-- `CTR` reads 1 exactly while some channel has a complete flag (10_state.md R46). -/
theorem istrFields_ctr_iff (s : State) : (istrFields s).ctr = true ↔ ∃ c, chanComplete s c = true := by
  simp [istrFields]

theorem chanComplete_iff (s : State) (c : Chan) :
    chanComplete s c = true ↔ ∃ h, getCtr s.params h (readChep s c) = true := by
  rw [chanComplete, Bool.or_eq_true]
  refine ⟨fun h => h.elim (⟨.rx, ·⟩) (⟨.tx, ·⟩), fun ⟨h, hc⟩ => ?_⟩
  cases h with
  | rx => exact .inl hc
  | tx => exact .inr hc

/-- Settles O30: the write function bit by bit, and the word of a read field by field. -/
theorem interruptStatusRegister : Obligations.InterruptStatusRegister := by
  refine ⟨fun p old w i hi => ⟨fun hc => ?other, fun hc => ?clearable⟩,
    fun p old set h => ⟨hwWriteIstr_clearIstr h old, hwWriteIstr_istrNeutral p old⟩, fun _ _ _ => rfl, fun s hl => ?read,
    fun s hl => ?default⟩
  case other => rw [getLsbD_hwWriteIstr_eq p old w hi, hc, Bool.false_and, Bool.not_false, Bool.and_true]
  case clearable =>
    rw [getLsbD_hwWriteIstr_eq p old w hi, hc]
    by_cases hw : w.getLsbD i = decide (p.istrPolarity = .w1c) <;> simp [hw]
  case read =>
    have h := istrPlaces hl
    refine ⟨idn_istrWord h _, dir_istrWord h _, ?_, dconStat_istrWord h _, stored_istrWord h _, ?_⟩
    · rw [ctr_istrWord h, istrFields_ctr_iff]
      exact exists_congr fun c => chanComplete_iff s c
    · simpa only [istrFieldBits, BitVec.or_assoc] using rest_istrWord s.params (istrFields s)
  case default =>
    have hrest := rest_istrWord s.params (istrFields s)
    rwa [hl, show ~~~ (defaultIstrLayout.clearable ||| defaultIstrLayout.otherRo ||| istrFieldBits defaultIstrLayout) =
      (0x1FFF0060 : Word32) by decide] at hrest

end Sys2Proof.Laws
end

section
/-! PROOFS. One dispatcher invocation while the environment takes no step (45_dispatcher.md R211–R219): each class in turn
leads to one state, and what it has done to the registers, the waiters and the log adds up. -/

namespace Sys2Proof.Laws

open Sys2Proof.Machine

/-! What a part of an invocation does besides its register changes. -/

/-- From `s` to `t` the waiters of the slots `W` were woken and `es` was logged; of the rest only registers may differ. -/
structure Served (W : Slot → Prop) (es : List LogEntry) (s t : State) : Prop where
  log : t.log = s.log ++ es
  emptied : ∀ sl, W sl → slotOf t sl = none
  slots : ∀ sl, ¬ W sl → slotOf t sl = slotOf s sl
  ops : ∀ u, (taskRec t u).op = (taskRec s u).op
  woken : ∀ u, (taskRec t u).woken = true ↔ (taskRec s u).woken = true ∨ ∃ sl, W sl ∧ slotOf s sl = some u
  params : t.params = s.params
  pma : t.pma = s.pma
  errChan : t.errChan = s.errChan
  connected : t.connected = s.connected
  alloc : t.alloc = s.alloc
  htIn : t.htIn = s.htIn
  htOut : t.htOut = s.htOut
  now : t.now = s.now
  fault : t.fault = s.fault
  inProgress : t.inProgress = s.inProgress
  irqSlots : t.irqSlots = s.irqSlots
  out : t.out = s.out

/-- No slot's waiter. -/
def noSlot : Slot → Prop := fun _ => False

theorem Served.refl (s : State) : Served noSlot [] s s where
  log := (List.append_nil _).symm
  emptied := fun _ h => h.elim
  slots := fun _ _ => rfl
  ops := fun _ => rfl
  woken := fun _ => by simp [noSlot]
  params := rfl
  pma := rfl
  errChan := rfl
  connected := rfl
  alloc := rfl
  htIn := rfl
  htOut := rfl
  now := rfl
  fault := rfl
  inProgress := rfl
  irqSlots := rfl
  out := rfl

/-- One part after the other: a slot that the first has emptied has no waiter left for the second. -/
theorem Served.trans {W W' : Slot → Prop} {es es' : List LogEntry} {s t u : State} (h : Served W es s t)
    (h' : Served W' es' t u) : Served (fun sl => W sl ∨ W' sl) (es ++ es') s u where
  log := by rw [h'.log, h.log, List.append_assoc]
  emptied := fun sl hw => by
    by_cases hw' : W' sl
    · exact h'.emptied sl hw'
    · rw [h'.slots sl hw', h.emptied sl (hw.resolve_right hw')]
  slots := fun sl hw => by rw [h'.slots sl fun hw' => hw (.inr hw'), h.slots sl fun hw' => hw (.inl hw')]
  ops := fun x => (h'.ops x).trans (h.ops x)
  woken := fun x => by
    rw [h'.woken, h.woken, or_assoc]
    refine or_congr_right ⟨?_, ?_⟩
    · rintro (⟨sl, hw, hx⟩ | ⟨sl, hw, hx⟩)
      · exact ⟨sl, .inl hw, hx⟩
      · refine ⟨sl, .inr hw, ?_⟩
        by_cases hw' : W sl
        · rw [h.emptied sl hw'] at hx
          cases hx
        · rwa [h.slots sl hw'] at hx
    · rintro ⟨sl, hw, hx⟩
      by_cases hw' : W sl
      · exact .inl ⟨sl, hw', hx⟩
      · exact .inr ⟨sl, hw.resolve_left hw', by rwa [h.slots sl hw']⟩
  params := h'.params.trans h.params
  pma := h'.pma.trans h.pma
  errChan := h'.errChan.trans h.errChan
  connected := h'.connected.trans h.connected
  alloc := h'.alloc.trans h.alloc
  htIn := h'.htIn.trans h.htIn
  htOut := h'.htOut.trans h.htOut
  now := h'.now.trans h.now
  fault := h'.fault.trans h.fault
  inProgress := h'.inProgress.trans h.inProgress
  irqSlots := h'.irqSlots.trans h.irqSlots
  out := h'.out.trans h.out

theorem Served.of_iff {W W' : Slot → Prop} {es : List LogEntry} {s t : State} (h : Served W es s t)
    (hiff : ∀ sl, W' sl ↔ W sl) : Served W' es s t := by
  rwa [show W' = W from funext fun sl => propext (hiff sl)]

/-- A part that wakes nobody, before another. -/
theorem Served.quiet_trans {W : Slot → Prop} {es es' : List LogEntry} {s t u : State} (h : Served noSlot es s t)
    (h' : Served W es' t u) : Served W (es ++ es') s u :=
  (h.trans h').of_iff fun _ => by simp [noSlot]

/-- A part that wakes nobody, after another. -/
theorem Served.trans_quiet {W : Slot → Prop} {es es' : List LogEntry} {s t u : State} (h : Served W es s t)
    (h' : Served noSlot es' t u) : Served W (es ++ es') s u :=
  (h.trans h').of_iff fun _ => by simp [noSlot]

/-- A part that logs nothing, after one that wakes nobody. -/
theorem Served.trans_woken {W : Slot → Prop} {es : List LogEntry} {s t u : State} (h : Served noSlot es s t)
    (h' : Served W [] t u) : Served W es s u := List.append_nil es ▸ h.quiet_trans h'

/-! The updates an invocation is made of. -/

theorem Served.nextDraw (s : State) : Served noSlot [] s (nextDraw s) := { Served.refl s with }

theorem Served.appendLog (s : State) (e : LogEntry) : Served noSlot [e] s (appendLog s e) :=
  { Served.refl s with log := rfl }

theorem Served.writeIstr (a : Agent) (w : Word32) (s : State) : Served noSlot [.writeIstr a w] s (writeIstr a w s) :=
  { Served.refl s with log := rfl }

theorem Served.writeChep (a : Agent) (c : Chan) (w : Word32) (s : State) :
    Served noSlot [.writeChep a c w] s (writeChep a c w s) := { Served.refl s with log := rfl }

theorem Served.wake (sl : Slot) (s : State) : Served (· = sl) [] s (wake sl s) where
  log := by rw [wake_log, List.append_nil]
  emptied := fun sl' h => by rw [slotOf_wake, if_pos h]
  slots := fun sl' h => by rw [slotOf_wake, if_neg h]
  ops := taskRec_wake_op sl s
  woken := fun u => by simp [taskRec_wake_woken, or_comm]
  params := wake_params sl s
  pma := wake_pma sl s
  errChan := wake_errChan sl s
  connected := wake_connected sl s
  alloc := wake_alloc sl s
  htIn := wake_htIn sl s
  htOut := wake_htOut sl s
  now := wake_now sl s
  fault := wake_fault sl s
  inProgress := wake_inProgress sl s
  irqSlots := wake_irqSlots sl s
  out := wake_out sl s

theorem Served.wake_if (b : Bool) (sl : Slot) (s : State) :
    Served (fun x => x = sl ∧ b = true) [] s (if b then Machine.wake sl s else s) := by
  cases b
  · exact (Served.refl s).of_iff fun _ => by simp [noSlot]
  · exact (Served.wake sl s).of_iff fun _ => by simp

/-- The waiters of a channel's halves whose flag was set (45_dispatcher.md R219). -/
theorem Served.wakeFlags (c : Chan) (fs : FlagSet) (s : State) :
    Served (fun sl => (sl = .chan c .dirIn ∧ fs.rx = true) ∨ (sl = .chan c .dirOut ∧ fs.tx = true)) [] s
      (wakeFlags c fs s) :=
  (Served.wake_if fs.rx (.chan c .dirIn) s).trans (Served.wake_if fs.tx (.chan c .dirOut) _)

/-! The flags of a channel register. -/

/-- The mask of a one-bit field. -/
theorem fieldMask_bit (n : Nat) : fieldMask ⟨n, 1⟩ = bitAt n := rfl

/-- Clearing the error flags and the complete flags that are set clears every flag (45_dispatcher.md R214). -/
theorem and_not_flags (p : Params) (v : Word32) :
    v &&& ~~~ clearedBits p errField (errFlagsOf p v) &&& ~~~ clearedBits p ctrField (ctrFlagsOf p v) =
      v &&& ~~~ cMask p.chep := by
  have herr : v &&& ~~~ clearedBits p errField (errFlagsOf p v) =
      v &&& ~~~ (bitAt p.chep.errRx ||| bitAt p.chep.errTx) := and_not_bitAts_if_set rfl rfl
  have hctr : v &&& ~~~ clearedBits p ctrField (ctrFlagsOf p v) =
      v &&& ~~~ (bitAt p.chep.ctrRx ||| bitAt p.chep.ctrTx) := and_not_bitAts_if_set rfl rfl
  have hmask : cMask p.chep = bitAt p.chep.errRx ||| bitAt p.chep.errTx ||| (bitAt p.chep.ctrRx ||| bitAt p.chep.ctrTx) := by
    simp only [cMask, maskOf, clearFields, List.foldr_cons, List.foldr_nil, ctrField, errField, fieldMask_bit]
    ac_rfl
  rw [and_not_and_not, and_not_or, herr, hctr, ← and_not_or, hmask]

/-- With no error flag set there is none to clear. -/
theorem and_not_no_errFlags {p : Params} {v : Word32} (h : ((errFlagsOf p v).rx || (errFlagsOf p v).tx) = false) :
    v &&& ~~~ clearedBits p errField (errFlagsOf p v) = v := by
  obtain ⟨hrx, htx⟩ := Bool.or_eq_false_iff.mp h
  simp only [clearedBits, hrx, htx, Bool.false_eq_true, if_false]
  exact and_not_zero v

/-! The classes in turn (45_dispatcher.md R211, R217). -/

/-- The latched bits each class clears, and what each logs. -/
def busBits (p : Params) (i : IstrRead) : Word32 := if i.dcon then bitAt p.istr.dcon else 0

def busLog (p : Params) (i : IstrRead) : List LogEntry :=
  if i.dcon then [.writeIstr .dispatcher (clearIstr p (bitAt p.istr.dcon))] else []

def errFlagsLog (p : Params) (c : Chan) (v : Word32) : List LogEntry :=
  if (errFlagsOf p v).rx || (errFlagsOf p v).tx then
    [.errFlags c (errFlagsOf p v), .writeChep .dispatcher c (clrerrWord p v (errFlagsOf p v))] else []

def completeLog (p : Params) (i : IstrRead) (v : Word32) : List LogEntry :=
  if i.ctr then errFlagsLog p i.idn v ++ [.writeChep .dispatcher i.idn (clrctrWord p v (ctrFlagsOf p v))] else []

def errorLog (p : Params) (i : IstrRead) (v : Word32) : List LogEntry :=
  if i.err || i.pmaovr then
    [.writeIstr .dispatcher (clearIstr p (errorBits p i)), .writeChep .dispatcher i.idn (canon p v)] else []

def ackLog (p : Params) (i : IstrRead) : List LogEntry :=
  if i.dcon || i.ctr || i.err || i.pmaovr then [] else [.writeIstr .dispatcher (istrNeutral p)]

/-- The latches are clearable (10_state.md R45). -/
theorem IstrPlaces.latch_clearable {p : Params} (h : IstrPlaces p) {n : Nat}
    (hn : ∀ i, (bitAt n).getLsbD i = true → (latchMask p).getLsbD i = true) : bitAt n &&& ~~~ p.istr.clearable = 0 :=
  and_not_eq_zero_of_bits fun i hi => h.latched i (hn i hi)

theorem IstrPlaces.errorBits_clearable {p : Params} (h : IstrPlaces p) (i : IstrRead) :
    errorBits p i &&& ~~~ p.istr.clearable = 0 := by
  have herr := h.latch_clearable (latchMask_err p)
  have hovr := h.latch_clearable (latchMask_pmaovr p)
  rw [BitVec.and_comm] at herr hovr
  rw [errorBits, BitVec.and_comm, BitVec.and_or_distrib_left]
  cases i.err <;> cases i.pmaovr <;> simp [herr, hovr]

section
variable {s : State} (hs : s.irqSlots = [])
include hs

/-- The bus class (45_dispatcher.md R212). -/
theorem dispatchBus_undisturbed (i : IstrRead) : ∃ t, dispatchBus i s = .ok () t ∧
    Served (fun sl => sl = .bus ∧ i.dcon = true) (busLog s.params i) s t ∧ t.chep = s.chep ∧
    (IstrPlaces s.params → t.istr = s.istr &&& ~~~ busBits s.params i) := by
  by_cases hd : i.dcon = true
  case pos =>
    have hw := Served.writeIstr .dispatcher (clearIstr s.params (bitAt s.params.istr.dcon)) s
    refine ⟨_, by rw [dispatchBus, if_pos hd, envPoint_nil hs, Run.bind_ok], ?_, by simp, fun h => ?_⟩
    · rw [busLog, if_pos hd]
      exact (hw.quiet_trans (Served.wake .bus _)).of_iff fun _ => and_iff_left hd
    · rw [wake_istr, writeIstr_istr, hwWriteIstr_clearIstr (h.latch_clearable (latchMask_dcon _)), busBits, if_pos hd]
  case neg =>
    refine ⟨s, by rw [dispatchBus, if_neg hd], ?_, rfl, fun _ => ?_⟩
    · rw [busLog, if_neg hd]
      exact (Served.refl s).of_iff fun _ => iff_false_intro fun h => hd h.2
    · rw [busBits, if_neg hd, and_not_zero]

section
variable (hl : chepLayoutWf s.params.chep = true)
include hl

/-- The error-flag clear (45_dispatcher.md R214). -/
theorem dispatchErrFlags_undisturbed (c : Chan) : ∃ t, dispatchErrFlags c (readChep s c) s = .ok () t ∧
    Served noSlot (errFlagsLog s.params c (readChep s c)) s t ∧ t.istr = s.istr ∧
    ∀ c', readChep t c' = if c' = c then
      readChep s c &&& ~~~ clearedBits s.params errField (errFlagsOf s.params (readChep s c)) else readChep s c' := by
  by_cases he : ((errFlagsOf s.params (readChep s c)).rx || (errFlagsOf s.params (readChep s c)).tx) = true
  case pos =>
    have hlog := Served.appendLog s (.errFlags c (errFlagsOf s.params (readChep s c)))
    refine ⟨_, by rw [dispatchErrFlags, if_pos he, envPoint_nil (hlog.irqSlots.trans hs), Run.bind_ok], ?_, ?_,
      fun c' => ?_⟩
    · rw [errFlagsLog, if_pos he]
      exact hlog.trans_quiet (Served.writeChep .dispatcher c _ _)
    · rfl
    · rw [readChep_writeChep]
      exact congrArg (fun x => if c' = c then x else readChep s c') (hwWriteChep_clrerrWord hl _ (agreeKept_refl _ _))
  case neg =>
    refine ⟨s, by rw [dispatchErrFlags, if_neg he], ?_, rfl, fun c' => ?_⟩
    · rw [errFlagsLog, if_neg he]
      exact Served.refl s
    · rw [and_not_no_errFlags (Bool.eq_false_iff.mpr he)]
      split
      · next h => rw [h]
      · rfl

/-- The complete class (45_dispatcher.md R213, R214, R219). -/
theorem dispatchComplete_undisturbed (i : IstrRead) : ∃ t, dispatchComplete i s = .ok () t ∧
    Served (fun sl =>
      (sl = .chan i.idn .dirIn ∧ i.ctr = true ∧ getCtr s.params .rx (readChep s i.idn) = true) ∨
      (sl = .chan i.idn .dirOut ∧ i.ctr = true ∧ getCtr s.params .tx (readChep s i.idn) = true))
      (completeLog s.params i (readChep s i.idn)) s t ∧ t.istr = s.istr ∧
    ∀ c, readChep t c = if i.ctr = true ∧ c = i.idn then readChep s i.idn &&& ~~~ cMask s.params.chep else readChep s c := by
  by_cases hc : i.ctr = true
  case pos =>
    obtain ⟨s1, he, h1, histr, hreg⟩ := dispatchErrFlags_undisturbed hs hl i.idn
    have hw := Served.writeChep .dispatcher i.idn
      (clrctrWord s.params (readChep s i.idn) (ctrFlagsOf s.params (readChep s i.idn))) s1
    have hrun : dispatchComplete i s = .ok () (wakeFlags i.idn (ctrFlagsOf s.params (readChep s i.idn))
        (writeChep .dispatcher i.idn (clrctrWord s.params (readChep s i.idn) (ctrFlagsOf s.params (readChep s i.idn))) s1)) := by
      simp only [dispatchComplete, if_pos hc, envPoint_nil hs, Run.bind_ok, he, envPoint_nil (h1.irqSlots.trans hs), h1.params]
    refine ⟨_, hrun, ?_, by simp [histr], fun c => ?_⟩
    · rw [completeLog, if_pos hc]
      refine ((h1.trans_quiet hw).trans_woken (Served.wakeFlags i.idn _ _)).of_iff fun sl => ?_
      simp only [hc, true_and]
      rfl
    · rw [readChep_congr (wakeFlags_chep _ _ _), readChep_writeChep, h1.params, hreg, if_pos rfl,
        hwWriteChep_clrctrWord hl _ (agreeKept_clear _ _ (fun hf i => inField_errField hf) _ _), and_not_flags, hreg]
      by_cases h : c = i.idn <;> simp [h, hc]
  case neg =>
    refine ⟨s, by rw [dispatchComplete, if_neg hc], ?_, rfl, fun c => (if_neg fun h => hc h.1).symm⟩
    rw [completeLog, if_neg hc]
    exact (Served.refl s).of_iff fun _ => by simp [noSlot, hc]

/-- The error class (45_dispatcher.md R215): the touch changes nothing. -/
theorem dispatchError_undisturbed (i : IstrRead) : ∃ t, dispatchError i s = .ok () t ∧
    Served noSlot (errorLog s.params i (readChep s i.idn)) s t ∧ t.chep = s.chep ∧
    (IstrPlaces s.params → t.istr = s.istr &&& ~~~ errorBits s.params i) := by
  by_cases he : (i.err || i.pmaovr) = true
  case pos =>
    have hw := Served.writeIstr .dispatcher (clearIstr s.params (errorBits s.params i)) s
    have hread : readChep (writeIstr .dispatcher (clearIstr s.params (errorBits s.params i)) s) i.idn = readChep s i.idn := rfl
    refine ⟨_, by rw [dispatchError, if_pos he, envPoint_nil hs, Run.bind_ok, envPoint_nil (hw.irqSlots.trans hs),
      Run.bind_ok, envPoint_nil (hw.irqSlots.trans hs), Run.bind_ok], ?_, ?_, fun h => ?_⟩
    · rw [errorLog, if_pos he]
      exact hw.trans_quiet (Served.writeChep .dispatcher i.idn _ _)
    · rw [writeChep_chep, hread, hw.params, hwWriteChep_canon hl (agreeKept_refl _ _)]
      exact Vector.set_getElem_self i.idn.isLt
    · exact hwWriteIstr_clearIstr (h.errorBits_clearable i) s.istr
  case neg =>
    refine ⟨s, by rw [dispatchError, if_neg he], ?_, rfl, fun _ => ?_⟩
    · rw [errorLog, if_neg he]
      exact Served.refl s
    · obtain ⟨herr, hovr⟩ := Bool.or_eq_false_iff.mp (Bool.eq_false_iff.mpr he)
      simp only [errorBits, herr, hovr, Bool.false_eq_true, if_false]
      exact (and_not_zero _).symm

end

/-- The acknowledgment (45_dispatcher.md R216). -/
theorem dispatchAck_undisturbed (i : IstrRead) : ∃ t, dispatchAck i s = .ok () t ∧ Served noSlot (ackLog s.params i) s t ∧
    t.chep = s.chep ∧ t.istr = s.istr := by
  by_cases h : (i.dcon || i.ctr || i.err || i.pmaovr) = true
  case pos =>
    refine ⟨s, by rw [dispatchAck, if_pos h], ?_, rfl, rfl⟩
    rw [ackLog, if_pos h]
    exact Served.refl s
  case neg =>
    refine ⟨_, by rw [dispatchAck, if_neg h, envPoint_nil hs, Run.bind_ok], ?_, ?_, ?_⟩
    · rw [ackLog, if_neg h]
      exact Served.writeIstr .dispatcher _ s
    · rfl
    · exact hwWriteIstr_istrNeutral s.params s.istr

end

/-! The whole invocation. -/

/-- The slots whose waiters an invocation wakes (45_dispatcher.md R212, R219). -/
def wokenSlots (s : State) (sl : Slot) : Prop :=
  (sl = .bus ∧ (istrFields s).dcon = true) ∨
  (sl = .chan (istrFields s).idn .dirIn ∧ (istrFields s).ctr = true ∧
    getCtr s.params .rx (readChep s (istrFields s).idn) = true) ∨
  (sl = .chan (istrFields s).idn .dirOut ∧ (istrFields s).ctr = true ∧
    getCtr s.params .tx (readChep s (istrFields s).idn) = true)

/-- What an invocation logs, in the order of its classes (45_dispatcher.md R217). -/
def dispatchLog (s : State) : List LogEntry :=
  busLog s.params (istrFields s) ++ completeLog s.params (istrFields s) (readChep s (istrFields s).idn) ++
    errorLog s.params (istrFields s) (readChep s (istrFields s).idn) ++ ackLog s.params (istrFields s)

/-- The bits that were read as set are what the latches hold. -/
theorem and_not_latches (s : State) : s.istr &&& ~~~ busBits s.params (istrFields s) &&&
    ~~~ errorBits s.params (istrFields s) = s.istr &&& ~~~ latchMask s.params := by
  have hbus : s.istr &&& ~~~ busBits s.params (istrFields s) = s.istr &&& ~~~ bitAt s.params.istr.dcon :=
    and_not_bitAt_if_set rfl
  have herr : s.istr &&& ~~~ errorBits s.params (istrFields s) =
      s.istr &&& ~~~ (bitAt s.params.istr.err ||| bitAt s.params.istr.pmaovr) := and_not_bitAts_if_set rfl rfl
  rw [and_not_and_not, and_not_or, hbus, herr, ← and_not_or, ← BitVec.or_assoc, latchMask]

/-- The touch of the error class writes the same word after the complete class as before it. -/
theorem errorLog_congr {p : Params} (hl : chepLayoutWf p.chep = true) (i : IstrRead) {v w : Word32} (h : agreeKept p v w) :
    errorLog p i v = errorLog p i w := by
  rw [errorLog, errorLog, canon_congr (kept_eq_of_agree hl h)]

/-- No flag is of kind RW or P. -/
theorem agreeKept_and_not_cMask (p : Params) (v : Word32) : agreeKept p v (v &&& ~~~ cMask p.chep) := by
  intro i hi _ hc
  rw [BitVec.getLsbD_and, BitVec.getLsbD_not, getLsbD_cMask, hc, decide_eq_true hi]
  simp

theorem dispatch_undisturbed {s : State} (hs : s.irqSlots = []) (hl : chepLayoutWf s.params.chep = true) :
    ∃ t, dispatch s = .ok () t ∧ Served (wokenSlots s) (dispatchLog s) s t ∧
    (∀ c, readChep t c = if (istrFields s).ctr = true ∧ c = (istrFields s).idn then
      readChep s (istrFields s).idn &&& ~~~ cMask s.params.chep else readChep s c) ∧
    (IstrPlaces s.params → t.istr = s.istr &&& ~~~ latchMask s.params) := by
  have h0 := Served.nextDraw s
  obtain ⟨s1, e1, h1, hreg1, histr1⟩ := dispatchBus_undisturbed (h0.irqSlots.trans hs) (istrFields s)
  have hs1 : Served _ _ s s1 := h0.quiet_trans h1
  have hread1 : ∀ c, readChep s1 c = readChep s c := readChep_congr hreg1
  obtain ⟨s2, e2, h2, histr2, hreg2⟩ := dispatchComplete_undisturbed (hs1.irqSlots.trans hs) (hs1.params ▸ hl) (istrFields s)
  have hs2 := hs1.trans h2
  obtain ⟨s3, e3, h3, hreg3, histr3⟩ := dispatchError_undisturbed (hs2.irqSlots.trans hs) (hs2.params ▸ hl) (istrFields s)
  have hs3 := hs2.trans_quiet h3
  obtain ⟨t, e4, h4, hreg4, histr4⟩ := dispatchAck_undisturbed (hs3.irqSlots.trans hs) (istrFields s)
  have hst := hs3.trans_quiet h4
  simp only [hs1.params, hread1] at hreg2
  have hkept : agreeKept s.params (readChep s (istrFields s).idn) (readChep s2 (istrFields s).idn) := by
    rw [hreg2]
    split
    · exact agreeKept_and_not_cMask _ _
    · exact agreeKept_refl _ _
  refine ⟨t, by rw [dispatch, e1, Run.bind_ok, e2, Run.bind_ok, e3, Run.bind_ok, e4], ?_, fun c => ?_, fun hp => ?_⟩
  · rw [hs1.params, hs2.params, hs3.params, hread1, ← errorLog_congr hl _ hkept] at hst
    exact hst
  · rw [readChep_congr hreg4, readChep_congr hreg3, hreg2]
  · rw [histr4, histr3 (hs2.params ▸ hp), histr2, histr1 hp, hs2.params]
    exact and_not_latches s

end Sys2Proof.Laws
end

section
/-! PROOFS. `IRQ.DISPATCH` while the environment takes no step (45_dispatcher.md R211–R219). -/

namespace Sys2Proof.Laws

open Sys2Proof.Machine

theorem exec_irqDispatch_ok {s t : State} (h : dispatch s = .ok () t) :
    exec .irqDispatch s = .next (handOut .dispatcher (.ok .unit) t) := by
  rw [exec, execIrqDispatch, h]

/-- Settles O28: each class does its part of the whole, and the parts add up. -/
theorem dispatchEffect : Obligations.DispatchEffect := by
  intro s hl hi hs
  obtain ⟨t, hrun, h, hreg, histr⟩ := dispatch_undisturbed hs hl
  have hlog := h.log
  simp only [dispatchLog, ← List.append_assoc] at hlog
  exact ⟨_, exec_irqDispatch_ok hrun, congrArg (· ++ _) h.out, histr (istrPlaces hi), hreg,
    fun sl => ⟨h.emptied sl, h.slots sl⟩, fun u => ⟨h.ops u, h.woken u⟩, hlog, h.params, h.pma, h.errChan, h.connected,
    h.alloc, h.htIn, h.htOut, h.now, h.fault, h.inProgress⟩

theorem linePending_of_ctr {s : State} (h : (istrFields s).ctr = true) : linePending s = true := by
  simp only [linePending, h, Bool.true_or]

/-- Settles O32: the other channel's register stays, so its flag still counts. -/
theorem oneChannelPerInvocation : Obligations.OneChannelPerInvocation := by
  intro s t c hl _ hs hne hc he
  obtain ⟨t', hrun, h, hreg, -⟩ := dispatch_undisturbed hs hl
  cases he.symm.trans (exec_irqDispatch_ok hrun)
  have hsame : readChep t' c = readChep s c := (hreg c).trans (if_neg fun h => hne h.2)
  have hcomplete : chanComplete t' c = true := by rwa [chanComplete, h.params, hsame]
  have hctr : (istrFields t').ctr = true := (istrFields_ctr_iff t').mpr ⟨c, hcomplete⟩
  exact ⟨hsame, hctr, linePending_of_ctr hctr⟩

/-- An invocation that recognises no condition does nothing but acknowledge (45_dispatcher.md R216). -/
theorem dispatch_unrecognised {s : State} (hs : s.irqSlots = []) (h : linePending s = false) :
    dispatch s = .ok () (writeIstr .dispatcher (istrNeutral s.params) (nextDraw s)) := by
  simp only [linePending, Bool.or_eq_false_iff] at h
  obtain ⟨⟨⟨hctr, hdcon⟩, herr⟩, hovr⟩ := h
  simp only [dispatch, dispatchBus, dispatchComplete, dispatchError, dispatchAck, hctr, hdcon, herr, hovr, Bool.or_false,
    Bool.false_eq_true, if_false, Run.bind_ok, envPoint_nil (s := nextDraw s) hs, nextDraw_params]

/-- Settles O29: the neutral value clears nothing. -/
theorem spuriousDispatch : Obligations.SpuriousDispatch := by
  intro s hs h
  rw [exec_irqDispatch_ok (dispatch_unrecognised hs h), writeIstr, nextDraw_params, nextDraw_istr, hwWriteIstr_istrNeutral]
  rfl

end Sys2Proof.Laws
end

section
/-! PROOFS. What the dispatcher never does, whatever the environment does between its accesses (45_dispatcher.md R221). What
stays is the dispatcher's `QuietRun`; what is new here is that no word it writes to a channel register toggles a bit. -/

namespace Sys2Proof.Laws

open Sys2Proof.Machine

/-! The words. -/

/-- A word computed from a canonical value by clearing flags has no toggle bit (44_channel_register.md R199). -/
theorem clearing_and_tMask {p : Params} (hl : chepLayoutWf p.chep = true) {field : ChepLayout → Half → Field}
    (hw : ∀ hf, (field p.chep hf).width = 1)
    (hk : ∀ hf i, inField (field p.chep hf) i = true → isClear p.chep i = true) (fs : FlagSet) (v : Word32) :
    clearIf p fs.tx (field p.chep .tx) (clearIf p fs.rx (field p.chep .rx) (canon p v)) &&& tMask p.chep = 0 := by
  rw [BitVec.and_comm]
  refine and_eq_zero_of_bits fun i ht => ?_
  rw [getLsbD_tMask, Bool.and_eq_true, decide_eq_true_eq] at ht
  obtain ⟨ht, hi⟩ := ht
  have hno : ∀ hf, inField (field p.chep hf) i = false := fun hf => Bool.eq_false_iff.mpr fun hin => by
    cases (isClear_of_isToggle hl ht).symm.trans (hk hf i hin)
  rw [getLsbD_clearIf p _ _ _ hi (hw _), getLsbD_clearIf p _ _ _ hi (hw _), hno, hno, getLsbD_canon hl v hi, if_pos ht]
  simp

section
variable {p : Params} (hl : chepLayoutWf p.chep = true) (v : Word32)
include hl

theorem clrctrWord_and_tMask (fs : FlagSet) : clrctrWord p v fs &&& tMask p.chep = 0 :=
  clearing_and_tMask hl (fun hf => by cases hf <;> rfl) (fun hf _ => inField_ctrField hf) fs v

theorem clrerrWord_and_tMask (fs : FlagSet) : clrerrWord p v fs &&& tMask p.chep = 0 :=
  clearing_and_tMask hl (fun hf => by cases hf <;> rfl) (fun hf _ => inField_errField hf) fs v

theorem canon_and_tMask : canon p v &&& tMask p.chep = 0 := clrctrWord_and_tMask hl v ⟨false, false⟩

end

/-- Clearing flags changes no toggle bit. -/
theorem and_not_cMask_and_tMask {l : ChepLayout} (hl : chepLayoutWf l = true) (v : Word32) :
    v &&& ~~~ cMask l &&& tMask l = v &&& tMask l := by
  apply BitVec.eq_of_getLsbD_eq
  intro i hi
  simp only [BitVec.getLsbD_and, BitVec.getLsbD_not, getLsbD_tMask, getLsbD_cMask, decide_eq_true hi]
  cases ht : isToggle l i
  · simp
  · simp [isClear_of_isToggle hl ht]

/-! The log. -/

/-- The entry is no write of a channel register by the dispatcher, or its word has no toggle bit. -/
def TogglesNothing (p : Params) : LogEntry → Prop
  | .writeChep .dispatcher _ w => chepLayoutWf p.chep = true → w &&& tMask p.chep = 0
  | _ => True

/-- From `s` to `s'` only such entries were logged. -/
structure LogsNoToggle (s s' : State) : Prop where
  params : s'.params = s.params
  log : ∃ es, s'.log = s.log ++ es ∧ ∀ e ∈ es, TogglesNothing s.params e

theorem LogsNoToggle.nothing {s s' : State} (hp : s'.params = s.params) (hlog : s'.log = s.log) : LogsNoToggle s s' :=
  ⟨hp, [], by rw [hlog, List.append_nil], fun _ h => by cases h⟩

theorem LogsNoToggle.entry {s s' : State} (e : LogEntry) (hp : s'.params = s.params) (hlog : s'.log = s.log ++ [e])
    (he : TogglesNothing s.params e) : LogsNoToggle s s' :=
  ⟨hp, [e], hlog, fun _ h => List.mem_singleton.mp h ▸ he⟩

theorem LogsNoToggle.refl (s : State) : LogsNoToggle s s := .nothing rfl rfl

theorem LogsNoToggle.trans {a b c : State} (h : LogsNoToggle a b) (h' : LogsNoToggle b c) : LogsNoToggle a c := by
  obtain ⟨es, hlog, hes⟩ := h.log
  obtain ⟨es', hlog', hes'⟩ := h'.log
  refine ⟨h'.params.trans h.params, es ++ es', by rw [hlog', hlog, List.append_assoc], fun e he => ?_⟩
  rcases List.mem_append.mp he with he | he
  · exact hes e he
  · exact h.params ▸ hes' e he

/-- From a state that differs from `a` in nothing the relation reads. -/
theorem LogsNoToggle.after {a b c : State} (h : LogsNoToggle b c) (hp : b.params = a.params) (hlog : b.log = a.log) :
    LogsNoToggle a c := (LogsNoToggle.nothing hp hlog).trans h

theorem LogsNoToggle.bind {α β : Type} {s : State} {r : Run α} {f : α → State → Run β} (h : LogsNoToggle s r.state)
    (hf : ∀ a s1, LogsNoToggle s1 (f a s1).state) : LogsNoToggle s (r.bind f).state :=
  Run.rel_bind (fun _ _ _ => LogsNoToggle.trans) h fun a s1 _ => hf a s1

/-! The environment logs what it does, and no register write (10_state.md R66). -/

theorem LogsNoToggle.envStore (a : Nat) (bs : List Byte) (s : State) : LogsNoToggle s (envStore a bs s).state := by
  induction bs generalizing a s with
  | nil => exact .refl s
  | cons b rest ih =>
    rw [Machine.envStore]
    split
    · exact .nothing rfl rfl
    · exact .after (ih (a + 1) (pokePma s a [b])) rfl rfl

theorem LogsNoToggle.envFetch (a k : Nat) (s : State) : LogsNoToggle s (envFetch a k s).state := by
  rw [Machine.envFetch]
  split <;> exact .nothing rfl rfl

theorem LogsNoToggle.envPerform (e : EnvStep) (s : State) : LogsNoToggle s (envPerform e s).state := by
  cases e with
  | rxData c payload pad dtog => exact .bind (.envStore _ _ s) fun _ s1 => .entry (.rxData c payload) rfl rfl trivial
  | rxNak c => exact .entry (.rxNak c) rfl rfl trivial
  | rxStall c => exact .entry (.rxStall c) rfl rfl trivial
  | error c h => exact .bind (.after (.envStore _ _ _) rfl rfl) fun _ s1 => .entry (.error c h) rfl rfl trivial
  | txData c => exact .bind (.envFetch _ _ s) fun b s1 => .entry (.txData c b) rfl rfl trivial
  | txNak c => exact .entry (.txNak c) rfl rfl trivial
  | txStall c => exact .entry (.txStall c) rfl rfl trivial
  | connectChange => exact .entry (.connectChange !s.connected) rfl rfl trivial
  | overrun c => exact .bind (.after (.envStore _ _ _) rfl rfl) fun _ s1 => .entry (.overrun c) rfl rfl trivial
  | tick => exact .nothing rfl rfl

theorem LogsNoToggle.envSteps (es : List EnvStep) (s : State) : LogsNoToggle s (envSteps es s).state := by
  induction es generalizing s with
  | nil => exact .refl s
  | cons e rest ih =>
    refine .bind ?_ fun _ s1 => ih s1
    rw [envStep]
    split
    · exact .envPerform e s
    · exact .refl s

theorem LogsNoToggle.envPoint (s : State) : LogsNoToggle s (envPoint s).state := by
  rw [Machine.envPoint]
  split
  · exact .refl s
  · next es rest _ => exact .after (.envSteps es { s with irqSlots := rest }) rfl rfl

/-! The dispatcher's classes. -/

theorem LogsNoToggle.dispatchBus (i : IstrRead) (s : State) : LogsNoToggle s (dispatchBus i s).state := by
  rw [Machine.dispatchBus]
  split
  · exact .bind (.envPoint s) fun _ s1 =>
      .entry (.writeIstr .dispatcher (clearIstr s1.params (bitAt s1.params.istr.dcon))) (by simp) (by simp) trivial
  · exact .refl s

theorem LogsNoToggle.dispatchErrFlags (c : Chan) (v : Word32) (s : State) :
    LogsNoToggle s (dispatchErrFlags c v s).state := by
  simp only [Machine.dispatchErrFlags]
  split
  · have hlogged : LogsNoToggle s (appendLog s (.errFlags c (errFlagsOf s.params v))) :=
      .entry (.errFlags c (errFlagsOf s.params v)) rfl rfl trivial
    exact .bind (hlogged.trans (.envPoint _)) fun _ s1 => .entry _ rfl rfl fun hl => clrerrWord_and_tMask hl v _
  · exact .refl s

theorem LogsNoToggle.dispatchComplete (i : IstrRead) (s : State) : LogsNoToggle s (dispatchComplete i s).state := by
  rw [Machine.dispatchComplete]
  split
  · refine .bind (.envPoint s) fun _ s1 => .bind (.dispatchErrFlags _ _ s1) fun _ s2 => .bind (.envPoint s2) fun _ s3 => ?_
    exact .entry (.writeChep .dispatcher i.idn _) (by simp) (wakeFlags_log _ _ _) fun hl => clrctrWord_and_tMask hl _ _
  · exact .refl s

theorem LogsNoToggle.dispatchError (i : IstrRead) (s : State) : LogsNoToggle s (dispatchError i s).state := by
  rw [Machine.dispatchError]
  split
  · refine .bind (.envPoint s) fun _ s1 => ?_
    have hcleared : LogsNoToggle s1 (writeIstr .dispatcher (clearIstr s1.params (errorBits s1.params i)) s1) :=
      .entry (.writeIstr .dispatcher _) rfl rfl trivial
    refine .bind (hcleared.trans (.envPoint _)) fun _ s2 => .bind (.envPoint s2) fun _ s3 => ?_
    exact .entry (.writeChep .dispatcher i.idn _) rfl rfl fun hl => canon_and_tMask hl _
  · exact .refl s

theorem LogsNoToggle.dispatchAck (i : IstrRead) (s : State) : LogsNoToggle s (dispatchAck i s).state := by
  rw [Machine.dispatchAck]
  split
  · exact .refl s
  · exact .bind (.envPoint s) fun _ s1 => .entry (.writeIstr .dispatcher _) rfl rfl trivial

theorem LogsNoToggle.dispatch (s : State) : LogsNoToggle s (dispatch s).state := by
  exact .bind (.after (.dispatchBus _ (nextDraw s)) rfl rfl) fun _ s1 => .bind (.dispatchComplete _ s1) fun _ s2 =>
    .bind (.dispatchError _ s2) fun _ s3 => .dispatchAck _ s3

/-- An invocation completes, and its result is all that its command adds (45_dispatcher.md R211). -/
theorem exec_irqDispatch (s : State) : ∃ out, exec .irqDispatch s = .next { (dispatch s).state with out := out } := by
  rw [exec, execIrqDispatch]
  cases dispatch s with
  | ok _ t => exact ⟨_, rfl⟩
  | halt t => exact ⟨_, rfl⟩

/-- Undisturbed, an invocation touches neither packet memory nor a toggle bit (45_dispatcher.md R221). -/
theorem dispatch_undisturbed_frame {s : State} (hs : s.irqSlots = []) (hl : chepLayoutWf s.params.chep = true) :
    (dispatch s).state.pma = s.pma ∧
    ∀ c, readChep (dispatch s).state c &&& tMask s.params.chep = readChep s c &&& tMask s.params.chep := by
  obtain ⟨t, hrun, h, hreg, -⟩ := dispatch_undisturbed hs hl
  rw [hrun, Run.state_ok]
  refine ⟨h.pma, fun c => ?_⟩
  rw [hreg]
  split
  · next hc => rw [hc.2, and_not_cMask_and_tMask hl]
  · rfl

/-- Settles O33: what stays is what no agent but a task changes, and the words are canonical values with flags cleared. -/
theorem dispatcherNever : Obligations.DispatcherNever := by
  intro s hl
  obtain ⟨out, he⟩ := exec_irqDispatch s
  have hq := (QuietRun.dispatch s).quiet
  obtain ⟨es, hlog, hes⟩ := (LogsNoToggle.dispatch s).log
  exact ⟨_, he, ⟨es, hlog, fun c w hw => hes _ hw hl⟩, fun c => (kept_eq_of_agree hl (hq.kept hl c)).symm, hq.alloc,
    hq.htIn, hq.htOut, hq.inProgress, hq.ops, hq.noRegister, fun hs => dispatch_undisturbed_frame hs hl⟩

end Sys2Proof.Laws
end

section
/-! PROOFS. The engine's invariant (10_state.md R52, R60–R63, 46_engine.md R241) under every interleaving of the agents:
every single step keeps it until a fault is set, and the bookkeeping of a choice is nothing the engine reads. -/

namespace Sys2Proof.Machine

/-- The invariant speaks of nothing but what the engine reads. -/
theorem EngineGood.same {left : Nat → List Part} {s s' : State} (h : EngineGood left s) (e : SameEngine s s') :
    EngineGood left s' where
  named := fun c d x hx => h.named c d x (by rwa [← e.handle])
  records := fun t op ho => h.records t op (by rwa [← e.record])
  polled := fun t hp => by rw [e.record]; exact h.polled t hp
  exclusive := fun t u op op' c d ht hu => h.exclusive t u op op' c d (by rwa [← e.record]) (by rwa [← e.record])
  wakes := fun t op c d ho hc => by
    rw [e.record] at ho ⊢
    rw [e.slot]
    exact h.wakes t op c d ho hc

theorem SameEngine.of_eq {s s' : State} (hin : s'.htIn = s.htIn) (hout : s'.htOut = s.htOut) (ht : s'.tasks = s.tasks)
    (wi : s'.wakerIn = s.wakerIn) (wo : s'.wakerOut = s.wakerOut) (wb : s'.wakerBus = s.wakerBus) : SameEngine s s' where
  handle := fun c d => by cases d <;> simp only [handleAt, hin, hout]
  record := taskRec_congr ht
  slot := slotOf_congr wi wo wb

theorem engine_choiceClosed :
    ChoiceClosed (fun _ => True) fun left s => s.fault = none → EngineGood left s where
  toStepClosed := engine_closed
  take := fun _ _ _ h hf => (h hf).same (SameEngine.of_eq rfl rfl rfl rfl rfl rfl)
  load := fun _ _ _ h hf => (h hf).same (SameEngine.of_eq rfl rfl rfl rfl rfl rfl)
  answer := fun _ s a r h hf => (h hf).same (SameEngine.handOut a r s)
  stopped := fun _ _ _ hfault _ _ hf => absurd hf hfault

/-- Settles O58: a command that ends in a fault leaves nothing to claim, and every other step keeps the invariant. -/
theorem stepKeepsEngine : Obligations.StepKeepsEngine := fun _ _ h e => engine_choiceClosed.step_of_all h e

end Sys2Proof.Machine
end

section
/-! PROOFS. Starting an operation: `EP.READ`, `EP.WRITE` and `BUS.WAIT` (46_engine.md R230–R232), which end or fault as they
begin. -/

namespace Sys2Proof.Laws

open Sys2Proof.Machine

theorem epRead_wf_of_inRange {ch : Chan} {n : Nat} (h : FieldsInRange (encodeFields (.epRead ch n))) :
    (Instr.epRead ch n).wf = true := by
  obtain ⟨-, -, -, -, -, -, harg⟩ := h
  exact decide_eq_true harg

/-! The task record. -/

theorem putTask_putTask {s : State} {t : Nat} {r r' : TaskRec} (h : r ≠ idleTask) (h' : r' ≠ idleTask) :
    putTask (putTask s t r) t r' = putTask s t r' := by
  simp only [putTask, if_neg h, if_neg h', mapInsert_mapInsert]

/-- A started operation is the task's whole record: it, and its first poll enabled. -/
theorem startOp_eq_putTask (t : Nat) (op : Op) (s : State) : startOp t op s = putTask s t ⟨some op, true⟩ := by
  have hrec : taskRec (setOp t (some op) s) t = { taskRec s t with op := some op } := by rw [taskRec_setOp, if_pos rfl]
  rw [startOp, setWoken, hrec, setOp, putTask_putTask] <;> simp [idleTask]

/-! The checks on a handle, one by one (46_engine.md R230). -/

section
variable {s : State} {t : Nat} {c : Chan} {d : Dir} {h : Handle}

theorem takeHandle_noHandle (hh : handleAt s c d = none) : takeHandle t c d s = raise .noHandle s := by
  simp only [takeHandle, hh]

theorem takeHandle_stale (hh : handleAt s c d = some h) (hgen : h.gen ≠ s.alloc.gen) :
    takeHandle t c d s = raise .staleHandle s := by
  simp only [takeHandle, hh, if_pos hgen]

theorem takeHandle_busy (hh : handleAt s c d = some h) (hgen : h.gen = s.alloc.gen) (hb : channelBusyAt s c d = true) :
    takeHandle t c d s = raise .channelBusy s := by
  simp only [takeHandle, hh, if_neg (not_not_intro hgen), if_pos hb]

theorem takeHandle_taskBusy (hh : handleAt s c d = some h) (hgen : h.gen = s.alloc.gen) (hb : channelBusyAt s c d = false)
    (ho : (taskRec s t).op ≠ none) : takeHandle t c d s = raise .taskBusy s := by
  simp only [takeHandle, hh, if_neg (not_not_intro hgen), hb, Bool.false_eq_true, if_false, if_pos ho]

theorem takeHandle_ok (hh : handleAt s c d = some h) (hgen : h.gen = s.alloc.gen) (hb : channelBusyAt s c d = false)
    (ho : (taskRec s t).op = none) : takeHandle t c d s = .ok h s := by
  simp only [takeHandle, hh, if_neg (not_not_intro hgen), hb, Bool.false_eq_true, if_false, if_neg (not_not_intro ho)]

theorem not_busy_of_forall (hw : tasksWf s.tasks = true)
    (hfree : ∀ u op, (taskRec s u).op = some op → opChannel op ≠ some (c, d)) : channelBusyAt s c d = false := by
  by_contra hb
  obtain ⟨u, op, ho, hc⟩ := (busy_iff hw c d).mp (Bool.not_eq_false _ ▸ hb)
  exact hfree u op ho hc

end

/-! The two commands on a handle. -/

section
variable {s : State} {ch : Chan} {h : Handle} {n : Nat} {r : Fault}

theorem exec_epRead_raise (e : takeHandle s.task ch .dirIn s = raise r s) :
    exec (.epRead ch n) s = .next (raiseFault r s) :=
  exec_of_begin_raise (by simp) (by simp only [begin, beginEpRead, sideOf, e, Run.raise_bind])

theorem exec_epRead_ok (e : takeHandle s.task ch .dirIn s = .ok h s) :
    exec (.epRead ch n) s = .next (handOut (.task s.task) .pending
      (putTask s s.task ⟨some (.read ⟨h, n, [], 0, s.timeout, none, .arming⟩), true⟩)) :=
  exec_of_begin_done (by simp) (by
    simp only [begin, beginEpRead, sideOf, e, Run.bind_ok, reply, startOp_eq_putTask])

theorem exec_epWrite_raise (e : takeHandle s.task ch .dirOut s = raise r s) :
    exec (.epWrite ch) s = .next (raiseFault r s) :=
  exec_of_begin_raise (by simp) (by simp only [begin, beginEpWrite, sideOf, e, Run.raise_bind])

/-- A write that passes the checks of its handle comes to the two size checks, before any access (46_engine.md R231). -/
theorem begin_epWrite (e : takeHandle s.task ch .dirOut s = .ok h s) : begin (.epWrite ch) (sideOf s) s =
    if h.region.len < s.data.length then raise .writeTooLarge s
    else if 1023 < s.data.length then raise .countTooLarge s
    else reply s.task .pending (putTask s s.task ⟨some (.write ⟨h, s.data, s.timeout, none, .arming⟩), true⟩) := by
  simp only [begin, beginEpWrite, sideOf, e, Run.bind_ok, startOp_eq_putTask, txCountMax]

theorem exec_epWrite_tooLarge (e : takeHandle s.task ch .dirOut s = .ok h s) (hlen : h.region.len < s.data.length) :
    exec (.epWrite ch) s = .next (raiseFault .writeTooLarge s) :=
  exec_of_begin_raise (by simp) ((begin_epWrite e).trans (if_pos hlen))

theorem exec_epWrite_countTooLarge (e : takeHandle s.task ch .dirOut s = .ok h s) (hlen : s.data.length ≤ h.region.len)
    (hmax : 1023 < s.data.length) : exec (.epWrite ch) s = .next (raiseFault .countTooLarge s) :=
  exec_of_begin_raise (by simp) ((begin_epWrite e).trans ((if_neg (Nat.not_lt.mpr hlen)).trans (if_pos hmax)))

theorem exec_epWrite_ok (e : takeHandle s.task ch .dirOut s = .ok h s) (hlen : s.data.length ≤ h.region.len)
    (hmax : s.data.length ≤ 1023) : exec (.epWrite ch) s = .next (handOut (.task s.task) .pending
      (putTask s s.task ⟨some (.write ⟨h, s.data, s.timeout, none, .arming⟩), true⟩)) :=
  exec_of_begin_done (by simp) ((begin_epWrite e).trans
    ((if_neg (Nat.not_lt.mpr hlen)).trans (if_neg (Nat.not_lt.mpr hmax))))

end

/-- Settles O34: each check of the handle faults in its turn, and passing them all starts the read. -/
theorem startRead : Obligations.StartRead := by
  refine ⟨fun ch n => encodedAs_of_inRange (i := .epRead ch n) epRead_wf_of_inRange,
    fun s ch n hw => ⟨fun hnone => exec_epRead_raise (takeHandle_noHandle hnone), fun h hh => ⟨fun hgen => ?stale,
      fun hgen => ⟨fun hb => ?busy, fun hfree => ⟨fun ho => ?taskBusy, fun ho => ?starts⟩⟩⟩⟩⟩
  case stale => exact exec_epRead_raise (takeHandle_stale hh hgen)
  case busy => exact exec_epRead_raise (takeHandle_busy hh hgen ((busy_iff hw _ _).mpr hb))
  case taskBusy => exact exec_epRead_raise (takeHandle_taskBusy hh hgen (not_busy_of_forall hw hfree) ho)
  case starts => exact exec_epRead_ok (takeHandle_ok hh hgen (not_busy_of_forall hw hfree) ho)

/-- Settles O35: the checks of the handle, then the two sizes, and passing them all starts the write. -/
theorem startWrite : Obligations.StartWrite := by
  refine ⟨fun ch => encodedAs_encodeFields (i := .epWrite ch) rfl,
    fun s ch hw => ⟨fun hnone => exec_epWrite_raise (takeHandle_noHandle hnone), fun h hh => ⟨fun hgen => ?stale,
      fun hgen => ⟨fun hb => ?busy, fun hfree => ⟨fun ho => ?taskBusy, fun ho => ?starts⟩⟩⟩⟩⟩
  case stale => exact exec_epWrite_raise (takeHandle_stale hh hgen)
  case busy => exact exec_epWrite_raise (takeHandle_busy hh hgen ((busy_iff hw _ _).mpr hb))
  case taskBusy => exact exec_epWrite_raise (takeHandle_taskBusy hh hgen (not_busy_of_forall hw hfree) ho)
  case starts =>
    have htake := takeHandle_ok hh hgen (not_busy_of_forall hw hfree) ho
    exact ⟨exec_epWrite_tooLarge htake, exec_epWrite_countTooLarge htake, exec_epWrite_ok htake⟩

/-! `BUS.WAIT` (46_engine.md R232). -/

theorem exec_busWait_taskBusy {s : State} {target : BusState} (ho : (taskRec s s.task).op ≠ none) :
    exec (.busWait target) s = .next (raiseFault .taskBusy s) :=
  exec_of_begin_raise (by simp) (if_pos ho)

theorem exec_busWait_ok {s : State} {target : BusState} (ho : (taskRec s s.task).op = none) :
    exec (.busWait target) s = .next (handOut (.task s.task) .pending
      (putTask s s.task ⟨some (.busWait ⟨target, .awaitingCompletion⟩), true⟩)) :=
  exec_of_begin_done (by simp) (by
    simp only [begin, beginBusWait, sideOf, if_neg (not_not_intro ho), reply, startOp_eq_putTask])

end Sys2Proof.Laws
end

section
/-! PROOFS. A poll's prologue and its faults (46_engine.md R233, R236), what a state within a poll has kept, and the poll of a
bus wait (R248) when no other agent steps within it. -/

namespace Sys2Proof.Laws

open Sys2Proof.Machine

/-! The prologue. -/

theorem withOp_some {t : Nat} {s : State} {op : Op} (ho : (taskRec s t).op = some op) (f : Op → Run (List Part)) :
    withOp t s f = f op := by
  simp only [withOp, ho]

theorem pollPrologue_noOperation {t : Nat} {s : State} (ho : (taskRec s t).op = none) :
    pollPrologue t s = raise .noOperation s := by
  simp only [pollPrologue, withOp, ho]

theorem pollPrologue_stale {t : Nat} {s : State} {op : Op} (ho : (taskRec s t).op = some op)
    (hst : opStale op s.alloc.gen = true) : pollPrologue t s = raise .staleHandle (setWoken t false s) :=
  (withOp_some ho _).trans (if_pos hst)

theorem pollPrologue_live {t : Nat} {s : State} {op : Op} (ho : (taskRec s t).op = some op)
    (hst : opStale op s.alloc.gen = false) : pollPrologue t s = pollParts t op (setWoken t false s) :=
  (withOp_some ho _).trans (if_neg (Bool.eq_false_iff.mp hst))

theorem opStale_of_handle {op : Op} {h : Handle} (hh : opHandle op = some h) (gen : Nat) :
    opStale op gen = decide (h.gen ≠ gen) := by
  simp only [opStale, hh]

/-- A fault of the prologue ends the poll before any access. -/
theorem exec_epPoll_raise {s s' : State} {f : Fault} (h : pollPrologue s.task s = raise f s') :
    exec .epPoll s = .next (raiseFault f s') := by
  rw [exec_eq_runCommand (by simp), runCommand_finishAll]
  simp only [firstStep, begin, beginEpPoll, Run.bind_ok, advance, accessStep, h, Run.raise_bind, Run.raise_state]

theorem exec_epPoll_stale {s : State} {op : Op} {h : Handle} (ho : (taskRec s s.task).op = some op)
    (hh : opHandle op = some h) (hgen : h.gen ≠ s.alloc.gen) :
    exec .epPoll s = .next (raiseFault .staleHandle (setWoken s.task false s)) :=
  exec_epPoll_raise (pollPrologue_stale ho ((opStale_of_handle hh _).trans (decide_eq_true hgen)))

/-- Settles O37: both faults are the prologue's. -/
theorem pollFaults : Obligations.PollFaults := fun _ =>
  ⟨fun ho => exec_epPoll_raise (pollPrologue_noOperation ho), fun _ ho => exec_epPoll_stale ho rfl,
    fun _ ho => exec_epPoll_stale ho rfl⟩

/-! Within a poll. -/

/-- A state within a poll that began in `s`: the task's slot is registered as `reg` says and its record holds `op`. What a
poll does to packet memory, the registers and the log is said apart. -/
structure WithinPoll (s : State) (reg : Option Slot) (op : Option Op) (m : State) : Prop extends Mild s.task s m where
  fault : m.fault = s.fault
  out : m.out = s.out
  slot : ∀ sl, slotOf m sl = if reg = some sl then some s.task else slotOf s sl
  op : (taskRec m s.task).op = op
  asleep : (taskRec m s.task).woken = false

section
variable {s m : State} {reg : Option Slot} {op : Option Op}

/-- The prologue lowers the `woken` flag (46_engine.md R236). -/
theorem WithinPoll.start (s : State) : WithinPoll s none (taskRec s s.task).op (setWoken s.task false s) where
  toMild := Mild.setWoken s.task false s
  fault := rfl
  out := rfl
  slot := fun sl => by rw [slotOf_setWoken, if_neg (by simp)]
  op := taskRec_setWoken_op ..
  asleep := by rw [taskRec_setWoken_woken, if_pos rfl]

theorem WithinPoll.setOp (h : WithinPoll s reg op m) (op' : Option Op) : WithinPoll s reg op' (setOp s.task op' m) where
  toMild := h.toMild.trans (Mild.setOp s.task op' m)
  fault := h.fault
  out := h.out
  slot := fun sl => by rw [slotOf_setOp, h.slot]
  op := by rw [taskRec_setOp_op, if_pos rfl]
  asleep := by rw [taskRec_setOp_woken, h.asleep]

theorem WithinPoll.register (h : WithinPoll s none op m) (sl : Slot) :
    WithinPoll s (some sl) op (register sl s.task m) where
  toMild := h.toMild.trans (Mild.register s.task sl s.task m)
  fault := by rw [register_fault, h.fault]
  out := by rw [register_out, h.out]
  slot := fun sl' => by simp only [slotOf_register, h.slot, Option.some.injEq, eq_comm, reduceCtorEq, if_false]
  op := by rw [taskRec_register, h.op]
  asleep := by rw [taskRec_register, h.asleep]

/-- An update the engine does not read. -/
theorem WithinPoll.same {m' : State} (h : WithinPoll s reg op m) (hm : Mild s.task m m') (e : SameEngine m m')
    (hf : m'.fault = m.fault) (ho : m'.out = m.out) : WithinPoll s reg op m' where
  toMild := h.toMild.trans hm
  fault := hf.trans h.fault
  out := ho.trans h.out
  slot := fun sl => by rw [e.slot, h.slot]
  op := by rw [e.record, h.op]
  asleep := by rw [e.record, h.asleep]

theorem WithinPoll.nextDraw (h : WithinPoll s reg op m) : WithinPoll s reg op (nextDraw m) :=
  h.same (Mild.nextDraw s.task m) (SameEngine.nextDraw m) rfl rfl

theorem WithinPoll.writeChep (h : WithinPoll s reg op m) (a : Agent) (c : Chan) (w : Word32) :
    WithinPoll s reg op (writeChep a c w m) :=
  h.same (Mild.writeChep s.task a c w m) (SameEngine.writeChep a c w m) rfl rfl

/-- The record of a polled task. -/
theorem WithinPoll.record (h : WithinPoll s reg op m) : taskRec m s.task = ⟨op, false⟩ := by
  rw [← h.op, ← h.asleep]

end

/-! The registration, which every poll makes before it reads `ISTR` (46_engine.md R237, R245, R248). -/

theorem finishAll_checkParts {s : State} (hs : s.slots = []) (op : Op) :
    finishAll (checkParts op) s = (pollIstr s.task (register (opSlot op) s.task s)).bind finishAll := by
  have hs' : (register (opSlot op) s.task s).slots = [] := by rw [register_slots, hs]
  have hreg : finishAll (checkParts op) s = finishAll [.access .readIstr] (register (opSlot op) s.task s) :=
    finishAll_access hs (by simp [begun])
  rw [hreg, finishAll_access hs' (by simp [begun]), register_task]
  simp only [accessStep, List.append_nil]

/-! The poll of a bus wait. -/

section
variable {s : State} {b : BusWaitOp}

/-- A poll of a bus wait after its registration and its read of `ISTR`. -/
def busPolled (s : State) : State := nextDraw (register .bus s.task (setWoken s.task false s))

theorem record_busPolled (s : State) : Record s.task s (busPolled s) :=
  ((Record.setWoken s.task false s).trans (Record.register s.task .bus s.task _)).trans (Record.nextDraw s.task _)

theorem withinPoll_busPolled (s : State) : WithinPoll s (some .bus) (taskRec s s.task).op (busPolled s) :=
  ((WithinPoll.start s).register .bus).nextDraw

theorem busMatches_iff (target : BusState) (connected : Bool) :
    busMatches target connected = true ↔ (connected = true ↔ target = .connected) := by
  cases target <;> simp [busMatches]

/-- The poll after its registration: the bus as `ISTR` shows it decides (46_engine.md R248). -/
theorem exec_epPoll_busWait (hs : s.slots = []) (ho : (taskRec s s.task).op = some (.busWait b)) :
    exec .epPoll s = .next (if busMatches b.target s.connected then donePoll s.task (.busWait b) .unit (busPolled s)
      else reply s.task .pending (busPolled s)).state := by
  have hparts : pollPrologue s.task s = .ok (checkParts (.busWait b)) (setWoken s.task false s) :=
    pollPrologue_live ho rfl
  have hop : (taskRec (busPolled s) s.task).op = some (.busWait b) := (withinPoll_busPolled s).op.trans ho
  have hread : pollIstr s.task (register .bus s.task (setWoken s.task false s)) =
      if busMatches b.target s.connected then donePoll s.task (.busWait b) .unit (busPolled s)
      else reply s.task .pending (busPolled s) := withOp_some hop _
  rw [exec_epPoll_undisturbed hs, hparts, Run.bind_ok, finishAll_checkParts (s := setWoken s.task false s) hs]
  show Host.Outcome.next ((pollIstr s.task (register .bus s.task (setWoken s.task false s))).bind finishAll).state = _
  rw [hread]
  split <;> rfl

/-- What such a poll leaves, given the state `m` in which its result is handed out. -/
theorem busWait_handOut {m : State} {op : Option Op} {res : Result} (hw : WithinPoll s (some .bus) op m)
    (hr : Record s.task s m) :
    let t := handOut (.task s.task) res m
    t.out = s.out ++ [(.task s.task, res)] ∧ taskRec t s.task = ⟨op, false⟩ ∧
    (∀ u, u ≠ s.task → taskRec t u = taskRec s u) ∧ (∀ sl, slotOf t sl = if sl = .bus then some s.task else slotOf s sl) ∧
    t.params = s.params ∧ t.pma = s.pma ∧ t.chep = s.chep ∧ t.istr = s.istr ∧ t.errChan = s.errChan ∧
    t.connected = s.connected ∧ t.alloc = s.alloc ∧ t.htIn = s.htIn ∧ t.htOut = s.htOut ∧ t.now = s.now ∧
    t.fault = s.fault ∧ t.log = s.log ∧ t.inProgress = s.inProgress := by
  refine ⟨by rw [handOut_out, hw.out], hw.record, hr.others, fun sl => ?_, hr.params, hr.pma, hr.chep, hr.istr, hr.errChan,
    hr.connected, hr.alloc, hr.htIn, hr.htOut, hr.now, hr.fault, hr.logged, hr.inProgress⟩
  rw [(SameEngine.handOut _ _ _).slot, hw.slot]
  simp only [Option.some.injEq, eq_comm]

end

/-- Settles O36: the start of the wait, and its poll, which ends where the bus is in the state waited for. -/
theorem busWait : Obligations.BusWait := by
  refine ⟨fun s target => ⟨exec_busWait_taskBusy, exec_busWait_ok⟩, fun s b hs ho => ⟨_, exec_epPoll_busWait hs ho, ?_⟩⟩
  have hw := withinPoll_busPolled s
  have hr := record_busPolled s
  simp only [← busMatches_iff]
  cases busMatches b.target s.connected
  · rw [ho] at hw
    exact busWait_handOut hw hr
  · exact busWait_handOut ((hw.setOp _).setOp none) ((hr.trans (Record.setOp _ _ _)).trans (Record.setOp _ none _))

end Sys2Proof.Laws
end

section
/-! PROOFS. The poll of a transfer when no other agent steps within it: the checks of 46_engine.md R238 and R239 from its
registration on, and the transition tables of reads (R240) and writes (R247). -/

namespace Sys2Proof.Laws

open Sys2Proof.Machine

/-! How a poll ends. -/

/-- The state `m`, in which the poll of `s` hands out its result, is where the row `tr` leads from `base`. -/
structure RowDone (s base : State) (c : Chan) (d : Dir) (tr : Transition) (m : State) : Prop where
  within : WithinPoll s (some (.chan c d)) tr.op m
  pma : m.pma = base.pma
  elsewhere : ∀ c', c' ≠ c → readChep m c' = readChep base c'
  status : readChep m c = tr.chep base.params (dirHalf d) (readChep base c)
  log : m.log = base.log ++ tr.log base.params (dirHalf d) s.task c (readChep base c)

/-- The run hands out the row's result where the row leads. -/
def EndsAs (s base : State) (c : Chan) (d : Dir) (tr : Transition) (r : Run (List Part)) : Prop :=
  ∃ m, RowDone s base c d tr m ∧ r = .ok [] (handOut (.task s.task) tr.result m)

section
variable {s m base : State} {c : Chan} {d : Dir} {tr : Transition} {r : Run (List Part)}

/-- In the terms of the statements. -/
theorem EndsAs.polled (h : EndsAs s base c d tr r) (hregs : ∀ c', c' ≠ c → readChep base c' = readChep s c') :
    Polled s r.state c d tr.op tr.result ∧ r.state.pma = base.pma ∧
    readChep r.state c = tr.chep base.params (dirHalf d) (readChep base c) ∧
    r.state.log = base.log ++ tr.log base.params (dirHalf d) s.task c (readChep base c) := by
  obtain ⟨m, hm, rfl⟩ := h
  have hw := hm.within
  refine ⟨?_, hm.pma, hm.status, hm.log⟩
  exact {
    params := hw.params
    istr := hw.istr
    errChan := hw.errChan
    connected := hw.connected
    alloc := hw.alloc
    htIn := hw.htIn
    htOut := hw.htOut
    now := hw.now
    fault := hw.fault
    chep := fun c' hc => (hm.elsewhere c' hc).trans (hregs c' hc)
    slot := fun sl => by
      rw [Run.state_ok, (SameEngine.handOut _ _ _).slot, hw.slot]
      simp only [Option.some.injEq, eq_comm]
    others := hw.others
    mine := hw.record
    inProgress := hw.inProgress
    out := by rw [Run.state_ok, handOut_out, hw.out] }

/-- Work on the task's own record alone comes before a row without trace. -/
theorem EndsAs.of_record {base' : State} (h : EndsAs s base' c d tr r) (hr : Record s.task base base') :
    EndsAs s base c d tr r := by
  obtain ⟨m, hm, he⟩ := h
  have hregs := readChep_congr hr.chep
  refine ⟨m, ⟨hm.within, hm.pma.trans hr.pma, fun c' hc => (hm.elsewhere c' hc).trans (hregs c'), ?_, ?_⟩, he⟩
  · rw [hm.status, hr.params, hregs]
  · rw [hm.log, hr.params, hregs, hr.logged]

/-- A row that writes no status is handed out as the poll stands. -/
theorem WithinPoll.endsAs {op : Option Op} (h : WithinPoll s (some (.chan c d)) op m) (res : Result) :
    EndsAs s m c d ⟨none, op, res⟩ (reply s.task res m) :=
  ⟨m, ⟨h, rfl, fun _ _ => rfl, rfl, (List.append_nil _).symm⟩, rfl⟩

/-- The operation ends, and its result is handed over (46_engine.md R233, R249). -/
theorem WithinPoll.endsAs_finish {o : Option Op} (h : WithinPoll s (some (.chan c d)) o m) (op : Op) (p : Phase)
    (res : Result) : EndsAs s m c d ⟨none, none, res⟩ (finishPoll s.task op p res m) :=
  (((h.setOp _).setOp none).endsAs res).of_record ((Record.setOp s.task _ m).trans (Record.setOp s.task none _))

/-! A status write (44_channel_register.md R192). -/

/-- The register, and the log, after a task's status write from the register as it stands. -/
def statusWritten (t : Nat) (c : Chan) (h : Half) (st : Status) (s : State) : State :=
  writeChep (.task t) c (setstatWord s.params h (readChep s c) st) s

theorem readChep_statusWritten (hl : chepLayoutWf s.params.chep = true) (t : Nat) (c : Chan) (h : Half) (st : Status)
    (c' : Chan) : readChep (statusWritten t c h st s) c' =
      if c' = c then putStat s.params h (readChep s c) st else readChep s c' := by
  rw [statusWritten, readChep_writeChep, hwWriteChep_setstat_same hl]

/-- A status write, and what the task does on its own after it. -/
theorem finishAll_setStatus {h : Half} {st : Status} {o : Own} {rest : List Part} (hs : s.slots = []) (hb : begun rest) :
    finishAll (changeReg c (.setStatus h st) :: .own o :: rest) s =
      (ownStep s.task o (statusWritten s.task c h st s)).bind fun more s => finishAll (more ++ rest) s := by
  have hown : begun (.own o :: rest) := by simpa [begun] using hb
  rw [finishAll_changeReg hs hown]
  exact finishAll_own (s := statusWritten s.task c h st s) hs hown

theorem WithinPoll.statusWritten {reg : Option Slot} {op : Option Op} (h : WithinPoll s reg op m) (c : Chan) (hf : Half)
    (st : Status) : WithinPoll s reg op (statusWritten s.task c hf st m) := h.writeChep _ _ _

/-- A row that writes a status is that write and the row without it. -/
theorem EndsAs.of_statusWritten {st : Status} {op : Option Op} {res : Result} (hl : chepLayoutWf m.params.chep = true)
    (h : EndsAs s (statusWritten s.task c (dirHalf d) st m) c d ⟨none, op, res⟩ r) :
    EndsAs s m c d ⟨some st, op, res⟩ r := by
  obtain ⟨m', hm, he⟩ := h
  have hregs := readChep_statusWritten (t := s.task) (c := c) (h := dirHalf d) (st := st) hl
  refine ⟨m', ⟨hm.within, hm.pma, fun c' hc => ?_, ?_, ?_⟩, he⟩
  · rw [hm.elsewhere c' hc, hregs, if_neg hc]
  · rw [hm.status]
    exact (hregs c).trans (if_pos rfl)
  · rw [hm.log]
    exact List.append_nil _

end

/-! The checks of a transfer, whichever its direction. -/

section
variable {s m : State} {t : Nat} {c : Chan} {d : Dir} {op : Op}

theorem pollIstr_transfer (ho : (taskRec s t).op = some op) (hsl : opSlot op = .chan c d) :
    pollIstr t s = checkConnected c (dirHalf d) s.connected (nextDraw s) := by
  have hop : (taskRec (nextDraw s) t).op = some op := ho
  rw [pollIstr, withOp_some hop]
  cases op <;> cases hsl <;> rfl

theorem pollClock_transfer (ho : (taskRec s t).op = some op) (hsl : opSlot op = .chan c d) :
    pollClock t s = .ok (if opExpired (some op) s.now then disableParts c (dirHalf d) .timeout else [.access .inspect]) s := by
  rw [pollClock, withOp_some ho]
  cases op <;> cases hsl <;> exact (apply_ite (fun ps => Run.ok ps s) _ _ _).symm

theorem pollInspect_stall (ho : (taskRec s t).op = some op) (hsl : opSlot op = .chan c d)
    (hst : getStat s.params (dirHalf d) (readChep s c) = .stall) : pollInspect t s = failPoll t op .stall s := by
  rw [pollInspect, withOp_some ho]
  cases op <;> cases hsl <;> simp only [dirHalf] at hst <;> simp only [hst]

/-- A transaction that is still enabled is waited for. -/
theorem pollInspect_waiting (ho : (taskRec s t).op = some op) (hsl : opSlot op = .chan c d)
    (hst : getStat s.params (dirHalf d) (readChep s c) = .nak ∨ getStat s.params (dirHalf d) (readChep s c) = .valid) :
    pollInspect t s = reply t .pending s := by
  rw [pollInspect, withOp_some ho]
  cases op <;> cases hsl <;> simp only [dirHalf] at hst <;> rcases hst with hst | hst <;> simp only [hst]

/-- The half is disabled and the operation fails (46_engine.md R238, R239). -/
theorem endsAs_disable (hm : WithinPoll s (some (.chan c d)) (some op) m) (hs : s.slots = [])
    (hl : chepLayoutWf s.params.chep = true) (e : Err) :
    EndsAs s m c d ⟨some .disabled, none, .err e (copiedOf op)⟩ (finishAll (disableParts c (dirHalf d) e) m) := by
  have hw := hm.statusWritten c (dirHalf d) .disabled
  refine EndsAs.of_statusWritten (by rwa [hm.params]) ?_
  have hfail : ownStep s.task (.fail e) (statusWritten s.task c (dirHalf d) .disabled m) =
      finishPoll s.task op (.failed e) (.err e (copiedOf op)) (statusWritten s.task c (dirHalf d) .disabled m) :=
    withOp_some hw.op _
  rw [disableParts, finishAll_setStatus (hm.slots.trans hs) (by simp [begun]), hm.task, hfail]
  exact hw.endsAs_finish op (.failed e) (.err e (copiedOf op))

/-- From its registration on, a poll of a transfer is the row `tr` when the disconnect and the timeout lead to it, and the
inspection of the status does where the poll gets there (46_engine.md R238–R240, R247). -/
theorem endsAs_checks {tr : Transition} (hm : WithinPoll s none (some op) m) (hs : s.slots = [])
    (hl : chepLayoutWf s.params.chep = true) (hsl : opSlot op = .chan c d)
    (hdisc : m.connected = false → tr = ⟨some .disabled, none, .err .disconnected (copiedOf op)⟩)
    (htime : m.connected = true → opExpired (some op) m.now = true →
      tr = ⟨some .disabled, none, .err .timeout (copiedOf op)⟩)
    (hinsp : m.connected = true → opExpired (some op) m.now = false → ∀ m', Record s.task m m' →
      WithinPoll s (some (.chan c d)) (some op) m' → EndsAs s m' c d tr ((pollInspect s.task m').bind finishAll)) :
    EndsAs s m c d tr (finishAll (checkParts op) m) := by
  have hw := (hm.register (.chan c d)).nextDraw
  have hrec := (Record.register s.task (.chan c d) s.task m).trans (Record.nextDraw s.task _)
  have hslots := hw.slots.trans hs
  rw [finishAll_checkParts (hm.slots.trans hs), hsl, hm.task,
    pollIstr_transfer (hm.register (.chan c d)).op hsl, register_connected]
  refine EndsAs.of_record ?_ hrec
  cases hc : m.connected with
  | false =>
    rw [hdisc hc]
    exact endsAs_disable hw hs hl .disconnected
  | true =>
    show EndsAs s _ c d tr (finishAll [.access .clock] _)
    rw [finishAll_access hslots (by simp [begun]), hw.task]
    simp only [accessStep, pollClock_transfer hw.op hsl, Run.bind_ok, List.append_nil]
    rw [hrec.now]
    cases ht : opExpired (some op) m.now with
    | true =>
      rw [htime hc ht]
      exact endsAs_disable hw hs hl .timeout
    | false =>
      simp only [Bool.false_eq_true, if_false]
      rw [finishAll_access hslots (by simp [begun]), hw.task]
      simp only [accessStep, List.append_nil]
      exact hinsp hc ht _ hrec hw

end

/-! Writes (46_engine.md R247). -/

/-- The row of the write `w` in `s`. -/
def writeRow (w : WriteOp) (s : State) : Transition :=
  writeTransition w s.connected (expired w.timeout w.start s.now) (getStat s.params .tx (readChep s w.h.index))

section
variable {s m : State} {w : WriteOp}

theorem pollInspect_write_disabled {t : Nat} (ho : (taskRec s t).op = some (.write w))
    (hst : getStat s.params .tx (readChep s w.h.index) = .disabled) :
    pollInspect t s = donePoll t (.write w) .unit s := by
  simp only [pollInspect, withOp, ho, hst]

/-- Each status leads to its row. -/
theorem endsAs_inspect_write (hm : WithinPoll s (some (.chan w.h.index .dirOut)) (some (.write w)) m) :
    EndsAs s m w.h.index .dirOut (writeTransition w true false (getStat m.params .tx (readChep m w.h.index)))
      ((pollInspect s.task m).bind finishAll) := by
  cases hst : getStat m.params .tx (readChep m w.h.index) with
  | disabled =>
    rw [pollInspect_write_disabled hm.op hst]
    exact hm.endsAs_finish (.write w) (.done .unit) (.ok .unit)
  | stall =>
    rw [pollInspect_stall hm.op rfl hst]
    exact hm.endsAs_finish (.write w) (.failed .stall) (.err .stall [])
  | nak =>
    rw [pollInspect_waiting hm.op rfl (.inl hst)]
    exact hm.endsAs .pending
  | valid =>
    rw [pollInspect_waiting hm.op rfl (.inr hst)]
    exact hm.endsAs .pending

theorem endsAs_checks_write (hm : WithinPoll s none (some (.write w)) m) (hs : s.slots = [])
    (hl : chepLayoutWf s.params.chep = true) :
    EndsAs s m w.h.index .dirOut (writeRow w m) (finishAll (checkParts (.write w)) m) := by
  refine endsAs_checks hm hs hl rfl (fun hc => ?_) (fun hc ht => ?_) fun hc ht m' hr hw => ?_
  · rw [writeRow, hc]; rfl
  · rw [writeRow, hc, show expired w.timeout w.start m.now = true from ht]; rfl
  · rw [writeRow, hc, show expired w.timeout w.start m.now = false from ht, ← hr.params, ← readChep_congr hr.chep]
    exact endsAs_inspect_write hw

end

theorem opStale_of_gen {op : Op} {h : Handle} {gen : Nat} (hh : opHandle op = some h) (hgen : h.gen = gen) :
    opStale op gen = false := (opStale_of_handle hh gen).trans (decide_eq_false (not_not_intro hgen))

/-- A poll of a transfer does what its prologue leaves to do. -/
theorem exec_epPoll_parts {s m : State} {op : Op} {h : Handle} {ps : List Part} (hs : s.slots = [])
    (ho : (taskRec s s.task).op = some op) (hh : opHandle op = some h) (hgen : h.gen = s.alloc.gen)
    (hp : pollParts s.task op (setWoken s.task false s) = .ok ps m) : exec .epPoll s = .next (finishAll ps m).state := by
  rw [exec_epPoll_undisturbed hs, pollPrologue_live ho (opStale_of_gen hh hgen), hp, Run.bind_ok]

theorem pollParts_write_awaiting {t : Nat} {w : WriteOp} (hph : w.phase = .awaitingCompletion) (s : State) :
    pollParts t (.write w) s = .ok (checkParts (.write w)) s := by
  simp only [pollParts, hph]

theorem pollParts_read_awaiting {t : Nat} {r : ReadOp} (hph : r.phase = .awaitingCompletion) (s : State) :
    pollParts t (.read r) s = .ok (checkParts (.read r)) s := by
  simp only [pollParts, hph]

theorem chepLayoutWf_of_paramsWf {p : Params} (h : paramsWf p = true) : chepLayoutWf p.chep = true := by
  simp only [paramsWf, Bool.and_eq_true] at h
  exact h.1.2

/-- Settles O40: the checks and the inspection lead to the table's row. -/
theorem writeTransitions : Obligations.WriteTransitions := by
  intro s w hs hp ho hgen hph
  have hm := WithinPoll.start s
  rw [ho] at hm
  refine ⟨_, exec_epPoll_parts hs ho rfl hgen (pollParts_write_awaiting hph _), ?_⟩
  exact (endsAs_checks_write hm hs (chepLayoutWf_of_paramsWf hp)).polled fun _ _ => rfl

/-! Reads (46_engine.md R240). -/

/-- The count of the packet received on a channel (42_descriptor.md R164). -/
def rxCount (s : State) (c : Chan) : Nat := (codeRx s c).toNat % 1024

/-- The row of the read `r` in `s`. -/
def readRow (r : ReadOp) (s : State) : Transition :=
  readTransition r s.connected (expired r.timeout r.start s.now) (getStat s.params .rx (readChep s r.h.index))
    (rxCount s r.h.index) (pmaBytesAt s r.h.region.off (rxCount s r.h.index))

/-- A packet that the buffer of the read `r` has room for lies in the region, and the region in packet memory. -/
def PacketFits (r : ReadOp) (s : State) : Prop :=
  rxCount s r.h.index ≤ r.n - r.off → r.h.region.off % granBytes s.params.gran = 0 ∧
    rxCount s r.h.index ≤ r.h.region.len ∧ (rxCount s r.h.index = 0 ∨
      r.h.region.off + roundup (rxCount s r.h.index) (granBytes s.params.gran) ≤ s.params.pmaBytes)

theorem rxCount_congr {s s' : State} (h : s'.pma = s.pma) (c : Chan) : rxCount s' c = rxCount s c := by
  simp only [rxCount, codeRx, pmaBytesAt, pmaByte_congr h]

/-- A row that finds the bus connected and the time not passed, by the half's status. -/
theorem readTransition_disabled (r : ReadOp) (n : Nat) (bytes : List Byte) : readTransition r true false .disabled n bytes =
    if r.n - r.off < n then ⟨none, none, .err .bufferOverflow r.buf⟩
    else if r.off + n = r.n ∨ n < r.h.mps then ⟨none, none, .ok (.received (r.off + n) (r.buf ++ bytes))⟩
    else ⟨some .valid, some (.read { r with buf := r.buf ++ bytes, off := r.off + n, phase := .awaitingCompletion }),
      .pending⟩ := rfl

section
variable {s m : State} {t : Nat} {r : ReadOp}

theorem pollInspect_read_disabled (ho : (taskRec s t).op = some (.read r))
    (hst : getStat s.params .rx (readChep s r.h.index) = .disabled) :
    pollInspect t s = .ok [.access .readCount] (setOp t (some (.read { r with phase := .accumulating })) s) := by
  simp only [pollInspect, withOp, ho, hst, withPhase]

theorem pollCount_eq (ho : (taskRec s t).op = some (.read r)) (hp : 64 ≤ s.params.pmaBytes) : pollCount t s =
    if r.n - r.off < rxCount s r.h.index then failPoll t (.read r) .bufferOverflow s
    else .ok (pmReadParts s.params r.h.region (rxCount s r.h.index) .poll) s := by
  simp only [pollCount, withOp, ho, rxLen_ok hp, Run.bind_ok]
  rfl

/-- The read with the bytes of one more packet. -/
def received (r : ReadOp) (bytes : List Byte) : ReadOp :=
  { r with buf := r.buf ++ bytes, off := r.off + bytes.length }

theorem pollUnpacked_eq (ho : (taskRec s t).op = some (.read r)) (bytes : List Byte) : pollUnpacked t bytes s =
    if r.off + bytes.length = r.n ∨ bytes.length < r.h.mps then
      donePoll t (.read (received r bytes)) (.received (r.off + bytes.length) (r.buf ++ bytes)) s
    else .ok [changeReg r.h.index (.setStatus .rx .valid), .own .rearmed] (setOp t (some (.read (received r bytes))) s) :=
  withOp_some ho _

/-- The half is armed again for the next packet (46_engine.md R240 row 5). -/
theorem endsAs_rearm (hm : WithinPoll s (some (.chan r.h.index .dirIn)) (some (.read r)) m) (hs : s.slots = [])
    (hl : chepLayoutWf s.params.chep = true) :
    EndsAs s m r.h.index .dirIn ⟨some .valid, some (.read { r with phase := .awaitingCompletion }), .pending⟩
      (finishAll [changeReg r.h.index (.setStatus .rx .valid), .own .rearmed] m) := by
  have hw := hm.statusWritten r.h.index .rx .valid
  refine EndsAs.of_statusWritten (by rwa [hm.params]) ?_
  have hrearm : ownStep s.task .rearmed (statusWritten s.task r.h.index .rx .valid m) =
      reply s.task .pending (setOp s.task (some (.read { r with phase := .awaitingCompletion }))
        (statusWritten s.task r.h.index .rx .valid m)) := withOp_some hw.op _
  rw [finishAll_setStatus (hm.slots.trans hs) (by simp [begun]), hm.task, hrearm]
  exact ((hw.setOp _).endsAs .pending).of_record (Record.setOp s.task _ _)

/-- The bytes of the packet end the read or leave it waiting for the next one (46_engine.md R240 rows 4 and 5). -/
theorem endsAs_unpacked (hm : WithinPoll s (some (.chan r.h.index .dirIn)) (some (.read r)) m) (hs : s.slots = [])
    (hl : chepLayoutWf s.params.chep = true) {bytes : List Byte} (hroom : ¬ r.n - r.off < bytes.length) :
    EndsAs s m r.h.index .dirIn (readTransition r true false .disabled bytes.length bytes)
      (finishAll [.own (.unpacked bytes .poll)] m) := by
  rw [finishAll_own (hm.slots.trans hs) (by simp [begun]), hm.task, readTransition_disabled, if_neg hroom]
  simp only [ownStep, pollUnpacked_eq hm.op, List.append_nil]
  split
  · exact hm.endsAs_finish (.read (received r bytes)) (.done _) _
  · exact (endsAs_rearm (r := received r bytes) (hm.setOp _) hs hl).of_record (Record.setOp s.task _ m)

/-- A completed transaction overflows the buffer, or its packet is copied (46_engine.md R240 rows 3 to 5). -/
theorem endsAs_readCount (hm : WithinPoll s (some (.chan r.h.index .dirIn)) (some (.read r)) m) (hs : s.slots = [])
    (hp : paramsWf s.params = true) (hfit : PacketFits r m) :
    EndsAs s m r.h.index .dirIn (readTransition r true false .disabled (rxCount m r.h.index)
      (pmaBytesAt m r.h.region.off (rxCount m r.h.index))) (finishAll [.access .readCount] m) := by
  have hslots := hm.slots.trans hs
  have hpma : 64 ≤ m.params.pmaBytes := hm.params ▸ descTable_le hp
  rw [finishAll_access hslots (by simp [begun]), hm.task]
  simp only [accessStep, pollCount_eq hm.op hpma, List.append_nil]
  split
  next hover =>
    rw [readTransition_disabled, if_pos hover]
    exact hm.endsAs_finish (.read r) (.failed .bufferOverflow) (.err .bufferOverflow r.buf)
  next hroom =>
    obtain ⟨ha, hlen, hend⟩ := hfit (Nat.le_of_not_lt hroom)
    have hun := endsAs_unpacked hm hs (chepLayoutWf_of_paramsWf hp)
      (bytes := pmaBytesAt m r.h.region.off (rxCount m r.h.index)) (by rwa [pmaBytesAt_length])
    rw [pmaBytesAt_length] at hun
    rwa [Run.bind_ok, finishAll_pmRead hslots hlen ha hend]

/-- Each status leads to its row. -/
theorem endsAs_inspect_read (hm : WithinPoll s (some (.chan r.h.index .dirIn)) (some (.read r)) m) (hs : s.slots = [])
    (hp : paramsWf s.params = true)
    (hfit : getStat m.params .rx (readChep m r.h.index) = .disabled → PacketFits r m) :
    EndsAs s m r.h.index .dirIn (readTransition r true false (getStat m.params .rx (readChep m r.h.index))
      (rxCount m r.h.index) (pmaBytesAt m r.h.region.off (rxCount m r.h.index))) ((pollInspect s.task m).bind finishAll) := by
  cases hst : getStat m.params .rx (readChep m r.h.index) with
  | disabled =>
    rw [pollInspect_read_disabled hm.op hst]
    exact (endsAs_readCount (r := { r with phase := .accumulating }) (hm.setOp _) hs hp (hfit hst)).of_record
      (Record.setOp s.task _ m)
  | stall =>
    rw [pollInspect_stall hm.op rfl hst]
    exact hm.endsAs_finish (.read r) (.failed .stall) (.err .stall r.buf)
  | nak =>
    rw [pollInspect_waiting hm.op rfl (.inl hst)]
    exact hm.endsAs .pending
  | valid =>
    rw [pollInspect_waiting hm.op rfl (.inr hst)]
    exact hm.endsAs .pending

theorem PacketFits.congr {m' : State} (h : PacketFits r m) (hp : m'.params = m.params) (hpma : m'.pma = m.pma) :
    PacketFits r m' := by
  rwa [PacketFits, rxCount_congr hpma, hp]

theorem endsAs_checks_read (hm : WithinPoll s none (some (.read r)) m) (hs : s.slots = [])
    (hp : paramsWf s.params = true)
    (hfit : m.connected = true → expired r.timeout r.start m.now = false →
      getStat m.params .rx (readChep m r.h.index) = .disabled → PacketFits r m) :
    EndsAs s m r.h.index .dirIn (readRow r m) (finishAll (checkParts (.read r)) m) := by
  refine endsAs_checks hm hs (chepLayoutWf_of_paramsWf hp) rfl (fun hc => ?_) (fun hc ht => ?_) fun hc ht m' hr hw => ?_
  · rw [readRow, hc]; rfl
  · rw [readRow, hc, show expired r.timeout r.start m.now = true from ht]; rfl
  · have hregs : readChep m' r.h.index = readChep m r.h.index := readChep_congr hr.chep _
    have hend := endsAs_inspect_read hw hs hp fun hst =>
      (hfit hc ht (by rwa [hr.params, hregs] at hst)).congr hr.params hr.pma
    rw [readRow, hc, show expired r.timeout r.start m.now = false from ht]
    simpa only [hr.params, hregs, rxCount_congr hr.pma, pmaBytesAt, pmaByte_congr hr.pma] using hend

end

/-- Settles O38: the checks and the inspection lead to the table's row. -/
theorem readTransitions : Obligations.ReadTransitions := by
  intro s r hs hp ho hgen hph c v n hfit
  have hm := WithinPoll.start s
  rw [ho] at hm
  refine ⟨_, exec_epPoll_parts hs ho rfl hgen (pollParts_read_awaiting hph _), ?_⟩
  exact (endsAs_checks_read hm hs hp fun hc ht hst => hfit hc ht hst).polled fun _ _ => rfl

end Sys2Proof.Laws
end

section
/-! PROOFS. The first poll of a transfer (46_engine.md R237, R245): what a write's first step leaves to do, its stores, and the
arming of a half with the checks after it when no other agent steps within the poll. -/

namespace Sys2Proof.Laws

open Sys2Proof.Machine

/-! A status written twice. -/

theorem fieldPut_fieldPut (f : Field) (v x y : Word32) : fieldPut f (fieldPut f v x) y = fieldPut f v y := by
  apply BitVec.eq_of_getLsbD_eq
  intro i _
  simp only [getLsbD_fieldPut]
  split <;> rfl

theorem putStat_putStat (p : Params) (h : Half) (v : Word32) (a b : Status) :
    putStat p h (putStat p h v a) b = putStat p h v b := fieldPut_fieldPut _ _ _ _

/-! The arm. -/

section
variable {s m : State} {c : Chan} {d : Dir} {op : Op}

/-- The row of a first poll once the half is armed, by whether the bus is connected. -/
def armRow (op : Op) (connected : Bool) : Transition :=
  if connected then ⟨none, some op, .pending⟩ else ⟨some .disabled, none, .err .disconnected (copiedOf op)⟩

/-- The half is armed, and the operation awaits its completion (46_engine.md R237, R245). -/
def armed (s m : State) (c : Chan) (d : Dir) (op : Op) : State :=
  setOp s.task (some (withPhase op .awaitingCompletion)) (statusWritten s.task c (dirHalf d) .valid m)

theorem WithinPoll.armed {reg : Option Slot} {o : Option Op} (h : WithinPoll s reg o m) (c : Chan) (d : Dir) (op : Op) :
    WithinPoll s reg (some (withPhase op .awaitingCompletion)) (armed s m c d op) :=
  (h.statusWritten c (dirHalf d) .valid).setOp _

theorem readChep_armed (hl : chepLayoutWf m.params.chep = true) (c' : Chan) : readChep (armed s m c d op) c' =
    if c' = c then putStat m.params (dirHalf d) (readChep m c) .valid else readChep m c' :=
  readChep_statusWritten hl s.task c (dirHalf d) .valid c'

theorem armed_log : (armed s m c d op).log =
    m.log ++ [.writeChep (.task s.task) c (setstatWord m.params (dirHalf d) (readChep m c) .valid)] := rfl

theorem finishAll_arm (hm : WithinPoll s none (some op) m) (hs : s.slots = []) :
    finishAll (changeReg c (.setStatus (dirHalf d) .valid) :: .own .armed :: checkParts op) m =
      finishAll (checkParts op) (armed s m c d op) := by
  have hown : ownStep s.task .armed (statusWritten s.task c (dirHalf d) .valid m) = .ok [] (armed s m c d op) :=
    withOp_some (hm.statusWritten c (dirHalf d) .valid).op _
  rw [finishAll_setStatus (hm.slots.trans hs) (by simp [begun, checkParts]), hm.task, hown, Run.bind_ok, List.nil_append]

/-- The checks of a first poll find the half as it was armed and the time not passed. -/
theorem endsAs_armed (hm : WithinPoll s none (some op) m) (hs : s.slots = []) (hl : chepLayoutWf s.params.chep = true)
    (hsl : opSlot op = .chan c d) (hstart : opExpired (some (withPhase op .awaitingCompletion)) s.now = false) :
    EndsAs s (armed s m c d op) c d (armRow (withPhase op .awaitingCompletion) s.connected)
      (finishAll (checkParts op) (armed s m c d op)) := by
  have hw := hm.armed c d op
  have hlm : chepLayoutWf m.params.chep = true := by rwa [hm.params]
  rw [← checkParts_withPhase op .awaitingCompletion, ← hw.connected]
  refine endsAs_checks hw hs hl (by rw [opSlot_withPhase, hsl]) (fun hc => ?_) (fun _ ht => ?_) fun hc _ m' hr hw' => ?_
  · rw [hc]; rfl
  · rw [hw.now, hstart] at ht
    cases ht
  · have hst : getStat m'.params (dirHalf d) (readChep m' c) = .valid := by
      rw [hr.params, readChep_congr hr.chep, readChep_armed hlm, if_pos rfl]
      exact getStat_putStat hlm _ _ _
    rw [hc, pollInspect_waiting hw'.op (by rw [opSlot_withPhase, hsl]) (.inr hst)]
    exact hw'.endsAs .pending

/-- The log entry of a status write. -/
def statusEntry (s : State) (c : Chan) (h : Half) (v : Word32) (st : Status) : LogEntry :=
  .writeChep (.task s.task) c (setstatWord s.params h v st)

/-- A first poll from its arm on, in the terms of the statements: pending on a connected bus, `Disconnected` and disabled
again otherwise. -/
theorem polled_armed (hm : WithinPoll s none (some op) m) (hs : s.slots = []) (hl : chepLayoutWf s.params.chep = true)
    (hsl : opSlot op = .chan c d) (hstart : opExpired (some (withPhase op .awaitingCompletion)) s.now = false)
    (hchep : m.chep = s.chep) (hlog : m.log = s.log) :
    let t := (finishAll (changeReg c (.setStatus (dirHalf d) .valid) :: .own .armed :: checkParts op) m).state
    let v := readChep s c
    let a := putStat s.params (dirHalf d) v .valid
    t.pma = m.pma ∧
    (s.connected = true → Polled s t c d (some (withPhase op .awaitingCompletion)) .pending ∧ readChep t c = a ∧
      t.log = s.log ++ [statusEntry s c (dirHalf d) v .valid]) ∧
    (s.connected = false → Polled s t c d none (.err .disconnected (copiedOf (withPhase op .awaitingCompletion))) ∧
      readChep t c = putStat s.params (dirHalf d) v .disabled ∧
      t.log = s.log ++ [statusEntry s c (dirHalf d) v .valid, statusEntry s c (dirHalf d) a .disabled]) := by
  intro t v a
  have hlm : chepLayoutWf m.params.chep = true := by rwa [hm.params]
  have hregs : ∀ c', readChep m c' = readChep s c' := readChep_congr hchep
  have hparams : (armed s m c d op).params = s.params := (hm.armed c d op).params
  have ha : readChep (armed s m c d op) c = a := by rw [readChep_armed hlm, if_pos rfl, hm.params, hregs]
  have halog : (armed s m c d op).log = s.log ++ [statusEntry s c (dirHalf d) v .valid] := by
    rw [armed_log, hlog, hm.params, hregs, statusEntry]
  have helse : ∀ c', c' ≠ c → readChep (armed s m c d op) c' = readChep s c' := fun c' hc => by
    rw [readChep_armed hlm, if_neg hc, hregs]
  have hend := (endsAs_armed (c := c) (d := d) hm hs hl hsl hstart).polled helse
  rw [← finishAll_arm hm hs, hparams, ha, halog] at hend
  obtain ⟨hp, hpma, hreg, hl'⟩ := hend
  refine ⟨hpma, fun hc => ?_, fun hc => ?_⟩
  · rw [hc] at hp hreg hl'
    exact ⟨hp, hreg, hl'.trans (List.append_nil _)⟩
  · rw [hc] at hp hreg hl'
    exact ⟨hp, hreg.trans (putStat_putStat _ _ _ _ _), by rw [hl', List.append_assoc]; rfl⟩

end

/-- No time has passed where an operation starts. -/
theorem expired_now (timeout : Option Nat) (now : Nat) : expired timeout (some now) now = false := by
  cases timeout <;> simp [expired]

/-! Reads (46_engine.md R237). -/

/-- The read with the start instant of its first poll. -/
def startedRead (r : ReadOp) (now : Nat) : ReadOp := { r with start := some now }

theorem pollParts_read_arming {t : Nat} {r : ReadOp} (hph : r.phase = .arming) (s : State) : pollParts t (.read r) s =
    .ok (changeReg r.h.index (.setStatus .rx .valid) :: .own .armed :: checkParts (.read (startedRead r s.now)))
      (setOp t (some (.read (startedRead r s.now))) s) := by
  cases r
  cases hph
  rfl

/-- Settles O39: the prologue takes the clock, and the arm and the checks follow. -/
theorem readArming : Obligations.ReadArming := by
  intro s r hs hp ho hgen hph c v a armed disabled
  have hm := (WithinPoll.start s).setOp (some (.read (startedRead r s.now)))
  have hstart : opExpired (some (withPhase (.read (startedRead r s.now)) .awaitingCompletion)) s.now = false :=
    expired_now r.timeout s.now
  have hexec := exec_epPoll_parts hs ho rfl hgen (pollParts_read_arming hph (setWoken s.task false s))
  exact ⟨_, hexec, polled_armed (c := c) (d := .dirIn) hm hs (chepLayoutWf_of_paramsWf hp) rfl hstart rfl rfl⟩

/-! Writes (46_engine.md R245): what the first poll has left after its prologue. -/

/-- A list of stores. -/
def IsStores (ps : List Part) : Prop := ∀ p ∈ ps, ∃ a n v, p = storePart a n v

theorem IsStores.append {ps qs : List Part} (hp : IsStores ps) (hq : IsStores qs) : IsStores (ps ++ qs) := fun p h =>
  (List.mem_append.mp h).elim (hp p) (hq p)

theorem isStores_progTxParts {p : Params} {c : Chan} {r : Region} {n : Nat} (ha : r.off % granBytes p.gran = 0)
    (hl : n ≤ r.len) (hn : n ≤ 1023) : IsStores (progTxParts p c r n) := fun x hx => by
  rw [progTxParts_fits ha hl hn] at hx
  exact descriptorParts_stores _ _ _ _ hx

theorem isStores_pmWriteParts {p : Params} {r : Region} {data : List Byte} (ha : r.off % granBytes p.gran = 0)
    (hl : data.length ≤ r.len) : IsStores (pmWriteParts p r data) := fun x hx => by
  rw [show pmWriteParts p r data = packParts r.off (granBytes p.gran) data (ceilDiv data.length (granBytes p.gran)) 0 from
    (if_neg (Nat.not_lt.mpr hl)).trans (if_neg (not_not_intro ha))] at hx
  exact packParts_stores _ _ _ _ _ hx

/-- Before a store there is nothing to settle. -/
theorem settle_stores {ps rest : List Part} {t : Nat} (h : IsStores ps) (hrest : ∀ s, settle t rest s = .ok rest s)
    (s : State) : settle t (ps ++ rest) s = .ok (ps ++ rest) s := by
  cases ps with
  | nil => exact hrest s
  | cons p ps =>
    obtain ⟨at', n, v, rfl⟩ := h p List.mem_cons_self
    rfl

theorem partsLeft_stores {ps : List Part} (h : IsStores ps) : partsLeft ps = ps.length := by
  induction ps with
  | nil => rfl
  | cons p ps ih =>
    obtain ⟨at', n, v, rfl⟩ := h p List.mem_cons_self
    rw [partsLeft, ih fun q hq => h q (List.mem_cons_of_mem _ hq), List.length_cons, Nat.add_comm]
    rfl

/-- A store leaves what stands after it, where that is stores or begins with an access. -/
theorem advance_store {t a n v : Nat} {rest : List Part} (hrest : ∀ s, settle t rest s = .ok rest s) (s : State) :
    advance t (storePart a n v :: rest) s = (memWrite a n v s).bind fun _ s => .ok rest s := by
  simp only [storePart, advance, accessStep, storeStep, Run.bind_assoc, Run.bind_ok, List.nil_append, hrest]

/-- Stores run the same, whatever access stands after them. -/
theorem finish_stores_append {ps : List Part} (h : IsStores ps) (a : Access) (rest : List Part) {s s' : State}
    (e : finish ps.length ps s = .ok [] s') :
    finish ps.length (ps ++ .access a :: rest) s = .ok (.access a :: rest) s' := by
  induction ps generalizing s with
  | nil =>
    cases e
    rfl
  | cons p ps ih =>
    obtain ⟨at', n, v, rfl⟩ := h p List.mem_cons_self
    have htail : IsStores ps := fun q hq => h q (List.mem_cons_of_mem _ hq)
    simp only [List.length_cons, finish] at e
    obtain ⟨u, s1, hpoint, e⟩ := Run.bind_eq_ok e
    have hsettle := settle_stores (t := s1.task) htail (rest := []) fun _ => rfl
    rw [List.append_nil] at hsettle
    rw [advance_store hsettle] at e
    obtain ⟨ps', s2, hstore, e⟩ := Run.bind_eq_ok e
    obtain ⟨u', s3, hwrite, hok⟩ := Run.bind_eq_ok hstore
    cases hok
    simp only [List.length_cons, List.cons_append, finish, hpoint, Run.bind_ok,
      advance_store (settle_stores htail (rest := .access a :: rest) fun _ => rfl), hwrite]
    exact ih htail e

/-- The stores of `BD.PROGTX`, then those of `PM.WRITE`. -/
def writeStores (p : Params) (w : WriteOp) : List Part :=
  progTxParts p w.h.index w.h.region w.data.length ++ pmWriteParts p w.h.region w.data

/-- What those stores make of packet memory: the descriptor's transmit half, and the padded data. -/
def written (w : WriteOp) (s : State) : State :=
  pokePma (pokePma s (8 * w.h.index.val) (leBytes 2 w.h.region.off ++ leBytes 2 w.data.length)) w.h.region.off
    (padded (granBytes s.params.gran) w.data)

/-- The write with the start instant of its first poll. -/
def startedWrite (w : WriteOp) (now : Nat) : WriteOp := { w with start := some now }

/-- The arm of a write and the checks after it. -/
def writeArm (w : WriteOp) : List Part :=
  changeReg w.h.index (.setStatus .tx .valid) :: .own .armed :: checkParts (.write w)

theorem pollParts_write_arming {t : Nat} {w : WriteOp} (hph : w.phase = .arming) (s : State) : pollParts t (.write w) s =
    .ok (writeStores s.params w ++ writeArm (startedWrite w s.now)) (setOp t (some (.write (startedWrite w s.now))) s) := by
  have hparts : armWriteParts s.params w ++ checkParts (.write w) =
      writeStores s.params w ++ writeArm (startedWrite w s.now) := by
    simp only [armWriteParts, writeStores, List.append_assoc]
    rfl
  rw [← hparts]
  cases w
  cases hph
  rfl

/-- What a write's record and its region satisfy when its stores raise no fault. -/
structure WriteFits (p : Params) (w : WriteOp) : Prop where
  aligned : w.h.region.off % granBytes p.gran = 0
  off : w.h.region.off < 65536
  len : w.data.length ≤ w.h.region.len
  count : w.data.length ≤ 1023

section
variable {s m : State} {w : WriteOp}

theorem WriteFits.isStores {p : Params} (h : WriteFits p w) : IsStores (writeStores p w) :=
  (isStores_progTxParts h.aligned h.len h.count).append (isStores_pmWriteParts h.aligned h.len)

theorem finishAll_writeStores {rest : List Part} (h : WriteFits m.params w) (hs : m.slots = [])
    (hp : paramsWf m.params = true) (hb : begun rest)
    (hend : w.data = [] ∨ w.h.region.off + roundup w.data.length (granBytes m.params.gran) ≤ m.params.pmaBytes) :
    finishAll (writeStores m.params w ++ rest) m = finishAll rest (written w m) := by
  have hpm : begun (pmWriteParts m.params w.h.region w.data ++ rest) :=
    begun_append (begun_of_storesOrFaults (storesOrFaults_pmWrite _ _ _)) hb
  rw [writeStores, List.append_assoc, finishAll_progTx hs hpm h.aligned h.len h.count h.off (descTable_le hp)]
  exact finishAll_pmWrite (s := pokePma m _ _) hs hb h.len h.aligned hend

/-- The stores alone, with the arm still to be done. -/
theorem finish_writeStores {w' : WriteOp} (h : WriteFits m.params w) (hs : m.slots = []) (hp : paramsWf m.params = true)
    (hend : w.data = [] ∨ w.h.region.off + roundup w.data.length (granBytes m.params.gran) ≤ m.params.pmaBytes) :
    finish (writeStores m.params w).length (writeStores m.params w ++ writeArm w') m = .ok (writeArm w') (written w m) := by
  refine finish_stores_append h.isStores _ _ ?_
  have hall := finishAll_writeStores (rest := []) h hs hp (by simp [begun]) hend
  rwa [List.append_nil, finishAll_nil, finishAll, partsLeft_stores h.isStores] at hall

theorem WithinPoll.pokePma {reg : Option Slot} {op : Option Op} (hm : WithinPoll s reg op m) {a : Nat} {bs : List Byte}
    (hb : bs = [] ∨ a + bs.length ≤ m.params.pmaBytes) : WithinPoll s reg op (pokePma m a bs) := by
  rcases hb with rfl | hb
  · exact hm
  · exact hm.same (Mild.pokePma s.task m a bs hb) (SameEngine.pokePma m a bs) rfl rfl

theorem padded_nil (g : Nat) (hg : 0 < g) : padded g [] = [] :=
  List.length_eq_zero_iff.mp ((padded_length hg []).trans (roundup_of_mod_eq_zero hg (Nat.zero_mod _)))

theorem WithinPoll.written {reg : Option Slot} {op : Option Op} (hm : WithinPoll s reg op m)
    (hp : paramsWf m.params = true)
    (hend : w.data = [] ∨ w.h.region.off + roundup w.data.length (granBytes m.params.gran) ≤ m.params.pmaBytes) :
    WithinPoll s reg op (written w m) := by
  have hg := granBytes_pos m.params.gran
  have hc := w.h.index.isLt
  have htable : 64 ≤ m.params.pmaBytes := descTable_le hp
  have hdesc : WithinPoll s reg op
      (Machine.pokePma m (8 * w.h.index.val) (leBytes 2 w.h.region.off ++ leBytes 2 w.data.length)) :=
    hm.pokePma (.inr (by simp only [List.length_append, leBytes_length]; omega))
  refine hdesc.pokePma (hend.imp (fun hnil => ?_) fun hfit => ?_)
  · rw [hnil, padded_nil _ hg]
  · rwa [padded_length hg]

/-- A write's first poll after its prologue, before any access. -/
def primed (w : WriteOp) (s : State) : State :=
  setOp s.task (some (.write (startedWrite w s.now))) (setWoken s.task false s)

theorem withinPoll_primed (w : WriteOp) (s : State) : WithinPoll s none (some (.write (startedWrite w s.now))) (primed w s) :=
  (WithinPoll.start s).setOp _

theorem pollParts_primed (hph : w.phase = .arming) : pollParts s.task (.write w) (setWoken s.task false s) =
    .ok (writeStores s.params w ++ writeArm (startedWrite w s.now)) (primed w s) := pollParts_write_arming hph _

/-- The first step of a poll is its prologue, whatever other agents do afterwards. -/
theorem firstStep_write_arming (ho : (taskRec s s.task).op = some (.write w)) (hgen : w.h.gen = s.alloc.gen)
    (hph : w.phase = .arming) (h : WriteFits s.params w) : firstStep s.task (begin .epPoll (sideOf s) s) =
      .ok (writeStores s.params w ++ writeArm (startedWrite w s.now)) (primed w s) := by
  have hparts := (pollPrologue_live ho (opStale_of_gen rfl hgen)).trans (pollParts_primed hph)
  simp only [firstStep, begin, beginEpPoll, Run.bind_ok, advance, accessStep, hparts, List.append_nil]
  exact settle_stores h.isStores (fun _ => rfl) _

/-- Undisturbed, the stores come before the arm. -/
theorem exec_write_arming (ho : (taskRec s s.task).op = some (.write w)) (hgen : w.h.gen = s.alloc.gen)
    (hph : w.phase = .arming) (h : WriteFits s.params w) (hs : s.slots = []) (hp : paramsWf s.params = true)
    (hend : w.data = [] ∨ w.h.region.off + roundup w.data.length (granBytes s.params.gran) ≤ s.params.pmaBytes) :
    exec .epPoll s = .next (finishAll (writeArm (startedWrite w s.now)) (written w (primed w s))).state := by
  have harm : begun (writeArm (startedWrite w s.now)) := by simp [begun, writeArm, changeReg, checkParts]
  have hstores := finishAll_writeStores (m := primed w s) h hs hp harm hend
  rw [exec_epPoll_parts hs ho rfl hgen (pollParts_primed hph), ← hstores]
  rfl

end

/-- Settles O41: the prologue leaves the stores, the arm and the checks; undisturbed, the stores come to the written bytes
and the arm to the row of a first poll. -/
theorem writeArming : Obligations.WriteArming := by
  intro s w hp ho hgen hph ha hoff hlen hcount c v a armed disabled stores arm stored
  have hfits : WriteFits s.params w := ⟨ha, hoff, hlen, hcount⟩
  refine ⟨hfits.isStores, primed w s, firstStep_write_arming ho hgen hph hfits, rfl, rfl, rfl, fun hs hend => ?_⟩
  have hm := (withinPoll_primed w s).written hp hend
  have hstart : opExpired (some (withPhase (.write (startedWrite w s.now)) .awaitingCompletion)) s.now = false :=
    expired_now w.timeout s.now
  exact ⟨⟨written w (primed w s), finish_writeStores (m := primed w s) hfits hs hp hend, rfl, rfl, rfl⟩,
    _, exec_write_arming ho hgen hph hfits hs hp hend,
    polled_armed (c := c) (d := .dirOut) hm hs (chepLayoutWf_of_paramsWf hp) rfl hstart rfl rfl⟩

end Sys2Proof.Laws
end

section
/-! PROOFS. The first step of a claim (47_lifecycle.md R260, R261): the size of its region, its checks, its mark and its
allocation; and `CH.DROP` (R263). -/

namespace Sys2Proof.Laws

open Sys2Proof.Machine

/-! The size of a region (47_lifecycle.md R261). -/

/-- The region size of a claim as a number: it depends on the parameters alone. -/
def regionBytes (p : Params) (d : Dir) (mps : Nat) : Option Nat :=
  match d with
  | .dirIn => (encLength p mps).map fun code => roundup (decCode code) (granBytes p.gran)
  | .dirOut => some (roundup mps (granBytes p.gran))

theorem regionSize_eq_ok_iff (d : Dir) (mps size : Nat) (s : State) :
    regionSize d mps s = .ok size s ↔ regionBytes s.params d mps = some size := by
  cases d with
  | dirOut => simp [regionSize, regionBytes]
  | dirIn =>
    simp only [regionSize, regionBytes, encOrFault]
    cases encLength s.params mps <;> simp [raise]

/-- A claim sizes its region after it has marked its index. -/
theorem regionSize_setInUse {c : Chan} {d : Dir} {b : Bool} {mps size : Nat} {s : State}
    (h : regionBytes s.params d mps = some size) :
    regionSize d mps (setInUse c d b s) = .ok size (setInUse c d b s) :=
  (regionSize_eq_ok_iff ..).mpr (by rw [setInUse_params]; exact h)

theorem le_roundup_gran (n : Nat) (g : Gran) : n ≤ roundup n (granBytes g) := ceilDiv_mul_ge n _ (granBytes_pos g)

/-- The largest transmit region (47_lifecycle.md R261). -/
theorem roundup_gran_le {n : Nat} (g : Gran) (h : n ≤ 1023) : roundup n (granBytes g) ≤ 1024 := by
  cases g <;> simp only [roundup, ceilDiv, granBytes] <;> omega

/-- Every length in the code's domain has a code that advertises at least as many bytes (42_descriptor.md R165). -/
theorem encLength_advertises (p : Params) {mps : Nat} (h2 : 2 ≤ mps) (h1024 : mps ≤ 1024) :
    ∃ code, encLength p mps = some code ∧ mps ≤ decCode code := by
  obtain ⟨code, hcode, hge, -⟩ := lengthCodeProperties p mps h2 h1024
  exact ⟨code, hcode, hge⟩

/-- Settles O42: the receive region has the capacity its code advertises, the transmit region one packet. -/
theorem regionSizes : Obligations.RegionSizes := by
  refine fun s mps => ⟨fun h2 h1024 => ?receive, fun _ h1023 => ?transmit⟩
  case receive =>
    obtain ⟨code, hcode, hge⟩ := encLength_advertises s.params h2 h1024
    refine ⟨code, hcode, hge, le_roundup_gran _ _, (regionSize_eq_ok_iff ..).mpr ?_⟩
    rw [regionBytes, hcode, Option.map_some]
  case transmit =>
    exact ⟨le_roundup_gran _ _, roundup_gran_le _ h1023, rfl⟩

/-! The domain of the packet size (47_lifecycle.md R260). -/

theorem mpsInDomain_in (mps : Nat) : mpsInDomain .dirIn mps = true ↔ 2 ≤ mps ∧ mps ≤ 1024 := by
  rw [mpsInDomain, Bool.and_eq_true, decide_eq_true_iff, decide_eq_true_iff, maxDescLen]

theorem mpsInDomain_out (mps : Nat) : mpsInDomain .dirOut mps = true ↔ 1 ≤ mps ∧ mps ≤ 1023 := by
  rw [mpsInDomain, Bool.and_eq_true, decide_eq_true_iff, decide_eq_true_iff, txCountMax]

/-- The domain of each direction, as the statements spell it. -/
def PacketSize (d : Dir) (mps : Nat) : Prop :=
  match d with
  | .dirIn => 2 ≤ mps ∧ mps ≤ 1024
  | .dirOut => 1 ≤ mps ∧ mps ≤ 1023

theorem mpsInDomain_iff (d : Dir) (mps : Nat) : mpsInDomain d mps = true ↔ PacketSize d mps := by
  cases d
  · exact mpsInDomain_out mps
  · exact mpsInDomain_in mps

/-- The region of an admitted packet size is whole words and holds a packet. -/
theorem regionBytes_holds {p : Params} {d : Dir} {mps size : Nat} (hm : mpsInDomain d mps = true)
    (h : regionBytes p d mps = some size) : size % granBytes p.gran = 0 ∧ 0 < size := by
  cases d with
  | dirOut =>
    obtain ⟨h1, -⟩ := (mpsInDomain_out mps).mp hm
    cases h
    exact ⟨roundup_mod _ _, Nat.lt_of_lt_of_le h1 (le_roundup_gran _ _)⟩
  | dirIn =>
    obtain ⟨h2, h1024⟩ := (mpsInDomain_in mps).mp hm
    obtain ⟨code, hcode, hge⟩ := encLength_advertises p h2 h1024
    rw [regionBytes, hcode] at h
    cases h
    have hround := le_roundup_gran (decCode code) p.gran
    exact ⟨roundup_mod _ _, Nat.lt_of_lt_of_le (Nat.lt_of_lt_of_le Nat.two_pos h2) (hge.trans hround)⟩

/-! The first step of a claim: its checks in order, the mark and the allocation (47_lifecycle.md R260). -/

/-- The draw overrides the mark (47_lifecycle.md R260, notes/assumptions/12.md). -/
theorem drawInUse_marked (c : Chan) (d : Dir) (s : State) :
    drawInUse c d (setInUse c d true s) = nextDraw (setInUse c d (Config.inUseDraw s.draws) s) := by
  cases d <;> simp only [drawInUse, setInUse, maskWith_maskWith]

section
variable {t : Nat} {a : Claim} {s : State} {size : Nat}

theorem claimStep_invalid (hm : mpsInDomain a.dir a.mps ≠ true) : claimStep t a s = raise .invalidLength s := by
  rw [claimStep, if_pos (by simpa using hm)]

variable (hm : mpsInDomain a.dir a.mps = true)
include hm

theorem claimStep_inUse (hu : inUse s.alloc a.ch a.dir = true) : claimStep t a s = reply t (.err .alreadyInUse []) s := by
  rw [claimStep, if_neg (by simp [hm]), if_pos hu]

variable (hu : inUse s.alloc a.ch a.dir = false) (hsize : regionBytes s.params a.dir a.mps = some size)
include hu hsize

theorem claimStep_full (hfull : s.params.pmaBytes < s.alloc.free + size) : claimStep t a s =
    reply t (.err .outOfMemory []) (nextDraw (setInUse a.ch a.dir (Config.inUseDraw s.draws) s)) := by
  obtain ⟨hgran, -⟩ := regionBytes_holds hm hsize
  rw [claimStep, if_neg (by simp [hm]), if_neg (by simp [hu]), regionSize_setInUse hsize, Run.bind_ok,
    pmAlloc_full (by rwa [setInUse_params]) (by rwa [setInUse_params, setInUse_free]), ← drawInUse_marked]
  rfl

theorem claimStep_fits (hfit : s.alloc.free + size ≤ s.params.pmaBytes) : claimStep t a s =
    .ok (bindParts s.params a ⟨s.alloc.free, size⟩) (claimed a.ch a.dir size s) := by
  obtain ⟨hgran, -⟩ := regionBytes_holds hm hsize
  rw [claimStep, if_neg (by simp [hm]), if_neg (by simp [hu]), regionSize_setInUse hsize, Run.bind_ok,
    pmAlloc_ok (by rwa [setInUse_params]) (by rwa [setInUse_params, setInUse_free])]
  simp only [Run.bind_ok, setInUse_params, setInUse_free, claimed]

end

/-! A command whose first step is a claim: `CH.CLAIM`, and `CH.RECONF0` from the reset allocator. -/

section
variable {i : Instr} {s s1 : State} {a : Claim} (hi : i ≠ .irqDispatch)
  (hb : begin i (sideOf s) s = .ok [.access (.claim a)] s1)
include hi hb

theorem exec_of_begin_claim :
    exec i s = .next (((claimStep s.task a s1).bind (settle s.task)).bind finishAll).state := by
  rw [exec_eq_runCommand hi, runCommand_finishAll, hb]
  simp only [firstStep, Run.bind_ok, advance, accessStep, List.append_nil]

/-- A claim that faults or is refused makes no access, so no other agent steps within it. -/
theorem exec_claim_raise {r : Fault} (h : claimStep s.task a s1 = raise r s1) : exec i s = .next (raiseFault r s1) := by
  rw [exec_of_begin_claim hi hb, h]
  rfl

theorem exec_claim_reply {res : Result} {s2 : State} (h : claimStep s.task a s1 = reply s.task res s2) :
    exec i s = .next (handOut (.task s.task) res s2) := by
  rw [exec_of_begin_claim hi hb, h]
  rfl

end

theorem exec_chClaim_inUse {s : State} {ch : Chan} {d : Dir} (etype : EType) (dev : Nat) {mps : Nat}
    (hm : mpsInDomain d mps = true) (hu : inUse s.alloc ch d = true) :
    exec (.chClaim ch d etype dev mps) s = .next (handOut (.task s.task) (.err .alreadyInUse []) s) :=
  exec_claim_reply (by simp) rfl (claimStep_inUse (a := ⟨ch, d, etype, dev, mps, .caller⟩) hm hu)

/-- Settles O43: the claim's first step ends the command, check by check. -/
theorem claimRefusals : Obligations.ClaimRefusals := by
  refine fun s ch d etype dev mps => ⟨fun hout => ?domain, fun hm hu => ?used,
    fun hm hu size hsize hfull => ⟨Config.inUseDraw s.draws, ?full⟩⟩
  case domain =>
    exact exec_claim_raise (by simp) rfl (claimStep_invalid (a := ⟨ch, d, etype, dev, mps, .caller⟩)
      fun hm => hout ((mpsInDomain_iff d mps).mp hm))
  case used => exact exec_chClaim_inUse etype dev ((mpsInDomain_iff d mps).mpr hm) hu
  case full =>
    exact exec_claim_reply (by simp) rfl (claimStep_full (a := ⟨ch, d, etype, dev, mps, .caller⟩)
      ((mpsInDomain_iff d mps).mpr hm) hu ((regionSize_eq_ok_iff ..).mp hsize) hfull)

/-! `CH.DROP` (47_lifecycle.md R263). -/

theorem encodedAs_chDrop (ch : Chan) (d : Dir) :
    EncodedAs ⟨0x62, ch.val, if d = .dirIn then 1 else 0, 0, 0, 0, 0⟩ (.chDrop ch d) := by
  cases d
  · exact encodedAs_encodeFields (i := .chDrop ch .dirOut) rfl
  · exact encodedAs_encodeFields (i := .chDrop ch .dirIn) rfl

section
variable {s : State} {ch : Chan} {d : Dir}

theorem exec_chDrop_noHandle (h : handleAt s ch d = none) : exec (.chDrop ch d) s = .next (raiseFault .noHandle s) :=
  exec_of_begin_raise (by simp) (by rw [begin, beginChDrop, h])

/-- The command on an entry that holds a handle, live or stale. -/
theorem begin_chDrop (h : handleAt s ch d ≠ none) : begin (.chDrop ch d) (sideOf s) s =
    if channelBusyAt s ch d then raise .channelBusy s else reply s.task (.ok .unit) (setHandle s ch d none) := by
  obtain ⟨hd, hh⟩ := Option.ne_none_iff_exists'.mp h
  rw [begin, beginChDrop, hh]
  rfl

theorem exec_chDrop_busy (h : handleAt s ch d ≠ none) (hb : channelBusyAt s ch d = true) :
    exec (.chDrop ch d) s = .next (raiseFault .channelBusy s) :=
  exec_of_begin_raise (by simp) ((begin_chDrop h).trans (if_pos hb))

theorem exec_chDrop_ok (h : handleAt s ch d ≠ none) (hb : channelBusyAt s ch d = false) :
    exec (.chDrop ch d) s = .next (handOut (.task s.task) (.ok .unit) (setHandle s ch d none)) :=
  exec_of_begin_done (by simp) ((begin_chDrop h).trans (if_neg (Bool.not_eq_true _ ▸ hb)))

end

/-- Settles O47: the two checks in order, then the table entry alone. -/
theorem dropResult : Obligations.DropResult :=
  ⟨encodedAs_chDrop, fun _ _ _ hw => ⟨exec_chDrop_noHandle, fun h =>
    ⟨fun hb => exec_chDrop_busy h ((busy_iff hw _ _).mpr hb),
      fun hfree => exec_chDrop_ok h (not_busy_of_forall hw hfree)⟩⟩⟩

end Sys2Proof.Laws
end

section
/-! PROOFS. A claim that succeeds (47_lifecycle.md R260, R261): its accesses when no other agent steps between them, and that
its index stays marked whatever they do (R264). -/

namespace Sys2Proof.Laws

open Sys2Proof.Machine

/-! The accesses of a claim, when no other agent steps between them (47_lifecycle.md R260). -/

/-- The claimed half's descriptor: the receive half with its code, the transmit half with count 0. -/
def programmed (c : Chan) (d : Dir) (off mps : Nat) (s : State) : State :=
  match d with
  | .dirIn => pokePma s (8 * c.val + 4) (leBytes 2 off ++ leBytes 2 ((encLength s.params mps).getD 0).toNat)
  | .dirOut => pokePma s (8 * c.val) (leBytes 2 off ++ leBytes 2 0)

@[simp] theorem programmed_params (c : Chan) (d : Dir) (off mps : Nat) (s : State) :
    (programmed c d off mps s).params = s.params := by cases d <;> rfl

@[simp] theorem programmed_slots (c : Chan) (d : Dir) (off mps : Nat) (s : State) :
    (programmed c d off mps s).slots = s.slots := by cases d <;> rfl

@[simp] theorem programmed_task (c : Chan) (d : Dir) (off mps : Nat) (s : State) :
    (programmed c d off mps s).task = s.task := by cases d <;> rfl

@[simp] theorem readChep_programmed (c : Chan) (d : Dir) (off mps : Nat) (s : State) (c' : Chan) :
    readChep (programmed c d off mps s) c' = readChep s c' := by cases d <;> rfl

@[simp] theorem claimed_params (c : Chan) (d : Dir) (size : Nat) (s : State) : (claimed c d size s).params = s.params :=
  setInUse_params c d true s

@[simp] theorem claimed_slots (c : Chan) (d : Dir) (size : Nat) (s : State) : (claimed c d size s).slots = s.slots :=
  setInUse_slots c d true s

@[simp] theorem claimed_task (c : Chan) (d : Dir) (size : Nat) (s : State) : (claimed c d size s).task = s.task :=
  setInUse_task c d true s

@[simp] theorem readChep_claimed (c : Chan) (d : Dir) (size : Nat) (s : State) (c' : Chan) :
    readChep (claimed c d size s) c' = readChep s c' := by cases d <;> rfl

/-- The mark and the allocation of a claim are independent of each other. -/
theorem claimed_eq_setInUse (c : Chan) (d : Dir) (size : Nat) (s : State) : claimed c d size s =
    setInUse c d true { s with alloc := { s.alloc with free := s.alloc.free + size } } := by cases d <;> rfl

theorem inUse_claimed (c : Chan) (d : Dir) (size : Nat) (s : State) : inUse (claimed c d size s).alloc c d = true := by
  rw [claimed_eq_setInUse, inUse_setInUse, if_pos ⟨rfl, rfl⟩]

/-- The register with the claim's configuration, and the write's entry in the log (44_channel_register.md R196). -/
def configured (t : Nat) (a : Claim) (s : State) : State :=
  appendLog (setChep s a.ch (configFields s.params (readChep s a.ch) a.etype a.devaddr a.ch))
    (.writeChep (.task t) a.ch (initWord s.params (readChep s a.ch) a.etype a.devaddr a.ch))

/-- The state in which a claim's handle is entered. -/
def bound (t : Nat) (a : Claim) (size : Nat) (s : State) : State :=
  configured t a (programmed a.ch a.dir s.alloc.free a.mps (claimed a.ch a.dir size s))

/-- The register is configured from what it held before the claim. -/
theorem bound_eq (t : Nat) (a : Claim) (size : Nat) (s : State) : bound t a size s =
    appendLog (setChep (programmed a.ch a.dir s.alloc.free a.mps (claimed a.ch a.dir size s)) a.ch
      (configFields s.params (readChep s a.ch) a.etype a.devaddr a.ch))
      (.writeChep (.task t) a.ch (initWord s.params (readChep s a.ch) a.etype a.devaddr a.ch)) := by
  simp only [bound, configured, programmed_params, claimed_params, readChep_programmed, readChep_claimed]

theorem writeChep_init {s : State} (hl : chepLayoutWf s.params.chep = true) (t : Nat) (a : Claim) :
    writeChep (.task t) a.ch (changeWord s.params a.ch (readChep s a.ch) (.init a.etype a.devaddr)) s =
      configured t a s := by
  rw [writeChep, changeWord, hwWriteChep_initWord hl _ _ _ (agreeKept_refl _ _)]
  rfl

theorem pmaBytes_of_paramsWf {p : Params} (h : paramsWf p = true) : 64 ≤ p.pmaBytes ∧ p.pmaBytes ≤ 65536 := by
  simp only [paramsWf, Bool.and_eq_true, decide_eq_true_iff] at h
  obtain ⟨⟨⟨⟨-, hlow⟩, hhigh⟩, -⟩, -⟩ := h
  exact ⟨hlow, hhigh⟩

theorem finishAll_progHalf {s : State} {c : Chan} {d : Dir} {r : Region} {mps : Nat} {rest : List Part} (hs : s.slots = [])
    (hb : begun rest) (hp : paramsWf s.params = true) (hm : mpsInDomain d mps = true)
    (hsize : regionBytes s.params d mps = some r.len) (ha : r.off % granBytes s.params.gran = 0) (ho : r.off < 65536) :
    finishAll (progHalfParts s.params c d r mps ++ rest) s = finishAll rest (programmed c d r.off mps s) := by
  obtain ⟨hlow, -⟩ := pmaBytes_of_paramsWf hp
  cases d with
  | dirOut => exact finishAll_progTx hs hb ha (Nat.zero_le _) (Nat.zero_le _) ho hlow
  | dirIn =>
    obtain ⟨h2, h1024⟩ := (mpsInDomain_in mps).mp hm
    obtain ⟨code, hcode, -⟩ := encLength_advertises s.params h2 h1024
    rw [regionBytes, hcode, Option.map_some, Option.some.injEq] at hsize
    have hfits : decCode code ≤ r.len := hsize ▸ le_roundup_gran _ _
    rw [progHalfParts, finishAll_progRx hs hb hcode ha hfits ho hlow, programmed, hcode, Option.getD_some]

theorem finishAll_bindParts {s : State} {a : Claim} {r : Region} (hs : s.slots = []) (hp : paramsWf s.params = true)
    (hm : mpsInDomain a.dir a.mps = true) (hsize : regionBytes s.params a.dir a.mps = some r.len)
    (ha : r.off % granBytes s.params.gran = 0) (ho : r.off < 65536) :
    finishAll (bindParts s.params a r) s =
      (enterHandle s.task a r (configured s.task a (programmed a.ch a.dir r.off a.mps s))).bind finishAll := by
  rw [bindParts, finishAll_progHalf hs (by simp [begun, changeReg]) hp hm hsize ha ho,
    finishAll_bind ((programmed_slots ..).trans hs),
    writeChep_init (by rw [programmed_params]; exact chepLayoutWf_of_paramsWf hp), programmed_task]

/-- A claim of a free index whose region fits runs up to its handle. -/
theorem finishAll_claim_fits {s : State} {a : Claim} {size : Nat} (hs : s.slots = []) (hp : paramsWf s.params = true)
    (hm : mpsInDomain a.dir a.mps = true) (hu : inUse s.alloc a.ch a.dir = false)
    (hsize : regionBytes s.params a.dir a.mps = some size) (ha : s.alloc.free % granBytes s.params.gran = 0)
    (hfit : s.alloc.free + size ≤ s.params.pmaBytes) : finishAll [.access (.claim a)] s =
      (enterHandle s.task a ⟨s.alloc.free, size⟩ (bound s.task a size s)).bind finishAll := by
  obtain ⟨-, hpos⟩ := regionBytes_holds hm hsize
  obtain ⟨-, hhigh⟩ := pmaBytes_of_paramsWf hp
  have hparams := claimed_params a.ch a.dir size s
  rw [finishAll_claim hs, claimStep_fits hm hu hsize hfit, Run.bind_ok, ← hparams,
    finishAll_bindParts ((claimed_slots ..).trans hs) (hparams ▸ hp) hm (hparams ▸ hsize) (hparams ▸ ha)
      (Nat.lt_of_lt_of_le (Nat.lt_add_of_pos_right hpos) (hfit.trans hhigh)), claimed_task, bound]

/-- Settles O44: the claim runs up to its handle, which it enters and returns. -/
theorem claimSucceeds : Obligations.ClaimSucceeds := by
  intro s ch d etype dev mps size hs hp hm hu hsize ha hfit v h marked programmed
  have hclaim := finishAll_claim_fits (a := ⟨ch, d, etype, dev, mps, .caller⟩) hs hp ((mpsInDomain_iff d mps).mpr hm) hu
    ((regionSize_eq_ok_iff ..).mp hsize) ha hfit
  rw [exec_undisturbed (by simp) (by simp) hs, begin, beginChClaim, Run.bind_ok, hclaim, bound_eq, claimed_eq_setInUse]
  cases d <;> rfl

/-! Claiming twice (47_lifecycle.md R264). -/

/-- What is left of a command only goes forward, whatever other agents do within it. -/
theorem finishAll_forward (ps : List Part) (s : State) : Forward s (finishAll ps s).state := by
  obtain ⟨hok, hhalt⟩ := finish_closed (forward_closed s) (fuel := partsLeft ps) (ps := ps) (s := s)
    (fun _ _ _ _ _ _ _ _ => trivial) (Forward.refl s)
  rw [finishAll]
  cases e : finish (partsLeft ps) ps s with
  | ok ps' s' => exact hok ps' s' e
  | halt s' => exact (hhalt s' e).elim fun _ h => h

/-- So does a claim's command once its region is allocated. -/
theorem claimed_forward {i : Instr} {s s1 t : State} {a : Claim} {ps : List Part} (hi : i ≠ .irqDispatch)
    (hb : begin i (sideOf s) s = .ok [.access (.claim a)] s) (h : claimStep s.task a s = .ok ps s1)
    (he : exec i s = .next t) : Forward s1 t := by
  rw [exec_of_begin_claim hi hb, h, Run.bind_ok] at he
  cases he
  have hsettle := Forward.of_steady (TaskRun.settle s.task ps s1).steady
  cases e : settle s.task ps s1 with
  | halt s2 =>
    rw [e] at hsettle
    exact hsettle
  | ok qs s2 =>
    rw [e] at hsettle
    exact hsettle.trans (finishAll_forward qs s2)

/-- A claim that returned a handle has marked its index, and what follows the mark leaves it: a claim that faults or finds no
memory hands out no handle. -/
theorem inUse_of_claimed {s t : State} {ch : Chan} {d : Dir} {etype : EType} {dev mps : Nat} {h : Handle}
    (he : exec (.chClaim ch d etype dev mps) s = .next t) (hout : s.out = [])
    (hh : (.task s.task, .ok (.handle h)) ∈ t.out) (hgen : t.alloc.gen = s.alloc.gen) : inUse t.alloc ch d = true := by
  rcases claimStep_cases s.task ⟨ch, d, etype, dev, mps, .caller⟩ s with
    hc | ⟨hu, hc⟩ | ⟨-, hc⟩ | ⟨size, -, -, -, hc⟩
  case inl =>
    rw [exec_claim_raise (by simp) rfl hc] at he
    cases he
    simp [hout] at hh
  case inr.inl =>
    rw [exec_claim_reply (by simp) rfl hc] at he
    cases he
    exact hu
  case inr.inr.inl =>
    rw [exec_claim_reply (by simp) rfl hc] at he
    cases he
    simp [hout] at hh
  case inr.inr.inr =>
    exact (claimed_forward (by simp) rfl hc he).marks (hgen.trans (setInUse_gen ch d true s).symm) ch d
      (inUse_claimed ch d size s)

theorem inUse_pmReset (s : State) (c : Chan) (d : Dir) : inUse (pmReset s).alloc c d = false := by
  cases d <;> exact BitVec.getLsbD_zero

/-- Settles O45: the mark stays until the allocator is reset, and the claim's first step refuses a marked index. -/
theorem claimTwice : Obligations.ClaimTwice := by
  intro s t ch d etype dev mps h he hout hh hgen
  have ht := inUse_of_claimed he hout hh hgen
  refine ⟨ht, fun u => ⟨fun hu etype' dev' mps' hm => ?again, ?reset⟩⟩
  case again =>
    have hmark : inUse u.alloc ch d = true := hu.elim (fun ⟨hfwd, hsame⟩ => hfwd.marks hsame ch d ht) id
    exact exec_chClaim_inUse etype' dev' ((mpsInDomain_iff d mps').mpr hm) hmark
  case reset => exact ⟨_, allocatorReset.2 u, inUse_pmReset u ch d, rfl⟩

end Sys2Proof.Laws
end

section
/-! PROOFS. `CH.RECONF0` (47_lifecycle.md R262): the reset, the first claim, and from the state it leaves the second. -/

namespace Sys2Proof.Laws

open Sys2Proof.Machine

/-- The first claim of `CH.RECONF0` and its handle. -/
def reconfClaimIn (dev mps : Nat) : Claim := ⟨0, .dirIn, .control, dev, mps, .reconfIn⟩

def reconfHandleIn (dev mps size : Nat) (s : State) : Handle :=
  ⟨0, .dirIn, mps, .control, dev, ⟨64, size⟩, s.alloc.gen + 1⟩

/-- The state of `CH.RECONF0` after its first claim. -/
def reconfIn (dev mps size : Nat) (s : State) : State :=
  { s with
    alloc := ⟨64 + size, 1, 0, s.alloc.gen + 1⟩
    pma := (pokePma s 4 (leBytes 2 64 ++ leBytes 2 ((encLength s.params mps).getD 0).toNat)).pma
    chep := s.chep.set 0 (configFields s.params (readChep s 0) .control dev 0)
    htIn := s.htIn.set 0 (some (reconfHandleIn dev mps size s))
    log := s.log ++ [.writeChep (.task s.task) 0 (initWord s.params (readChep s 0) .control dev 0)] }

/-- The second claim and its handle: the operands of the first, the region behind its region. -/
def reconfClaimOut (dev mps size : Nat) (s : State) : Claim := secondClaim (reconfHandleIn dev mps size s)

def reconfHandleOut (dev mps sizeIn sizeOut : Nat) (s : State) : Handle :=
  ⟨0, .dirOut, mps, .control, dev, ⟨64 + sizeIn, sizeOut⟩, s.alloc.gen + 1⟩

/-- The state of `CH.RECONF0` after both claims: the second writes the register's configuration once more. -/
def reconfOut (dev mps sizeIn sizeOut : Nat) (s : State) : State :=
  { reconfIn dev mps sizeIn s with
    alloc := ⟨64 + sizeIn + sizeOut, 1, 1, s.alloc.gen + 1⟩
    pma := (pokePma (reconfIn dev mps sizeIn s) 0 (leBytes 2 (64 + sizeIn) ++ leBytes 2 0)).pma
    htOut := s.htOut.set 0 (some (reconfHandleOut dev mps sizeIn sizeOut s))
    log := s.log ++ [.writeChep (.task s.task) 0 (initWord s.params (readChep s 0) .control dev 0),
      .writeChep (.task s.task) 0 (initWord s.params (configFields s.params (readChep s 0) .control dev 0) .control dev 0)] }

/-- Configuring a register twice with the same values is configuring it once. -/
theorem configFields_configFields (p : Params) (v : Word32) (etype : EType) (dev : Nat) (c : Chan) :
    configFields p (configFields p v etype dev c) etype dev c = configFields p v etype dev c := by
  apply BitVec.eq_of_getLsbD_eq
  intro i _
  simp only [configFields, getLsbD_fieldPut]
  split
  · rfl
  · split
    · rfl
    · split <;> rfl

theorem maskWith_zero (b : Bool) : maskWith 0 0 b = if b then 1 else 0 := by cases b <;> decide

theorem begin_chReconf0 (dev mps : Nat) (s : State) : begin (.chReconf0 dev mps) (sideOf s) s =
    .ok [.access (.claim (reconfClaimIn dev mps))] (pmReset s) := rfl

theorem inUse_reconfIn (dev mps size : Nat) (s : State) : inUse (reconfIn dev mps size s).alloc 0 .dirOut = false :=
  BitVec.getLsbD_zero

/-- The end of the descriptor table is aligned. -/
theorem sixtyFour_gran (g : Gran) : 64 % granBytes g = 0 := by cases g <;> rfl

/-- The end of the first claim: its handle is of the next generation, its region the first behind the descriptors. -/
theorem enterHandle_reconfIn (dev mps size : Nat) (s : State) :
    enterHandle s.task (reconfClaimIn dev mps) ⟨64, size⟩ (bound s.task (reconfClaimIn dev mps) size (pmReset s)) =
      .ok [.access (.claim (reconfClaimOut dev mps size s))] (reconfIn dev mps size s) := by
  simp only [reconfClaimIn, enterHandle, bound_eq, programmed, claimed, setInUse, setHandle, appendLog, setChep, pokePma,
    pmReset, maskWith_zero]
  rfl

/-- The end of the second claim: its region is behind the first, and the register has the configuration already. -/
theorem enterHandle_reconfOut (dev mps sizeIn sizeOut : Nat) (s : State) :
    enterHandle s.task (reconfClaimOut dev mps sizeIn s) ⟨64 + sizeIn, sizeOut⟩
      (bound s.task (reconfClaimOut dev mps sizeIn s) sizeOut (reconfIn dev mps sizeIn s)) =
      reply s.task (.ok (.handles (reconfHandleIn dev mps sizeIn s) (reconfHandleOut dev mps sizeIn sizeOut s)))
        (reconfOut dev mps sizeIn sizeOut s) := by
  have hread : readChep (reconfIn dev mps sizeIn s) 0 = configFields s.params (readChep s 0) .control dev 0 :=
    Vector.getElem_set_self _
  have hparams : (reconfIn dev mps sizeIn s).params = s.params := rfl
  simp only [reconfClaimOut, secondClaim, reconfHandleIn, enterHandle, bound_eq, hread, hparams, configFields_configFields]
  simp only [reconfIn, programmed, claimed, setInUse, setHandle, appendLog, setChep, pokePma, Fin.val_zero, Vector.set_set,
    List.append_assoc, maskWith_zero]
  rfl

section
variable {s : State} {dev mps sizeIn : Nat} (hs : s.slots = []) (hp : paramsWf s.params = true)
  (hm : mpsInDomain .dirIn mps = true) (hin : regionBytes s.params .dirIn mps = some sizeIn)
  (hfit : 64 + sizeIn ≤ s.params.pmaBytes)
include hs hp hm hin hfit

/-- Undisturbed, the first claim leads to the second. -/
theorem exec_chReconf0_second : exec (.chReconf0 dev mps) s =
    .next (finishAll [.access (.claim (reconfClaimOut dev mps sizeIn s))] (reconfIn dev mps sizeIn s)).state := by
  have hfirst := finishAll_claim_fits (s := pmReset s) (a := reconfClaimIn dev mps) hs hp hm (inUse_pmReset s 0 .dirIn) hin
    (sixtyFour_gran _) hfit
  have hhandle := enterHandle_reconfIn dev mps sizeIn s
  rw [exec_undisturbed (by simp) (by simp) hs, begin_chReconf0, Run.bind_ok, hfirst]
  exact congrArg (fun r => Host.Outcome.next (r.bind finishAll).state) hhandle

theorem exec_chReconf0_second_invalid (hout : mpsInDomain .dirOut mps ≠ true) :
    exec (.chReconf0 dev mps) s = .next (raiseFault .invalidLength (reconfIn dev mps sizeIn s)) := by
  rw [exec_chReconf0_second hs hp hm hin hfit, finishAll_claim (s := reconfIn dev mps sizeIn s) hs,
    claimStep_invalid hout]
  rfl

variable {sizeOut : Nat} (hmOut : mpsInDomain .dirOut mps = true) (hout : regionBytes s.params .dirOut mps = some sizeOut)
include hmOut hout

theorem exec_chReconf0_second_full (hfull : s.params.pmaBytes < 64 + sizeIn + sizeOut) :
    exec (.chReconf0 dev mps) s = .next (handOut (.task s.task) (.err .outOfMemory [])
      (nextDraw (setInUse 0 .dirOut (Config.inUseDraw s.draws) (reconfIn dev mps sizeIn s)))) := by
  rw [exec_chReconf0_second hs hp hm hin hfit, finishAll_claim (s := reconfIn dev mps sizeIn s) hs,
    claimStep_full (a := reconfClaimOut dev mps sizeIn s) hmOut (inUse_reconfIn dev mps sizeIn s) hout hfull]
  rfl

theorem exec_chReconf0_both (hfit2 : 64 + sizeIn + sizeOut ≤ s.params.pmaBytes) :
    exec (.chReconf0 dev mps) s = .next (handOut (.task s.task)
      (.ok (.handles (reconfHandleIn dev mps sizeIn s) (reconfHandleOut dev mps sizeIn sizeOut s)))
      (reconfOut dev mps sizeIn sizeOut s)) := by
  obtain ⟨hgran, -⟩ := regionBytes_holds hm hin
  have hfree : (64 + sizeIn) % granBytes s.params.gran = 0 := by
    rw [Nat.add_mod, sixtyFour_gran, hgran, Nat.zero_add, Nat.zero_mod]
  have hsecond := finishAll_claim_fits (s := reconfIn dev mps sizeIn s) (a := reconfClaimOut dev mps sizeIn s) hs hp hmOut
    (inUse_reconfIn dev mps sizeIn s) hout hfree hfit2
  have hhandle := enterHandle_reconfOut dev mps sizeIn sizeOut s
  rw [exec_chReconf0_second hs hp hm hin hfit, hsecond]
  exact congrArg (fun r => Host.Outcome.next (r.bind finishAll).state) hhandle

end

/-- Settles O46: the first claim's step ends the command, or leads to the second claim, whose step ends it or leads to both
handles. -/
theorem reconfigureZero : Obligations.ReconfigureZero := by
  refine fun s dev mps hp => ⟨fun hout => ?domain, fun hmax hs hmem => ?second, fun sizeIn h2 h1024 hin =>
    ⟨fun hfull => ⟨Config.inUseDraw s.draws, ?full⟩, fun sizeOut h1023 _ hs hfit hout =>
      ⟨fun hfull => ⟨Config.inUseDraw s.draws, ?fullOut⟩, fun hfit2 => ?both⟩⟩⟩
  case domain =>
    have hm : ¬ mpsInDomain .dirIn mps = true := fun hm => by
      have := (mpsInDomain_in mps).mp hm
      omega
    exact exec_claim_raise (by simp) (begin_chReconf0 ..) (claimStep_invalid hm)
  case second =>
    subst hmax
    have hin : regionBytes s.params .dirIn 1024 = some 1024 := by
      rw [regionBytes, encLength_eq_large (by decide) (by decide), Option.map_some]
      cases s.params.gran <;> rfl
    exact ⟨_, exec_chReconf0_second_invalid hs hp rfl hin hmem (by decide), rfl⟩
  case full =>
    exact exec_claim_reply (by simp) (begin_chReconf0 ..) (claimStep_full (a := reconfClaimIn dev mps) (s := pmReset s)
      ((mpsInDomain_in mps).mpr ⟨h2, h1024⟩) (inUse_pmReset s 0 .dirIn) ((regionSize_eq_ok_iff _ _ _ s).mp hin) hfull)
  case fullOut =>
    rw [exec_chReconf0_second_full hs hp ((mpsInDomain_in mps).mpr ⟨h2, h1024⟩) ((regionSize_eq_ok_iff ..).mp hin) hfit
      ((mpsInDomain_out mps).mpr ⟨Nat.le_of_succ_le h2, h1023⟩) ((regionSize_eq_ok_iff ..).mp hout) hfull,
      ← maskWith_zero]
    rfl
  case both =>
    exact exec_chReconf0_both hs hp ((mpsInDomain_in mps).mpr ⟨h2, h1024⟩) ((regionSize_eq_ok_iff ..).mp hin) hfit
      ((mpsInDomain_out mps).mpr ⟨Nat.le_of_succ_le h2, h1023⟩) ((regionSize_eq_ok_iff ..).mp hout) hfit2

end Sys2Proof.Laws
end

section
/-! PROOFS. When a step of the peripheral is enabled (48_peripheral.md R276, R286), and the steps that only answer on the bus
(R278, R279, R282–R284). -/

namespace Sys2Proof.Laws

open Sys2Proof.Machine

/-! Enabled halves. -/

section
variable {s : State} {c : Chan} {h : Half}

theorem halfEnabled_iff : halfEnabled s c h = true ↔ s.connected = true ∧
    (getStat s.params h (readChep s c) = .valid ∨ getStat s.params h (readChep s c) = .nak) := by
  rw [halfEnabled, Bool.and_eq_true]
  cases getStat s.params h (readChep s c) <;> simp

theorem halfEnabled_eq_false_iff : halfEnabled s c h = false ↔ s.connected = false ∨
    getStat s.params h (readChep s c) = .disabled ∨ getStat s.params h (readChep s c) = .stall := by
  rw [halfEnabled, Bool.and_eq_false_iff]
  cases getStat s.params h (readChep s c) <;> simp

end

theorem envStep_of_enabled {e : EnvStep} {s : State} (h : envEnabled e s = true) : envStep e s = envPerform e s := if_pos h

theorem envStep_of_disabled {e : EnvStep} {s : State} (h : envEnabled e s = false) : envStep e s = .ok () s := by
  rw [envStep, h, if_neg Bool.false_ne_true]

/-- Settles O52: none of the named steps is enabled. -/
theorem peripheralIdle : Obligations.PeripheralIdle := by
  refine fun s c => ⟨fun h hidle => ?half, fun hidle bytes => envStep_of_disabled ?overrun⟩
  case half =>
    have hoff : halfEnabled s c h = false := halfEnabled_eq_false_iff.mpr hidle
    refine ⟨?rx, ?tx, fun bytes => envStep_of_disabled (by simp only [envEnabled, hoff, Bool.false_and])⟩
    case rx =>
      rintro rfl payload pad dtog b
      exact ⟨envStep_of_disabled (by simp only [envEnabled, hoff, Bool.false_and]), envStep_of_disabled hoff,
        envStep_of_disabled hoff⟩
    case tx =>
      rintro rfl dtog b
      exact ⟨envStep_of_disabled hoff, envStep_of_disabled hoff, envStep_of_disabled hoff⟩
  case overrun =>
    have hoff : ∀ h, halfEnabled s c h = false := fun h =>
      halfEnabled_eq_false_iff.mpr (hidle.imp id fun hstat => hstat h)
    simp only [envEnabled, hoff, Bool.or_self, Bool.false_and]

/-- Settles O50: each answer is what the enabled step performs, and a connect change is always enabled. -/
theorem peripheralAnswers : Obligations.PeripheralAnswers := fun _ _ =>
  ⟨fun hrx => ⟨fun _ => envStep_of_enabled hrx, envStep_of_enabled hrx⟩,
    fun htx => ⟨fun _ => envStep_of_enabled htx, envStep_of_enabled htx⟩,
    envStep_of_enabled (e := .connectChange) rfl⟩

end Sys2Proof.Laws
end

section
/-! PROOFS. What a transaction leaves in a channel register (48_peripheral.md R275, R277, R280, R281): the fields share no bit,
so each change is seen in its own field and in no other. -/

namespace Sys2Proof.Laws

open Sys2Proof.Machine

section
variable {l : ChepLayout} (hl : chepLayoutWf l = true)
include hl

theorem fieldsApart_toggle_clear {f g : Field} (hf : f ∈ toggleFields l) (hg : g ∈ clearFields l) :
    fieldsApart f g = true := by
  have happart := (List.pairwise_append.mp (chepLayoutWf_pairwise hl)).1
  exact (List.pairwise_append.mp happart).2.2 f hf g hg

theorem fieldsApart_stat_dtog (h : Half) : fieldsApart (statField l h) (dtogField l h) = true := by
  have hpair := (List.pairwise_append.mp (List.pairwise_append.mp (chepLayoutWf_pairwise hl)).1).1
  simp only [toggleFields, List.pairwise_cons, List.mem_cons, List.not_mem_nil, or_false, forall_eq_or_imp, forall_eq] at hpair
  obtain ⟨⟨htx, -⟩, -, hrx, -⟩ := hpair
  cases h
  · exact hrx
  · exact htx

end

theorem statField_mem (l : ChepLayout) (h : Half) : statField l h ∈ toggleFields l := by cases h <;> simp [toggleFields]

theorem dtogField_mem (l : ChepLayout) (h : Half) : dtogField l h ∈ toggleFields l := by cases h <;> simp [toggleFields]

theorem ctrField_mem (l : ChepLayout) (h : Half) : ctrField l h ∈ clearFields l := by cases h <;> simp [clearFields]

theorem errField_mem (l : ChepLayout) (h : Half) : errField l h ∈ clearFields l := by cases h <;> simp [clearFields]

/-- The lowest bit of a field that was just put. -/
theorem getLsbD_fieldPut_lo {f : Field} (v x : Word32) (hw : 0 < f.width) (hfit : f.lo + f.width ≤ 32) :
    (fieldPut f v x).getLsbD f.lo = x.getLsbD 0 := by
  have hin : inField f f.lo = true := inField_lo_add (i := 0) hw
  rw [getLsbD_fieldPut, hin, decide_eq_true (by omega), Bool.and_self, if_pos rfl, Nat.sub_self]

theorem getLsbD_fieldPut_outside {f : Field} (v x : Word32) {i : Nat} (h : inField f i = false) :
    (fieldPut f v x).getLsbD i = v.getLsbD i := by
  rw [getLsbD_fieldPut, h, Bool.false_and, if_neg Bool.false_ne_true]

/-- A bit of another field stays. -/
theorem getLsbD_fieldPut_apart {f g : Field} (v x : Word32) {i : Nat} (h : fieldsApart f g = true)
    (hi : inField f i = true) : (fieldPut g v x).getLsbD i = v.getLsbD i :=
  getLsbD_fieldPut_outside v x (not_inField_of_apart h hi)

/-- Setting an error flag changes no status (48_peripheral.md R280). -/
theorem getStat_setErr {p : Params} (hl : chepLayoutWf p.chep = true) (h h' : Half) (v : Word32) :
    getStat p h' (setErr p h v) = getStat p h' v := by
  rw [getStat, setErr, fieldGet_fieldPut_apart _ _ _ _
    (fieldsApart_toggle_clear hl (statField_mem _ h') (errField_mem _ h)), getStat]

/-- A register after a transaction whose data was accepted (48_peripheral.md R277, R281). -/
def dataAccepted (p : Params) (h : Half) (v : Word32) (dtog : Bool) : Word32 :=
  putDtog p h (setCtr p h (putStat p h v .disabled)) dtog

section
variable {p : Params} (hl : chepLayoutWf p.chep = true) (h : Half) (v : Word32) (dtog : Bool)
include hl

theorem getStat_dataAccepted : getStat p h (dataAccepted p h v dtog) = .disabled := by
  have hstat := getStat_putStat hl h v .disabled
  rwa [getStat, ← fieldGet_fieldPut_apart _ _ _ 1 (fieldsApart_toggle_clear hl (statField_mem _ h) (ctrField_mem _ h)),
    ← fieldGet_fieldPut_apart _ _ _ (bitWord dtog) (fieldsApart_stat_dtog hl h)] at hstat

theorem getCtr_dataAccepted : getCtr p h (dataAccepted p h v dtog) = true := by
  have hfit := chepLayoutWf_fits hl _ (List.mem_append_left _ (List.mem_append_right _ (ctrField_mem p.chep h)))
  have hw : 0 < (ctrField p.chep h).width := by cases h <;> exact Nat.one_pos
  have hapart := fieldsApart_symm (fieldsApart_toggle_clear hl (dtogField_mem _ h) (ctrField_mem _ h))
  have hlo : inField (ctrField p.chep h) (ctrField p.chep h).lo = true := inField_lo_add (i := 0) hw
  rw [getCtr, dataAccepted, putDtog, getLsbD_fieldPut_apart _ _ hapart hlo, setCtr, getLsbD_fieldPut_lo _ _ hw hfit]
  rfl

theorem dtog_dataAccepted : (dataAccepted p h v dtog).getLsbD (dtogField p.chep h).lo = dtog := by
  have hfit := chepLayoutWf_fits hl _ (List.mem_append_left _ (List.mem_append_left _ (dtogField_mem p.chep h)))
  have hw : 0 < (dtogField p.chep h).width := by cases h <;> exact Nat.one_pos
  rw [dataAccepted, putDtog, getLsbD_fieldPut_lo _ _ hw hfit]
  cases dtog <;> rfl

end

/-- Only the status, the complete flag and the toggle of the half change (48_peripheral.md R275). -/
theorem dataAccepted_frame (p : Params) (h : Half) (v : Word32) (dtog : Bool) :
    (dataAccepted p h v dtog ^^^ v) &&& ~~~ (fieldMask (statField p.chep h) ||| fieldMask (ctrField p.chep h) |||
      fieldMask (dtogField p.chep h)) = 0 := by
  apply BitVec.eq_of_getLsbD_eq
  intro i hi
  rw [BitVec.getLsbD_and, BitVec.getLsbD_xor, BitVec.getLsbD_not, BitVec.getLsbD_or, BitVec.getLsbD_or, getLsbD_fieldMask,
    getLsbD_fieldMask, getLsbD_fieldMask, decide_eq_true hi]
  by_cases hin : (inField (statField p.chep h) i || inField (ctrField p.chep h) i || inField (dtogField p.chep h) i) = true
  · simp [hin]
  · simp only [Bool.or_eq_true, not_or, Bool.not_eq_true] at hin
    obtain ⟨⟨hstat, hctr⟩, hdtog⟩ := hin
    rw [dataAccepted, putDtog, getLsbD_fieldPut_outside _ _ hdtog, setCtr, getLsbD_fieldPut_outside _ _ hctr, putStat,
      getLsbD_fieldPut_outside _ _ hstat, Bool.xor_self, Bool.false_and]
    exact BitVec.getLsbD_zero.symm

end Sys2Proof.Laws
end

section
/-! PROOFS. The bytes a step of the peripheral stores (20_memory.md R86, 48_peripheral.md R277, R280, R285), and the steps
without a received packet: a transmitted packet (R281), a transaction error and an overrun. -/

namespace Sys2Proof.Laws

open Sys2Proof.Machine

/-- All that storing byte by byte does: every byte, or those below `PMA_BYTES` and the fault of the first one that is not. -/
theorem envStore_eq (a : Nat) (bs : List Byte) (s : State) : envStore a bs s =
    if bs = [] ∨ a + bs.length ≤ s.params.pmaBytes then .ok () (pokePma s a bs)
    else raise .pmaBounds (pokePma s a (bs.take (s.params.pmaBytes - a))) := by
  induction bs generalizing a s with
  | nil => rfl
  | cons b rest ih =>
    have hjoin : ∀ cs, pokePma (pokePma s a [b]) (a + 1) cs = pokePma s a (b :: cs) := pokePma_pokePma s a [b]
    rw [envStore, List.length_cons]
    split
    · next hpast =>
      rw [if_neg (not_or.mpr ⟨List.cons_ne_nil b rest, by omega⟩), Nat.sub_eq_zero_of_le hpast, List.take_zero, pokePma_nil]
    · next hin =>
      have hleft : s.params.pmaBytes - a = s.params.pmaBytes - (a + 1) + 1 := by omega
      have hfits : rest = [] ∨ a + 1 + rest.length ≤ s.params.pmaBytes ↔
          b :: rest = [] ∨ a + (rest.length + 1) ≤ s.params.pmaBytes := by
        simp only [← List.length_eq_zero_iff, List.length_cons]
        omega
      rw [ih, hjoin, hjoin, pokePma_params, hleft, List.take_succ_cons]
      simp only [hfits]

theorem envStore_ok {a : Nat} {bs : List Byte} {s : State} (h : bs = [] ∨ a + bs.length ≤ s.params.pmaBytes) :
    envStore a bs s = .ok () (pokePma s a bs) := by
  rw [envStore_eq, if_pos h]

theorem envStore_pastEnd {a : Nat} {bs : List Byte} {s : State} (hne : bs ≠ []) (h : s.params.pmaBytes < a + bs.length) :
    envStore a bs s = raise .pmaBounds (pokePma s a (bs.take (s.params.pmaBytes - a))) := by
  rw [envStore_eq, if_neg (not_or.mpr ⟨hne, Nat.not_le.mpr h⟩)]

/-- Where the bytes were stored without a fault. -/
theorem envStore_eq_ok {a : Nat} {bs : List Byte} {s t : State} {u : Unit} (h : envStore a bs s = .ok u t) :
    t = pokePma s a bs := by
  rw [envStore_eq] at h
  split at h
  · exact (Run.ok.inj h).2.symm
  · cases h

/-- The content of the one register that was replaced. -/
theorem readChep_of_set {s t : State} {c : Chan} {v : Word32} (h : t.chep = s.chep.set c v) : readChep t c = v :=
  (readChep_congr h c).trans ((readChep_setChep s c v c).trans (if_pos rfl))

/-- The end of a transaction whose data was accepted (48_peripheral.md R277, R281): what it leaves, from the state in
which the bytes are moved. -/
def dataEnd (c : Chan) (h : Half) (dtog : Bool) (entry : LogEntry) (s : State) : State :=
  appendLog (hwSetChep c (fun v => putDtog s.params h v dtog) (endTransaction c h .disabled s)) entry

section
variable (c : Chan) (h : Half) (dtog : Bool) (entry : LogEntry) (s : State)

theorem dataEnd_eq : dataEnd c h dtog entry s =
    { s with chep := s.chep.set c (dataAccepted s.params h (readChep s c) dtog), log := s.log ++ [entry] } := by
  rw [dataEnd, hwSetChep, endTransaction, hwSetChep, readChep_setChep, if_pos rfl]
  simp only [appendLog, setChep, dataAccepted, Vector.set_set]

theorem readChep_dataEnd : readChep (dataEnd c h dtog entry s) c = dataAccepted s.params h (readChep s c) dtog := by
  rw [dataEnd_eq, readChep_of_set rfl]

end

/-! A transmitted packet. -/

section
variable {s : State} {c : Chan} {dtog : Bool} (hon : halfEnabled s c .tx = true)
include hon

theorem envStep_txData_ok (h : countTx s c = 0 ∨ addrTx s c + countTx s c ≤ s.params.pmaBytes) :
    envStep (.txData c dtog) s =
      .ok () (dataEnd c .tx dtog (.txData c (pmaBytesAt s (addrTx s c) (countTx s c))) s) := by
  rw [envStep_of_enabled (e := .txData c dtog) hon, envPerform, envTxData, envFetch, if_neg (by omega)]
  rfl

theorem envStep_txData_pastEnd (hpos : 0 < countTx s c) (hpast : s.params.pmaBytes < addrTx s c + countTx s c) :
    envStep (.txData c dtog) s = .halt (raiseFault .pmaBounds s) := by
  rw [envStep_of_enabled (e := .txData c dtog) hon, envPerform, envTxData, envFetch, if_pos ⟨hpos, hpast⟩]
  rfl

end

/-- Settles O49: the bytes are fetched as they stand, then the transaction ends. -/
theorem peripheralTransmits : Obligations.PeripheralTransmits := by
  intro s c dtog hp hcon hstat
  have hl := chepLayoutWf_of_paramsWf hp
  have hon : halfEnabled s c .tx = true := halfEnabled_iff.mpr ⟨hcon, hstat⟩
  refine ⟨fun hfits => ⟨_, envStep_txData_ok hon hfits, ?_⟩, fun hpos hpast => envStep_txData_pastEnd hon hpos hpast⟩
  rw [readChep_dataEnd]
  exact ⟨dataEnd_eq .., getStat_dataAccepted hl .tx _ _, getCtr_dataAccepted hl .tx _ _, dtog_dataAccepted hl .tx _ _,
    dataAccepted_frame _ _ _ _⟩

/-! A transaction error and an overrun. -/

/-- What a transaction error leaves: the flag, the latch, the channel and the drawn bytes (48_peripheral.md R280). -/
theorem envError_eq_ok {c : Chan} {h : Half} {bytes : List Byte} {s t : State} (he : envError c h bytes s = .ok () t) :
    t = { s with
      pma := (pokePma s (addrRx s c) bytes).pma, chep := s.chep.set c (setErr s.params h (readChep s c))
      istr := s.istr ||| bitAt s.params.istr.err, errChan := some c, log := s.log ++ [.error c h] } := by
  obtain ⟨_, s1, hstore, hend⟩ := Run.bind_eq_ok he
  rw [← (Run.ok.inj hend).2, envStore_eq_ok hstore]
  rfl

/-- What an overrun leaves (48_peripheral.md R285). -/
theorem envOverrun_eq_ok {c : Chan} {bytes : List Byte} {s t : State} (he : envOverrun c bytes s = .ok () t) :
    t = { s with
      pma := (pokePma s (addrRx s c) bytes).pma, istr := s.istr ||| bitAt s.params.istr.pmaovr, errChan := some c
      log := s.log ++ [.overrun c] } := by
  obtain ⟨_, s1, hstore, hend⟩ := Run.bind_eq_ok he
  rw [← (Run.ok.inj hend).2, envStore_eq_ok hstore]
  rfl

/-- Either half enabled is enough for an overrun (48_peripheral.md R285). -/
theorem halfEnabled_either {s : State} {c : Chan} {h : Half} (hon : halfEnabled s c h = true) :
    (halfEnabled s c .rx || halfEnabled s c .tx) = true := by
  cases h <;> simp [hon]

/-- Settles O51: an error sets one flag field, apart from the status fields, an overrun changes no register, and the drawn
bytes are one store. -/
theorem peripheralErrors : Obligations.PeripheralErrors := by
  refine fun s t c h bytes hl => ⟨fun hon hlen hstep => ?error, fun hon hlen hstep => ?overrun⟩
  case error =>
    have hen : envEnabled (.error c h bytes) s = true := by simp [envEnabled, scribbleOk, hon, hlen]
    rw [envStep_of_enabled hen] at hstep
    obtain rfl := envError_eq_ok hstep
    refine ⟨rfl, fun h' => ?_, fun a ha => pmaByte_pokePma_outside s _ bytes a ha⟩
    rw [readChep_of_set rfl, getStat_setErr hl h h']
  case overrun =>
    have hen : envEnabled (.overrun c bytes) s = true := by
      simp [envEnabled, scribbleOk, halfEnabled_either hon, hlen]
    rw [envStep_of_enabled hen] at hstep
    obtain rfl := envOverrun_eq_ok hstep
    exact ⟨rfl, fun a ha => pmaByte_pokePma_outside s _ bytes a ha⟩

end Sys2Proof.Laws
end

section
/-! PROOFS. A received packet (48_peripheral.md R277, R287, R289): the payload in its region, the count in the descriptor, and
the fault of a region that runs past the end (20_memory.md R86). -/

namespace Sys2Proof.Laws

open Sys2Proof.Machine

/-! The count of a receive half. -/

section
variable (c : Chan) (n : Nat) (s : State)

theorem pmaByte_setCountRx_outside {k : Nat} (h6 : k ≠ 8 * c.val + 6) (h7 : k ≠ 8 * c.val + 7) :
    pmaByte (setCountRx c n s) k = pmaByte s k :=
  pmaByte_pokePma_outside _ _ _ _ (by rw [leBytes_length]; omega)

theorem addrRx_setCountRx : addrRx (setCountRx c n s) c = addrRx s c := by
  rw [addrRx, setCountRx, pmaBytesAt_pokePma_outside _ _ _ _ _ (.inl (by omega)), addrRx]

/-- The count takes bits 9:0 and the code keeps the rest. -/
theorem codeRx_setCountRx {n : Nat} (hn : n ≤ 1023) :
    (codeRx (setCountRx c n s) c).toNat = (codeRx s c).toNat / 1024 * 1024 + n := by
  have hcode := (codeRx s c).isLt
  have hcount : countOf n = n := Nat.mod_eq_of_lt (Nat.lt_succ_of_le hn)
  have hbytes := pmaBytesAt_pokePma s (8 * c.val + 6) (leBytes 2 ((codeRx s c).toNat / 1024 * 1024 + n))
  rw [leBytes_length] at hbytes
  rw [codeRx, setCountRx, hcount, show 2 ^ rxCountBits = 1024 from rfl, hbytes, leNat_leBytes, BitVec.toNat_ofNat]
  omega

end

/-! The bytes of a packet. -/

/-- A store past the descriptor table, or of nothing, changes no descriptor (30_encoding.md R124). -/
theorem pmaBytesAt_pokePma_table (s : State) {a : Nat} {bs : List Byte} {b n : Nat} (h : bs = [] ∨ 64 ≤ a) (hb : b + n ≤ 64) :
    pmaBytesAt (pokePma s a bs) b n = pmaBytesAt s b n := by
  rcases h with rfl | h
  · rfl
  · exact pmaBytesAt_pokePma_outside _ _ _ _ _ (.inl (by omega))

/-- Packet memory once a packet is stored and counted. -/
def packetStored (c : Chan) (payload pad : List Byte) (s : State) : State :=
  setCountRx c payload.length (pokePma s (addrRx s c) (payload ++ pad))

section
variable {s : State} {c : Chan} {payload pad : List Byte}

theorem pmaByte_packetStored_payload (h : payload = [] ∨ 64 ≤ addrRx s c) {k : Nat} (hk : k < payload.length) :
    pmaByte (packetStored c payload pad s) (addrRx s c + k) = payload.getD k 0 := by
  have hpast : 64 ≤ addrRx s c := h.resolve_left (List.length_pos_iff.mp (Nat.zero_lt_of_lt hk))
  rw [packetStored, pmaByte_setCountRx_outside _ _ _ (by omega) (by omega),
    pmaByte_pokePma_inside _ _ _ _ (by rw [List.length_append]; omega), List.getElem_append_left hk,
    List.getD_eq_getElem _ _ hk]

theorem pmaByte_packetStored_outside {k : Nat}
    (h : k < addrRx s c ∨ addrRx s c + (payload.length + pad.length) ≤ k) (h6 : k ≠ 8 * c.val + 6) (h7 : k ≠ 8 * c.val + 7) :
    pmaByte (packetStored c payload pad s) k = pmaByte s k := by
  rw [packetStored, pmaByte_setCountRx_outside _ _ _ h6 h7, pmaByte_pokePma_outside _ _ _ _ (by rwa [List.length_append])]

variable (h : payload ++ pad = [] ∨ 64 ≤ addrRx s c)
include h

theorem codeRx_packetStored (hn : payload.length ≤ 1023) : (codeRx (packetStored c payload pad s) c).toNat =
    (codeRx s c).toNat / 1024 * 1024 + payload.length := by
  rw [packetStored, codeRx_setCountRx _ _ hn, codeRx, pmaBytesAt_pokePma_table s h (by omega), ← codeRx]

theorem addrRx_packetStored : addrRx (packetStored c payload pad s) c = addrRx s c := by
  rw [packetStored, addrRx_setCountRx, addrRx, pmaBytesAt_pokePma_table s h (by omega), ← addrRx]

end

/-! The step. -/

section
variable {s : State} {c : Chan} {payload pad : List Byte} {dtog : Bool}

theorem envEnabled_rxData (hon : halfEnabled s c .rx = true) (hdec : payload.length ≤ decCode (codeRx s c))
    (hmax : payload.length ≤ 1023)
    (hpad : payload.length + pad.length = roundup payload.length (granBytes s.params.gran)) :
    envEnabled (.rxData c payload pad dtog) s = true := by
  have hcount : payload.length ≤ min (decCode (codeRx s c)) (2 ^ rxCountBits - 1) := Nat.le_min.mpr ⟨hdec, hmax⟩
  simp only [envEnabled, hon, decide_eq_true hcount, decide_eq_true hpad, Bool.and_self]

theorem envRxData_ok (h : payload ++ pad = [] ∨ addrRx s c + (payload ++ pad).length ≤ s.params.pmaBytes) :
    envRxData c payload pad dtog s = .ok () (dataEnd c .rx dtog (.rxData c payload) (packetStored c payload pad s)) := by
  rw [envRxData, envStore_ok h]
  rfl

theorem envRxData_pastEnd (hne : payload ++ pad ≠ [])
    (h : s.params.pmaBytes < addrRx s c + (payload ++ pad).length) :
    envRxData c payload pad dtog s = .halt (raiseFault .pmaBounds
      (pokePma s (addrRx s c) ((payload ++ pad).take (s.params.pmaBytes - addrRx s c)))) := by
  rw [envRxData, envStore_pastEnd hne h]
  rfl

/-- An empty packet has no padding. -/
theorem append_pad_eq_nil_of_rounded {g : Nat} (hg : 0 < g) (hpad : payload.length + pad.length = roundup payload.length g)
    (h : payload = []) : payload ++ pad = [] := by
  subst h
  rw [List.length_nil, roundup_of_mod_eq_zero hg (Nat.zero_mod g), Nat.zero_add] at hpad
  exact List.length_eq_zero_iff.mp hpad

end

/-- Settles O48: the packet is stored and counted, then the transaction ends; a packet past the end stops at its first
byte there. -/
theorem peripheralReceives : Obligations.PeripheralReceives := by
  intro s c payload pad dtog hcon hstat hdec hmax hpad
  have hen := envEnabled_rxData (dtog := dtog) (halfEnabled_iff.mpr ⟨hcon, hstat⟩) hdec hmax hpad
  rw [envStep_of_enabled hen, envPerform]
  refine ⟨fun hp hregion => ?stored, fun hne hpast => ?fault⟩
  case stored =>
    have hl := chepLayoutWf_of_paramsWf hp
    have hempty := append_pad_eq_nil_of_rounded (granBytes_pos s.params.gran) hpad
    have hcode := codeRx_packetStored (hregion.imp hempty And.left) hmax
    refine ⟨_, envRxData_ok (hregion.imp hempty fun hr => by rw [List.length_append]; omega), ?_⟩
    rw [readChep_dataEnd]
    refine ⟨fun k hk => pmaByte_packetStored_payload (hregion.imp id And.left) hk,
      fun a ha h6 h7 => pmaByte_packetStored_outside (by rwa [hpad]) h6 h7, ?_, ?_,
      addrRx_packetStored (hregion.imp hempty And.left), getStat_dataAccepted hl .rx _ _, getCtr_dataAccepted hl .rx _ _,
      dtog_dataAccepted hl .rx _ _, dataEnd_eq .., dataAccepted_frame _ _ _ _⟩
    · exact (congrArg (· % 1024) hcode).trans (by omega)
    · exact (congrArg (· / 1024) hcode).trans (by omega)
  case fault =>
    exact envRxData_pastEnd (List.append_ne_nil_of_left_ne_nil hne _) (by rw [List.length_append]; omega)

end Sys2Proof.Laws
end

section
/-! PROOFS. The interrupt line and the channel `IDN` names (60_exceptions.md R315, 10_state.md R46, R48). -/

namespace Sys2Proof.Laws

open Sys2Proof.Machine

theorem mem_completeChans {s : State} {c : Chan} : c ∈ completeChans s ↔ chanComplete s c = true := by
  simp [completeChans]

/-- Whatever the number drawn, a member of the list. -/
theorem drawFrom_mem (x : Chan) (xs : List Chan) (draw : Nat) : drawFrom x xs draw ∈ x :: xs := by
  cases xs with
  | nil => exact List.mem_singleton_self x
  | cons y ys =>
    have hlt : draw % (ys.length + 2) < (x :: y :: ys).length := Nat.mod_lt _ (Nat.succ_pos _)
    rw [drawFrom, List.getD_eq_getElem _ _ hlt]
    exact List.getElem_mem hlt

/-- While a channel has a complete flag, `IDN` is drawn from the channels that have one (10_state.md R46). -/
theorem istrIdn_mem {s : State} (h : completeChans s ≠ []) : istrIdn s ∈ completeChans s := by
  rw [istrIdn]
  cases hchans : completeChans s with
  | nil => exact absurd hchans h
  | cons x xs => exact drawFrom_mem x xs _

/-- `IDN` names a channel with a complete flag when `CTR` is read as 1 (45_dispatcher.md R213). -/
theorem chanComplete_idn {s : State} (h : (istrFields s).ctr = true) : chanComplete s (istrFields s).idn = true := by
  obtain ⟨c, hc⟩ := (istrFields_ctr_iff s).mp h
  exact mem_completeChans.mp (istrIdn_mem (List.ne_nil_of_mem (mem_completeChans.mpr hc)))

/-- The conditions that make the line pending (60_exceptions.md R315). -/
theorem linePending_iff (s : State) : linePending s = true ↔
    (∃ c h, getCtr s.params h (readChep s c) = true) ∨ s.istr.getLsbD s.params.istr.dcon = true ∨
    s.istr.getLsbD s.params.istr.err = true ∨ s.istr.getLsbD s.params.istr.pmaovr = true := by
  have hctr : (istrFields s).ctr = true ↔ ∃ c h, getCtr s.params h (readChep s c) = true :=
    (istrFields_ctr_iff s).trans (exists_congr fun c => chanComplete_iff s c)
  simp only [linePending, Bool.or_eq_true, hctr, or_assoc]
  rfl

/-- Settles O31: the line is the four fields of a read, and the draw is from the channels with a complete flag. -/
theorem interruptLine : Obligations.InterruptLine :=
  ⟨linePending_iff, fun _ h => Bool.or_eq_true_iff.mp (chanComplete_idn h)⟩

end Sys2Proof.Laws
end

section
/-! PROOFS. A tick of the clock (60_exceptions.md R326, R327). -/

namespace Sys2Proof.Laws

open Sys2Proof.Machine

/-- A timeout that passes with the tick at `now`: over after it, and not before (46_engine.md R239). -/
theorem expired_first_iff (timeout start : Option Nat) (now : Nat) :
    expired timeout start (now + 1) = true ∧ expired timeout start now = false ↔
      ∃ T st, timeout = some T ∧ start = some st ∧ now - st ≤ T ∧ T < now + 1 - st := by
  cases timeout <;> cases start <;> simp [expired, and_comm]

theorem timerWake_woken_iff (now : Nat) (r : TaskRec) : (timerWake now r).woken = true ↔
    r.woken = true ∨ opExpired r.op (now + 1) = true ∧ opExpired r.op now = false := by
  rw [timerWake]
  cases opExpired r.op (now + 1) <;> cases opExpired r.op now <;> simp

/-- Only a read or a write has a timeout that can pass (60_exceptions.md R327). -/
theorem opExpired_first_iff (op : Option Op) (now : Nat) : opExpired op (now + 1) = true ∧ opExpired op now = false ↔
    (∃ r T st, op = some (.read r) ∧ r.timeout = some T ∧ r.start = some st ∧ now - st ≤ T ∧ T < now + 1 - st) ∨
    (∃ w T st, op = some (.write w) ∧ w.timeout = some T ∧ w.start = some st ∧ now - st ≤ T ∧ T < now + 1 - st) := by
  rcases op with _ | r | w | b
  case none => simp [opExpired]
  case some.read => simp [opExpired, expired_first_iff]
  case some.write => simp [opExpired, expired_first_iff]
  case some.busWait => simp [opExpired]

/-- Settles O53: the timer goes through the tasks one by one. -/
theorem clockTick : Obligations.ClockTick := by
  refine fun s => ⟨_, rfl, rfl, fun u => ?_⟩
  rw [taskRec_tick, timerWake_op, timerWake_woken_iff, opExpired_first_iff]
  exact ⟨rfl, Iff.rfl⟩

end Sys2Proof.Laws
end

section
/-! PROOFS. The race of a status write (70_reset_and_hazards.md R351): the status it leaves, from three statuses, and what a step
of the environment changes a status from and to (48_peripheral.md R276–R285). -/

namespace Sys2Proof.Laws

open Sys2Proof.Machine

/-- The status of the write's XOR of codes (44_channel_register.md R192). -/
theorem getStat_setstatWord {p : Params} (hl : chepLayoutWf p.chep = true) (h : Half) (old cur : Word32) (target : Status) :
    getStat p h (hwWriteChep p old (setstatWord p h cur target)) =
      statusOf (statusCode (getStat p h old) ^^^ statusCode (getStat p h cur) ^^^ statusCode target) := by
  rw [← statusCode_getStat_setstatWord hl, statusOf_statusCode]

/-! The statuses in a register value: a field put elsewhere leaves them, a status put leaves the other half's. -/

section
variable {p : Params} (hl : chepLayoutWf p.chep = true)

theorem getStat_fieldPut_apart {h : Half} {f : Field} (v x : Word32) (hf : fieldsApart (statField p.chep h) f = true) :
    getStat p h (fieldPut f v x) = getStat p h v := by
  rw [getStat, fieldGet_fieldPut_apart _ _ _ _ hf, getStat]

include hl

/-- The status fields share no bit with each other or with a toggle (30_encoding.md R116). -/
theorem statField_apart (h h' : Half) : (h ≠ h' → fieldsApart (statField p.chep h) (statField p.chep h') = true) ∧
    fieldsApart (statField p.chep h) (dtogField p.chep h') = true := by
  have hpair := (List.pairwise_append.mp (List.pairwise_append.mp (chepLayoutWf_pairwise hl)).1).1
  simp only [toggleFields, List.pairwise_cons, List.mem_cons, List.not_mem_nil, or_false, forall_eq_or_imp, forall_eq] at hpair
  obtain ⟨⟨-, hts, htd⟩, ⟨hds, -⟩, -⟩ := hpair
  cases h <;> cases h'
  case rx.rx => exact ⟨fun hne => absurd rfl hne, fieldsApart_stat_dtog hl .rx⟩
  case rx.tx => exact ⟨fun _ => fieldsApart_symm hts, fieldsApart_symm hds⟩
  case tx.rx => exact ⟨fun _ => hts, htd⟩
  case tx.tx => exact ⟨fun hne => absurd rfl hne, fieldsApart_stat_dtog hl .tx⟩

theorem getStat_putStat_any (h : Half) (v : Word32) (st : Status) (h' : Half) :
    getStat p h' (putStat p h v st) = if h' = h then st else getStat p h' v := by
  split
  · next heq => rw [heq, getStat_putStat hl]
  · next hne => exact getStat_fieldPut_apart _ _ ((statField_apart hl h' h).1 hne)

theorem getStat_setCtr (h : Half) (v : Word32) (h' : Half) : getStat p h' (setCtr p h v) = getStat p h' v :=
  getStat_fieldPut_apart _ _ (fieldsApart_toggle_clear hl (statField_mem _ h') (ctrField_mem _ h))

theorem getStat_raiseCtrIf (h : Half) (raise : Bool) (v : Word32) (h' : Half) :
    getStat p h' (raiseCtrIf p h raise v) = getStat p h' v := by
  cases raise
  · rfl
  · exact getStat_setCtr hl h v h'

theorem getStat_dataAccepted_any (h : Half) (v : Word32) (dtog : Bool) (h' : Half) :
    getStat p h' (dataAccepted p h v dtog) = if h' = h then .disabled else getStat p h' v := by
  rw [dataAccepted, putDtog, getStat_fieldPut_apart _ _ (statField_apart hl h' h).2, getStat_setCtr hl,
    getStat_putStat_any hl]

end

/-! The statuses after a step of the environment. -/

/-- No half's status changed. -/
def SameStatuses (s t : State) : Prop := ∀ c h, getStat s.params h (readChep t c) = getStat s.params h (readChep s c)

/-- One half's status became `st`, and no other changed. -/
def StatusBecame (s t : State) (c : Chan) (h : Half) (st : Status) : Prop := ∀ c' h',
  getStat s.params h' (readChep t c') = if c' = c ∧ h' = h then st else getStat s.params h' (readChep s c')

theorem readChep_of_chep_set {s t : State} {c : Chan} {w : Word32} (hchep : t.chep = s.chep.set c w) (c' : Chan) :
    readChep t c' = if c' = c then w else readChep s c' :=
  (readChep_congr hchep c').trans (readChep_setChep s c w c')

theorem SameStatuses.of_chep {s t : State} (hchep : t.chep = s.chep) : SameStatuses s t := fun c h => by
  rw [readChep_congr hchep c]

theorem SameStatuses.of_set {s t : State} {c : Chan} {w : Word32} (hchep : t.chep = s.chep.set c w)
    (hw : ∀ h, getStat s.params h w = getStat s.params h (readChep s c)) : SameStatuses s t := fun c' h => by
  rw [readChep_of_chep_set hchep]
  split
  · next heq => rw [hw, heq]
  · rfl

theorem StatusBecame.of_set {s t : State} {c : Chan} {h : Half} {st : Status} {w : Word32}
    (hchep : t.chep = s.chep.set c w)
    (hw : ∀ h', getStat s.params h' w = if h' = h then st else getStat s.params h' (readChep s c)) :
    StatusBecame s t c h st := fun c' h' => by
  rw [readChep_of_chep_set hchep]
  by_cases hc : c' = c
  · subst hc
    simp only [if_pos, hw, true_and]
  · rw [if_neg hc, if_neg fun hboth => hc hboth.1]

section
variable {s t : State} {c : Chan}

/-- Where data was received, the transaction ended from the state in which the packet is stored (48_peripheral.md R277). -/
theorem envRxData_eq_ok {payload pad : List Byte} {dtog : Bool} (he : envRxData c payload pad dtog s = .ok () t) :
    t = dataEnd c .rx dtog (.rxData c payload) (packetStored c payload pad s) := by
  obtain ⟨_, s1, hstore, hend⟩ := Run.bind_eq_ok he
  rw [← (Run.ok.inj hend).2, envStore_eq_ok hstore]
  rfl

/-- Where data was transmitted, nothing but the transaction's end happened to the state (48_peripheral.md R281). -/
theorem envTxData_eq_ok {dtog : Bool} (he : envTxData c dtog s = .ok () t) :
    ∃ b, t = dataEnd c .tx dtog (.txData c b) s := by
  obtain ⟨b, s1, hfetch, hend⟩ := Run.bind_eq_ok he
  rw [envFetch] at hfetch
  split at hfetch
  · cases hfetch
  · obtain ⟨-, rfl⟩ := Run.ok.inj hfetch
    exact ⟨b, (Run.ok.inj hend).2.symm⟩

variable (hl : chepLayoutWf s.params.chep = true)
include hl

theorem statusBecame_dataEnd {h : Half} {dtog : Bool} {entry : LogEntry} {m : State} (hp : m.params = s.params)
    (hc : m.chep = s.chep) : StatusBecame s (dataEnd c h dtog entry m) c h .disabled := by
  refine StatusBecame.of_set (w := dataAccepted s.params h (readChep s c) dtog) ?_
    (getStat_dataAccepted_any hl h (readChep s c) dtog)
  rw [dataEnd_eq, hp, hc, readChep_congr hc]

theorem statusBecame_envNak {h : Half} {raise : Bool} {entry : LogEntry} (he : envNak c h raise entry s = .ok () t) :
    StatusBecame s t c h .nak := by
  obtain ⟨-, rfl⟩ := Run.ok.inj he
  exact StatusBecame.of_set rfl fun h' => by rw [getStat_raiseCtrIf hl, getStat_putStat_any hl]

theorem statusBecame_envStall {h : Half} {entry : LogEntry} (he : envStall c h entry s = .ok () t) :
    StatusBecame s t c h .stall := by
  obtain ⟨-, rfl⟩ := Run.ok.inj he
  exact StatusBecame.of_set rfl fun h' => by rw [getStat_setCtr hl, getStat_putStat_any hl]

/-- All that a step of the environment does to statuses: a transaction on an enabled half ends in a status other than
`Valid`, and the other steps leave every status (48_peripheral.md R276–R285). -/
theorem statuses_envPerform {e : EnvStep} (hen : envEnabled e s = true) (he : envPerform e s = .ok () t) :
    SameStatuses s t ∨ ∃ c h st, halfEnabled s c h = true ∧ st ≠ .valid ∧ StatusBecame s t c h st := by
  cases e with
  | rxData c payload pad dtog =>
    simp only [envEnabled, Bool.and_eq_true] at hen
    obtain rfl := envRxData_eq_ok he
    exact .inr ⟨c, .rx, .disabled, hen.1.1, by decide, statusBecame_dataEnd hl rfl rfl⟩
  | txData c dtog =>
    obtain ⟨b, rfl⟩ := envTxData_eq_ok he
    exact .inr ⟨c, .tx, .disabled, hen, by decide, statusBecame_dataEnd hl rfl rfl⟩
  | rxNak c raise => exact .inr ⟨c, .rx, .nak, hen, by decide, statusBecame_envNak hl he⟩
  | txNak c raise => exact .inr ⟨c, .tx, .nak, hen, by decide, statusBecame_envNak hl he⟩
  | rxStall c => exact .inr ⟨c, .rx, .stall, hen, by decide, statusBecame_envStall hl he⟩
  | txStall c => exact .inr ⟨c, .tx, .stall, hen, by decide, statusBecame_envStall hl he⟩
  | error c h bytes =>
    obtain rfl := envError_eq_ok he
    exact .inl (.of_set rfl fun h' => getStat_setErr hl h h' _)
  | overrun c bytes =>
    obtain rfl := envOverrun_eq_ok he
    exact .inl (.of_chep rfl)
  | connectChange =>
    obtain ⟨-, rfl⟩ := Run.ok.inj he
    exact .inl (.of_chep rfl)
  | tick =>
    obtain ⟨-, rfl⟩ := Run.ok.inj he
    exact .inl (.of_chep rfl)

/-- The same of a step whether or not it is enabled. -/
theorem statuses_envStep {e : EnvStep} (he : envStep e s = .ok () t) :
    SameStatuses s t ∨ ∃ c h st, halfEnabled s c h = true ∧ st ≠ .valid ∧ StatusBecame s t c h st := by
  cases hen : envEnabled e s
  · rw [envStep_of_disabled hen] at he
    obtain ⟨-, rfl⟩ := Run.ok.inj he
    exact .inl (.of_chep rfl)
  · exact statuses_envPerform hl hen ((envStep_of_enabled hen).symm.trans he)

end

/-- Settles O24: the write leaves the XOR of three codes, and a status that changed is the one a transaction ended with. -/
theorem setStatusRace : Obligations.SetStatusRace := by
  refine ⟨fun p h old cur target hl _ => ⟨getStat_setstatWord hl h old cur target, fun row hrow hcur hold htarget => ?race⟩,
    fun s t e c h hl he hne => ?env⟩
  case race =>
    rw [getStat_setstatWord hl, hold, hcur, htarget]
    clear hcur hold htarget
    revert row
    decide
  case env =>
    rcases statuses_envStep hl he with hsame | ⟨c', h', st, hon, hst, hbecame⟩
    · exact absurd (hsame c h) hne
    · have hstat := hbecame c h
      split at hstat
      · next hhalf =>
        obtain ⟨rfl, rfl⟩ := hhalf
        exact ⟨(halfEnabled_iff.mp hon).2, hstat ▸ hst⟩
      · exact absurd hstat hne

end Sys2Proof.Laws
end

section
/-! PROOFS. The state after reset (70_reset_and_hazards.md R340–R344): what it holds, and that every invariant begins there. -/

namespace Sys2Proof.Laws

open Sys2Proof.Machine

section
variable (p : Params) (connected : Bool)

@[simp] theorem readChep_resetWith (c : Chan) : readChep (State.resetWith p connected) c = 0 :=
  Vector.getElem_replicate c.isLt

@[simp] theorem handleAt_resetWith (c : Chan) (d : Dir) : handleAt (State.resetWith p connected) c d = none := by
  cases d <;> exact Vector.getElem_replicate c.isLt

@[simp] theorem slotOf_resetWith (sl : Slot) : slotOf (State.resetWith p connected) sl = none := by
  rcases sl with ⟨c, d⟩ | _
  case chan => cases d <;> exact Vector.getElem_replicate c.isLt
  case bus => rfl

@[simp] theorem taskRec_resetWith (t : Nat) : taskRec (State.resetWith p connected) t = idleTask := rfl

@[simp] theorem partsOf_resetWith (t : Nat) : partsOf (State.resetWith p connected) t = [] := rfl

/-- No flag and no latch is set (70_reset_and_hazards.md R340). -/
theorem linePending_resetWith : linePending (State.resetWith p connected) = false := by
  have hzero : ∀ i, (0 : Word32).getLsbD i = false := fun _ => BitVec.getLsbD_zero
  refine Bool.eq_false_iff.mpr fun h => ?_
  rcases (linePending_iff _).mp h with ⟨c, hf, hctr⟩ | hlatch | hlatch | hlatch
  · rw [readChep_resetWith, getCtr, hzero] at hctr
    cases hctr
  all_goals exact Bool.false_ne_true ((hzero _).symm.trans hlatch)

end

/-- Settles O54: every table is empty and every register 0. -/
theorem resetState : Obligations.ResetState :=
  ⟨⟨referenceParams, false, rfl⟩, fun p connected => ⟨readChep_resetWith p connected, rfl, linePending_resetWith p connected,
    rfl, rfl, rfl, rfl, rfl, handleAt_resetWith p connected, slotOf_resetWith p connected, fun _ => ⟨rfl, rfl, rfl⟩,
    rfl, rfl, rfl⟩⟩

/-! The invariants. -/

section
variable {p : Params} (hp : paramsWf p = true) (connected : Bool)

/-- No handle is live and no claim is in progress. -/
theorem not_ownsRegion_resetWith (c : Chan) (d : Dir) (r : Region) :
    ¬ ownsRegion (partsOf (State.resetWith p connected)) (State.resetWith p connected) c d r := by
  simp [ownsRegion, liveHandle]

theorem engineSafe_resetWith : engineSafe (State.resetWith p connected) := fun _ => {
  named := by simp
  records := by simp [idleTask]
  polled := by simp [polling]
  exclusive := by simp [idleTask]
  wakes := by simp [idleTask] }

theorem istrOthersZero_resetWith : istrOthersZero (State.resetWith p connected) := BitVec.zero_and

theorem readsAgree_resetWith : readsAgree (State.resetWith p connected) := by
  simp [readsAgree]

include hp

theorem canonical_resetWith : Canonical (State.resetWith p connected) where
  params := hp
  pma := pmaWf_reset p connected
  tasks := rfl
  progress := rfl

/-- The bump pointer stands at the end of the descriptor table, which is aligned and inside packet memory. -/
theorem allocatorInv_resetWith : AllocatorInv (State.resetWith p connected) where
  params := hp
  low := Nat.le_refl _
  high := (pmaBytes_of_paramsWf hp).1
  aligned := sixtyFour_gran p.gran
  named := by simp
  marked := fun c d r h => absurd h (not_ownsRegion_resetWith connected c d r)
  inside := fun c d r h => absurd h (not_ownsRegion_resetWith connected c d r)
  apart := fun c d r _ _ _ h => absurd h (not_ownsRegion_resetWith connected c d r)

/-- Every invariant holds after reset, at each admitted choice of the parameters. -/
theorem invariants_resetWith : Canonical (State.resetWith p connected) ∧ AllocatorInv (State.resetWith p connected) ∧
    engineSafe (State.resetWith p connected) ∧ istrOthersZero (State.resetWith p connected) ∧
    readsAgree (State.resetWith p connected) :=
  ⟨canonical_resetWith hp connected, allocatorInv_resetWith hp connected, engineSafe_resetWith connected,
    istrOthersZero_resetWith connected, readsAgree_resetWith connected⟩

end

/-- Settles O55: `State.reset` is the reset state of the reference configuration, which is admitted. -/
theorem resetKeepsInvariants : Obligations.ResetKeepsInvariants :=
  have hreference : paramsWf referenceParams = true := by decide
  ⟨invariants_resetWith hreference false, fun _ connected hp => invariants_resetWith hp connected⟩

end Sys2Proof.Laws
end

section
/-! PROOFS. Words of the test vectors (95_test_vectors.md section 2.1). -/

namespace Sys2Proof.Laws

open Sys2Proof.Machine

/-- The word the encoder gives decodes to the instruction (30_encoding.md R111). -/
theorem decode_of_encode_eq {i : Instr} {w : Word64} (hwf : i.wf = true) (h : encode i = w) : decode w = .ok i :=
  h ▸ decode_encode hwf

/-- Settles O4: each word is what the encoder makes of the instruction beside it. -/
theorem sampleWordsDecode : Obligations.SampleWordsDecode :=
  ⟨decode_of_encode_eq rfl rfl, decode_of_encode_eq rfl rfl, decode_of_encode_eq rfl rfl, decode_of_encode_eq rfl rfl,
    decode_of_encode_eq rfl rfl, decode_of_encode_eq rfl rfl, decode_of_encode_eq rfl rfl⟩

end Sys2Proof.Laws
end
